-- ==== Sys2Proof/Word.lean ====
section
/-! DEFINITION. The word types of the RC-640's requests and records: bytes, texts, tags. -/

namespace Sys2Proof

/-- One byte of a frame, of the serial memory or of a text. -/
abbrev Byte := BitVec 8

/-- A text of characters, one byte per character as the request carried it (R157, R168). -/
abbrev Text := List Byte

/-- A 16-bit label or number: a request tag (R160), an order tag (R44), a capture number (R115), a report number (R152). -/
abbrev Half := BitVec 16

/-- A 32-bit number: an amount, a statistic (R143), a coordinate as it is sent (R168). -/
abbrev Full := BitVec 32

end Sys2Proof
end

