-- ==== Sys2Proof/Config.lean ====
section
/-! DEFINITION. What an implementation fixes and the manual does not give. The one free value, the bytes of a response body
without a given layout, is `Machine.Config.bodyBytes`, beside the type of bodies. What the outside decides (a count, an
image left by a failed save) is an operand of the command that brings it. -/

namespace Sys2Proof

/-- What a byte of the serial settings memory that nothing has written reads as.
DESIGN CHOICE (log 6, unsafe): the manual does not give the contents of a memory that was never saved to; 255 is an
erased byte. -/
def Config.erasedByte : Byte := 255#8

end Sys2Proof
end

