-- ==== Sys2Proof/Syntax.lean ====
section
/-! DEFINITION. The commands of the RC-640: one constructor of `Instr` per row of spec/opcode_table.json, with the row's
operands. A take row carries the port that takes the request, the request's tag and the request's fields as R168 sends
them: a number in its bytes, a choice as its byte, a text as its characters. A field may therefore lie outside its range
or name no value, and the owning rule's own check refuses it. -/

namespace Sys2Proof

/-- The three agent ports TP, IP and AP (R158). -/
inductive PortId where
  | tool
  | image
  | automation
  deriving DecidableEq, Repr

/-- The six movers of the motion link, in the order of R44's table. -/
inductive Mover where
  | ar
  | vr
  | al
  | la
  | lb
  | st
  deriving DecidableEq, Repr

/-- One entry of SLOT_MAP (R3): its slot state as a choice byte, and the optional expected wafer ID. -/
structure SlotField where
  state    : Byte
  expected : Option Text
  deriving DecidableEq, Repr

/-- One site of SITE_LOAD, its fields in the order and widths of R25 and R168 (die row, die column, x and y in two's
complement). -/
structure SiteField where
  number    : Half
  row       : Byte
  col       : Byte
  x         : Full
  y         : Full
  inspClass : Byte
  size      : Half
  priority  : Byte
  deriving DecidableEq, Repr

/-- One excursion entry of RECIPE_SET: class, limit, action byte. -/
structure ExcursionField where
  cls    : Byte
  limit  : Half
  action : Byte
  deriving DecidableEq, Repr

/-- The fields RECIPE_SET may carry, in the order of the recipe table, each present or left out (R21). -/
structure RecipeFields where
  resolution   : Option Byte
  sweepSteps   : Option Byte
  stepSize     : Option Byte
  quality      : Option Byte
  mapRadius    : Option Half
  mapLifetime  : Option Byte
  focusHold    : Option Half
  attemptLimit : Option Byte
  classWait    : Option Half
  readId       : Option Byte
  excursions   : Option (List ExcursionField)
  samplingFloor : Option Byte
  deriving DecidableEq, Repr

/-- What LOT_QUERY names (R20). -/
inductive LotSelector where
  | lot (id : Text)
  | port (n : Byte)
  deriving DecidableEq, Repr

/-- What SITE_QUERY names (R39): nothing, or a lot ID and a slot with a start position. -/
inductive SiteSelector where
  | pool
  | list (id : Text) (slot : Byte) (start : Half)
  deriving DecidableEq, Repr

/-- What REPORT_FETCH carries (R154). -/
inductive ReportSelector where
  | number (n : Half)
  | oldest
  deriving DecidableEq, Repr

/-- What ERROR_READ names (R176). -/
inductive ErrorSelector where
  | all
  | cls (c : Byte)
  | kinds (names : List Byte)
  deriving DecidableEq, Repr

/-- One reporting change of ERROR_CLEAR (R177): a kind's byte and on or off as a byte. -/
structure ReportingField where
  kind  : Byte
  value : Byte
  deriving DecidableEq, Repr

/-- What the I2C bus gave at the end of the power-on read (R178). -/
inductive BusRead where
  | noResponse
  | answered
  deriving DecidableEq, Repr

/-- What ended a settings save (R181), with the 56 bytes of the image area that it leaves in the memory: the image read
back after its last byte was written, or the memory no longer answering. -/
inductive SaveBus where
  | readBack (bytes : List Byte)
  | noResponse (left : List Byte)
  deriving DecidableEq, Repr

/-- The kinds of request of R168, in code order. -/
inductive Kind where
  | carrierDocked | slotMap | carrierRelease | carrierUndocked
  | lotDefine | lotStart | lotHold | lotRelease | lotAbort | lotQuery
  | recipeSet | recipeQuery
  | siteLoad | siteSeal | siteQuery
  | moverRecover | cellQuery
  | captureFetch | captureDone | captureStatus | classPost | bufferGrant
  | reportFetch | reportAck
  | statsRead | statsTake
  | noticeRead | noticeMaskSet | noticeMaskClear | errorRead | errorClear
  | modeSet | settingSet | settingRead | settingsSave | toolClear
  deriving DecidableEq, Repr

/-- A request as its fields (R168): one constructor per kind code. -/
inductive Request where
  | carrierDocked (port : Byte) (id : Text)
  | slotMap (port : Byte) (entries : List SlotField)
  | carrierRelease (port : Byte)
  | carrierUndocked (port : Byte)
  | lotDefine (id : Text) (port recipe priority : Byte) (selection : List Byte)
  | lotStart (id : Text)
  | lotHold (id : Text) (scope : Byte)
  | lotRelease (id : Text) (choice : Byte)
  | lotAbort (id : Text)
  | lotQuery (sel : LotSelector)
  | recipeSet (slot : Byte) (fields : RecipeFields)
  | recipeQuery (slot : Byte)
  | siteLoad (id : Text) (slot : Byte) (sites : List SiteField)
  | siteSeal (id : Text) (slot : Byte)
  | siteQuery (sel : SiteSelector)
  | moverRecover (mover disposition : Byte)
  | cellQuery
  | captureFetch
  | captureDone (number : Half) (result : Byte)
  | captureStatus
  | classPost (number : Half) (cls confidence : Byte)
  | bufferGrant (n : Byte)
  | reportFetch (sel : ReportSelector)
  | reportAck (number : Half)
  | statsRead
  | statsTake (statistic : Byte) (amount : Full)
  | noticeRead
  | noticeMaskSet (conds : List Byte)
  | noticeMaskClear (conds : List Byte)
  | errorRead (sel : ErrorSelector)
  | errorClear (names : List Byte) (changes : Option (List ReportingField))
  | modeSet (mode : Byte)
  | settingSet (name : Byte) (value : Full)
  | settingRead
  | settingsSave
  | toolClear
  deriving DecidableEq, Repr

/-- The commands of the block: the rows of spec/opcode_table.json. In a take row `p` is the port that takes the request
and `tag` the request's tag. -/
inductive Instr where
  | powerOn
  | settingsLoadEnd (bus : BusRead)
  | linkUp (p : PortId)
  | portReset (p : PortId)
  | requestArrival (p : PortId) (bytes : List Byte)
  | responseSent (p : PortId)
  | unknownKind (p : PortId) (tag : Half) (code : Byte) (body : List Byte)
  | carrierDocked (p : PortId) (tag : Half) (port : Byte) (id : Text)
  | slotMap (p : PortId) (tag : Half) (port : Byte) (entries : List SlotField)
  | carrierRelease (p : PortId) (tag : Half) (port : Byte)
  | carrierUndocked (p : PortId) (tag : Half) (port : Byte)
  | lotDefine (p : PortId) (tag : Half) (id : Text) (port recipe priority : Byte) (selection : List Byte)
  | lotStart (p : PortId) (tag : Half) (id : Text)
  | lotHold (p : PortId) (tag : Half) (id : Text) (scope : Byte)
  | lotRelease (p : PortId) (tag : Half) (id : Text) (choice : Byte)
  | lotAbort (p : PortId) (tag : Half) (id : Text)
  | lotQuery (p : PortId) (tag : Half) (sel : LotSelector)
  | recipeSet (p : PortId) (tag : Half) (slot : Byte) (fields : RecipeFields)
  | recipeQuery (p : PortId) (tag : Half) (slot : Byte)
  | siteLoad (p : PortId) (tag : Half) (id : Text) (slot : Byte) (sites : List SiteField)
  | siteSeal (p : PortId) (tag : Half) (id : Text) (slot : Byte)
  | siteQuery (p : PortId) (tag : Half) (sel : SiteSelector)
  | moverRecover (p : PortId) (tag : Half) (mover disposition : Byte)
  | cellQuery (p : PortId) (tag : Half)
  | captureFetch (p : PortId) (tag : Half)
  | captureDone (p : PortId) (tag : Half) (number : Half) (result : Byte)
  | captureStatus (p : PortId) (tag : Half)
  | classPost (p : PortId) (tag : Half) (number : Half) (cls confidence : Byte)
  | bufferGrant (p : PortId) (tag : Half) (n : Byte)
  | reportFetch (p : PortId) (tag : Half) (sel : ReportSelector)
  | reportAck (p : PortId) (tag : Half) (number : Half)
  | statsRead (p : PortId) (tag : Half)
  | statsTake (p : PortId) (tag : Half) (statistic : Byte) (amount : Full)
  | noticeRead (p : PortId) (tag : Half)
  | noticeMaskSet (p : PortId) (tag : Half) (conds : List Byte)
  | noticeMaskClear (p : PortId) (tag : Half) (conds : List Byte)
  | errorRead (p : PortId) (tag : Half) (sel : ErrorSelector)
  | errorClear (p : PortId) (tag : Half) (names : List Byte) (changes : Option (List ReportingField))
  | modeSet (p : PortId) (tag : Half) (mode : Byte)
  | settingSet (p : PortId) (tag : Half) (name : Byte) (value : Full)
  | settingRead (p : PortId) (tag : Half)
  | settingsSave (p : PortId) (tag : Half)
  | saveEnd (bus : SaveBus)
  | toolClear (p : PortId) (tag : Half)
  | complete (m : Mover) (orderTag : Half) (waferId : Option Text)
  | fault (m : Mover) (orderTag : Half) (code : Byte)
  | orderTimeout (m : Mover)
  | stageDisturb
  | settlingEnd
  | zeroEnd
  | integrateEnd
  | conversionEnd (count : Nat)
  | mapPointExpiry (index : Nat)
  | focusHoldExpiry
  | captureDoneTimeout (number : Half)
  | classWaitExpiry (number : Half)
  | overlongLengthField (p : PortId) (length : Half)
  deriving DecidableEq, Repr

end Sys2Proof
end

