-- ==== Sys2Proof/Decode.lean ====
section
/-! DEFINITION. The wire forms of R160 and R168: the frame, its CRC, the kind codes and the body of every request, read
and written; and `decodeTableWord`, which answers none because no row of spec/opcode_table.json has bits. -/

namespace Sys2Proof

/-! ### Numbers, least significant byte first (R160, R168) -/

def encodeHalf (v : Half) : List Byte := [v.extractLsb' 0 8, v.extractLsb' 8 8]

def encodeFull (v : Full) : List Byte :=
  [v.extractLsb' 0 8, v.extractLsb' 8 8, v.extractLsb' 16 8, v.extractLsb' 24 8]

def joinHalf (b0 b1 : Byte) : Half := b1 ++ b0

def joinFull (b0 b1 b2 b3 : Byte) : Full := b3 ++ b2 ++ b1 ++ b0

/-! ### The frame CRC (R160) -/

/-- One bit step of the CRC register with generator x^16 + x^12 + x^5 + 1, most significant bit first. -/
def crcShift (r : BitVec 16) : BitVec 16 :=
  if r.msb then (r <<< 1) ^^^ 0x1021#16 else r <<< 1

def crcByte (r : BitVec 16) (b : Byte) : BitVec 16 :=
  crcShift (crcShift (crcShift (crcShift (crcShift (crcShift (crcShift (crcShift
    (r ^^^ (b.setWidth 16 <<< 8)))))))))

/-- The 16-bit CRC of R160: the register starts at all ones, no final inversion. -/
def crc16 (bytes : List Byte) : BitVec 16 := bytes.foldl crcByte 0xFFFF#16

/-! ### Frames (R160) -/

/-- The two sync bytes 165 and 90. -/
def syncBytes : List Byte := [165#8, 90#8]

/-- The largest body length a request frame may carry (R160). -/
def maxBody : Nat := 1024

/-- A request frame on the wire: sync, length, kind, tag, body, CRC from the length field to the body's last byte. -/
def requestFrame (code : Byte) (tag : Half) (body : List Byte) : List Byte :=
  let covered := encodeHalf (BitVec.ofNat 16 body.length) ++ [code] ++ encodeHalf tag ++ body
  syncBytes ++ covered ++ encodeHalf (crc16 covered)

/-- A response frame on the wire: as a request frame, with the status byte after the tag. -/
def responseFrame (code : Byte) (tag : Half) (status : Byte) (body : List Byte) : List Byte :=
  let covered := encodeHalf (BitVec.ofNat 16 body.length) ++ [code] ++ encodeHalf tag ++ [status] ++ body
  syncBytes ++ covered ++ encodeHalf (crc16 covered)

/-- Bytes received while the port looks for the sync are discarded (R160). A last byte that may begin the sync is kept. -/
def dropToSync : List Byte → List Byte
  | [] => []
  | [b] => if b = 165#8 then [b] else []
  | b :: c :: rest => if b = 165#8 ∧ c = 90#8 then b :: c :: rest else dropToSync (c :: rest)

/-! ### Kind codes (R168) -/

def Kind.code : Kind → Byte
  | .carrierDocked => 1#8
  | .slotMap => 2#8
  | .carrierRelease => 3#8
  | .carrierUndocked => 4#8
  | .lotDefine => 5#8
  | .lotStart => 6#8
  | .lotHold => 7#8
  | .lotRelease => 8#8
  | .lotAbort => 9#8
  | .lotQuery => 10#8
  | .recipeSet => 11#8
  | .recipeQuery => 12#8
  | .siteLoad => 16#8
  | .siteSeal => 17#8
  | .siteQuery => 18#8
  | .moverRecover => 24#8
  | .cellQuery => 25#8
  | .captureFetch => 32#8
  | .captureDone => 33#8
  | .captureStatus => 34#8
  | .classPost => 35#8
  | .bufferGrant => 36#8
  | .reportFetch => 40#8
  | .reportAck => 41#8
  | .statsRead => 48#8
  | .statsTake => 49#8
  | .noticeRead => 56#8
  | .noticeMaskSet => 57#8
  | .noticeMaskClear => 58#8
  | .errorRead => 59#8
  | .errorClear => 60#8
  | .modeSet => 64#8
  | .settingSet => 65#8
  | .settingRead => 66#8
  | .settingsSave => 67#8
  | .toolClear => 68#8

/-- All kinds, in code order. -/
def allKinds : List Kind :=
  [.carrierDocked, .slotMap, .carrierRelease, .carrierUndocked, .lotDefine, .lotStart, .lotHold, .lotRelease,
   .lotAbort, .lotQuery, .recipeSet, .recipeQuery, .siteLoad, .siteSeal, .siteQuery, .moverRecover, .cellQuery,
   .captureFetch, .captureDone, .captureStatus, .classPost, .bufferGrant, .reportFetch, .reportAck, .statsRead,
   .statsTake, .noticeRead, .noticeMaskSet, .noticeMaskClear, .errorRead, .errorClear, .modeSet, .settingSet,
   .settingRead, .settingsSave, .toolClear]

/-- The kind a code names, none where the code is in no table (R168). -/
def Kind.ofCode (code : Byte) : Option Kind := allKinds.find? (fun k => k.code == code)

def Request.kind : Request → Kind
  | .carrierDocked .. => .carrierDocked
  | .slotMap .. => .slotMap
  | .carrierRelease .. => .carrierRelease
  | .carrierUndocked .. => .carrierUndocked
  | .lotDefine .. => .lotDefine
  | .lotStart .. => .lotStart
  | .lotHold .. => .lotHold
  | .lotRelease .. => .lotRelease
  | .lotAbort .. => .lotAbort
  | .lotQuery .. => .lotQuery
  | .recipeSet .. => .recipeSet
  | .recipeQuery .. => .recipeQuery
  | .siteLoad .. => .siteLoad
  | .siteSeal .. => .siteSeal
  | .siteQuery .. => .siteQuery
  | .moverRecover .. => .moverRecover
  | .cellQuery => .cellQuery
  | .captureFetch => .captureFetch
  | .captureDone .. => .captureDone
  | .captureStatus => .captureStatus
  | .classPost .. => .classPost
  | .bufferGrant .. => .bufferGrant
  | .reportFetch .. => .reportFetch
  | .reportAck .. => .reportAck
  | .statsRead => .statsRead
  | .statsTake .. => .statsTake
  | .noticeRead => .noticeRead
  | .noticeMaskSet .. => .noticeMaskSet
  | .noticeMaskClear .. => .noticeMaskClear
  | .errorRead .. => .errorRead
  | .errorClear .. => .errorClear
  | .modeSet .. => .modeSet
  | .settingSet .. => .settingSet
  | .settingRead => .settingRead
  | .settingsSave => .settingsSave
  | .toolClear => .toolClear

/-! ### Writing a body (R168) -/

/-- A text: its length byte, then its characters. -/
def encodeText (t : Text) : List Byte := BitVec.ofNat 8 t.length :: t

/-- A list: its count byte, then its items. -/
def encodeList {α : Type} (item : α → List Byte) (l : List α) : List Byte :=
  BitVec.ofNat 8 l.length :: l.flatMap item

/-- An optional field: a presence byte, then the field when present. -/
def encodeOption {α : Type} (item : α → List Byte) : Option α → List Byte
  | none => [0#8]
  | some a => 1#8 :: item a

def encodeByte (b : Byte) : List Byte := [b]

def encodeSlotField (e : SlotField) : List Byte := e.state :: encodeOption encodeText e.expected

def encodeSiteField (f : SiteField) : List Byte :=
  encodeHalf f.number ++ [f.row, f.col] ++ encodeFull f.x ++ encodeFull f.y ++ [f.inspClass] ++ encodeHalf f.size
    ++ [f.priority]

def encodeExcursionField (e : ExcursionField) : List Byte := [e.cls] ++ encodeHalf e.limit ++ [e.action]

def encodeReportingField (c : ReportingField) : List Byte := [c.kind, c.value]

def encodeRecipeFields (f : RecipeFields) : List Byte :=
  encodeOption encodeByte f.resolution ++ encodeOption encodeByte f.sweepSteps ++ encodeOption encodeByte f.stepSize
    ++ encodeOption encodeByte f.quality ++ encodeOption encodeHalf f.mapRadius
    ++ encodeOption encodeByte f.mapLifetime ++ encodeOption encodeHalf f.focusHold
    ++ encodeOption encodeByte f.attemptLimit ++ encodeOption encodeHalf f.classWait
    ++ encodeOption encodeByte f.readId ++ encodeOption (encodeList encodeExcursionField) f.excursions
    ++ encodeOption encodeByte f.samplingFloor

/-- The body of a request: its fields in the order its rule names them (R168). -/
def Request.encode : Request → List Byte
  | .carrierDocked port id => port :: encodeText id
  | .slotMap port entries => port :: encodeList encodeSlotField entries
  | .carrierRelease port => [port]
  | .carrierUndocked port => [port]
  | .lotDefine id port recipe priority selection =>
      encodeText id ++ [port, recipe, priority] ++ encodeList encodeByte selection
  | .lotStart id => encodeText id
  | .lotHold id scope => encodeText id ++ [scope]
  | .lotRelease id choice => encodeText id ++ [choice]
  | .lotAbort id => encodeText id
  | .lotQuery (.lot id) => 0#8 :: encodeText id
  | .lotQuery (.port n) => [1#8, n]
  | .recipeSet slot fields => slot :: encodeRecipeFields fields
  | .recipeQuery slot => [slot]
  | .siteLoad id slot sites => encodeText id ++ [slot] ++ encodeList encodeSiteField sites
  | .siteSeal id slot => encodeText id ++ [slot]
  | .siteQuery .pool => [0#8]
  | .siteQuery (.list id slot start) => 1#8 :: (encodeText id ++ [slot] ++ encodeHalf start)
  | .moverRecover mover disposition => [mover, disposition]
  | .cellQuery => []
  | .captureFetch => []
  | .captureDone number result => encodeHalf number ++ [result]
  | .captureStatus => []
  | .classPost number cls confidence => encodeHalf number ++ [cls, confidence]
  | .bufferGrant n => [n]
  | .reportFetch (.number n) => 0#8 :: encodeHalf n
  | .reportFetch .oldest => [1#8]
  | .reportAck number => encodeHalf number
  | .statsRead => []
  | .statsTake statistic amount => statistic :: encodeFull amount
  | .noticeRead => []
  | .noticeMaskSet conds => encodeList encodeByte conds
  | .noticeMaskClear conds => encodeList encodeByte conds
  | .errorRead .all => [0#8]
  | .errorRead (.cls c) => [1#8, c]
  | .errorRead (.kinds names) => 2#8 :: encodeList encodeByte names
  | .errorClear names changes => encodeList encodeByte names ++ encodeOption (encodeList encodeReportingField) changes
  | .modeSet mode => [mode]
  | .settingSet name value => name :: encodeFull value
  | .settingRead => []
  | .settingsSave => []
  | .toolClear => []

/-! ### Reading a body (check 4 of R164): every field from the front, and nothing left over -/

/-- A reader takes what it needs from the front of the bytes and hands on the rest. -/
abbrev Reader (α : Type) := List Byte → Option (α × List Byte)

def readByte : Reader Byte
  | b :: rest => some (b, rest)
  | [] => none

def readHalf : Reader Half
  | b0 :: b1 :: rest => some (joinHalf b0 b1, rest)
  | _ => none

def readFull : Reader Full
  | b0 :: b1 :: b2 :: b3 :: rest => some (joinFull b0 b1 b2 b3, rest)
  | _ => none

def readText : Reader Text
  | n :: rest => if rest.length < n.toNat then none else some (rest.take n.toNat, rest.drop n.toNat)
  | [] => none

def readMany {α : Type} (item : Reader α) : Nat → Reader (List α)
  | 0, bytes => some ([], bytes)
  | n + 1, bytes =>
    match item bytes with
    | none => none
    | some (a, rest) =>
      match readMany item n rest with
      | none => none
      | some (l, rest) => some (a :: l, rest)

def readList {α : Type} (item : Reader α) : Reader (List α)
  | n :: rest => readMany item n.toNat rest
  | [] => none

/-- A presence byte other than 0 and 1 names no value, so the body is malformed (log 17). -/
def readOption {α : Type} (item : Reader α) : Reader (Option α)
  | b :: rest =>
    if b = 0#8 then some (none, rest)
    else if b = 1#8 then
      match item rest with
      | none => none
      | some (a, rest) => some (some a, rest)
    else none
  | [] => none

def readSlotField : Reader SlotField := fun bytes => do
  let (state, bytes) ← readByte bytes
  let (expected, bytes) ← readOption readText bytes
  return (⟨state, expected⟩, bytes)

def readSiteField : Reader SiteField := fun bytes => do
  let (number, bytes) ← readHalf bytes
  let (row, bytes) ← readByte bytes
  let (col, bytes) ← readByte bytes
  let (x, bytes) ← readFull bytes
  let (y, bytes) ← readFull bytes
  let (inspClass, bytes) ← readByte bytes
  let (size, bytes) ← readHalf bytes
  let (priority, bytes) ← readByte bytes
  return (⟨number, row, col, x, y, inspClass, size, priority⟩, bytes)

def readExcursionField : Reader ExcursionField := fun bytes => do
  let (cls, bytes) ← readByte bytes
  let (limit, bytes) ← readHalf bytes
  let (action, bytes) ← readByte bytes
  return (⟨cls, limit, action⟩, bytes)

def readReportingField : Reader ReportingField := fun bytes => do
  let (kind, bytes) ← readByte bytes
  let (value, bytes) ← readByte bytes
  return (⟨kind, value⟩, bytes)

def readRecipeFields : Reader RecipeFields := fun bytes => do
  let (resolution, bytes) ← readOption readByte bytes
  let (sweepSteps, bytes) ← readOption readByte bytes
  let (stepSize, bytes) ← readOption readByte bytes
  let (quality, bytes) ← readOption readByte bytes
  let (mapRadius, bytes) ← readOption readHalf bytes
  let (mapLifetime, bytes) ← readOption readByte bytes
  let (focusHold, bytes) ← readOption readHalf bytes
  let (attemptLimit, bytes) ← readOption readByte bytes
  let (classWait, bytes) ← readOption readHalf bytes
  let (readId, bytes) ← readOption readByte bytes
  let (excursions, bytes) ← readOption (readList readExcursionField) bytes
  let (samplingFloor, bytes) ← readOption readByte bytes
  return (⟨resolution, sweepSteps, stepSize, quality, mapRadius, mapLifetime, focusHold, attemptLimit, classWait,
    readId, excursions, samplingFloor⟩, bytes)

def readLotSelector : Reader LotSelector := fun bytes => do
  let (sel, bytes) ← readByte bytes
  if sel = 0#8 then
    let (id, bytes) ← readText bytes
    return (.lot id, bytes)
  else if sel = 1#8 then
    let (n, bytes) ← readByte bytes
    return (.port n, bytes)
  else none

def readSiteSelector : Reader SiteSelector := fun bytes => do
  let (sel, bytes) ← readByte bytes
  if sel = 0#8 then return (.pool, bytes)
  else if sel = 1#8 then
    let (id, bytes) ← readText bytes
    let (slot, bytes) ← readByte bytes
    let (start, bytes) ← readHalf bytes
    return (.list id slot start, bytes)
  else none

def readReportSelector : Reader ReportSelector := fun bytes => do
  let (sel, bytes) ← readByte bytes
  if sel = 0#8 then
    let (n, bytes) ← readHalf bytes
    return (.number n, bytes)
  else if sel = 1#8 then return (.oldest, bytes)
  else none

def readErrorSelector : Reader ErrorSelector := fun bytes => do
  let (sel, bytes) ← readByte bytes
  if sel = 0#8 then return (.all, bytes)
  else if sel = 1#8 then
    let (c, bytes) ← readByte bytes
    return (.cls c, bytes)
  else if sel = 2#8 then
    let (names, bytes) ← readList readByte bytes
    return (.kinds names, bytes)
  else none

/-- The fields of a request of kind `k`, read from the front of the bytes. -/
def readRequest (k : Kind) : Reader Request := fun bytes =>
  match k with
  | .carrierDocked => do
      let (port, bytes) ← readByte bytes
      let (id, bytes) ← readText bytes
      return (.carrierDocked port id, bytes)
  | .slotMap => do
      let (port, bytes) ← readByte bytes
      let (entries, bytes) ← readList readSlotField bytes
      return (.slotMap port entries, bytes)
  | .carrierRelease => do
      let (port, bytes) ← readByte bytes
      return (.carrierRelease port, bytes)
  | .carrierUndocked => do
      let (port, bytes) ← readByte bytes
      return (.carrierUndocked port, bytes)
  | .lotDefine => do
      let (id, bytes) ← readText bytes
      let (port, bytes) ← readByte bytes
      let (recipe, bytes) ← readByte bytes
      let (priority, bytes) ← readByte bytes
      let (selection, bytes) ← readList readByte bytes
      return (.lotDefine id port recipe priority selection, bytes)
  | .lotStart => do
      let (id, bytes) ← readText bytes
      return (.lotStart id, bytes)
  | .lotHold => do
      let (id, bytes) ← readText bytes
      let (scope, bytes) ← readByte bytes
      return (.lotHold id scope, bytes)
  | .lotRelease => do
      let (id, bytes) ← readText bytes
      let (choice, bytes) ← readByte bytes
      return (.lotRelease id choice, bytes)
  | .lotAbort => do
      let (id, bytes) ← readText bytes
      return (.lotAbort id, bytes)
  | .lotQuery => do
      let (sel, bytes) ← readLotSelector bytes
      return (.lotQuery sel, bytes)
  | .recipeSet => do
      let (slot, bytes) ← readByte bytes
      let (fields, bytes) ← readRecipeFields bytes
      return (.recipeSet slot fields, bytes)
  | .recipeQuery => do
      let (slot, bytes) ← readByte bytes
      return (.recipeQuery slot, bytes)
  | .siteLoad => do
      let (id, bytes) ← readText bytes
      let (slot, bytes) ← readByte bytes
      let (sites, bytes) ← readList readSiteField bytes
      return (.siteLoad id slot sites, bytes)
  | .siteSeal => do
      let (id, bytes) ← readText bytes
      let (slot, bytes) ← readByte bytes
      return (.siteSeal id slot, bytes)
  | .siteQuery => do
      let (sel, bytes) ← readSiteSelector bytes
      return (.siteQuery sel, bytes)
  | .moverRecover => do
      let (mover, bytes) ← readByte bytes
      let (disposition, bytes) ← readByte bytes
      return (.moverRecover mover disposition, bytes)
  | .cellQuery => return (.cellQuery, bytes)
  | .captureFetch => return (.captureFetch, bytes)
  | .captureDone => do
      let (number, bytes) ← readHalf bytes
      let (result, bytes) ← readByte bytes
      return (.captureDone number result, bytes)
  | .captureStatus => return (.captureStatus, bytes)
  | .classPost => do
      let (number, bytes) ← readHalf bytes
      let (cls, bytes) ← readByte bytes
      let (confidence, bytes) ← readByte bytes
      return (.classPost number cls confidence, bytes)
  | .bufferGrant => do
      let (n, bytes) ← readByte bytes
      return (.bufferGrant n, bytes)
  | .reportFetch => do
      let (sel, bytes) ← readReportSelector bytes
      return (.reportFetch sel, bytes)
  | .reportAck => do
      let (number, bytes) ← readHalf bytes
      return (.reportAck number, bytes)
  | .statsRead => return (.statsRead, bytes)
  | .statsTake => do
      let (statistic, bytes) ← readByte bytes
      let (amount, bytes) ← readFull bytes
      return (.statsTake statistic amount, bytes)
  | .noticeRead => return (.noticeRead, bytes)
  | .noticeMaskSet => do
      let (conds, bytes) ← readList readByte bytes
      return (.noticeMaskSet conds, bytes)
  | .noticeMaskClear => do
      let (conds, bytes) ← readList readByte bytes
      return (.noticeMaskClear conds, bytes)
  | .errorRead => do
      let (sel, bytes) ← readErrorSelector bytes
      return (.errorRead sel, bytes)
  | .errorClear => do
      let (names, bytes) ← readList readByte bytes
      let (changes, bytes) ← readOption (readList readReportingField) bytes
      return (.errorClear names changes, bytes)
  | .modeSet => do
      let (mode, bytes) ← readByte bytes
      return (.modeSet mode, bytes)
  | .settingSet => do
      let (name, bytes) ← readByte bytes
      let (value, bytes) ← readFull bytes
      return (.settingSet name value, bytes)
  | .settingRead => return (.settingRead, bytes)
  | .settingsSave => return (.settingsSave, bytes)
  | .toolClear => return (.toolClear, bytes)

/-- The request a body spells: none where it is shorter or longer than its fields require (check 4 of R164). -/
def decodeBody (k : Kind) (body : List Byte) : Option Request :=
  match readRequest k body with
  | some (r, []) => some r
  | _ => none

/-! ### Take rows and requests -/

/-- The take row of a request at a port. -/
def Request.row (p : PortId) (tag : Half) : Request → Instr
  | .carrierDocked port id => .carrierDocked p tag port id
  | .slotMap port entries => .slotMap p tag port entries
  | .carrierRelease port => .carrierRelease p tag port
  | .carrierUndocked port => .carrierUndocked p tag port
  | .lotDefine id port recipe priority selection => .lotDefine p tag id port recipe priority selection
  | .lotStart id => .lotStart p tag id
  | .lotHold id scope => .lotHold p tag id scope
  | .lotRelease id choice => .lotRelease p tag id choice
  | .lotAbort id => .lotAbort p tag id
  | .lotQuery sel => .lotQuery p tag sel
  | .recipeSet slot fields => .recipeSet p tag slot fields
  | .recipeQuery slot => .recipeQuery p tag slot
  | .siteLoad id slot sites => .siteLoad p tag id slot sites
  | .siteSeal id slot => .siteSeal p tag id slot
  | .siteQuery sel => .siteQuery p tag sel
  | .moverRecover mover disposition => .moverRecover p tag mover disposition
  | .cellQuery => .cellQuery p tag
  | .captureFetch => .captureFetch p tag
  | .captureDone number result => .captureDone p tag number result
  | .captureStatus => .captureStatus p tag
  | .classPost number cls confidence => .classPost p tag number cls confidence
  | .bufferGrant n => .bufferGrant p tag n
  | .reportFetch sel => .reportFetch p tag sel
  | .reportAck number => .reportAck p tag number
  | .statsRead => .statsRead p tag
  | .statsTake statistic amount => .statsTake p tag statistic amount
  | .noticeRead => .noticeRead p tag
  | .noticeMaskSet conds => .noticeMaskSet p tag conds
  | .noticeMaskClear conds => .noticeMaskClear p tag conds
  | .errorRead sel => .errorRead p tag sel
  | .errorClear names changes => .errorClear p tag names changes
  | .modeSet mode => .modeSet p tag mode
  | .settingSet name value => .settingSet p tag name value
  | .settingRead => .settingRead p tag
  | .settingsSave => .settingsSave p tag
  | .toolClear => .toolClear p tag

/-- The port, the tag and the request of a take row; none for the other rows. -/
def Instr.take? : Instr → Option (PortId × Half × Request)
  | .carrierDocked p tag port id => some (p, tag, .carrierDocked port id)
  | .slotMap p tag port entries => some (p, tag, .slotMap port entries)
  | .carrierRelease p tag port => some (p, tag, .carrierRelease port)
  | .carrierUndocked p tag port => some (p, tag, .carrierUndocked port)
  | .lotDefine p tag id port recipe priority selection => some (p, tag, .lotDefine id port recipe priority selection)
  | .lotStart p tag id => some (p, tag, .lotStart id)
  | .lotHold p tag id scope => some (p, tag, .lotHold id scope)
  | .lotRelease p tag id choice => some (p, tag, .lotRelease id choice)
  | .lotAbort p tag id => some (p, tag, .lotAbort id)
  | .lotQuery p tag sel => some (p, tag, .lotQuery sel)
  | .recipeSet p tag slot fields => some (p, tag, .recipeSet slot fields)
  | .recipeQuery p tag slot => some (p, tag, .recipeQuery slot)
  | .siteLoad p tag id slot sites => some (p, tag, .siteLoad id slot sites)
  | .siteSeal p tag id slot => some (p, tag, .siteSeal id slot)
  | .siteQuery p tag sel => some (p, tag, .siteQuery sel)
  | .moverRecover p tag mover disposition => some (p, tag, .moverRecover mover disposition)
  | .cellQuery p tag => some (p, tag, .cellQuery)
  | .captureFetch p tag => some (p, tag, .captureFetch)
  | .captureDone p tag number result => some (p, tag, .captureDone number result)
  | .captureStatus p tag => some (p, tag, .captureStatus)
  | .classPost p tag number cls confidence => some (p, tag, .classPost number cls confidence)
  | .bufferGrant p tag n => some (p, tag, .bufferGrant n)
  | .reportFetch p tag sel => some (p, tag, .reportFetch sel)
  | .reportAck p tag number => some (p, tag, .reportAck number)
  | .statsRead p tag => some (p, tag, .statsRead)
  | .statsTake p tag statistic amount => some (p, tag, .statsTake statistic amount)
  | .noticeRead p tag => some (p, tag, .noticeRead)
  | .noticeMaskSet p tag conds => some (p, tag, .noticeMaskSet conds)
  | .noticeMaskClear p tag conds => some (p, tag, .noticeMaskClear conds)
  | .errorRead p tag sel => some (p, tag, .errorRead sel)
  | .errorClear p tag names changes => some (p, tag, .errorClear names changes)
  | .modeSet p tag mode => some (p, tag, .modeSet mode)
  | .settingSet p tag name value => some (p, tag, .settingSet name value)
  | .settingRead p tag => some (p, tag, .settingRead)
  | .settingsSave p tag => some (p, tag, .settingsSave)
  | .toolClear p tag => some (p, tag, .toolClear)
  | _ => none

/-- No row of spec/opcode_table.json gives bits, so no word spells a command (log 23). -/
def decodeTableWord (_nbits _w : Nat) : Option Instr := none

end Sys2Proof
end

