-- ==== Sys2Proof/Machine/State.lean ====
section
/-! DEFINITION. Everything the manual gives the RC-640 to hold, as plain data: the records of its eleven blocks, the
three ports, the mode, and the queue of commands that wait. `Part` is what stands behind the ports; `State` adds the
ports' queues and the command queue. Each field's docstring names the rule that gives it; INVENTORY.md lists them with
their reset values. -/

namespace Sys2Proof.Machine

/-! ### Tables with one entry per name -/

/-- The four load ports (R1); the carrier record and the lot record of a port have its number (log 8). -/
inductive LoadPort where
  | p1 | p2 | p3 | p4
  deriving DecidableEq, Repr

/-- One entry per load port. -/
structure PerLoadPort (α : Type) where
  p1 : α
  p2 : α
  p3 : α
  p4 : α
  deriving DecidableEq, Repr

/-- One entry per agent port. -/
structure PerPort (α : Type) where
  tool       : α
  image      : α
  automation : α
  deriving DecidableEq, Repr

/-! ### Lot Table (LT) -/

inductive SlotState where
  | empty | occupied | crossed | double
  deriving DecidableEq, Repr

/-- One entry of a slot map (R1). -/
structure SlotEntry where
  state    : SlotState
  expected : Option Text
  deriving DecidableEq, Repr

inductive CarrierState where
  | empty | docked | mapped | releasable
  deriving DecidableEq, Repr

/-- A carrier record (R1). Its bound lot is the lot record of the same number (log 8). -/
structure Carrier where
  state : CarrierState
  id    : Option Text
  map   : Option (List SlotEntry)
  deriving DecidableEq, Repr

inductive Quality where
  | q0 | q1 | q2 | q3
  deriving DecidableEq, Repr

/-- The actions of an excursion entry, in the order R140 and the recipe chapter list them. -/
inductive ExcursionAction where
  | note | sample | holdW | holdN
  deriving DecidableEq, Repr

/-- One excursion entry of a recipe. -/
structure ExcursionEntry where
  cls    : Nat
  limit  : Nat
  action : ExcursionAction
  deriving DecidableEq, Repr

/-- A recipe slot that has been set (R21); times in the recipe table's own units. -/
structure Recipe where
  resolution    : Nat
  sweepSteps    : Nat
  stepSize      : Nat
  quality       : Quality
  mapRadius     : Nat
  mapLifetime   : Nat
  focusHold     : Nat
  attemptLimit  : Nat
  classWait     : Nat
  readId        : Bool
  excursions    : List ExcursionEntry
  samplingFloor : Nat
  deriving DecidableEq, Repr

inductive Priority where
  | normal | hot
  deriving DecidableEq, Repr

inductive EntryStatus where
  | waiting | dispatched | ruledOut
  deriving DecidableEq, Repr

inductive LotState where
  | defined | running | draining | reportWait | closed
  deriving DecidableEq, Repr

/-- The scope of a hold source: W stops new wafers, N also pauses the session. -/
inductive Scope where
  | w | n
  deriving DecidableEq, Repr

/-- The derived hold (R14). -/
inductive Hold where
  | none | holdW | holdN
  deriving DecidableEq, Repr

/-- The outcome of a wafer, in its record (R42) and in its summary (R147), in the order of R157. -/
inductive WaferOutcome where
  | reviewed | partialReview | aborted | notDispatched | noSites | idMismatch | handlingFault
  deriving DecidableEq, Repr

/-- The counts of one selection entry (R134): 16 class counts, 4 excursion flags. -/
structure WaferCounts where
  loaded       : Nat
  classified   : Nat
  skipped      : Nat
  failed       : Nat
  unclassified : Nat
  classes      : List Nat
  flags        : List Bool
  deriving DecidableEq, Repr

/-- A wafer summary (R147). -/
structure Summary where
  slot    : Nat
  waferId : Option Text
  outcome : WaferOutcome
  counts  : WaferCounts
  deriving DecidableEq, Repr

/-- One selection entry of a lot (R7) with its wafer counts (R134). -/
structure Selection where
  slot    : Nat
  status  : EntryStatus
  summary : Option Summary
  counts  : WaferCounts
  deriving DecidableEq, Repr

/-- The first firing of an excursion entry for a lot (R140). -/
structure ExcursionEvent where
  slot     : Nat
  cls      : Nat
  limit    : Nat
  action   : ExcursionAction
  position : Nat
  deriving DecidableEq, Repr

/-- The lot counters of the CLU (R133). -/
structure LotCounters where
  loaded       : Nat
  classified   : Nat
  skipped      : Nat
  failed       : Nat
  unclassified : Nat
  classes      : List Nat
  sweeps       : Nat
  mapHits      : Nat
  captures     : Nat
  rejections   : Nat
  events       : List ExcursionEvent
  deriving DecidableEq, Repr

/-- A lot record in use (R7). Its carrier port is its number in the lot table. -/
structure Lot where
  id         : Text
  recipe     : Nat
  priority   : Priority
  selection  : List Selection
  state      : LotState
  holdTool   : Option Scope
  holdAuto   : Option Scope
  holdExc    : Option Scope
  aborted    : Bool
  startOrder : Option Nat
  counters   : LotCounters
  deriving DecidableEq, Repr

/-! ### Site Store (SS) -/

/-- The site states (R27). -/
inductive SiteState where
  | pending | moving | focusing | captureWait | capturing | captured
  | classified | skipped | failed | unclassified
  deriving DecidableEq, Repr

/-- Skip and fail reasons of a site entry. -/
inductive Reason where
  | aborted | sampledDown | notDispatched | unsealed | handling | idMismatch
  | focusLow | focusEdge | focusDisturbed | captureRejected | captureTimeout
  deriving DecidableEq, Repr

/-- A site entry: the site fields of R25, then the review fields of R26. -/
structure SiteEntry where
  number      : Nat
  row         : Int
  col         : Int
  x           : Int
  y           : Int
  inspClass   : Nat
  size        : Nat
  priority    : Nat
  state       : SiteState
  attempts    : Nat
  acceptedZ   : Option Nat
  captureNo   : Option Half
  classResult : Option (Nat × Nat)
  reason      : Option Reason
  deriving DecidableEq, Repr

/-- A revisit list (R29), found by lot and slot; entries in visiting order (R30). Its open count is a view. -/
structure RevisitList where
  lot      : LoadPort
  slot     : Nat
  sealed   : Bool
  entries  : List SiteEntry
  deriving DecidableEq, Repr

/-! ### Wafer Flow Controller (WFC) -/

/-- The seven places of the cell (R41). -/
inductive Place where
  | upperBlade | lowerBlade | aligner | lockA | lockB | transferArm | stage
  deriving DecidableEq, Repr

/-- One entry of the place table (R41): wafer tags. -/
structure PlaceEntry where
  occupant : Option Nat
  claim    : Option Nat
  deriving DecidableEq, Repr

structure PlaceTable where
  upperBlade  : PlaceEntry
  lowerBlade  : PlaceEntry
  aligner     : PlaceEntry
  lockA       : PlaceEntry
  lockB       : PlaceEntry
  transferArm : PlaceEntry
  stage       : PlaceEntry
  deriving DecidableEq, Repr

/-- The twelve phases of a wafer (R42). -/
inductive Phase where
  | outboundFromSlot | aligning | waitLock | pumping | ready | toStage
  | reviewing | reviewed | toLock | venting | returning | home
  deriving DecidableEq, Repr

/-- A wafer record in use (R42). Its list is the revisit list of its lot and slot. -/
structure Wafer where
  lot       : LoadPort
  slot      : Nat
  readId    : Option Text
  place     : Option Place
  phase     : Phase
  exposed   : Bool
  uncertain : Bool
  outcome   : Option WaferOutcome
  deriving DecidableEq, Repr

/-- Source of an AR PICK, target of an AR PLACE: a place, or a slot of the carrier at a load port (R44). -/
inductive ArEnd where
  | place (p : Place)
  | slot (port : LoadPort) (n : Nat)
  deriving DecidableEq, Repr

inductive Blade where
  | upper | lower
  deriving DecidableEq, Repr

/-- An order and its parameters (R44). -/
inductive OrderKind where
  | arPick (blade : Blade) (source : ArEnd)
  | arPlace (blade : Blade) (target : ArEnd)
  | vrPick (source : Place)
  | vrPlace (target : Place)
  | align (readId : Bool)
  | pump
  | vent
  | moveSite (x y : Int)
  | moveLoad
  deriving DecidableEq, Repr

/-- The order in progress in a slot (R44): its order, tag, wafer, and its timer with the milliseconds it was started
with, absent once stopped. -/
structure Order where
  kind  : OrderKind
  tag   : Half
  wafer : Option Nat
  timer : Option Nat
  deriving DecidableEq, Repr

inductive SlotCause where
  | timeout
  | fault (code : Byte)
  deriving DecidableEq, Repr

/-- An order slot (R44). -/
inductive OrderSlot where
  | idle
  | issued (o : Order)
  | faulted (o : Order) (cause : SlotCause)
  deriving DecidableEq, Repr

structure OrderTable where
  ar : OrderSlot
  vr : OrderSlot
  al : OrderSlot
  la : OrderSlot
  lb : OrderSlot
  st : OrderSlot
  deriving DecidableEq, Repr

/-- The two load locks (R51). -/
inductive LockId where
  | a | b
  deriving DecidableEq, Repr

inductive LockState where
  | atmosphere | pumping | vacuum | venting
  deriving DecidableEq, Repr

inductive Purpose where
  | inbound | returning
  deriving DecidableEq, Repr

/-- A lock's reservation (R51): a wafer tag and its purpose. -/
structure Reservation where
  wafer   : Nat
  purpose : Purpose
  deriving DecidableEq, Repr

structure Lock where
  state       : LockState
  reservation : Option Reservation
  deriving DecidableEq, Repr

/-! ### Stage Session Unit (SSU) -/

inductive SessionState where
  | idle | active | pausing | paused
  deriving DecidableEq, Repr

inductive Direction where
  | forward | backward
  deriving DecidableEq, Repr

/-- The session record (R68); the cursor is a position in the wafer's list, counted from 1. -/
structure Session where
  state     : SessionState
  wafer     : Option Nat
  row       : Option Int
  direction : Direction
  cursor    : Option Nat
  inFlight  : Option Nat
  deriving DecidableEq, Repr

/-! ### Focus Unit (FU) -/

/-- The converter (R91): outside IDLE, the resolution of the conversion; in SETTLING, the settle time it started with. -/
inductive Converter where
  | idle
  | settling (resolution ms : Nat)
  | zero (resolution : Nat)
  | integrate (resolution : Nat)
  | deintegrate (resolution : Nat)
  deriving DecidableEq, Repr

/-- The converter's result (R93). -/
structure ConverterResult where
  count      : Nat
  drive      : Nat
  resolution : Nat
  deriving DecidableEq, Repr

inductive FocusKind where
  | predicted | recheck | nominal | forced
  deriving DecidableEq, Repr

inductive FocusStage where
  | check | sweep | resweep
  deriving DecidableEq, Repr

/-- The sweep record with a request in progress (R96). `step` is 1..sweep steps in a sweep; 0 stands for "no step" while the
stage is CHECK, where R96 gives no value (DESIGN CHOICE, log 30). -/
structure FocusRequest where
  kind     : FocusKind
  x        : Int
  y        : Int
  stage    : FocusStage
  checkZ   : Option Nat
  checkRef : Option Nat
  centre   : Option Nat
  step     : Nat
  counts   : List Nat
  drives   : List Nat
  restarts : Nat
  deriving DecidableEq, Repr

/-- A z and the sharpness measured there: the FU's reference (R96). -/
structure Reference where
  z         : Nat
  sharpness : Nat
  deriving DecidableEq, Repr

/-- A point of the focus map (R106). Its age runs as a timer with the milliseconds of the map lifetime (log 1). -/
structure MapPoint where
  x         : Int
  y         : Int
  z         : Nat
  sharpness : Nat
  timer     : Nat
  deriving DecidableEq, Repr

/-! ### Capture Exchange (CX) -/

inductive CaptureState where
  | unfetched | fetched | doneGood
  deriving DecidableEq, Repr

/-- A capture record (R114); the timer with the milliseconds it was started with. -/
structure CaptureRecord where
  number     : Half
  wafer      : Nat
  site       : Nat
  x          : Int
  y          : Int
  inspClass  : Nat
  size       : Nat
  z          : Nat
  resolution : Nat
  sharpness  : Nat
  attempt    : Nat
  state      : CaptureState
  timer      : Nat
  deriving DecidableEq, Repr

/-- A capture record as CAPTURE_FETCH answers it (R122): every field but the timer. -/
structure CaptureFields where
  number     : Half
  wafer      : Nat
  site       : Nat
  x          : Int
  y          : Int
  inspClass  : Nat
  size       : Nat
  z          : Nat
  resolution : Nat
  sharpness  : Nat
  attempt    : Nat
  state      : CaptureState
  deriving DecidableEq, Repr

/-- The waiting site (R118); the focus hold timer, absent while it is not running. -/
structure WaitingSite where
  wafer     : Nat
  site      : Nat
  sharpness : Nat
  timer     : Option Nat
  deriving DecidableEq, Repr

/-! ### Count and Limit Unit (CLU) -/

inductive Statistic where
  | sitesClassified | sitesSkipped | sitesFailed | sitesUnclassified
  | capturesIssued | capturesRejected | sweeps | mapHits | checksFailed
  | movesCompleted | moveFaults | latePosts
  deriving DecidableEq, Repr

/-- The twelve tool statistics (R143). -/
structure Stats where
  sitesClassified   : Full
  sitesSkipped      : Full
  sitesFailed       : Full
  sitesUnclassified : Full
  capturesIssued    : Full
  capturesRejected  : Full
  sweeps            : Full
  mapHits           : Full
  checksFailed      : Full
  movesCompleted    : Full
  moveFaults        : Full
  latePosts         : Full
  deriving DecidableEq, Repr

/-! ### Report Builder (RB) -/

inductive ReportOutcome where
  | complete | partialReport | aborted
  deriving DecidableEq, Repr

/-- A report (R150); its number is absent while it waits (R151). -/
structure Report where
  number    : Option Half
  lotId     : Text
  carrierId : Text
  recipe    : Nat
  outcome   : ReportOutcome
  summaries : List Summary
  totals    : LotCounters
  deriving DecidableEq, Repr

/-- A report waiting for a place in the queue, with its lot: the report-wait order and the waiting store are one list
(R19, R151). -/
structure WaitingReport where
  lot    : LoadPort
  report : Report
  deriving DecidableEq, Repr

/-! ### Notices and Error Status (ES) -/

/-- The notice conditions (R169); LOT_STATE stands at two ports. -/
inductive Condition where
  | carrierReleasable | moverFaulted | error | lotState | settingsDone
  | capturePending | creditLow | session
  | reportReady | statsHalf | excursion | holdSet
  deriving DecidableEq, Repr

/-- The notice state of a port: the conditions whose mask is ENABLED and the event conditions raised, both in the
port's priority order (R169, R170). -/
structure PortNotice where
  enabled : List Condition
  raised  : List Condition
  deriving DecidableEq, Repr

/-- The error kinds, in the order of R173. -/
inductive ErrorKind where
  | linkCrcTool | linkCrcImage | linkCrcAutomation
  | queueOverrun | moverTimeout | moverFault | lateCompletion
  | captureTimeout | creditOverflow | focusDisturbed | idMismatch | settingsDefaulted
  deriving DecidableEq, Repr

inductive ErrorClass where
  | note | tool | wafer
  deriving DecidableEq, Repr

/-- The slot state that a late answer found (R174). -/
inductive FoundSlot where
  | idle | faulted | otherTag
  deriving DecidableEq, Repr

inductive LoadReason where
  | noResponse | crc | version
  deriving DecidableEq, Repr

inductive SaveReason where
  | noResponse | verify
  deriving DecidableEq, Repr

/-- The details of an occurrence, by kind (R174). -/
inductive ErrorDetail where
  | linkLength (length : Half)
  | linkCrc (length : Half) (code : Byte) (tag : Half)
  | queueOverrun (p : PortId) (code : Byte) (tag : Half) (formed : Bool)
  | moverTimeout (m : Mover) (order : OrderKind) (tag : Half) (wafer : Option Nat)
  | moverFault (m : Mover) (order : OrderKind) (tag : Half) (wafer : Option Nat) (code : Byte)
  | lateComplete (m : Mover) (tag : Half) (found : FoundSlot)
  | lateFault (m : Mover) (tag : Half) (code : Byte) (found : FoundSlot)
  | captureTimeout (wafer site : Nat) (number : Half) (state : CaptureState)
  | creditOverflow (before n excess : Nat)
  | focusDisturbed (wafer site : Option Nat) (kind : FocusKind) (drive : Nat)
  | idMismatch (lotId : Text) (slot : Nat) (expected : Text) (read : Option Text)
  | settingsLoad (reason : LoadReason)
  | settingsSave (reason : SaveReason)
  deriving DecidableEq, Repr

/-- The four parts of an error kind (R173). -/
structure ErrorRecord where
  flag      : Bool
  count     : Nat
  first     : Option ErrorDetail
  reporting : Bool
  deriving DecidableEq, Repr

structure ErrorTable where
  linkCrcTool       : ErrorRecord
  linkCrcImage      : ErrorRecord
  linkCrcAutomation : ErrorRecord
  queueOverrun      : ErrorRecord
  moverTimeout      : ErrorRecord
  moverFault        : ErrorRecord
  lateCompletion    : ErrorRecord
  captureTimeout    : ErrorRecord
  creditOverflow    : ErrorRecord
  focusDisturbed    : ErrorRecord
  idMismatch        : ErrorRecord
  settingsDefaulted : ErrorRecord
  deriving DecidableEq, Repr

/-! ### Settings Loader (SL) -/

/-- The thirteen working settings, in table order (11). -/
inductive SettingName where
  | portsFitted | arTimeout | vrTimeout | alTimeout | pumpTimeout | ventTimeout | stTimeout
  | captureTimeout | creditLow | waferCap | nominalZ | parkZ | settleTime
  deriving DecidableEq, Repr

structure Settings where
  portsFitted    : Nat
  arTimeout      : Nat
  vrTimeout      : Nat
  alTimeout      : Nat
  pumpTimeout    : Nat
  ventTimeout    : Nat
  stTimeout      : Nat
  captureTimeout : Nat
  creditLow      : Nat
  waferCap       : Nat
  nominalZ       : Nat
  parkZ          : Nat
  settleTime     : Nat
  deriving DecidableEq, Repr

/-- The load result of power-on (R180). -/
inductive LoadResult where
  | loaded
  | loadedClamped
  | defaulted (reason : LoadReason)
  deriving DecidableEq, Repr

/-- The result of the last save (R180, R181). -/
inductive SaveResult where
  | none
  | done
  | failed (reason : SaveReason)
  deriving DecidableEq, Repr

inductive Mode where
  | localMode | remoteMode
  deriving DecidableEq, Repr

/-! ### The part behind the ports -/

/-- Every record of the part but the ports' own queues. -/
structure Part where
  /-- R167. -/
  mode            : Mode
  /-- R1. -/
  carriers        : PerLoadPort Carrier
  /-- R7. -/
  lots            : PerLoadPort (Option Lot)
  /-- R9. -/
  startCounter    : Nat
  /-- R21: eight slots. -/
  recipes         : List (Option Recipe)
  /-- R24. -/
  freeCount       : Nat
  /-- R29: the list directory. -/
  lists           : List RevisitList
  /-- R41. -/
  places          : PlaceTable
  /-- R42: ten records, by wafer tag. -/
  wafers          : List (Option Wafer)
  /-- R44. -/
  orders          : OrderTable
  /-- R44. -/
  orderCounter    : Half
  /-- R51. -/
  lockA           : Lock
  lockB           : Lock
  /-- R59. -/
  atLoad          : Bool
  /-- R68. -/
  session         : Session
  /-- R91. -/
  converter       : Converter
  /-- R93. -/
  convResult      : Option ConverterResult
  /-- R94. -/
  drive           : Nat
  /-- R96: the sweep record. -/
  focusRequest    : Option FocusRequest
  /-- R96. -/
  focusReference  : Option Reference
  /-- R106. -/
  focusMap        : List MapPoint
  /-- R114. -/
  captureLog      : List CaptureRecord
  /-- R115. -/
  nextCapture     : Half
  /-- R116. -/
  credits         : Nat
  /-- R118. -/
  waitingSite     : Option WaitingSite
  /-- R143. -/
  stats           : Stats
  /-- R153. -/
  reportQueue     : List Report
  /-- R19, R151. -/
  waitingReports  : List WaitingReport
  /-- R152. -/
  nextReport      : Half
  /-- R169, R170. -/
  notices         : PerPort PortNotice
  /-- R173. -/
  errors          : ErrorTable
  /-- R178: the working settings. -/
  settings        : Settings
  /-- R178: the load is in progress. -/
  loading         : Bool
  /-- R180; absent until the load ends (log 21). -/
  loadResult      : Option LoadResult
  /-- R181: the save state; RUNNING holds the copy being written. -/
  saving          : Option Settings
  /-- R180. -/
  lastSave        : SaveResult
  /-- R180. -/
  unsaved         : Bool
  /-- The 512-byte serial memory (R178), its cells in canonical form (log 6). -/
  memory          : List Host.Cell
  /-- R181: a power-on reset during a save has left the image partly written (log 7). -/
  imagePartial    : Bool
  deriving DecidableEq, Repr

/-! ### Responses and ports -/

/-- The status codes of R165, in code order. -/
inductive Status where
  | ok | notPermitted | refusedState | badField | noSpace | busy | queueFull | unknownKind
  | late | order | notFound | listSealed | recipeInUse
  deriving DecidableEq, Repr

/-- The list status that SITE_QUERY gives (R34, R39). -/
inductive ListStatus where
  | absent | open | sealedEmpty | sealed | freed
  deriving DecidableEq, Repr

/-- One lock as CELL_QUERY gives it. -/
structure WaferView where
  tag   : Nat
  lotId : Text
  wafer : Wafer
  deriving DecidableEq, Repr

/-- The body of a response, by its named fields; only the report has a byte layout (R157, log 14). A bound lot comes with
its carrier port, the one field of R7 that `Lot` leaves to the record's number (log 8). -/
inductive Body where
  | empty
  | lotQuery (carrier : Carrier) (lot : Option (LoadPort × Lot)) (hold : Hold)
  | recipe (r : Option Recipe)
  | noSpace (entries cap free : Nat)
  | siteLoaded (entries free : Nat)
  | siteSealed (entries : Nat)
  | pool (free lists : Nat)
  | siteList (free : Nat) (status : ListStatus) (entries openCount : Nat) (shown : List SiteEntry)
  | cell (places : PlaceTable) (lockA lockB : Lock) (atLoad : Bool) (orders : OrderTable) (wafers : List WaferView)
      (vacuumInbound inboundClaim freeRecords : Nat)
  | capture (r : Option CaptureFields)
  | captureStatus (credits : Nat) (next : Half) (waiting : Option (Nat × Nat))
      (log : List (Half × Nat × Nat × Nat × CaptureState))
  | credits (count excess : Nat)
  | report (bytes : List Byte) (queued : Nat)
  | queued (n : Nat)
  | acked (removed queued : Nat)
  | stats (values : List Full) (half : Bool)
  | statistic (value : Full)
  | notices (raw masked : List Condition) (cause : Option Condition) (enabled : List Condition)
  | masks (enabled : List Condition)
  | errors (classes : List (ErrorClass × Bool)) (kinds : List (ErrorKind × ErrorRecord))
  | errorsAfter (kinds : List (ErrorKind × Bool × Bool))
  | mode (before after : Mode)
  | setting (value : Nat)
  | settings (values : Settings) (load : Option LoadResult) (saveRunning : Bool) (lastSave : SaveResult)
      (unsaved : Bool)
  | cleared (lots carriers : Nat)
  deriving DecidableEq, Repr

/-- The bytes of a response body whose layout the manual does not give.
FREE VALUE (log 14): no value of it can be proved. -/
opaque Config.bodyBytes : Body → List Byte

/-- A response in a port's send order (R162, R165); `taken` tells the response of a take from a QUEUE_FULL one. -/
structure Response where
  code   : Byte
  tag    : Half
  status : Status
  body   : Body
  taken  : Bool
  deriving DecidableEq, Repr

/-- A request in a port's queue (R161), judged at its take: its kind is not checked at arrival (R160). -/
structure QueuedRequest where
  code : Byte
  tag  : Half
  body : List Byte
  deriving DecidableEq, Repr

inductive Link where
  | down | up
  deriving DecidableEq, Repr

/-- An agent port (R158 to R162). -/
structure Port where
  link         : Link
  partialFrame : List Byte
  queue        : List QueuedRequest
  sendOrder    : List Response
  deriving DecidableEq, Repr

/-- The machine: the commands that wait (the model's own queue, log 1), the ports, the part. -/
structure State where
  pending : List Instr
  ports   : PerPort Port
  part    : Part
  deriving DecidableEq, Repr

/-- Why a step can stop. -/
inductive Fault where
  /-- An access of the serial settings memory outside its 512 bytes. Raised by `memoryRead?` alone; no command makes such
  an access, so no step answers it. Safe. -/
  | noSuchAddress (address : Nat)
  deriving DecidableEq, Repr

/-- Why a command has no meaning. -/
inductive Refusal where
  /-- The command has no meaning yet: raised by an arm of `exec`, by none at present. Safe. -/
  | notModelled (mnemonic : String)
  deriving DecidableEq, Repr

/-! ### Reset -/

/-- The power-on values of the records behind the ports, as their rules state them; `image` is what the serial memory
holds, which a power-on reset does not touch. -/
def Part.powerOn (image : List Host.Cell) (imagePartial : Bool) : Part where
  mode := .localMode
  carriers := ⟨⟨.empty, none, none⟩, ⟨.empty, none, none⟩, ⟨.empty, none, none⟩, ⟨.empty, none, none⟩⟩
  lots := ⟨none, none, none, none⟩
  startCounter := 0
  recipes := [none, none, none, none, none, none, none, none]
  freeCount := 12288
  lists := []
  places := ⟨⟨none, none⟩, ⟨none, none⟩, ⟨none, none⟩, ⟨none, none⟩, ⟨none, none⟩, ⟨none, none⟩, ⟨none, none⟩⟩
  wafers := [none, none, none, none, none, none, none, none, none, none]
  orders := ⟨.idle, .idle, .idle, .idle, .idle, .idle⟩
  orderCounter := 0#16
  lockA := ⟨.atmosphere, none⟩
  lockB := ⟨.atmosphere, none⟩
  atLoad := false
  session := ⟨.idle, none, none, .forward, none, none⟩
  converter := .idle
  convResult := none
  drive := 32768
  focusRequest := none
  focusReference := none
  focusMap := []
  captureLog := []
  nextCapture := 0#16
  credits := 0
  waitingSite := none
  stats := ⟨0#32, 0#32, 0#32, 0#32, 0#32, 0#32, 0#32, 0#32, 0#32, 0#32, 0#32, 0#32⟩
  reportQueue := []
  waitingReports := []
  nextReport := 0#16
  notices := ⟨⟨[], []⟩, ⟨[], []⟩, ⟨[], []⟩⟩
  errors :=
    ⟨⟨false, 0, none, true⟩, ⟨false, 0, none, true⟩, ⟨false, 0, none, true⟩, ⟨false, 0, none, true⟩,
     ⟨false, 0, none, true⟩, ⟨false, 0, none, true⟩, ⟨false, 0, none, true⟩, ⟨false, 0, none, true⟩,
     ⟨false, 0, none, true⟩, ⟨false, 0, none, true⟩, ⟨false, 0, none, true⟩, ⟨false, 0, none, true⟩⟩
  settings := ⟨4, 20, 15, 10, 60, 45, 5, 10, 4, 2000, 32768, 32768, 5⟩
  loading := true
  loadResult := none
  saving := none
  lastSave := .none
  unsaved := false
  memory := image
  imagePartial := imagePartial

/-- A port at power-on: the link is DOWN, nothing is queued, nothing is sent (R158, R161, R162). -/
def Port.powerOn : Port := ⟨.down, [], [], []⟩

/-- The machine right after reset, before any event: every record at the value its rule states for power-on, the settings
load in progress (R178), nothing listed in the serial memory, no command waiting. -/
def State.reset : State where
  pending := []
  ports := ⟨Port.powerOn, Port.powerOn, Port.powerOn⟩
  part := Part.powerOn [] false

end Sys2Proof.Machine
end

