-- ==== Sys2Proof/Machine/Ops.lean ====
section
/-! DEFINITION. The named operations on the part's records that every meaning goes through: reading and writing a table
entry, a lot, a wafer, a place, a slot, a lock, a site entry; raising an event condition; recording an error; counting a
statistic; the serial memory. -/

namespace Sys2Proof.Machine

/-! ### Tables -/

def allLoadPorts : List LoadPort := [.p1, .p2, .p3, .p4]

def LoadPort.num : LoadPort → Nat
  | .p1 => 1 | .p2 => 2 | .p3 => 3 | .p4 => 4

/-- The load port a number names, none outside 1..4 (R1). -/
def LoadPort.ofNum : Nat → Option LoadPort
  | 1 => some .p1 | 2 => some .p2 | 3 => some .p3 | 4 => some .p4 | _ => none

def PerLoadPort.get {α : Type} (t : PerLoadPort α) : LoadPort → α
  | .p1 => t.p1 | .p2 => t.p2 | .p3 => t.p3 | .p4 => t.p4

def PerLoadPort.set {α : Type} (t : PerLoadPort α) (i : LoadPort) (a : α) : PerLoadPort α :=
  match i with
  | .p1 => { t with p1 := a }
  | .p2 => { t with p2 := a }
  | .p3 => { t with p3 := a }
  | .p4 => { t with p4 := a }

def PerPort.get {α : Type} (t : PerPort α) : PortId → α
  | .tool => t.tool | .image => t.image | .automation => t.automation

def PerPort.set {α : Type} (t : PerPort α) (p : PortId) (a : α) : PerPort α :=
  match p with
  | .tool => { t with tool := a }
  | .image => { t with image := a }
  | .automation => { t with automation := a }

def allPlaces : List Place := [.upperBlade, .lowerBlade, .aligner, .lockA, .lockB, .transferArm, .stage]

def PlaceTable.get (t : PlaceTable) : Place → PlaceEntry
  | .upperBlade => t.upperBlade
  | .lowerBlade => t.lowerBlade
  | .aligner => t.aligner
  | .lockA => t.lockA
  | .lockB => t.lockB
  | .transferArm => t.transferArm
  | .stage => t.stage

def PlaceTable.set (t : PlaceTable) (p : Place) (e : PlaceEntry) : PlaceTable :=
  match p with
  | .upperBlade => { t with upperBlade := e }
  | .lowerBlade => { t with lowerBlade := e }
  | .aligner => { t with aligner := e }
  | .lockA => { t with lockA := e }
  | .lockB => { t with lockB := e }
  | .transferArm => { t with transferArm := e }
  | .stage => { t with stage := e }

def allMovers : List Mover := [.ar, .vr, .al, .la, .lb, .st]

def OrderTable.get (t : OrderTable) : Mover → OrderSlot
  | .ar => t.ar | .vr => t.vr | .al => t.al | .la => t.la | .lb => t.lb | .st => t.st

def OrderTable.set (t : OrderTable) (m : Mover) (o : OrderSlot) : OrderTable :=
  match m with
  | .ar => { t with ar := o }
  | .vr => { t with vr := o }
  | .al => { t with al := o }
  | .la => { t with la := o }
  | .lb => { t with lb := o }
  | .st => { t with st := o }

def Stats.get (t : Stats) : Statistic → Full
  | .sitesClassified => t.sitesClassified
  | .sitesSkipped => t.sitesSkipped
  | .sitesFailed => t.sitesFailed
  | .sitesUnclassified => t.sitesUnclassified
  | .capturesIssued => t.capturesIssued
  | .capturesRejected => t.capturesRejected
  | .sweeps => t.sweeps
  | .mapHits => t.mapHits
  | .checksFailed => t.checksFailed
  | .movesCompleted => t.movesCompleted
  | .moveFaults => t.moveFaults
  | .latePosts => t.latePosts

def Stats.set (t : Stats) (k : Statistic) (v : Full) : Stats :=
  match k with
  | .sitesClassified => { t with sitesClassified := v }
  | .sitesSkipped => { t with sitesSkipped := v }
  | .sitesFailed => { t with sitesFailed := v }
  | .sitesUnclassified => { t with sitesUnclassified := v }
  | .capturesIssued => { t with capturesIssued := v }
  | .capturesRejected => { t with capturesRejected := v }
  | .sweeps => { t with sweeps := v }
  | .mapHits => { t with mapHits := v }
  | .checksFailed => { t with checksFailed := v }
  | .movesCompleted => { t with movesCompleted := v }
  | .moveFaults => { t with moveFaults := v }
  | .latePosts => { t with latePosts := v }

/-- The statistics in the order of R143's table. -/
def allStatistics : List Statistic :=
  [.sitesClassified, .sitesSkipped, .sitesFailed, .sitesUnclassified, .capturesIssued, .capturesRejected, .sweeps,
   .mapHits, .checksFailed, .movesCompleted, .moveFaults, .latePosts]

def ErrorTable.get (t : ErrorTable) : ErrorKind → ErrorRecord
  | .linkCrcTool => t.linkCrcTool
  | .linkCrcImage => t.linkCrcImage
  | .linkCrcAutomation => t.linkCrcAutomation
  | .queueOverrun => t.queueOverrun
  | .moverTimeout => t.moverTimeout
  | .moverFault => t.moverFault
  | .lateCompletion => t.lateCompletion
  | .captureTimeout => t.captureTimeout
  | .creditOverflow => t.creditOverflow
  | .focusDisturbed => t.focusDisturbed
  | .idMismatch => t.idMismatch
  | .settingsDefaulted => t.settingsDefaulted

def ErrorTable.set (t : ErrorTable) (k : ErrorKind) (r : ErrorRecord) : ErrorTable :=
  match k with
  | .linkCrcTool => { t with linkCrcTool := r }
  | .linkCrcImage => { t with linkCrcImage := r }
  | .linkCrcAutomation => { t with linkCrcAutomation := r }
  | .queueOverrun => { t with queueOverrun := r }
  | .moverTimeout => { t with moverTimeout := r }
  | .moverFault => { t with moverFault := r }
  | .lateCompletion => { t with lateCompletion := r }
  | .captureTimeout => { t with captureTimeout := r }
  | .creditOverflow => { t with creditOverflow := r }
  | .focusDisturbed => { t with focusDisturbed := r }
  | .idMismatch => { t with idMismatch := r }
  | .settingsDefaulted => { t with settingsDefaulted := r }

/-- The error kinds in the order of R173's table. -/
def allErrorKinds : List ErrorKind :=
  [.linkCrcTool, .linkCrcImage, .linkCrcAutomation, .queueOverrun, .moverTimeout, .moverFault, .lateCompletion,
   .captureTimeout, .creditOverflow, .focusDisturbed, .idMismatch, .settingsDefaulted]

/-- The class of a kind (R173). -/
def ErrorKind.errorClass : ErrorKind → ErrorClass
  | .linkCrcTool | .linkCrcImage | .linkCrcAutomation | .queueOverrun | .lateCompletion | .creditOverflow => .note
  | .moverTimeout | .moverFault | .settingsDefaulted => .tool
  | .captureTimeout | .focusDisturbed | .idMismatch => .wafer

/-! ### Statistics, errors, event conditions -/

/-- A statistic rises by 1 and wraps (R143). -/
def countStat (k : Statistic) (c : Part) : Part :=
  { c with stats := c.stats.set k (c.stats.get k + 1#32) }

/-- One occurrence of an error kind (R173): the first sets the flag and the record, later ones only count, to 255. -/
def noteError (d : ErrorDetail) (r : ErrorRecord) : ErrorRecord :=
  if r.flag then { r with count := min (r.count + 1) 255 }
  else { r with flag := true, count := 1, first := some d }

def recordError (k : ErrorKind) (d : ErrorDetail) (c : Part) : Part :=
  { c with errors := c.errors.set k (noteError d (c.errors.get k)) }

/-- The conditions of a port, in priority order (R169). -/
def conditionsOf : PortId → List Condition
  | .tool => [.carrierReleasable, .moverFaulted, .error, .lotState, .settingsDone]
  | .image => [.capturePending, .creditLow, .session]
  | .automation => [.reportReady, .statsHalf, .lotState, .excursion, .holdSet]

/-- The event conditions; the others are level conditions (R169). -/
def Condition.isEvent : Condition → Bool
  | .lotState | .settingsDone | .session | .excursion | .holdSet => true
  | _ => false

/-- An event condition is raised at a port; one already raised stays raised (R169). -/
def raiseEvent (p : PortId) (x : Condition) (c : Part) : Part :=
  let n := c.notices.get p
  let raised := (conditionsOf p).filter (fun y => y.isEvent && (y == x || n.raised.contains y))
  { c with notices := c.notices.set p { n with raised := raised } }

/-- LOT_STATE is raised at the tool port and at the automation port (R12). -/
def raiseLotState (c : Part) : Part :=
  raiseEvent .automation .lotState (raiseEvent .tool .lotState c)

/-! ### Carriers and lots -/

def Part.carrier (c : Part) (i : LoadPort) : Carrier := c.carriers.get i

def setCarrier (i : LoadPort) (k : Carrier) (c : Part) : Part := { c with carriers := c.carriers.set i k }

def Part.lot? (c : Part) (i : LoadPort) : Option Lot := c.lots.get i

def setLot (i : LoadPort) (l : Option Lot) (c : Part) : Part := { c with lots := c.lots.set i l }

def updateLot (i : LoadPort) (f : Lot → Lot) (c : Part) : Part :=
  match c.lot? i with
  | none => c
  | some l => setLot i (some (f l)) c

/-- The lot record in use with this lot ID (R7: IDs are unique among lot records in use). -/
def Part.findLot (c : Part) (id : Text) : Option LoadPort :=
  allLoadPorts.find? (fun i => match c.lot? i with
    | some l => l.id == id
    | none => false)

def Part.anyLot (c : Part) : Bool := allLoadPorts.any (fun i => (c.lot? i).isSome)

/-- The hold a lot's sources give (R14). -/
def Lot.hold (l : Lot) : Hold :=
  if l.holdTool = some .n ∨ l.holdAuto = some .n ∨ l.holdExc = some .n then .holdN
  else if l.holdTool.isSome ∨ l.holdAuto.isSome ∨ l.holdExc.isSome then .holdW
  else .none

def Lot.entry? (l : Lot) (slot : Nat) : Option Selection := l.selection.find? (fun e => e.slot == slot)

def Lot.updateEntry (slot : Nat) (f : Selection → Selection) (l : Lot) : Lot :=
  { l with selection := l.selection.map (fun e => if e.slot == slot then f e else e) }

def Lot.anyWaiting (l : Lot) : Bool := l.selection.any (fun e => e.status == .waiting)

def WaferCounts.empty : WaferCounts :=
  ⟨0, 0, 0, 0, 0, List.replicate 16 0, [false, false, false, false]⟩

def LotCounters.empty : LotCounters :=
  ⟨0, 0, 0, 0, 0, List.replicate 16 0, 0, 0, 0, 0, []⟩

/-- The recipe table's defaults (R21). -/
def Recipe.default : Recipe := ⟨1, 9, 16, .q1, 5000, 20, 1000, 2, 30, false, [], 2⟩

/-- The recipe of a lot in use. R8 and R21 keep that slot set while the lot is not CLOSED; the defaults stand in for a
slot that no run leaves EMPTY (log 22). -/
def Part.recipeOf (c : Part) (i : LoadPort) : Recipe :=
  match c.lot? i with
  | none => Recipe.default
  | some l => (c.recipes.getD l.recipe none).getD Recipe.default

/-! ### Wafers and places -/

def allTags : List Nat := [0, 1, 2, 3, 4, 5, 6, 7, 8, 9]

def Part.wafer? (c : Part) (t : Nat) : Option Wafer := c.wafers.getD t none

def setWafer (t : Nat) (w : Option Wafer) (c : Part) : Part := { c with wafers := c.wafers.set t w }

def updateWafer (t : Nat) (f : Wafer → Wafer) (c : Part) : Part :=
  match c.wafer? t with
  | none => c
  | some w => setWafer t (some (f w)) c

/-- Whether a lot has a wafer record in use (R18). -/
def Part.lotHasWafer (c : Part) (i : LoadPort) : Bool :=
  allTags.any (fun t => match c.wafer? t with
    | some w => w.lot == i
    | none => false)

def Part.anyWafer (c : Part) : Bool := allTags.any (fun t => (c.wafer? t).isSome)

/-- The free record with the lowest wafer tag (R42). -/
def Part.freeTag (c : Part) : Option Nat := allTags.find? (fun t => (c.wafer? t).isNone)

def Part.lotAborted (c : Part) (i : LoadPort) : Bool :=
  match c.lot? i with
  | none => false
  | some l => l.aborted

def Part.occupant (c : Part) (p : Place) : Option Nat := (c.places.get p).occupant

/-- A place is empty when it has neither an occupant nor a claim (R41). -/
def Part.placeEmpty (c : Part) (p : Place) : Bool :=
  (c.places.get p).occupant.isNone && (c.places.get p).claim.isNone

def setPlace (p : Place) (e : PlaceEntry) (c : Part) : Part := { c with places := c.places.set p e }

def setOccupant (p : Place) (t : Option Nat) (c : Part) : Part :=
  setPlace p { c.places.get p with occupant := t } c

def setClaim (p : Place) (t : Option Nat) (c : Part) : Part :=
  setPlace p { c.places.get p with claim := t } c

def clearOccupant (p : Place) (c : Part) : Part := setOccupant p none c

/-- The wafer arrives at the place that its order brings it to: the claim is cleared, the occupant set (R41, R45). -/
def arrive (t : Nat) (p : Place) (c : Part) : Part :=
  updateWafer t (fun w => { w with place := some p }) (setPlace p ⟨some t, none⟩ c)

def Blade.place : Blade → Place
  | .upper => .upperBlade
  | .lower => .lowerBlade

/-! ### Locks -/

def bothLocks : List LockId := [.a, .b]

def LockId.place : LockId → Place
  | .a => .lockA
  | .b => .lockB

def LockId.mover : LockId → Mover
  | .a => .la
  | .b => .lb

def LockId.other : LockId → LockId
  | .a => .b
  | .b => .a

/-- The lock whose place this is. -/
def Place.lock? : Place → Option LockId
  | .lockA => some .a
  | .lockB => some .b
  | _ => none

/-- The lock whose mover this is. -/
def lockOfMover : Mover → Option LockId
  | .la => some .a
  | .lb => some .b
  | _ => none

def Part.lock (c : Part) : LockId → Lock
  | .a => c.lockA
  | .b => c.lockB

def setLock (k : LockId) (l : Lock) (c : Part) : Part :=
  match k with
  | .a => { c with lockA := l }
  | .b => { c with lockB := l }

def setLockState (k : LockId) (s : LockState) (c : Part) : Part :=
  setLock k { c.lock k with state := s } c

def setReservation (k : LockId) (r : Option Reservation) (c : Part) : Part :=
  setLock k { c.lock k with reservation := r } c

/-- A lock is empty when its place has no occupant and no claim and the lock has no reservation (R51). -/
def Part.lockEmpty (c : Part) (k : LockId) : Bool :=
  c.placeEmpty k.place && (c.lock k).reservation.isNone

/-- The lock whose reservation names this wafer with this purpose. -/
def Part.reservedFor (c : Part) (t : Nat) (p : Purpose) : Option LockId :=
  bothLocks.find? (fun k => (c.lock k).reservation == some ⟨t, p⟩)

/-- The lock loses its reservation when it names this wafer with this purpose. -/
def dropReservation (t : Nat) (p : Purpose) (k : LockId) (c : Part) : Part :=
  if (c.lock k).reservation = some ⟨t, p⟩ then setReservation k none c else c

/-- Both locks lose a reservation that names this wafer with this purpose. -/
def dropReservations (t : Nat) (p : Purpose) (c : Part) : Part :=
  dropReservation t p .b (dropReservation t p .a c)

/-! ### Order slots -/

def Part.slotOf (c : Part) (m : Mover) : OrderSlot := c.orders.get m

def Part.moverIdle (c : Part) (m : Mover) : Bool := c.slotOf m == .idle

def setSlot (m : Mover) (s : OrderSlot) (c : Part) : Part := { c with orders := c.orders.set m s }

/-- The order a slot holds, ISSUED or FAULTED. -/
def OrderSlot.order? : OrderSlot → Option Order
  | .idle => none
  | .issued o => some o
  | .faulted o _ => some o

def OrderSlot.isIssued : OrderSlot → Bool
  | .issued _ => true
  | _ => false

def OrderSlot.isFaulted : OrderSlot → Bool
  | .faulted _ _ => true
  | _ => false

/-- Whether an order in progress, ISSUED or FAULTED, carries or acts on the wafer. -/
def Part.orderNames (c : Part) (t : Nat) : Bool :=
  allMovers.any (fun m => match (c.slotOf m).order? with
    | some o => o.wafer == some t
    | none => false)

/-- The place an order brings its wafer to (R44). -/
def OrderKind.target? : OrderKind → Option Place
  | .arPick blade _ => some blade.place
  | .arPlace _ (.place p) => some p
  | .arPlace _ (.slot _ _) => none
  | .vrPick _ => some .transferArm
  | .vrPlace p => some p
  | _ => none

/-- The place an order takes its wafer from (R45). -/
def OrderKind.source? : OrderKind → Option Place
  | .arPick _ (.place p) => some p
  | .arPick _ (.slot _ _) => none
  | .arPlace blade _ => some blade.place
  | .vrPick p => some p
  | .vrPlace _ => some .transferArm
  | _ => none

/-- The timeout of an order in milliseconds, by the setting R44's table names. -/
def orderTimeoutMs (s : Settings) (m : Mover) (k : OrderKind) : Nat :=
  match k with
  | .pump => s.pumpTimeout * 1000
  | .vent => s.ventTimeout * 1000
  | _ =>
    match m with
    | .ar => s.arTimeout * 1000
    | .vr => s.vrTimeout * 1000
    | .al => s.alTimeout * 1000
    | .la => s.pumpTimeout * 1000
    | .lb => s.pumpTimeout * 1000
    | .st => s.stTimeout * 1000

/-- An order goes out to a mover (R44): it takes the order counter's present value as its tag and the counter moves on
(DESIGN CHOICE, log 26: the first tag is 0), the slot becomes ISSUED with its timer started, and the target place is claimed
for the wafer it carries. -/
def issueOrder (m : Mover) (k : OrderKind) (t : Option Nat) (c : Part) : Part :=
  let c1 := { c with
    orders := c.orders.set m (.issued ⟨k, c.orderCounter, t, some (orderTimeoutMs c.settings m k)⟩)
    orderCounter := c.orderCounter + 1#16 }
  match k.target?, t with
  | some p, some w => setClaim p (some w) c1
  | _, _ => c1

/-! ### Revisit lists and site entries -/

def Part.list? (c : Part) (i : LoadPort) (slot : Nat) : Option RevisitList :=
  c.lists.find? (fun l => l.lot == i && l.slot == slot)

def updateList (i : LoadPort) (slot : Nat) (f : RevisitList → RevisitList) (c : Part) : Part :=
  { c with lists := c.lists.map (fun l => if l.lot == i && l.slot == slot then f l else l) }

def updateEntry (i : LoadPort) (slot n : Nat) (f : SiteEntry → SiteEntry) (c : Part) : Part :=
  updateList i slot (fun l => { l with entries := l.entries.map (fun e => if e.number == n then f e else e) }) c

def RevisitList.entry? (l : RevisitList) (n : Nat) : Option SiteEntry := l.entries.find? (fun e => e.number == n)

def Part.entries (c : Part) (i : LoadPort) (slot : Nat) : List SiteEntry :=
  match c.list? i slot with
  | none => []
  | some l => l.entries

/-- Resolved states (R27). -/
def SiteState.isResolved : SiteState → Bool
  | .classified | .skipped | .failed | .unclassified => true
  | _ => false

/-- In-flight states (R27). -/
def SiteState.isInFlight : SiteState → Bool
  | .moving | .focusing | .captureWait | .capturing => true
  | _ => false

/-- The open count of a list: its entries that are not resolved (R27). -/
def openCount (l : List SiteEntry) : Nat := l.countP (fun e => !e.state.isResolved)

/-- The numbers of the entries of a list that are PENDING, in visiting order. -/
def pendingNumbers (l : List SiteEntry) : List Nat :=
  (l.filter (fun e => e.state == .pending)).map (·.number)

/-- A list ends: its entries return to the pool and it leaves the directory (R38). -/
def freeList (i : LoadPort) (slot : Nat) (c : Part) : Part :=
  { c with
    freeCount := c.freeCount + ((c.lists.filter (fun l => l.lot == i && l.slot == slot)).map (·.entries.length)).sum
    lists := c.lists.filter (fun l => !(l.lot == i && l.slot == slot)) }

/-- Every list of a lot ends (R38). -/
def freeListsOf (i : LoadPort) (c : Part) : Part :=
  { c with
    freeCount := c.freeCount + ((c.lists.filter (fun l => l.lot == i)).map (·.entries.length)).sum
    lists := c.lists.filter (fun l => !(l.lot == i)) }

/-- The site entry that a wafer tag and a site number name, with its lot and slot. -/
def Part.site? (c : Part) (t n : Nat) : Option (LoadPort × Nat × SiteEntry) :=
  match c.wafer? t with
  | none => none
  | some w =>
    match (c.entries w.lot w.slot).find? (fun e => e.number == n) with
    | none => none
    | some e => some (w.lot, w.slot, e)

/-- The entry of a wafer's list is rewritten. -/
def updateSite (t n : Nat) (f : SiteEntry → SiteEntry) (c : Part) : Part :=
  match c.wafer? t with
  | none => c
  | some w => updateEntry w.lot w.slot n f c

/-! ### The session's wafer -/

def Part.sessionLot (c : Part) : Option LoadPort :=
  match c.session.wafer with
  | none => none
  | some t => (c.wafer? t).map (·.lot)

/-- The recipe the session reads each time it uses a field of it (R68). -/
def Part.sessionRecipe (c : Part) : Recipe :=
  match c.sessionLot with
  | none => Recipe.default
  | some i => c.recipeOf i

/-! ### Saturating lot totals (R133, R138) -/

def saturate32 (n : Nat) : Nat := min n 4294967295

/-! ### The serial settings memory (R178, log 6): cells in rising address order, none equal to an erased byte -/

/-- What a byte of the memory reads as. -/
def memoryByte : List Host.Cell → Nat → Byte
  | [], _ => Config.erasedByte
  | (a, b) :: rest, x => if a = x then b else memoryByte rest x

/-- A byte is written; the canonical form is kept. -/
def memoryWrite : List Host.Cell → Nat → Byte → List Host.Cell
  | [], x, v => if v = Config.erasedByte then [] else [(x, v)]
  | (a, b) :: rest, x, v =>
    if x < a then (if v = Config.erasedByte then (a, b) :: rest else (x, v) :: (a, b) :: rest)
    else if x = a then (if v = Config.erasedByte then rest else (x, v) :: rest)
    else (a, b) :: memoryWrite rest x v

/-- Bytes are written from an address on. -/
def memoryWriteFrom (m : List Host.Cell) : Nat → List Byte → List Host.Cell
  | _, [] => m
  | x, v :: rest => memoryWriteFrom (memoryWrite m x v) (x + 1) rest

/-- `n` bytes are read from an address on. -/
def memoryReadFrom (m : List Host.Cell) (x n : Nat) : List Byte :=
  (List.range n).map (fun k => memoryByte m (x + k))

/-- The memory has 512 bytes: a read outside them is an access to an address that does not exist. -/
def memoryRead? (m : List Host.Cell) (x : Nat) : Except Fault Byte :=
  if x < 512 then .ok (memoryByte m x) else .error (.noSuchAddress x)

/-- The canonical form: addresses strictly rising and below 512, no entry an erased byte. -/
def memoryWf : List Host.Cell → Bool
  | [] => true
  | [(a, b)] => decide (a < 512) && b != Config.erasedByte
  | (a, b) :: (a', b') :: rest =>
    decide (a < a') && b != Config.erasedByte && memoryWf ((a', b') :: rest)

end Sys2Proof.Machine
end

