-- ==== Sys2Proof/Machine/Operands.lean ====
section
/-! DEFINITION. What the fields of requests mean: the choice bytes of R168, the ranges of the recipe table, of R25 and
of the settings table, and the settings image of R178. A choice byte that names no value gives none, and the owning
rule refuses it. -/

namespace Sys2Proof.Machine

/-! ### Choices among named values, numbered from 0 in the order the owning rule lists them (R168) -/

def slotStateOf : Byte → Option SlotState
  | 0#8 => some .empty | 1#8 => some .occupied | 2#8 => some .crossed | 3#8 => some .double | _ => none

def priorityOf : Byte → Option Priority
  | 0#8 => some .normal | 1#8 => some .hot | _ => none

def scopeOf : Byte → Option Scope
  | 0#8 => some .w | 1#8 => some .n | _ => none

/-- LOT_RELEASE's choice: OWN gives false, EXCURSION true (R15). -/
def releaseChoiceOf : Byte → Option Bool
  | 0#8 => some false | 1#8 => some true | _ => none

def qualityOf : Byte → Option Quality
  | 0#8 => some .q0 | 1#8 => some .q1 | 2#8 => some .q2 | 3#8 => some .q3 | _ => none

def actionOf : Byte → Option ExcursionAction
  | 0#8 => some .note | 1#8 => some .sample | 2#8 => some .holdW | 3#8 => some .holdN | _ => none

/-- Yes and on are sent as 1, no and off as 0 (R168). -/
def yesNoOf : Byte → Option Bool
  | 0#8 => some false | 1#8 => some true | _ => none

def moverOf : Byte → Option Mover
  | 0#8 => some .ar | 1#8 => some .vr | 2#8 => some .al | 3#8 => some .la | 4#8 => some .lb | 5#8 => some .st
  | _ => none

/-- The dispositions of MOVER_RECOVER (R48). -/
inductive Disposition where
  | atSource | atTarget | removed
  deriving DecidableEq, Repr

def dispositionOf : Byte → Option Disposition
  | 0#8 => some .atSource | 1#8 => some .atTarget | 2#8 => some .removed | _ => none

/-- The results of CAPTURE_DONE: GOOD gives true, REJECT false (R123). -/
def doneResultOf : Byte → Option Bool
  | 0#8 => some true | 1#8 => some false | _ => none

def modeOf : Byte → Option Mode
  | 0#8 => some .localMode | 1#8 => some .remoteMode | _ => none

def statisticOf (b : Byte) : Option Statistic := allStatistics[b.toNat]?

/-- The conditions in the row order of R169; row 10 is LOT_STATE's second row, and a condition takes the number of its
first (R168), so 10 names none. -/
def conditionOf : Byte → Option Condition
  | 0#8 => some .carrierReleasable
  | 1#8 => some .moverFaulted
  | 2#8 => some .error
  | 3#8 => some .lotState
  | 4#8 => some .settingsDone
  | 5#8 => some .capturePending
  | 6#8 => some .creditLow
  | 7#8 => some .session
  | 8#8 => some .reportReady
  | 9#8 => some .statsHalf
  | 11#8 => some .excursion
  | 12#8 => some .holdSet
  | _ => none

/-- Twelve kinds from 0, in the order of R173. -/
def errorKindOf (b : Byte) : Option ErrorKind := allErrorKinds[b.toNat]?

/-- NOTE, TOOL and WAFER as 12, 13 and 14. -/
def errorClassOf : Byte → Option ErrorClass
  | 12#8 => some .note | 13#8 => some .tool | 14#8 => some .wafer | _ => none

/-- The kinds a name stands for: itself, or the kinds of a class. -/
def errorNameOf (b : Byte) : Option (List ErrorKind) :=
  match errorKindOf b with
  | some k => some [k]
  | none =>
    match errorClassOf b with
    | some x => some (allErrorKinds.filter (fun k => k.errorClass == x))
    | none => none

/-- Every item is mapped, none when one of them has no value. -/
def mapAll {α β : Type} (f : α → Option β) : List α → Option (List β)
  | [] => some []
  | a :: rest =>
    match f a with
    | none => none
    | some b =>
      match mapAll f rest with
      | none => none
      | some l => some (b :: l)

/-! ### Ranges -/

def inRange (lo hi n : Nat) : Bool := decide (lo ≤ n) && decide (n ≤ hi)

/-- A text of 1..n characters. -/
def textWithin (n : Nat) (t : Text) : Bool := inRange 1 n t.length

/-- One slot map entry as R3 checks it: a slot state of the four; an expected wafer ID of 1..24 characters, only on an
OCCUPIED entry. -/
def slotEntryOf (f : SlotField) : Option SlotEntry :=
  match slotStateOf f.state with
  | none => none
  | some s =>
    match f.expected with
    | none => some ⟨s, none⟩
    | some t => if textWithin 24 t ∧ s = .occupied then some ⟨s, some t⟩ else none

/-- The slot map SLOT_MAP carries, none when R3 refuses it. -/
def slotMapOf (l : List SlotField) : Option (List SlotEntry) :=
  if l.length = 25 then mapAll slotEntryOf l else none

/-- A field given must lie in its range; a field left out takes its default (R21). -/
def numberField (lo hi dflt : Nat) : Option Nat → Option Nat
  | none => some dflt
  | some n => if inRange lo hi n then some n else none

def choiceField {α : Type} (f : Byte → Option α) (dflt : α) : Option Byte → Option α
  | none => some dflt
  | some b => f b

def excursionOf (e : ExcursionField) : Option ExcursionEntry :=
  match actionOf e.action with
  | none => none
  | some a => if inRange 1 15 e.cls.toNat ∧ inRange 1 4095 e.limit.toNat then some ⟨e.cls.toNat, e.limit.toNat, a⟩ else none

/-- The excursion list: at most 4 entries, empty when left out (R21). -/
def excursionsOf : Option (List ExcursionField) → Option (List ExcursionEntry)
  | none => some []
  | some l => if l.length ≤ 4 then mapAll excursionOf l else none

def byteNat (b : Option Byte) : Option Nat := b.map BitVec.toNat

def halfNat (b : Option Half) : Option Nat := b.map BitVec.toNat

/-- The recipe that RECIPE_SET's fields give, none when a field lies outside its range (R21, check 3). -/
def recipeOfFields (f : RecipeFields) : Option Recipe := do
  let d := Recipe.default
  let resolution ← numberField 0 3 d.resolution (byteNat f.resolution)
  let sweepSteps ← numberField 5 15 d.sweepSteps (byteNat f.sweepSteps)
  if sweepSteps % 2 = 0 then none
  let stepSize ← numberField 1 255 d.stepSize (byteNat f.stepSize)
  let quality ← choiceField qualityOf d.quality f.quality
  let mapRadius ← numberField 100 50000 d.mapRadius (halfNat f.mapRadius)
  let mapLifetime ← numberField 1 255 d.mapLifetime (byteNat f.mapLifetime)
  let focusHold ← numberField 100 5000 d.focusHold (halfNat f.focusHold)
  let attemptLimit ← numberField 1 4 d.attemptLimit (byteNat f.attemptLimit)
  let classWait ← numberField 1 600 d.classWait (halfNat f.classWait)
  let readId ← choiceField yesNoOf d.readId f.readId
  let excursions ← excursionsOf f.excursions
  let samplingFloor ← numberField 0 3 d.samplingFloor (byteNat f.samplingFloor)
  return ⟨resolution, sweepSteps, stepSize, quality, mapRadius, mapLifetime, focusHold, attemptLimit, classWait, readId,
    excursions, samplingFloor⟩

/-- A coordinate within 150,000 micrometres either way (R25). -/
def coordinateOk (v : Int) : Bool := decide (-150000 ≤ v) && decide (v ≤ 150000)

/-- The entry a site's fields give when each lies in its range (R25), its review fields as R26 sets them at the load. -/
def siteEntryOf (f : SiteField) : Option SiteEntry :=
  if inRange 1 4095 f.number.toNat ∧ coordinateOk f.x.toInt ∧ coordinateOk f.y.toInt ∧ inRange 0 3 f.priority.toNat then
    some ⟨f.number.toNat, f.row.toInt, f.col.toInt, f.x.toInt, f.y.toInt, f.inspClass.toNat, f.size.toNat,
      f.priority.toNat, .pending, 0, none, none, none, none⟩
  else none

/-- The visiting order (R30): die row, die column, x, y, site number. -/
def entryBefore (a b : SiteEntry) : Bool :=
  if a.row ≠ b.row then decide (a.row < b.row)
  else if a.col ≠ b.col then decide (a.col < b.col)
  else if a.x ≠ b.x then decide (a.x < b.x)
  else if a.y ≠ b.y then decide (a.y < b.y)
  else decide (a.number < b.number)

/-- An entry is placed at its position in the visiting order (R30). -/
def insertEntry (e : SiteEntry) : List SiteEntry → List SiteEntry
  | [] => [e]
  | f :: rest => if entryBefore e f then e :: f :: rest else f :: insertEntry e rest

/-! ### Settings (the table of 11) -/

def allSettings : List SettingName :=
  [.portsFitted, .arTimeout, .vrTimeout, .alTimeout, .pumpTimeout, .ventTimeout, .stTimeout, .captureTimeout, .creditLow,
   .waferCap, .nominalZ, .parkZ, .settleTime]

def settingNameOf (b : Byte) : Option SettingName := allSettings[b.toNat]?

def Settings.get (s : Settings) : SettingName → Nat
  | .portsFitted => s.portsFitted
  | .arTimeout => s.arTimeout
  | .vrTimeout => s.vrTimeout
  | .alTimeout => s.alTimeout
  | .pumpTimeout => s.pumpTimeout
  | .ventTimeout => s.ventTimeout
  | .stTimeout => s.stTimeout
  | .captureTimeout => s.captureTimeout
  | .creditLow => s.creditLow
  | .waferCap => s.waferCap
  | .nominalZ => s.nominalZ
  | .parkZ => s.parkZ
  | .settleTime => s.settleTime

def Settings.set (s : Settings) (k : SettingName) (v : Nat) : Settings :=
  match k with
  | .portsFitted => { s with portsFitted := v }
  | .arTimeout => { s with arTimeout := v }
  | .vrTimeout => { s with vrTimeout := v }
  | .alTimeout => { s with alTimeout := v }
  | .pumpTimeout => { s with pumpTimeout := v }
  | .ventTimeout => { s with ventTimeout := v }
  | .stTimeout => { s with stTimeout := v }
  | .captureTimeout => { s with captureTimeout := v }
  | .creditLow => { s with creditLow := v }
  | .waferCap => { s with waferCap := v }
  | .nominalZ => { s with nominalZ := v }
  | .parkZ => { s with parkZ := v }
  | .settleTime => { s with settleTime := v }

/-- The range of a setting. -/
def settingRange : SettingName → Nat × Nat
  | .portsFitted => (1, 4)
  | .arTimeout | .vrTimeout | .alTimeout | .pumpTimeout | .ventTimeout | .stTimeout => (1, 120)
  | .captureTimeout => (1, 60)
  | .creditLow => (0, 255)
  | .waferCap => (1, 4095)
  | .nominalZ | .parkZ => (0, 65535)
  | .settleTime => (1, 50)

/-- A value clamped into a setting's range (R178). -/
def clampSetting (k : SettingName) (v : Nat) : Nat :=
  max (settingRange k).1 (min v (settingRange k).2)

/-- The defaults of the settings table. -/
def defaultSettings : Settings := ⟨4, 20, 15, 10, 60, 45, 5, 10, 4, 2000, 32768, 32768, 5⟩

/-! ### The settings image (R178): version, thirteen 4-byte fields, CRC -/

def imageVersion : Half := 1#16

/-- The first 54 bytes of the image of these settings. -/
def imageCovered (s : Settings) : List Byte :=
  encodeHalf imageVersion ++ (allSettings.map (fun k => encodeFull (BitVec.ofNat 32 (s.get k)))).flatten

/-- The 56 bytes of the image. -/
def settingsImage (s : Settings) : List Byte :=
  imageCovered s ++ encodeHalf (crc16 (imageCovered s))

/-- The number stored at an offset of the image, least significant byte first. -/
def imageHalf (bytes : List Byte) (at' : Nat) : Half :=
  joinHalf (bytes.getD at' 0#8) (bytes.getD (at' + 1) 0#8)

def imageFull (bytes : List Byte) (at' : Nat) : Nat :=
  (joinFull (bytes.getD at' 0#8) (bytes.getD (at' + 1) 0#8) (bytes.getD (at' + 2) 0#8) (bytes.getD (at' + 3) 0#8)).toNat

/-- The setting a stored field holds, before clamping: fields stand from offset 2 in table order. -/
def storedSetting (bytes : List Byte) (k : SettingName) : Nat :=
  imageFull bytes (2 + 4 * allSettings.idxOf k)

/-- The stored settings, each passed through `f`. -/
def storedSettings (f : SettingName → Nat → Nat) (bytes : List Byte) : Settings :=
  allSettings.foldl (fun s k => s.set k (f k (storedSetting bytes k))) defaultSettings

/-- How the read of an image ends (R178): the working settings and the load result. -/
def loadImage (bytes : List Byte) : Settings × LoadResult :=
  if imageHalf bytes 54 ≠ crc16 (bytes.take 54) then (defaultSettings, .defaulted .crc)
  else if imageHalf bytes 0 ≠ imageVersion then (defaultSettings, .defaulted .version)
  else
    let clamped := storedSettings clampSetting bytes
    if clamped = storedSettings (fun _ v => v) bytes then (clamped, .loaded) else (clamped, .loadedClamped)

end Sys2Proof.Machine
end

