-- ==== Sys2Proof/Machine/Flags.lean ====
section
/-! DEFINITION. The conditions and the notice lines (R169 to R172, R175): views computed from the states they follow, so
that a level condition is raised exactly while its state holds (log 18). -/

namespace Sys2Proof.Machine

/-- STATS_HALF: some statistic is 2,147,483,648 or greater (R144). -/
def statsHalf (s : Stats) : Bool := allStatistics.any (fun k => (s.get k).msb)

/-- ERROR: some kind has its flag set and its reporting on (R175). -/
def errorStands (t : ErrorTable) : Bool := allErrorKinds.any (fun k => (t.get k).flag && (t.get k).reporting)

/-- Whether a level condition's state holds (R169). -/
def levelStands (c : Part) : Condition → Bool
  | .carrierReleasable => allLoadPorts.any (fun i => (c.carrier i).state == .releasable)
  | .moverFaulted => allMovers.any (fun m => (c.slotOf m).isFaulted)
  | .error => errorStands c.errors
  | .capturePending => c.captureLog.any (fun r => r.state == .unfetched)
  | .creditLow => decide (c.credits < c.settings.creditLow)
  | .reportReady => !c.reportQueue.isEmpty
  | .statsHalf => statsHalf c.stats
  | _ => false

/-- Whether a condition of a port is raised (R169). -/
def conditionRaised (c : Part) (p : PortId) (x : Condition) : Bool :=
  if x.isEvent then (c.notices.get p).raised.contains x else levelStands c x

/-- The raw set of a port, in priority order (R169). -/
def rawSet (c : Part) (p : PortId) : List Condition :=
  (conditionsOf p).filter (conditionRaised c p)

/-- The masked set: the raw set without the MASKED conditions (R170). -/
def maskedSet (c : Part) (p : PortId) : List Condition :=
  (rawSet c p).filter (fun x => (c.notices.get p).enabled.contains x)

/-- The cause: the masked condition of the highest priority (R172). -/
def noticeCause (c : Part) (p : PortId) : Option Condition := (maskedSet c p).head?

/-- The notice line of a port is high while its masked set is non-empty (R170). -/
def noticeLine (c : Part) (p : PortId) : Bool := !(maskedSet c p).isEmpty

/-- Masks of named conditions become ENABLED (R171). -/
def enableMasks (p : PortId) (xs : List Condition) (c : Part) : Part :=
  let n := c.notices.get p
  let enabled := (conditionsOf p).filter (fun y => xs.contains y || n.enabled.contains y)
  { c with notices := c.notices.set p { n with enabled := enabled } }

/-- Masks of named conditions become MASKED (R171). -/
def disableMasks (p : PortId) (xs : List Condition) (c : Part) : Part :=
  let n := c.notices.get p
  let enabled := (conditionsOf p).filter (fun y => !xs.contains y && n.enabled.contains y)
  { c with notices := c.notices.set p { n with enabled := enabled } }

/-- A NOTICE_READ clears the event conditions it returned: all that were raised (R172). -/
def clearEvents (p : PortId) (c : Part) : Part :=
  { c with notices := c.notices.set p { c.notices.get p with raised := [] } }

/-- A port reset sets every mask to MASKED and clears every event condition of its port (R159). -/
def resetNotices (p : PortId) (c : Part) : Part :=
  { c with notices := c.notices.set p ⟨[], []⟩ }

/-- The conditions NOTICE_MASK_SET or NOTICE_MASK_CLEAR names, none when one is no condition of the port (R171). -/
def namedConditions (p : PortId) (names : List Byte) : Option (List Condition) :=
  mapAll (fun b => match conditionOf b with
    | none => none
    | some x => if (conditionsOf p).contains x then some x else none) names

/-- The error kinds that keep the ERROR table's order (R176). -/
def inTableOrder (ks : List ErrorKind) : List ErrorKind := allErrorKinds.filter (fun k => ks.contains k)

/-- Clearing a kind (R177): flag, count and record; its reporting enable stays. -/
def clearError (c : Part) (k : ErrorKind) : Part :=
  { c with errors := c.errors.set k { c.errors.get k with flag := false, count := 0, first := none } }

/-- Writing a reporting enable (R177). -/
def setReporting (c : Part) (change : ErrorKind × Bool) : Part :=
  { c with errors := c.errors.set change.1 { c.errors.get change.1 with reporting := change.2 } }

end Sys2Proof.Machine
end

