-- ==== Sys2Proof/Machine/Focus.lean ====
section
/-! DEFINITION. The Focus Unit (05): conversions, checks, sweeps, the focus map, the request in progress. The answers to
the session are in Sessions.lean. -/

namespace Sys2Proof.Machine

/-! ### The converter -/

/-- The full-scale count of a resolution (R91's table). -/
def fullScale : Nat → Nat
  | 0 => 8192 | 1 => 4096 | 2 => 2048 | _ => 1024

/-- The lengths of a conversion's phases in milliseconds, by resolution (R91's table): ZERO, INTEGRATE, DEINTEGRATE. -/
def phaseMs : Nat → Nat × Nat × Nat
  | 0 => (8, 16, 8) | 1 => (4, 8, 4) | 2 => (2, 4, 2) | _ => (1, 2, 1)

/-- The milliseconds of the converter's running timer, absent in IDLE (R91, R92). -/
def Converter.timer : Converter → Option Nat
  | .idle => none
  | .settling _ ms => some ms
  | .zero r => some (phaseMs r).1
  | .integrate r => some (phaseMs r).2.1
  | .deintegrate r => some (phaseMs r).2.2

/-- Whether a conversion is running (R109). -/
def Converter.converting : Converter → Bool
  | .zero _ | .integrate _ | .deintegrate _ => true
  | _ => false

/-- The quality threshold (R95). -/
def threshold (resolution : Nat) : Quality → Nat
  | .q0 => fullScale resolution / 2
  | .q1 => fullScale resolution * 3 / 8
  | .q2 => fullScale resolution / 4
  | .q3 => fullScale resolution / 8

/-- A drive value computed outside 0..65,535 is applied at the nearer end (R94). -/
def clampDrive (z : Int) : Nat := (max 0 (min z 65535)).toNat

/-- A conversion starts at a drive value (R92): settling first when the value changes; a start during SETTLING at the
same value lets it run on. -/
def startConversion (z : Nat) (c : Part) : Part :=
  if z = c.drive then
    match c.converter with
    | .settling _ _ => c
    | _ => { c with converter := .zero c.sessionRecipe.resolution }
  else { c with drive := z, converter := .settling c.sessionRecipe.resolution c.settings.settleTime }

/-! ### Sweeps -/

/-- The drive value of step `k` of a sweep of `n` steps of size `s` around `centre` (R101). -/
def stepDrive (centre n s k : Nat) : Nat :=
  clampDrive ((centre : Int) + ((k : Int) - ((n : Int) + 1) / 2) * (s : Int))

/-- A sweep is counted in SWEEPS and in the lot totals of the session wafer's lot (R101, R138). -/
def countSweep (c : Part) : Part :=
  let c := countStat .sweeps c
  match c.sessionLot with
  | none => c
  | some i => updateLot i (fun l => { l with counters := { l.counters with sweeps := saturate32 (l.counters.sweeps + 1) } }) c

/-- A map hit is counted in MAP_HITS and in the lot totals of the session wafer's lot (R98, R138). -/
def countMapHit (c : Part) : Part :=
  let c := countStat .mapHits c
  match c.sessionLot with
  | none => c
  | some i =>
    updateLot i (fun l => { l with counters := { l.counters with mapHits := saturate32 (l.counters.mapHits + 1) } }) c

/-- Step `k` of the sweep of `r` starts its conversion and enters the sweep record. -/
def startStep (r : FocusRequest) (centre k : Nat) (c : Part) : Part :=
  let z := stepDrive centre c.sessionRecipe.sweepSteps c.sessionRecipe.stepSize k
  { startConversion z c with focusRequest := some { r with step := k, drives := r.drives ++ [z], restarts := 0 } }

/-- A sweep or re-sweep begins around a centre (R101). The check's z and reference become absent (DEDUCED, log 27). -/
def beginSweep (stage : FocusStage) (centre : Nat) (r : FocusRequest) (c : Part) : Part :=
  startStep { r with stage := stage, checkZ := none, checkRef := none, centre := some centre, counts := [], drives := [] }
    centre 1 (countSweep c)

/-- A check begins at a z against a reference sharpness (R98). R96 gives the step index no value outside a sweep: 0 stands
there for "no step" (DESIGN CHOICE, log 30). -/
def beginCheck (z ref : Nat) (r : FocusRequest) (c : Part) : Part :=
  { startConversion z c with
    focusRequest := some { r with stage := .check, checkZ := some z, checkRef := some ref, step := 0, restarts := 0 } }

/-- The peak step (R102): the greatest count; of several, the one nearest the centre step; of two, the lower index. -/
def peakStep (counts : List Nat) (n : Nat) : Nat :=
  let top := counts.foldl max 0
  let centre := (n + 1) / 2
  let away := fun k : Nat => if k ≤ centre then centre - k else k - centre
  ((List.range n).map (· + 1)).foldl
    (fun best k =>
      if counts.getD (k - 1) 0 = top then (if best = 0 ∨ away k < away best then k else best) else best) 0

/-- The accepted z of a sweep (R103): the parabola's offset from the peak step, rounded to the nearest unit with halves
to the higher, clamped. -/
def parabolaZ (z0 s : Nat) (below peak above : Nat) : Nat :=
  let d : Int := 2 * ((below : Int) - 2 * (peak : Int) + (above : Int))
  if d = 0 then clampDrive (z0 : Int)
  else
    -- offset = S (c- - c+) / d; with the divisor made positive, the rounded offset is floor ((2 num + den) / (2 den))
    let num : Int := if d < 0 then -((s : Int) * ((below : Int) - (above : Int))) else (s : Int) * ((below : Int) - (above : Int))
    let den : Int := if d < 0 then -d else d
    clampDrive ((z0 : Int) + (2 * num + den) / (2 * den))

/-- What the evaluation of a sweep's counts finds (R102). -/
inductive SweepVerdict where
  | low
  | edge (drive : Nat)
  | accept (z sharpness : Nat)
  deriving DecidableEq, Repr

/-- The evaluation when the last step's count has been taken (R102). -/
def evaluateSweep (limit n s : Nat) (counts drives : List Nat) : SweepVerdict :=
  if counts.foldl max 0 < limit then .low
  else
    let k := peakStep counts n
    let z0 := drives.getD (k - 1) 0
    if k ≤ 1 ∨ n ≤ k then .edge z0
    else
      .accept (parabolaZ z0 s (counts.getD (k - 2) 0) (counts.getD (k - 1) 0) (counts.getD k 0)) (counts.getD (k - 1) 0)

/-! ### The focus map -/

def distance2 (x y x' y' : Int) : Int := (x - x') * (x - x') + (y - y') * (y - y')

/-- The nearest point of the map; of several equally near, the one nearest the newest end (R97). -/
def nearestPoint (x y : Int) (m : List MapPoint) : Option MapPoint :=
  m.foldl (fun best p =>
    match best with
    | none => some p
    | some b => if distance2 x y p.x p.y ≤ distance2 x y b.x b.y then some p else best) none

/-- An accepted sweep adds its point (R106): closer points than a quarter of the radius go, the point joins the newest
end, and of 49 points the oldest goes. -/
def addMapPoint (radius : Nat) (p : MapPoint) (m : List MapPoint) : List MapPoint :=
  let kept := m.filter (fun q => !decide (16 * distance2 q.x q.y p.x p.y < (radius : Int) * (radius : Int)))
  let grown := kept ++ [p]
  if grown.length = 49 then grown.drop 1 else grown

def clearMap (c : Part) : Part := { c with focusMap := [] }

/-! ### Requests -/

/-- The request in progress is abandoned without an answer (R111). -/
def abandonFocus (c : Part) : Part := { c with converter := .idle, focusRequest := none }

/-- The sweep record as a request fills it (R96), before its first stage begins; its step index 0 is log 30's. -/
def newFocusRequest (kind : FocusKind) (x y : Int) : FocusRequest :=
  { kind, x, y, stage := .sweep, checkZ := none, checkRef := none, centre := none, step := 0, counts := [], drives := [],
    restarts := 0 }

/-- The FU takes a request of the session (R96, R97, R99, R100); `z` is the accepted z of a RECHECK or the z of the
rejected capture of a FORCED request. A request in progress is abandoned first. -/
def takeFocusRequest (kind : FocusKind) (x y : Int) (z : Nat) (c : Part) : Part :=
  let c := if c.focusRequest.isSome then abandonFocus c else c
  let r := newFocusRequest kind x y
  match kind with
  | .predicted =>
    match nearestPoint x y c.focusMap with
    | none => beginSweep .sweep c.settings.nominalZ r c
    | some p =>
      if distance2 x y p.x p.y ≤ (c.sessionRecipe.mapRadius : Int) * (c.sessionRecipe.mapRadius : Int) then
        beginCheck p.z p.sharpness r c
      else beginSweep .sweep p.z r c
  | .recheck => beginCheck z (match c.focusReference with | none => 0 | some q => q.sharpness) r c
  | .nominal => beginSweep .sweep c.settings.nominalZ r c
  | .forced => beginSweep .sweep (clampDrive (z : Int)) r c

/-- At session begin the map is cleared and the reference made absent (R96, R108). -/
def focusSessionBegin (c : Part) : Part := { c with focusMap := [], focusReference := none }

/-- At session end the map is cleared, the reference made absent and the drive parked (R94, R96, R108). -/
def focusSessionEnd (c : Part) : Part :=
  { c with focusMap := [], focusReference := none, drive := c.settings.parkZ }

end Sys2Proof.Machine
end

