-- ==== Sys2Proof/Machine/Captures.lean ====
section
/-! DEFINITION. The Capture Exchange (06): the waiting site, the issue of a capture, the freeing of a record. -/

namespace Sys2Proof.Machine

/-- The capture log's capacity (R114). -/
def captureCapacity : Nat := 32

/-- Capture issue (R119) of the waiting site `w`, whose entry is `e` of the list of lot `i` and slot `slot`. -/
def issueCapture (w : WaitingSite) (i : LoadPort) (slot : Nat) (e : SiteEntry) (c : Part) : Part :=
  let rec' : CaptureRecord :=
    { number := c.nextCapture, wafer := w.wafer, site := e.number, x := e.x, y := e.y, inspClass := e.inspClass
      size := e.size, z := e.acceptedZ.getD 0, resolution := (c.recipeOf i).resolution, sharpness := w.sharpness
      attempt := e.attempts + 1, state := .unfetched, timer := c.settings.captureTimeout * 1000 }
  let c := { c with
    waitingSite := none
    credits := c.credits - 1
    captureLog := c.captureLog ++ [rec']
    nextCapture := c.nextCapture + 1#16 }
  let c := updateEntry i slot e.number (fun e => { e with state := .capturing, captureNo := some rec'.number }) c
  let c := countStat .capturesIssued c
  updateLot i (fun l => { l with counters := { l.counters with captures := saturate32 (l.counters.captures + 1) } }) c

/-- The CX tries to issue the waiting site (R118): a credit and a free record are both at hand. -/
def tryIssue (c : Part) : Part :=
  match c.waitingSite with
  | none => c
  | some w =>
    if 1 ≤ c.credits ∧ c.captureLog.length < captureCapacity then
      match c.site? w.wafer w.site with
      | none => c
      | some (i, slot, e) => issueCapture w i slot e c
    else c

/-- The session hands a site over (R118): it becomes the waiting site; when it is not issued in this event, the focus
hold timer starts. -/
def handOver (t n sharpness : Nat) (c : Part) : Part :=
  let c := tryIssue { c with waitingSite := some ⟨t, n, sharpness, none⟩ }
  match c.waitingSite with
  | none => c
  | some w => { c with waitingSite := some { w with timer := some c.sessionRecipe.focusHold } }

/-- The waiting site is withdrawn and its timer stopped (R121). -/
def withdrawWaiting (c : Part) : Part := { c with waitingSite := none }

def Part.capture? (c : Part) (n : Half) : Option CaptureRecord := c.captureLog.find? (fun r => r.number == n)

def updateCapture (n : Half) (f : CaptureRecord → CaptureRecord) (c : Part) : Part :=
  { c with captureLog := c.captureLog.map (fun r => if r.number == n then f r else r) }

/-- A record leaves the log, and the waiting site may take the freed place (R130). -/
def freeRecord (n : Half) (c : Part) : Part :=
  tryIssue { c with captureLog := c.captureLog.filter (fun r => !(r.number == n)) }

/-- A DONE with REJECT adds one rejection (R125, R138). -/
def countRejection (i : LoadPort) (c : Part) : Part :=
  updateLot i (fun l => { l with counters := { l.counters with rejections := saturate32 (l.counters.rejections + 1) } })
    (countStat .capturesRejected c)

end Sys2Proof.Machine
end

