-- ==== Sys2Proof/Machine/Counts.lean ====
section
/-! DEFINITION. The resolution of site entries (R27), their counting (R136), the firing of excursion entries (R139,
R140), the EXCURSION hold source (R16) and what HOLD.N does to the session (R84). -/

namespace Sys2Proof.Machine

/-! ### HOLD.N on the session -/

/-- The site in flight goes back to PENDING without its accepted z, and is no longer in flight (R84). -/
def returnToPending (t n : Nat) (c : Part) : Part :=
  let c := updateSite t n (fun e => { e with state := .pending, acceptedZ := none }) c
  { c with session := { c.session with inFlight := none } }

def setSessionState (s : SessionState) (c : Part) : Part := { c with session := { c.session with state := s } }

/-- The state of the site in flight, absent when there is none. -/
def Part.inFlightState (c : Part) : Option SiteState :=
  match c.session.wafer, c.session.inFlight with
  | some t, some n =>
    match c.site? t n with
    | none => none
    | some (_, _, e) => some e.state
  | _, _ => none

/-- The table of R84 for an ACTIVE session; a session in another state stays as it is. -/
def pauseSession (c : Part) : Part :=
  if c.session.state = .active then
    match c.session.wafer, c.session.inFlight, c.inFlightState with
    | some _, some _, some .moving => setSessionState .pausing c
    | some t, some n, some .focusing => setSessionState .paused (returnToPending t n (abandonFocus c))
    | some t, some n, some .captureWait => setSessionState .paused (returnToPending t n (withdrawWaiting c))
    | some _, some _, some .capturing => setSessionState .pausing c
    | _, _, _ => setSessionState .paused c
  else c

/-- A lot record takes changed hold sources (R14): a change of the derived hold raises LOT_STATE (R12), and a hold that
becomes HOLD.N reaches the session when its wafer belongs to the lot (R84). -/
def tightenHold (i : LoadPort) (old new : Lot) (c : Part) : Part :=
  let c := setLot i (some new) c
  if old.hold = new.hold then c
  else
    let c := raiseLotState c
    if new.hold = .holdN ∧ c.sessionLot = some i then pauseSession c else c

/-- The LT is asked to record the source EXCURSION (R16). -/
def recordExcursionHold (i : LoadPort) (scope : Scope) (c : Part) : Part :=
  match c.lot? i with
  | none => c
  | some l =>
    if (l.state = .running ∨ l.state = .draining) ∧ l.aborted = false then
      let scope := if l.holdExc = some .n then Scope.n else scope
      raiseEvent .automation .holdSet (tightenHold i l { l with holdExc := some scope } c)
    else c

/-! ### Excursion firing -/

/-- The action of a firing (R140, step 2); SAMPLE acts through the flag alone (R134). -/
def excursionAction (i : LoadPort) : ExcursionAction → Part → Part
  | .note, c => c
  | .sample, c => c
  | .holdW, c => recordExcursionHold i .w c
  | .holdN, c => recordExcursionHold i .n c

/-- The flag at a position of the excursion list is set (R134). -/
def setFlag (pos : Nat) (k : WaferCounts) : WaferCounts := { k with flags := k.flags.set (pos - 1) true }

/-- The first firing of a position for the lot is kept as an event (R140, step 1). -/
def addEvent (v : ExcursionEvent) (k : LotCounters) : LotCounters :=
  if k.events.any (fun w => w.position == v.position) then k else { k with events := k.events ++ [v] }

/-- A firing (R139, R140): the flag, the lot event, the action, the notice. -/
def fireEntry (i : LoadPort) (slot pos : Nat) (x : ExcursionEntry) (c : Part) : Part :=
  let c := updateLot i (fun l =>
    let l := l.updateEntry slot (fun e => { e with counts := setFlag pos e.counts })
    { l with counters := addEvent ⟨slot, x.cls, x.limit, x.action, pos⟩ l.counters }) c
  raiseEvent .automation .excursion (excursionAction i x.action c)

/-- Whether an entry fires (R139): its class, its limit, its flag. -/
def entryFires (c : Part) (i : LoadPort) (slot cls count pos : Nat) (x : ExcursionEntry) : Bool :=
  x.cls == cls && x.limit == count &&
    match c.lot? i with
    | none => false
    | some l =>
      match l.entry? slot with
      | none => false
      | some e => !(e.counts.flags.getD (pos - 1) true)

/-- The entries of the excursion list are compared in list order (R139). -/
def compareEntries (i : LoadPort) (slot cls count : Nat) : Nat → List ExcursionEntry → Part → Part
  | _, [], c => c
  | pos, x :: rest, c =>
    compareEntries i slot cls count (pos + 1) rest
      (if entryFires c i slot cls count pos x then fireEntry i slot pos x c else c)

/-- The slot's count of a class. -/
def Part.classCount (c : Part) (i : LoadPort) (slot cls : Nat) : Nat :=
  match c.lot? i with
  | none => 0
  | some l =>
    match l.entry? slot with
    | none => 0
    | some e => e.counts.classes.getD cls 0

/-- Whether a wafer is sampled: a set flag belongs to an entry whose action is SAMPLE (R134). -/
def Part.sampled (c : Part) (i : LoadPort) (slot : Nat) : Bool :=
  match c.lot? i with
  | none => false
  | some l =>
    match l.entry? slot with
    | none => false
    | some e => ((c.recipeOf i).excursions.zip e.counts.flags).any (fun p => p.1.action == .sample && p.2)

/-! ### Resolution -/

/-- The resolved states with what they carry (R27). -/
inductive Resolution where
  | classified (cls confidence : Nat)
  | skipped (why : Reason)
  | failed (why : Reason)
  | unclassified
  deriving DecidableEq, Repr

/-- The review fields of an entry that is resolved (R26): the capture number goes, the accepted z stays. -/
def resolveEntry (r : Resolution) (e : SiteEntry) : SiteEntry :=
  match r with
  | .classified cls confidence =>
    { e with state := .classified, captureNo := none, classResult := some (cls, confidence) }
  | .skipped why => { e with state := .skipped, captureNo := none, reason := some why }
  | .failed why => { e with state := .failed, captureNo := none, reason := some why }
  | .unclassified => { e with state := .unclassified, captureNo := none }

/-- One more in a class count. -/
def bumpClass (cls : Nat) (counts : List Nat) : List Nat := counts.set cls (counts.getD cls 0 + 1)

/-- The slot counter of a resolution (R136). -/
def countWafer (r : Resolution) (k : WaferCounts) : WaferCounts :=
  match r with
  | .classified cls _ => { k with classified := k.classified + 1, classes := bumpClass cls k.classes }
  | .skipped _ => { k with skipped := k.skipped + 1 }
  | .failed _ => { k with failed := k.failed + 1 }
  | .unclassified => { k with unclassified := k.unclassified + 1 }

/-- The lot counter of a resolution (R136). -/
def countLot (r : Resolution) (k : LotCounters) : LotCounters :=
  match r with
  | .classified cls _ => { k with classified := k.classified + 1, classes := bumpClass cls k.classes }
  | .skipped _ => { k with skipped := k.skipped + 1 }
  | .failed _ => { k with failed := k.failed + 1 }
  | .unclassified => { k with unclassified := k.unclassified + 1 }

/-- The tool statistic of a resolution (R136). -/
def Resolution.statistic : Resolution → Statistic
  | .classified _ _ => .sitesClassified
  | .skipped _ => .sitesSkipped
  | .failed _ => .sitesFailed
  | .unclassified => .sitesUnclassified

/-- The CLU takes a resolution (R136), and for CLASSIFIED compares the excursion entries (R137, R139). -/
def countResolution (i : LoadPort) (slot : Nat) (r : Resolution) (c : Part) : Part :=
  let c := countStat r.statistic c
  let c := updateLot i (fun l =>
    let l := l.updateEntry slot (fun e => { e with counts := countWafer r e.counts })
    { l with counters := countLot r l.counters }) c
  match r with
  | .classified cls _ =>
    if cls = 0 then c
    else compareEntries i slot cls (c.classCount i slot cls) 1 (c.recipeOf i).excursions c
  | _ => c

/-- A site entry is resolved and counted (R27). -/
def resolveSite (t n : Nat) (r : Resolution) (c : Part) : Part :=
  match c.site? t n with
  | none => c
  | some (i, slot, _) => countResolution i slot r (updateEntry i slot n (resolveEntry r) c)

/-- `k` skips of one slot are counted together (R136). -/
def countSkips (i : LoadPort) (slot k : Nat) (c : Part) : Part :=
  let c := { c with stats := { c.stats with sitesSkipped := c.stats.sitesSkipped + BitVec.ofNat 32 k } }
  updateLot i (fun l =>
    let l := l.updateEntry slot (fun e => { e with counts := { e.counts with skipped := e.counts.skipped + k } })
    { l with counters := { l.counters with skipped := l.counters.skipped + k } }) c

/-- Every PENDING entry of a list becomes SKIPPED with a reason, each counted (R36, R37, R89). -/
def skipPending (i : LoadPort) (slot : Nat) (why : Reason) (c : Part) : Part :=
  let k := (c.entries i slot).countP (fun e => e.state == .pending)
  let c := updateList i slot (fun l =>
    { l with entries := l.entries.map (fun e => if e.state == .pending then resolveEntry (.skipped why) e else e) }) c
  countSkips i slot k c

end Sys2Proof.Machine
end

