-- ==== Sys2Proof/Machine/Sessions.lean ====
section
/-! DEFINITION. Stage sessions (04): the walk, session begin and end, the answers the session takes from the FU, the CX
and the stage, resumption after HOLD.N, and abort. -/

namespace Sys2Proof.Machine

/-! ### The walk's order (R70, R71) -/

/-- An entry the walk may take: its row, the direction the row is walked in, its position in the list (from 1). -/
structure Candidate where
  row       : Int
  direction : Direction
  position  : Nat
  entry     : SiteEntry
  deriving DecidableEq, Repr

def Direction.opposite : Direction → Direction
  | .forward => .backward
  | .backward => .forward

/-- The PENDING entries of a row's run, in the direction the row is walked in. -/
def pendingInRow (l : List SiteEntry) (row : Int) (d : Direction) : List Candidate :=
  let run := ((l.zipIdx 1).filter (fun p => p.1.row == row && p.1.state == .pending)).map
    (fun p => (⟨row, d, p.2, p.1⟩ : Candidate))
  match d with
  | .forward => run
  | .backward => run.reverse

/-- Whether a position lies at the cursor or past it in the direction of the walk. -/
def ahead (d : Direction) (cursor position : Nat) : Bool :=
  match d with
  | .forward => decide (cursor ≤ position)
  | .backward => decide (position ≤ cursor)

/-- A row number is entered in ascending order of rows, once. -/
def insertRow (r : Int) : List Int → List Int
  | [] => [r]
  | q :: rest => if r = q then q :: rest else if r < q then r :: q :: rest else q :: insertRow r rest

/-- The rows above the current row that hold a PENDING entry, ascending; all such rows when there is no current row. -/
def rowsToEnter (l : List SiteEntry) (current : Option Int) : List Int :=
  ((l.filter (fun e => e.state == .pending &&
    (match current with
     | none => true
     | some r => decide (r < e.row)))).map (·.row)).foldr insertRow []

/-- The rows entered one after another, each in the opposite direction to the one before. -/
def candidatesOf (l : List SiteEntry) : Direction → List Int → List Candidate
  | _, [] => []
  | d, r :: rest => pendingInRow l r d ++ candidatesOf l d.opposite rest

/-- Everything the search meets, in its order: the rest of the current row from the cursor on, then the later rows. -/
def walkOrder (s : Session) (l : List SiteEntry) : List Candidate :=
  match s.row with
  | none => candidatesOf l .forward (rowsToEnter l none)
  | some r =>
    (pendingInRow l r s.direction).filter (fun k => ahead s.direction (s.cursor.getD 0) k.position)
      ++ candidatesOf l s.direction.opposite (rowsToEnter l (some r))

/-! ### Session end (R82, R83) -/

/-- The outcome at session end (R83). -/
def sessionOutcome (aborted : Bool) (l : List SiteEntry) : WaferOutcome :=
  if aborted then .aborted
  else if l.any (fun e => e.state == .skipped || e.state == .failed) then .partialReview
  else .reviewed

/-- The session ends (R82): outcome, phase REVIEWED, the FU told, SESSION raised, the record IDLE. -/
def sessionEnd (c : Part) : Part :=
  match c.session.wafer with
  | none => c
  | some t =>
    let c :=
      match c.wafer? t with
      | none => c
      | some w =>
        setWafer t (some { w with
          outcome := some (sessionOutcome (c.lotAborted w.lot) (c.entries w.lot w.slot)), phase := .reviewed }) c
    let c := raiseEvent .image .session (focusSessionEnd c)
    { c with session := ⟨.idle, none, none, .forward, none, none⟩ }

/-! ### Taking a site (R71, R72) -/

/-- The SSU takes an entry: cursor, MOVING, in flight. Its MOVE_SITE goes out in the same event (`issueMoveSite`). -/
def takeSite (t : Nat) (k : Candidate) (c : Part) : Part :=
  let c := updateSite t k.entry.number (fun e => { e with state := .moving }) c
  { c with session :=
      { c.session with
        row := some k.row, direction := k.direction, cursor := some k.position, inFlight := some k.entry.number } }

/-- The search: an entry below the floor in force is skipped and the search goes on; the first other entry is taken; at
the end of the walk the session ends. -/
def takeFirst (t : Nat) (floor : Option Nat) : List Candidate → Part → Part
  | [], c => sessionEnd c
  | k :: rest, c =>
    match floor with
    | none => takeSite t k c
    | some f =>
      if k.entry.priority < f then takeFirst t floor rest (resolveSite t k.entry.number (.skipped .sampledDown) c)
      else takeSite t k c

/-- The walk takes a site (R71) of the session's wafer, the sampling floor in force when the wafer is sampled (R72). -/
def walk (c : Part) : Part :=
  match c.session.wafer with
  | none => c
  | some t =>
    match c.wafer? t with
    | none => c
    | some w =>
      let floor := if c.sampled w.lot w.slot then some c.sessionRecipe.samplingFloor else none
      takeFirst t floor (walkOrder c.session (c.entries w.lot w.slot)) c

/-- The site in flight has left flight: an ACTIVE session walks on, a PAUSING one becomes PAUSED (R80, R85). -/
def leaveFlight (c : Part) : Part :=
  let c := { c with session := { c.session with inFlight := none } }
  match c.session.state with
  | .active => walk c
  | .pausing => setSessionState .paused c
  | _ => c

/-- The CX's word that a site has left flight; it reaches the session when that site is its site in flight. -/
def siteLeft (t n : Nat) (c : Part) : Part :=
  if c.session.wafer = some t ∧ c.session.inFlight = some n then leaveFlight c else c

/-! ### Session begin (R69) -/

def sessionBegin (t : Nat) (c : Part) : Part :=
  let c := { c with session := ⟨.active, some t, none, .forward, none, none⟩ }
  let c := raiseEvent .image .session (focusSessionBegin c)
  match c.sessionLot with
  | none => walk c
  | some i =>
    match c.lot? i with
    | none => walk c
    | some l => if l.hold = .holdN then setSessionState .paused c else walk c

/-! ### Stage answers (R73, R74, R85) -/

/-- A MOVE_SITE of the session completes (R73, R85). -/
def siteArrived (c : Part) : Part :=
  match c.session.wafer, c.session.inFlight with
  | some t, some n =>
    match c.site? t n with
    | none => c
    | some (_, _, e) =>
      if e.state = .moving then
        match c.session.state with
        | .active =>
          takeFocusRequest .predicted e.x e.y 0 (updateSite t n (fun e => { e with state := .focusing }) c)
        | .pausing => leaveFlight (returnToPending t n c)
        | _ => c
      else c
  | _, _ => c

/-- A MOVE_SITE is recovered, AT_SOURCE or AT_TARGET (R49, R74): the site goes back to PENDING. -/
def siteRecovered (c : Part) : Part :=
  match c.session.wafer, c.session.inFlight, c.inFlightState with
  | some t, some n, some .moving => leaveFlight (returnToPending t n c)
  | _, _, _ => c

/-! ### Focus answers (R76, R77) -/

def focusAccepted (z sharpness : Nat) (c : Part) : Part :=
  match c.session.wafer, c.session.inFlight with
  | some t, some n =>
    handOver t n sharpness (updateSite t n (fun e => { e with acceptedZ := some z, state := .captureWait }) c)
  | _, _ => c

def focusFailed (why : Reason) (c : Part) : Part :=
  match c.session.wafer, c.session.inFlight with
  | some t, some n =>
    let c := updateSite t n (fun e => { e with attempts := e.attempts + 1, acceptedZ := none }) c
    match c.site? t n with
    | none => c
    | some (_, _, e) =>
      if e.attempts < c.sessionRecipe.attemptLimit then takeFocusRequest .nominal e.x e.y 0 c
      else leaveFlight (resolveSite t n (.failed why) c)
  | _, _ => c

/-! ### Release of HOLD.N (R86) -/

def resumeSession (c : Part) : Part :=
  match c.session.state with
  | .paused => walk (setSessionState .active c)
  | .pausing => setSessionState .active c
  | _ => c

/-- A lot record takes changed hold sources from LOT_HOLD or LOT_RELEASE (R13, R14, R15): as `tightenHold`, and a hold
that leaves HOLD.N lets the session go on (R86). -/
def changeHold (i : LoadPort) (old new : Lot) (c : Part) : Part :=
  let c := tightenHold i old new c
  if old.hold = .holdN ∧ new.hold ≠ .holdN ∧ c.sessionLot = some i then resumeSession c else c

/-! ### Abort (R87, R88) -/

/-- The session of an aborted lot's wafer: it is ACTIVE again (R88); its wafer's PENDING entries have been skipped; the
site in flight is settled by its state (R87). -/
def abortSession (c : Part) : Part :=
  let c := setSessionState .active c
  match c.session.wafer, c.session.inFlight with
  | some t, some n =>
    match c.inFlightState with
    | some .moving => leaveFlight (resolveSite t n (.skipped .aborted) c)
    | some .focusing => leaveFlight (resolveSite t n (.skipped .aborted) (abandonFocus c))
    | some .captureWait => leaveFlight (resolveSite t n (.skipped .aborted) (withdrawWaiting c))
    | _ => c
  | _, _ => walk c

end Sys2Proof.Machine
end

