-- ==== Sys2Proof/Machine/Lots.lean ====
section
/-! DEFINITION. Lots in motion (01, 08): ruling out, draining, completion, the assembly of a report and its entry into
the queue, the freeing of a wafer record, the wire form of a report. -/

namespace Sys2Proof.Machine

/-! ### List status (R34) -/

/-- The status the lot record reads from the SS; FREED is SITE_QUERY's alone (R39). -/
def Part.listStatus (c : Part) (i : LoadPort) (slot : Nat) : ListStatus :=
  match c.list? i slot with
  | none => .absent
  | some l => if !l.sealed then .open else if l.entries.isEmpty then .sealedEmpty else .sealed

/-! ### Ruling out and draining (R10, R11) -/

/-- The summary of an entry that is ruled out: no wafer ID, the slot's counts (R149). -/
def ruledOutSummary (outcome : WaferOutcome) (e : Selection) : Summary := ⟨e.slot, none, outcome, e.counts⟩

def ruleOutEntry (outcome : WaferOutcome) (e : Selection) : Selection :=
  { e with status := .ruledOut, summary := some (ruledOutSummary outcome e) }

/-- Every WAITING entry of a RUNNING lot whose list is sealed empty is ruled out (R10). -/
def ruleOutLot (i : LoadPort) (c : Part) : Part :=
  match c.lot? i with
  | none => c
  | some l =>
    if l.state = .running ∧ l.aborted = false then
      setLot i (some { l with selection := l.selection.map (fun e =>
        if e.status == .waiting && c.listStatus i e.slot == .sealedEmpty then ruleOutEntry .noSites e else e) }) c
    else c

/-- A RUNNING lot with no WAITING entry becomes DRAINING (R11). -/
def drainLot (i : LoadPort) (c : Part) : Part :=
  match c.lot? i with
  | none => c
  | some l =>
    if l.state = .running ∧ l.anyWaiting = false then raiseLotState (setLot i (some { l with state := .draining }) c)
    else c

/-! ### Reports (R150, R152, R153) -/

def reportCapacity : Nat := 6

/-- The outcome of a report (R150). -/
def reportOutcome (aborted : Bool) (l : List Summary) : ReportOutcome :=
  if aborted then .aborted
  else if l.all (fun s => s.outcome == .reviewed || s.outcome == .noSites) then .complete
  else .partialReport

/-- The report of a lot, without a number (R150). -/
def assembleReport (i : LoadPort) (l : Lot) (c : Part) : Report :=
  let summaries := l.selection.filterMap (·.summary)
  ⟨none, l.id, (c.carrier i).id.getD [], l.recipe, reportOutcome l.aborted summaries, summaries, l.counters⟩

/-- The lot becomes CLOSED and its carrier RELEASABLE (R5). -/
def closeLot (i : LoadPort) (c : Part) : Part :=
  setCarrier i { c.carrier i with state := .releasable } (updateLot i (fun l => { l with state := .closed }) c)

/-- A report enters the queue with the next report number (R152, R153); its lot becomes CLOSED (R156). -/
def enterReport (i : LoadPort) (r : Report) (c : Part) : Part :=
  closeLot i { c with
    reportQueue := c.reportQueue ++ [{ r with number := some c.nextReport }]
    nextReport := c.nextReport + 1#16 }

/-- Waiting reports enter while a place is free, oldest first (R19); the rest go on waiting. -/
def fillQueue : List WaitingReport → Part → Part
  | [], c => { c with waitingReports := [] }
  | w :: rest, c =>
    if c.reportQueue.length < reportCapacity then fillQueue rest (enterReport w.lot w.report c)
    else { c with waitingReports := w :: rest }

/-! ### Completion (R18) -/

/-- A WAITING entry at completion: its list is resolved, then its summary filled (R37, R149). -/
def ruleOutUndispatched (i : LoadPort) (slot : Nat) (c : Part) : Part :=
  let c :=
    match c.list? i slot with
    | none => c
    | some l => skipPending i slot (if l.sealed then .notDispatched else .unsealed) c
  updateLot i (Lot.updateEntry slot (ruleOutEntry .notDispatched)) c

def ruleOutWaiting (i : LoadPort) : List Selection → Part → Part
  | [], c => c
  | e :: rest, c => ruleOutWaiting i rest (if e.status = .waiting then ruleOutUndispatched i e.slot c else c)

/-- All hold sources are removed (R18, step 2). -/
def clearSources (i : LoadPort) (c : Part) : Part :=
  updateLot i (fun l => { l with holdTool := none, holdAuto := none, holdExc := none }) c

/-- The report waits, its lot in REPORT_WAIT at the end of the report-wait order (R18, R151). -/
def waitReport (i : LoadPort) (r : Report) (c : Part) : Part :=
  updateLot i (fun l => { l with state := .reportWait }) { c with waitingReports := c.waitingReports ++ [⟨i, r⟩] }

/-- The report is assembled, and enters the queue or waits (R18, steps 3 and 4). -/
def deliverReport (i : LoadPort) (c : Part) : Part :=
  match c.lot? i with
  | none => c
  | some l =>
    if c.reportQueue.length < reportCapacity then enterReport i (assembleReport i l c) c
    else waitReport i (assembleReport i l c) c

/-- A lot completes (R18): steps 1 to 4, LOT_STATE once. -/
def completeLot (i : LoadPort) (c : Part) : Part :=
  match c.lot? i with
  | none => c
  | some l => raiseLotState (deliverReport i (clearSources i (ruleOutWaiting i l.selection c)))

/-- A DRAINING lot with no wafer record in use completes (R18). -/
def completeIfDone (i : LoadPort) (c : Part) : Part :=
  match c.lot? i with
  | none => c
  | some l => if l.state = .draining ∧ c.lotHasWafer i = false then completeLot i c else c

/-! ### Freeing a wafer record (R43, R148) -/

/-- The summary of a wafer whose record is freed (R148). An outcome is present whenever a record is freed (log 22). -/
def waferSummary (w : Wafer) (e : Selection) : Summary := ⟨e.slot, w.readId, w.outcome.getD .handlingFault, e.counts⟩

/-- The wafer is home and no entry of its list is open (R43). -/
def Part.waferDone (c : Part) (w : Wafer) : Bool :=
  w.phase == .home && w.place.isNone && openCount (c.entries w.lot w.slot) == 0

def freeWafer (t : Nat) (w : Wafer) (c : Part) : Part :=
  let c := updateLot w.lot (Lot.updateEntry w.slot (fun e => { e with summary := some (waferSummary w e) })) c
  setWafer t none (freeList w.lot w.slot c)

def freeIfDone (c : Part) (t : Nat) : Part :=
  match c.wafer? t with
  | none => c
  | some w => if c.waferDone w then freeWafer t w c else c

/-! ### The wire form of a report (R157) -/

/-- A text in a fixed field, unused bytes 0. -/
def fixedText (n : Nat) (t : Text) : List Byte := t.take n ++ List.replicate (n - t.length) 0#8

def natHalf (n : Nat) : List Byte := encodeHalf (BitVec.ofNat 16 n)

def natFull (n : Nat) : List Byte := encodeFull (BitVec.ofNat 32 n)

def ReportOutcome.code : ReportOutcome → Byte
  | .complete => 0#8 | .partialReport => 1#8 | .aborted => 2#8

def WaferOutcome.code : WaferOutcome → Byte
  | .reviewed => 0#8 | .partialReview => 1#8 | .aborted => 2#8 | .notDispatched => 3#8 | .noSites => 4#8
  | .idMismatch => 5#8 | .handlingFault => 6#8

def ExcursionAction.code : ExcursionAction → Byte
  | .note => 0#8 | .sample => 1#8 | .holdW => 2#8 | .holdN => 3#8

/-- The flags byte: position 1 in the lowest bit. -/
def flagsByte (flags : List Bool) : Byte :=
  BitVec.ofNat 8 (flags.foldr (fun b n => (if b then 1 else 0) + 2 * n) 0)

def headerBytes (r : Report) : List Byte :=
  encodeHalf (r.number.getD 0#16)
    ++ [r.outcome.code, BitVec.ofNat 8 r.recipe, BitVec.ofNat 8 r.summaries.length,
        BitVec.ofNat 8 r.totals.events.length, BitVec.ofNat 8 r.lotId.length, BitVec.ofNat 8 r.carrierId.length]
    ++ fixedText 20 r.lotId ++ fixedText 16 r.carrierId
    ++ natFull r.totals.loaded ++ natFull r.totals.classified ++ natFull r.totals.skipped ++ natFull r.totals.failed
    ++ natFull r.totals.unclassified ++ r.totals.classes.flatMap natFull
    ++ natFull r.totals.sweeps ++ natFull r.totals.mapHits ++ natFull r.totals.captures ++ natFull r.totals.rejections

def eventBytes (v : ExcursionEvent) : List Byte :=
  [BitVec.ofNat 8 v.slot, BitVec.ofNat 8 v.cls] ++ natHalf v.limit ++ [v.action.code, BitVec.ofNat 8 v.position]

def summaryBytes (s : Summary) : List Byte :=
  let id := s.waferId.getD []
  [BitVec.ofNat 8 s.slot, s.outcome.code, BitVec.ofNat 8 id.length, flagsByte s.counts.flags] ++ fixedText 24 id
    ++ natHalf s.counts.loaded ++ natHalf s.counts.classified ++ natHalf s.counts.skipped ++ natHalf s.counts.failed
    ++ natHalf s.counts.unclassified ++ s.counts.classes.flatMap natHalf

def reportBytes (r : Report) : List Byte :=
  headerBytes r ++ r.totals.events.flatMap eventBytes ++ r.summaries.flatMap summaryBytes

end Sys2Proof.Machine
end

