-- ==== Sys2Proof/Machine/Flow.lean ====
section
/-! DEFINITION. The Wafer Flow Controller's planning (03): after an event that can make work ready, `settle` carries out
everything the new state allows, in one fixed order (log 5): lots and records first, then the redirection of aborted
wafers, then the orders. -/

namespace Sys2Proof.Machine

/-! ### Counts of inbound wafers (R42, R57) -/

/-- A wafer is vacuum-inbound (R42). -/
def Part.vacuumInbound (c : Part) (t : Nat) : Bool :=
  match c.wafer? t with
  | none => false
  | some w =>
    w.exposed && !c.lotAborted w.lot &&
      match w.phase with
      | .reviewed | .toLock | .venting | .returning | .home => false
      | _ => true

def Part.vacuumInboundCount (c : Part) : Nat := allTags.countP c.vacuumInbound

/-- The number of locks with an INBOUND reservation; each names a wafer of its own. -/
def Part.inboundReservations (c : Part) : Nat :=
  bothLocks.countP (fun k => match (c.lock k).reservation with
    | some r => r.purpose == .inbound
    | none => false)

/-- The inbound claim count (R57). -/
def Part.inboundClaimCount (c : Part) : Nat := c.vacuumInboundCount + c.inboundReservations

/-! ### Orders with their effects at issue (R51, R60, R71) -/

/-- PUMP is issued (R51): a wafer inside becomes vacuum-exposed and gives up its INBOUND reservation. -/
def issuePump (k : LockId) (t : Option Nat) (c : Part) : Part :=
  let c := issueOrder k.mover .pump t (setLockState k .pumping c)
  match t with
  | none => c
  | some w => dropReservation w .inbound k (updateWafer w (fun x => { x with exposed := true }) c)

/-- VENT is issued (R51). -/
def issueVent (k : LockId) (t : Option Nat) (c : Part) : Part :=
  issueOrder k.mover .vent t (setLockState k .venting c)

/-- The MOVE_SITE of the site in flight (R59, R71): issued while the session is ACTIVE and the ST slot IDLE. -/
def issueMoveSite (c : Part) : Part :=
  if c.session.state = .active ∧ c.moverIdle .st then
    match c.session.wafer, c.session.inFlight with
    | some t, some n =>
      match c.site? t n with
      | none => c
      | some (_, _, e) =>
        if e.state = .moving then { issueOrder .st (.moveSite e.x e.y) none c with atLoad := false } else c
    | _, _ => c
  else c

/-! ### Aborted wafers (R65) -/

def setPhase (t : Nat) (p : Phase) (c : Part) : Part := updateWafer t (fun w => { w with phase := p }) c

/-- What follows for an aborted wafer that no order in progress names (the table of R65), by its place and phase. -/
def redirectPhase (c : Part) (w : Wafer) : Option Phase :=
  match w.place, w.phase with
  | none, .outboundFromSlot => some .home
  | some .upperBlade, .aligning => some .returning
  | some .upperBlade, .waitLock => some .returning
  | some .upperBlade, .pumping => some .returning
  | some .upperBlade, .outboundFromSlot => some .returning
  | some .aligner, .aligning => some .returning
  | some .aligner, .waitLock => some .returning
  | some .aligner, .pumping => some .returning
  | some .transferArm, .toStage => some .toLock
  | some .stage, .toStage => some .reviewed
  | some p, ph =>
    match p.lock? with
    | none => none
    | some k =>
      match (c.lock k).state, ph with
      | .atmosphere, .pumping => some .returning
      | .vacuum, .pumping => some .venting
      | .vacuum, .ready => some .venting
      | .vacuum, .toStage => some .venting
      | _, _ => none
  | _, _ => none

/-- An aborted wafer takes the path of R65's table once no order names it. -/
def redirect (c : Part) (t : Nat) : Part :=
  match c.wafer? t with
  | none => c
  | some w =>
    if c.lotAborted w.lot ∧ c.orderNames t = false then
      match redirectPhase c w with
      | none => c
      | some p => dropReservations t .inbound (setPhase t p c)
    else c

/-! ### Locks and aligner (R54, R58, R63) -/

/-- PUMP for a wafer that lies in its lock in PUMPING (R58) or for an empty lock whose return-lock pump was recovered
AT_SOURCE (R48); VENT for a wafer in VENTING (R63). -/
def lockWork (c : Part) (k : LockId) : Part :=
  if c.moverIdle k.mover then
    match (c.lock k).state, c.occupant k.place with
    | .atmosphere, some t =>
      match c.wafer? t with
      | none => c
      | some w => if w.phase = .pumping ∧ c.lotAborted w.lot = false then issuePump k (some t) c else c
    | .atmosphere, none =>
      match (c.lock k).reservation with
      | some ⟨_, .returning⟩ => issuePump k none c
      | _ => c
    | .vacuum, some t =>
      match c.wafer? t with
      | none => c
      | some w => if w.phase = .venting then issueVent k (some t) c else c
    | _, _ => c
  else c

/-- ALIGN for the wafer on the ALIGNER in ALIGNING (R54). -/
def alignWork (c : Part) : Part :=
  if c.moverIdle .al then
    match c.occupant .aligner with
    | none => c
    | some t =>
      match c.wafer? t with
      | none => c
      | some w =>
        if w.phase = .aligning ∧ c.orderNames t = false then issueOrder .al (.align (c.recipeOf w.lot).readId) (some t) c
        else c
  else c

/-! ### Return locks (R61) -/

/-- The wafer at a place that needs a return lock and has none: REVIEWED on the STAGE, or TO_LOCK on TRANSFER_ARM. -/
def Part.needsReturn (c : Part) (p : Place) : Option Nat :=
  match c.occupant p with
  | none => none
  | some t =>
    match c.wafer? t with
    | none => none
    | some w =>
      let needs :=
        match p with
        | .stage => w.phase == .reviewed
        | .transferArm => w.phase == .toLock
        | _ => false
      if needs && (c.reservedFor t .returning).isNone then some t else none

def Part.emptyAt (c : Part) (s : LockState) (k : LockId) : Bool := (c.lock k).state == s && c.lockEmpty k

/-- A wafer that needs a return lock gets one (R61): an empty lock at VACUUM, else an empty lock at ATMOSPHERE with its
slot IDLE, pumped; LOCK_A first. -/
def reserveReturn (t : Nat) (c : Part) : Part :=
  match bothLocks.find? (c.emptyAt .vacuum) with
  | some k => setReservation k (some ⟨t, .returning⟩) c
  | none =>
    match bothLocks.find? (fun k => c.emptyAt .atmosphere k && c.moverIdle k.mover) with
    | some k => issuePump k none (setReservation k (some ⟨t, .returning⟩) c)
    | none => c

def returnWork (c : Part) (p : Place) : Part :=
  match c.needsReturn p with
  | none => c
  | some t => reserveReturn t c

/-! ### Admission (R57) -/

/-- The lock holds, or is reserved for, a wafer that is vacuum-inbound or has an INBOUND reservation. -/
def Part.holdsInbound (c : Part) (k : LockId) : Bool :=
  (match c.occupant k.place with
   | none => false
   | some t => c.vacuumInbound t || (c.reservedFor t .inbound).isSome) ||
  (match (c.lock k).reservation with
   | none => false
   | some r => r.purpose == .inbound || c.vacuumInbound r.wafer)

/-- The second and third conditions of R57. -/
def Part.wouldAdmit (c : Part) (k : LockId) : Bool := !c.holdsInbound k.other && decide (c.inboundClaimCount ≤ 1)

/-- The lock that admits the aligner wafer, LOCK_A preferred. -/
def Part.admittingLock (c : Part) : Option LockId :=
  bothLocks.find? (fun k => c.emptyAt .atmosphere k && c.wouldAdmit k)

/-! ### Dispatch offers (R10, R53) -/

/-- The slot a lot offers: its first WAITING entry whose list is sealed and non-empty. -/
def Part.offer (c : Part) (i : LoadPort) : Option Nat :=
  match c.lot? i with
  | none => none
  | some l =>
    if l.state = .running ∧ l.aborted = false ∧ l.hold = .none then
      (l.selection.find? (fun e => e.status == .waiting && c.listStatus i e.slot == .sealed)).map (·.slot)
    else none

/-- Whether a lot is chosen before another: HOT first, then the lower start order number. -/
def lotBefore (a b : Lot) : Bool :=
  if a.priority = b.priority then decide (a.startOrder.getD 0 < b.startOrder.getD 0)
  else a.priority == .hot

/-- The best offer; between equals the lower carrier port stays (R53). -/
def Part.bestOffer (c : Part) : Option (LoadPort × Nat) :=
  allLoadPorts.foldl (fun best i =>
    match c.offer i, c.lot? i with
    | some slot, some l =>
      match best with
      | none => some (i, slot)
      | some (j, slot') =>
        match c.lot? j with
        | none => some (i, slot)
        | some m => if lotBefore l m then some (i, slot) else some (j, slot')
    | _, _ => best) none

/-! ### AR work (R52) -/

/-- A piece of AR work. -/
inductive ArTask where
  | order (k : OrderKind) (t : Nat)
  | admission (k : LockId) (t : Nat)
  | grant (i : LoadPort) (slot t : Nat)
  deriving DecidableEq, Repr

/-- The home slot of a wafer as the end of an AR order. -/
def Wafer.home (w : Wafer) : ArEnd := .slot w.lot w.slot

/-- Preference 1: the wafer on LOWER_BLADE goes home. -/
def Part.arHomeLower (c : Part) : Option ArTask :=
  match c.occupant .lowerBlade with
  | none => none
  | some t => (c.wafer? t).map (fun w => .order (.arPlace .lower w.home) t)

/-- Preference 2: the wafer on UPPER_BLADE goes to its target when that is ready. -/
def Part.arPlaceUpper (c : Part) : Option ArTask :=
  match c.occupant .upperBlade with
  | none => none
  | some t =>
    match c.wafer? t with
    | none => none
    | some w =>
      match w.phase with
      | .aligning => if c.placeEmpty .aligner then some (.order (.arPlace .upper (.place .aligner)) t) else none
      | .pumping => (c.reservedFor t .inbound).map (fun k => .order (.arPlace .upper (.place k.place)) t)
      | .returning => some (.order (.arPlace .upper w.home) t)
      | _ => none

/-- The wafer in RETURNING in a lock at ATMOSPHERE, with the vacuum exposure asked for. -/
def Part.returningIn (c : Part) (exposed : Bool) (k : LockId) : Option Nat :=
  match (c.lock k).state, c.occupant k.place with
  | .atmosphere, some t =>
    match c.wafer? t with
    | none => none
    | some w => if w.phase = .returning ∧ w.exposed = exposed then some t else none
  | _, _ => none

/-- Preferences 3 and 5: a wafer in RETURNING is picked from a lock, onto the blade its exposure calls for (R56). -/
def Part.arPickLock (c : Part) (blade : Blade) (k : LockId) : Option ArTask :=
  if c.placeEmpty blade.place then
    (c.returningIn (blade == .lower) k).map (fun t => .order (.arPick blade (.place k.place)) t)
  else none

/-- Preference 4: the wafer on the ALIGNER, when it is RETURNING, admitted before, or admitted now. -/
def Part.arPickAligner (c : Part) : Option ArTask :=
  if c.placeEmpty .upperBlade then
    match c.occupant .aligner with
    | none => none
    | some t =>
      match c.wafer? t with
      | none => none
      | some w =>
        match w.phase with
        | .returning => some (.order (.arPick .upper (.place .aligner)) t)
        | .pumping => (c.reservedFor t .inbound).map (fun _ => .order (.arPick .upper (.place .aligner)) t)
        | .waitLock => (c.admittingLock).map (fun k => .admission k t)
        | _ => none
  else none

/-- A wafer whose slot pick was recovered AT_SOURCE: home, OUTBOUND_FROM_SLOT, named by no order (log 9). -/
def Part.repick (c : Part) : Option Nat :=
  allTags.find? (fun t => match c.wafer? t with
    | none => false
    | some w => w.phase == .outboundFromSlot && w.place.isNone && !c.orderNames t)

/-- Preference 6: the dispatch grant (R53), a repeated slot pick first. -/
def Part.arDispatch (c : Part) : Option ArTask :=
  if c.placeEmpty .upperBlade && c.placeEmpty .aligner then
    match c.repick with
    | some t => (c.wafer? t).map (fun w => .order (.arPick .upper w.home) t)
    | none =>
      match c.freeTag, c.bestOffer with
      | some t, some (i, slot) => some (.grant i slot t)
      | _, _ => none
  else none

/-- The ready AR work of the highest preference (R52). -/
def Part.arTask (c : Part) : Option ArTask :=
  c.arHomeLower <|> c.arPlaceUpper <|> c.arPickLock .lower .a <|> c.arPickLock .lower .b <|> c.arPickAligner
    <|> c.arPickLock .upper .a <|> c.arPickLock .upper .b <|> c.arDispatch

/-- The wafer record at its grant (R42). -/
def grantedWafer (i : LoadPort) (slot : Nat) : Wafer :=
  ⟨i, slot, none, none, .outboundFromSlot, false, false, none⟩

/-- A piece of AR work is taken. -/
def doArTask (task : ArTask) (c : Part) : Part :=
  match task with
  | .order k t => issueOrder .ar k (some t) c
  | .admission k t =>
    issueOrder .ar (.arPick .upper (.place .aligner)) (some t)
      (setPhase t .pumping (setReservation k (some ⟨t, .inbound⟩) c))
  | .grant i slot t =>
    let c := setWafer t (some (grantedWafer i slot)) c
    let c := updateLot i (Lot.updateEntry slot (fun e => { e with status := .dispatched })) c
    drainLot i (issueOrder .ar (.arPick .upper (.slot i slot)) (some t) c)

/-- The WFC chooses AR work whenever the AR slot is IDLE (R52). -/
def arWork (c : Part) : Part :=
  if c.moverIdle .ar then
    match c.arTask with
    | none => c
    | some task => doArTask task c
  else c

/-! ### VR work (R60, R61, R63) -/

/-- The wafer on TRANSFER_ARM is placed: on the STAGE at load, or in its return lock at VACUUM. -/
def Part.vrPlaceArm (c : Part) : Option (OrderKind × Nat) :=
  match c.occupant .transferArm with
  | none => none
  | some t =>
    match c.wafer? t with
    | none => none
    | some w =>
      match w.phase with
      | .toStage => if c.placeEmpty .stage && c.atLoad then some (.vrPlace .stage, t) else none
      | .toLock =>
        match c.reservedFor t .returning with
        | none => none
        | some k => if (c.lock k).state = .vacuum ∧ c.placeEmpty k.place then some (.vrPlace k.place, t) else none
      | _ => none

/-- The REVIEWED wafer is picked from the STAGE (R61). -/
def Part.vrPickStage (c : Part) : Option (OrderKind × Nat) :=
  match c.occupant .stage with
  | none => none
  | some t =>
    match c.wafer? t with
    | none => none
    | some w =>
      if w.phase = .reviewed ∧ c.atLoad ∧ c.placeEmpty .transferArm then
        match c.reservedFor t .returning with
        | none => none
        | some k => if (c.lock k).state = .vacuum then some (.vrPick .stage, t) else none
      else none

/-- A READY wafer, or one whose pick was recovered AT_SOURCE, is picked from its lock (R60, R48). -/
def Part.vrPickLock (c : Part) (k : LockId) : Option (OrderKind × Nat) :=
  if c.placeEmpty .stage && c.placeEmpty .transferArm then
    match (c.lock k).state, c.occupant k.place with
    | .vacuum, some t =>
      match c.wafer? t with
      | none => none
      | some w => if w.phase = .ready ∨ w.phase = .toStage then some (.vrPick k.place, t) else none
    | _, _ => none
  else none

def Part.vrTask (c : Part) : Option (OrderKind × Nat) :=
  c.vrPlaceArm <|> c.vrPickStage <|> c.vrPickLock .a <|> c.vrPickLock .b

/-- The VR's order; a pick from a lock makes the phase TO_STAGE (R60). -/
def doVrTask (k : OrderKind) (t : Nat) (c : Part) : Part :=
  match k with
  | .vrPick .stage => issueOrder .vr k (some t) c
  | .vrPick _ => issueOrder .vr k (some t) (setPhase t .toStage c)
  | _ => issueOrder .vr k (some t) c

def vrWork (c : Part) : Part :=
  if c.moverIdle .vr then
    match c.vrTask with
    | none => c
    | some (k, t) => doVrTask k t c
  else c

/-! ### Vent-empty and MOVE_LOAD (R62, R59) -/

/-- The ALIGNER holds a wafer in WAIT_LOCK. -/
def Part.alignerWaits (c : Part) : Bool :=
  match c.occupant .aligner with
  | none => false
  | some t =>
    match c.wafer? t with
    | none => false
    | some w => w.phase == .waitLock

/-- A lock is vented empty when the conditions of R62 hold. -/
def ventWork (c : Part) (k : LockId) : Part :=
  if c.emptyAt .vacuum k ∧ c.moverIdle k.mover ∧ c.alignerWaits ∧ bothLocks.all (fun j => !c.emptyAt .atmosphere j)
      ∧ c.wouldAdmit k ∧ c.needsReturn .stage = none ∧ c.needsReturn .transferArm = none then
    issueVent k none c
  else c

/-- The wafer on the STAGE is REVIEWED. -/
def Part.stageReviewed (c : Part) : Bool :=
  match c.occupant .stage with
  | none => false
  | some t =>
    match c.wafer? t with
    | none => false
    | some w => w.phase == .reviewed

/-- The wafer on the STAGE is REVIEWED and has a return lock reserved. -/
def Part.stageReturning (c : Part) : Bool :=
  match c.occupant .stage with
  | none => false
  | some t => c.stageReviewed && (c.reservedFor t .returning).isSome

/-- MOVE_LOAD is issued (R59). -/
def moveLoadWork (c : Part) : Part :=
  if c.moverIdle .st ∧ c.atLoad = false ∧ (c.session.state = .idle ∨ c.stageReviewed)
      ∧ (c.placeEmpty .stage ∨ c.stageReturning) then
    issueOrder .st .moveLoad none c
  else c

/-! ### Settling -/

/-- What the LT and the WFC settle before any order: ruling out, draining, aborted wafers, freed records, completed
lots (R10, R11, R65, R43, R18). -/
def settleLots (c : Part) : Part :=
  let c := allLoadPorts.foldl (fun c i => ruleOutLot i c) c
  let c := allLoadPorts.foldl (fun c i => drainLot i c) c
  let c := allTags.foldl redirect c
  let c := allTags.foldl freeIfDone c
  allLoadPorts.foldl (fun c i => completeIfDone i c) c

/-- The orders the state allows, in the order of log 5. -/
def issueWork (c : Part) : Part :=
  let c := issueMoveSite c
  let c := lockWork (lockWork c .a) .b
  let c := alignWork c
  let c := returnWork (returnWork c .stage) .transferArm
  let c := arWork c
  let c := vrWork c
  let c := ventWork (ventWork c .a) .b
  moveLoadWork c

/-- Everything the new state allows, in the same event (R45). -/
def settle (c : Part) : Part := issueWork (settleLots c)

end Sys2Proof.Machine
end

