-- ==== Sys2Proof/Machine/Motion.lean ====
section
/-! DEFINITION. The motion link's answers (R45 to R47), recovery (R48 to R50) and the abort of wafers in the cell (R65):
what each does to the cell before `settle` issues what the new state allows. -/

namespace Sys2Proof.Machine

/-! ### Completions (R45) -/

/-- The expected wafer ID of a slot in the carrier's slot map (R55). -/
def Part.expectedId (c : Part) (i : LoadPort) (slot : Nat) : Option Text :=
  match (c.carrier i).map with
  | none => none
  | some m =>
    match m[slot - 1]? with
    | none => none
    | some e => e.expected

/-- A read: a text of 1..24 characters, when the order asked for one (R55, log 13). -/
def successfulRead (readId : Bool) (text : Option Text) : Option Text :=
  match readId, text with
  | true, some x => if textWithin 24 x then some x else none
  | _, _ => none

/-- The wafer ID check fails (R55): outcome, error kind, bulk skip, RETURNING. -/
def idMismatch (t : Nat) (w : Wafer) (expected : Text) (read : Option Text) (c : Part) : Part :=
  let id := match c.lot? w.lot with | none => [] | some l => l.id
  let c := recordError .idMismatch (.idMismatch id w.slot expected read) c
  let c := updateWafer t (fun w => { w with outcome := some .idMismatch, phase := .returning }) c
  skipPending w.lot w.slot .idMismatch c

/-- ALIGN completes (R55): a successful read is kept; the check is made unless the lot is aborted (R65). -/
def alignDone (t : Nat) (readId : Bool) (text : Option Text) (c : Part) : Part :=
  match c.wafer? t with
  | none => c
  | some w =>
    let read := successfulRead readId text
    let c := if read.isSome then updateWafer t (fun w => { w with readId := read }) c else c
    if c.lotAborted w.lot then c
    else
      match (c.recipeOf w.lot).readId, c.expectedId w.lot w.slot with
      | true, some expected =>
        if read = some expected then setPhase t .waitLock c else idMismatch t w expected read c
      | _, _ => setPhase t .waitLock c

/-- PUMP completes (R51, R58). -/
def pumpDone (k : LockId) (t : Option Nat) (c : Part) : Part :=
  let c := setLockState k .vacuum c
  match t with
  | none => c
  | some w => setPhase w .ready c

/-- VENT completes (R51, R63). -/
def ventDone (k : LockId) (t : Option Nat) (c : Part) : Part :=
  let c := setLockState k .atmosphere c
  match t with
  | none => c
  | some w => setPhase w .returning c

/-- The VR has placed a wafer on the STAGE (R60): a session begins, or the wafer of an aborted lot is REVIEWED (R65). -/
def stageReached (t : Nat) (c : Part) : Part :=
  match c.wafer? t with
  | none => c
  | some w => if c.lotAborted w.lot then setPhase t .reviewed c else sessionBegin t (setPhase t .reviewing c)

/-- The VR has placed a wafer at a place: the STAGE, or its return lock (R63). -/
def vrPlaced (p : Place) (t : Nat) (c : Part) : Part :=
  match p.lock? with
  | none => stageReached t c
  | some k => setPhase t .venting (dropReservation t .returning k c)

/-- The effect of an order's completion on the cell (R45); `text` is what an ALIGN's COMPLETE carried. -/
def applyCompletion (m : Mover) (o : Order) (text : Option Text) (c : Part) : Part :=
  match o.kind, o.wafer with
  | .arPick blade (.slot _ _), some t => setPhase t .aligning (arrive t blade.place c)
  | .arPick blade (.place p), some t => arrive t blade.place (clearOccupant p c)
  | .arPlace blade (.place p), some t => arrive t p (clearOccupant blade.place c)
  | .arPlace blade (.slot _ _), some t =>
    updateWafer t (fun w => { w with place := none, phase := .home }) (clearOccupant blade.place c)
  | .vrPick p, some t =>
    let c := arrive t .transferArm (clearOccupant p c)
    if p = .stage then setPhase t .toLock c else c
  | .vrPlace p, some t => vrPlaced p t (arrive t p (clearOccupant .transferArm c))
  | .align readId, some t => alignDone t readId text c
  | .pump, t =>
    match lockOfMover m with
    | none => c
    | some k => pumpDone k t c
  | .vent, t =>
    match lockOfMover m with
    | none => c
    | some k => ventDone k t c
  | .moveLoad, _ => { c with atLoad := true }
  | .moveSite _ _, _ => siteArrived c
  | _, none => c

/-! ### Late answers, faults, timeouts (R46, R47) -/

/-- The slot state that a late answer found (R174). -/
def OrderSlot.found : OrderSlot → FoundSlot
  | .idle => .idle
  | .issued _ => .otherTag
  | .faulted _ _ => .faulted

/-- The order that an answer with this tag answers: the slot is ISSUED with it (R45, R46). -/
def Part.answered? (c : Part) (m : Mover) (tag : Half) : Option Order :=
  match c.slotOf m with
  | .issued o => if o.tag = tag then some o else none
  | _ => none

/-- A late answer (R46). -/
def lateAnswer (d : ErrorDetail) (c : Part) : Part := countStat .latePosts (recordError .lateCompletion d c)

/-- The slot becomes FAULTED, its timer stopped, and the order's wafer uncertain (R47). -/
def faultSlot (m : Mover) (o : Order) (cause : SlotCause) (c : Part) : Part :=
  let c := countStat .moveFaults (setSlot m (.faulted { o with timer := none } cause) c)
  match o.wafer with
  | none => c
  | some t => updateWafer t (fun w => { w with uncertain := true }) c

/-! ### Recovery (R48 to R50) -/

def clearTargetClaim (o : Order) (c : Part) : Part :=
  match o.kind.target? with
  | none => c
  | some p => setClaim p none c

/-- The slot becomes IDLE and the wafer is no longer uncertain (R48). -/
def recoverSlot (m : Mover) (o : Order) (c : Part) : Part :=
  let c := setSlot m .idle c
  match o.wafer with
  | none => c
  | some t => updateWafer t (fun w => { w with uncertain := false }) c

/-- AT_SOURCE: the order did not take effect (R48, R49). -/
def recoverAtSource (m : Mover) (o : Order) (c : Part) : Part :=
  let c := clearTargetClaim o c
  match o.kind, lockOfMover m with
  | .pump, some k => setLockState k .atmosphere c
  | .vent, some k => setLockState k .vacuum c
  | .moveSite _ _, _ => siteRecovered { c with atLoad := false }
  | .moveLoad, _ => { c with atLoad := false }
  | _, _ => c

/-- AT_TARGET: the order took effect (R49); a MOVE_SITE is settled by the SSU as under AT_SOURCE. -/
def recoverAtTarget (m : Mover) (o : Order) (c : Part) : Part :=
  match o.kind with
  | .moveSite _ _ => siteRecovered { c with atLoad := false }
  | _ => applyCompletion m o none c

/-- REMOVED: the wafer has been taken out of the cell (R50). -/
def recoverRemoved (m : Mover) (o : Order) (c : Part) : Part :=
  match o.wafer with
  | none => c
  | some t =>
    match c.wafer? t with
    | none => c
    | some w =>
      let c := match w.place with | none => c | some p => clearOccupant p c
      let c := clearTargetClaim o c
      let c := dropReservations t .returning (dropReservations t .inbound c)
      let c :=
        match o.kind, lockOfMover m with
        | .pump, some k => setLockState k .atmosphere c
        | .vent, some k => setLockState k .atmosphere c
        | _, _ => c
      let c := updateWafer t (fun w =>
        { w with place := none, phase := .home, exposed := false, outcome := some .handlingFault }) c
      skipPending w.lot w.slot .handling c

/-- The disposition of an accepted recovery acts. -/
def applyDisposition (d : Disposition) (m : Mover) (o : Order) (c : Part) : Part :=
  match d with
  | .atSource => recoverAtSource m o c
  | .atTarget => recoverAtTarget m o c
  | .removed => recoverRemoved m o c

/-! ### Abort of wafers (R65, R89) -/

/-- Whether a phase comes before REVIEWING in the loop. -/
def Phase.isInbound : Phase → Bool
  | .outboundFromSlot | .aligning | .waitLock | .pumping | .ready | .toStage => true
  | _ => false

/-- The AR PLACE of a wafer into a lock is ISSUED. -/
def Part.placingIntoLock (c : Part) (t : Nat) : Bool :=
  match c.slotOf .ar with
  | .issued o =>
    match o.kind with
    | .arPlace _ (.place p) => o.wafer == some t && p.lock?.isSome
    | _ => false
  | _ => false

/-- One wafer of the aborted lot: outcome and INBOUND reservation (R65); its PENDING entries are skipped (R87, R89). -/
def abortWafer (i : LoadPort) (c : Part) (t : Nat) : Part :=
  match c.wafer? t with
  | none => c
  | some w =>
    if w.lot = i then
      let c :=
        if w.phase.isInbound ∧ w.outcome = none then
          let c := updateWafer t (fun w => { w with outcome := some .aborted }) c
          if c.placingIntoLock t then c else dropReservations t .inbound c
        else c
      skipPending w.lot w.slot .aborted c
    else c

/-- The abort of a RUNNING or DRAINING lot reaches the WFC and the SSU (R17, R65, R87, R89). -/
def abortWafers (i : LoadPort) (c : Part) : Part :=
  let c := allTags.foldl (abortWafer i) c
  if c.sessionLot = some i ∧ c.session.state ≠ .idle then abortSession c else c

end Sys2Proof.Machine
end

