-- ==== Sys2Proof/Machine/Measure.lean ====
section
/-! DEFINITION. The Focus Unit's own events (05): the ends of the converter's phases, the taking of a count by a check or
a sweep, acceptance and failure, disturbances, the expiry of a map point. -/

namespace Sys2Proof.Machine

/-! ### Answers (R104, R105) -/

/-- The FU accepts a z (R104); `point` says that the acceptance came from a sweep. -/
def acceptFocus (z sharpness : Nat) (point : Bool) (r : FocusRequest) (c : Part) : Part :=
  let recipe := c.sessionRecipe
  let map :=
    if point then addMapPoint recipe.mapRadius ⟨r.x, r.y, z, sharpness, recipe.mapLifetime * 1000⟩ c.focusMap
    else c.focusMap
  focusAccepted z sharpness
    { c with drive := z, focusReference := some ⟨z, sharpness⟩, focusMap := map, focusRequest := none }

/-- The request fails (R105). -/
def failFocus (why : Reason) (c : Part) : Part := focusFailed why { c with focusRequest := none }

/-! ### Counts (R98, R101, R102) -/

/-- A check's count is taken (R98, R99). -/
def takeCheck (count : Nat) (r : FocusRequest) (c : Part) : Part :=
  let z := r.checkZ.getD 0
  if threshold c.sessionRecipe.resolution c.sessionRecipe.quality ≤ count ∧ 7 * r.checkRef.getD 0 ≤ 8 * count then
    acceptFocus z count false r (if r.kind = .predicted then countMapHit c else c)
  else beginSweep .sweep z r (countStat .checksFailed c)

/-- The verdict on a sweep's counts is carried out (R102). -/
def concludeSweep (v : SweepVerdict) (r : FocusRequest) (c : Part) : Part :=
  match v with
  | .low => failFocus .focusLow c
  | .edge z => if r.stage = .sweep then beginSweep .resweep z r c else failFocus .focusEdge c
  | .accept z sharpness => acceptFocus z sharpness true r c

/-- A step's count is taken (R101, R102): the next step starts, or the sweep is evaluated. -/
def takeStep (count : Nat) (r : FocusRequest) (c : Part) : Part :=
  let recipe := c.sessionRecipe
  let r := { r with counts := r.counts ++ [count] }
  if r.step < recipe.sweepSteps then startStep r (r.centre.getD 0) (r.step + 1) c
  else
    concludeSweep
      (evaluateSweep (threshold recipe.resolution recipe.quality) recipe.sweepSteps recipe.stepSize r.counts r.drives) r c

/-- The request in progress takes a count; the restarts return to 0 (R109). -/
def takeCount (count : Nat) (c : Part) : Part :=
  match c.focusRequest with
  | none => c
  | some r =>
    let r := { r with restarts := 0 }
    match r.stage with
    | .check => takeCheck count r c
    | .sweep => takeStep count r c
    | .resweep => takeStep count r c

/-! ### The converter's phases (R91, R92, R93) -/

/-- SETTLING ends: the converter enters ZERO. Out of SETTLING nothing happens (log 2). -/
def endSettling (c : Part) : Part :=
  match c.converter with
  | .settling r _ => { c with converter := .zero r }
  | _ => c

def endZero (c : Part) : Part :=
  match c.converter with
  | .zero r => { c with converter := .integrate r }
  | _ => c

def endIntegrate (c : Part) : Part :=
  match c.converter with
  | .integrate r => { c with converter := .deintegrate r }
  | _ => c

/-- DEINTEGRATE ends (R91, R93): the count, at most full scale, becomes the result and is taken. -/
def endConversion (count : Nat) (c : Part) : Part :=
  match c.converter with
  | .deintegrate r =>
    let n := min count (fullScale r)
    settle (takeCount n { c with converter := .idle, convResult := some ⟨n, c.drive, r⟩ })
  | _ => c

/-! ### Disturbances (R109, R110) -/

/-- A disturbed conversion restarts, or at its fourth disturbance the request fails (R109). -/
def disturbConversion (r : FocusRequest) (c : Part) : Part :=
  if r.restarts < 3 then
    { c with
      converter := .zero c.sessionRecipe.resolution, focusRequest := some { r with restarts := r.restarts + 1 } }
  else
    let c := { c with converter := .idle }
    let c := recordError .focusDisturbed (.focusDisturbed c.session.wafer c.session.inFlight r.kind c.drive) c
    settle (failFocus .focusDisturbed c)

def disturb (c : Part) : Part :=
  let c := if c.session.state = .idle then c else clearMap c
  match c.focusRequest with
  | none => c
  | some r => if c.converter.converting then disturbConversion r c else c

/-! ### Map points (R107) -/

/-- The point at an index of the map, oldest 0, reaches the map lifetime and leaves. -/
def expirePoint (index : Nat) (c : Part) : Part := { c with focusMap := c.focusMap.eraseIdx index }

end Sys2Proof.Machine
end

