-- ==== Sys2Proof/Machine/Posts.lean ====
section
/-! DEFINITION. The Capture Exchange's requests and timers (06). A request's meaning answers a `Reply`: the part after
it, the status and the body. -/

namespace Sys2Proof.Machine

/-- What the taking of a request leaves and answers. -/
structure Reply where
  part   : Part
  status : Status
  body   : Body
  deriving DecidableEq, Repr

/-- A refusal changes nothing (R164). Its body is empty: R164 for checks 1 to 3, the model's choice for check 4 and for an
owning block's refusal whose rule names no field (DESIGN CHOICE, log 28). -/
def refuse (status : Status) (c : Part) : Reply := ⟨c, status, .empty⟩

def answerOk (body : Body) (c : Part) : Reply := ⟨c, .ok, body⟩

/-! ### CAPTURE_FETCH, CAPTURE_STATUS (R122, R131) -/

/-- Every field of a record but its timer. -/
def CaptureRecord.fields (r : CaptureRecord) : CaptureFields :=
  ⟨r.number, r.wafer, r.site, r.x, r.y, r.inspClass, r.size, r.z, r.resolution, r.sharpness, r.attempt, r.state⟩

/-- The oldest UNFETCHED record of a log becomes FETCHED (R122): that record and the log after it. -/
def fetchOldest : List CaptureRecord → Option (CaptureRecord × List CaptureRecord)
  | [] => none
  | r :: rest =>
    if r.state = .unfetched then some ({ r with state := .fetched }, { r with state := .fetched } :: rest)
    else (fetchOldest rest).map (fun found => (found.1, r :: found.2))

def doCaptureFetch (c : Part) : Reply :=
  match fetchOldest c.captureLog with
  | none => answerOk (.capture none) c
  | some (r, log) => answerOk (.capture (some r.fields)) { c with captureLog := log }

def doCaptureStatus (c : Part) : Reply :=
  answerOk (.captureStatus c.credits c.nextCapture (c.waitingSite.map (fun w => (w.wafer, w.site)))
    (c.captureLog.map (fun r => (r.number, r.wafer, r.site, r.attempt, r.state)))) c

/-! ### CAPTURE_DONE (R123 to R125) -/

/-- The lot of a wafer tag. -/
def Part.lotOfWafer (c : Part) (t : Nat) : Option LoadPort := (c.wafer? t).map (·.lot)

/-- The recipe of the lot of a wafer tag. -/
def Part.waferRecipe (c : Part) (t : Nat) : Recipe :=
  match c.lotOfWafer t with
  | none => Recipe.default
  | some i => c.recipeOf i

/-- DONE with GOOD (R124). -/
def doneGood (r : CaptureRecord) (c : Part) : Part :=
  let wait := (c.waferRecipe r.wafer).classWait * 1000
  let c := updateCapture r.number (fun r => { r with state := .doneGood, timer := wait }) c
  let c := updateSite r.wafer r.site (fun e => { e with state := .captured }) c
  siteLeft r.wafer r.site c

/-- The site of a rejected capture below its attempt limit (R81): FOCUSING with a FORCED request; under PAUSING back to
PENDING (R85); in an aborted lot SKIPPED (R87). -/
def retryRejected (r : CaptureRecord) (e : SiteEntry) (c : Part) : Part :=
  let c := updateSite r.wafer r.site (fun e => { e with state := .focusing }) c
  let aborted :=
    match c.lotOfWafer r.wafer with
    | none => false
    | some i => c.lotAborted i
  if aborted then siteLeft r.wafer r.site (resolveSite r.wafer r.site (.skipped .aborted) c)
  else
    match c.session.state with
    | .active => takeFocusRequest .forced e.x e.y r.z c
    | .pausing => leaveFlight (returnToPending r.wafer r.site c)
    | _ => c

/-- DONE with REJECT (R125). -/
def doneReject (r : CaptureRecord) (c : Part) : Part :=
  let c := freeRecord r.number c
  let c :=
    match c.lotOfWafer r.wafer with
    | none => countStat .capturesRejected c
    | some i => countRejection i c
  let c := updateSite r.wafer r.site (fun e =>
    { e with attempts := e.attempts + 1, acceptedZ := none, captureNo := none }) c
  match c.site? r.wafer r.site with
  | none => c
  | some (_, _, e) =>
    if e.attempts < (c.waferRecipe r.wafer).attemptLimit then retryRejected r e c
    else siteLeft r.wafer r.site (resolveSite r.wafer r.site (.failed .captureRejected) c)

def doCaptureDone (number : Half) (result : Byte) (c : Part) : Reply :=
  match doneResultOf result with
  | none => refuse .badField c
  | some good =>
    match c.capture? number with
    | none => refuse .late (countStat .latePosts c)
    | some r =>
      if r.state = .fetched then answerOk .empty (settle (if good then doneGood r c else doneReject r c))
      else refuse .order c

/-! ### CLASS_POST (R127, R128) -/

def doClassPost (number : Half) (cls confidence : Byte) (c : Part) : Reply :=
  if cls.toNat ≤ 15 ∧ confidence.toNat ≤ 100 then
    match c.capture? number with
    | none => refuse .late (countStat .latePosts c)
    | some r =>
      if r.state = .doneGood then
        answerOk .empty
          (settle (resolveSite r.wafer r.site (.classified cls.toNat confidence.toNat) (freeRecord number c)))
      else refuse .order c
  else refuse .badField c

/-! ### BUFFER_GRANT (R117): the count answered is the count the grant gives, before an issue spends one (log 24) -/

def doBufferGrant (n : Byte) (c : Part) : Reply :=
  if n = 0#8 then refuse .badField c
  else
    let sum := c.credits + n.toNat
    let excess := sum - 255
    let granted :=
      if excess = 0 then c
      else recordError .creditOverflow (.creditOverflow c.credits n.toNat excess) c
    answerOk (.credits (min sum 255) excess) (tryIssue { granted with credits := min sum 255 })

/-! ### Timers (R120, R126, R129) -/

/-- The focus hold timer expires (R120). While it is not running nothing happens (log 2). -/
def expireFocusHold (c : Part) : Part :=
  match c.waitingSite with
  | none => c
  | some w =>
    if w.timer.isNone then c
    else
      let c := { c with waitingSite := none }
      match c.site? w.wafer w.site with
      | none => c
      | some (_, _, e) =>
        takeFocusRequest .recheck e.x e.y (e.acceptedZ.getD 0)
          (updateSite w.wafer w.site (fun e => { e with state := .focusing }) c)

/-- The capture-done timer of a record expires (R126); it runs in UNFETCHED and FETCHED. -/
def expireCapture (number : Half) (c : Part) : Part :=
  match c.capture? number with
  | none => c
  | some r =>
    if r.state = .doneGood then c
    else
      let c := resolveSite r.wafer r.site (.failed .captureTimeout) (freeRecord number c)
      let c := recordError .captureTimeout (.captureTimeout r.wafer r.site r.number r.state) c
      settle (siteLeft r.wafer r.site c)

/-- The class-wait timer of a record expires (R129); it runs in DONE_GOOD. -/
def expireClassWait (number : Half) (c : Part) : Part :=
  match c.capture? number with
  | none => c
  | some r =>
    if r.state = .doneGood then settle (resolveSite r.wafer r.site .unclassified (freeRecord number c)) else c

end Sys2Proof.Machine
end

