-- ==== Sys2Proof/Machine/LotRequests.lean ====
section
/-! DEFINITION. The requests of the Lot Table (01): carriers, lots, holds, abort, recipes. Each makes its checks in the
order of its rule; the first that fails decides the response. -/

namespace Sys2Proof.Machine

/-- The load port a request names, when it is fitted (R1). -/
def Part.fitted (c : Part) (n : Byte) : Option LoadPort :=
  if n.toNat ≤ c.settings.portsFitted then LoadPort.ofNum n.toNat else none

/-! ### Carriers (R2, R3, R4, R6) -/

/-- A carrier ID stands in another carrier record that is not EMPTY (R2). -/
def Part.carrierIdTaken (c : Part) (i : LoadPort) (id : Text) : Bool :=
  allLoadPorts.any (fun j => j != i && (c.carrier j).state != .empty && (c.carrier j).id == some id)

def doCarrierDocked (port : Byte) (id : Text) (c : Part) : Reply :=
  match c.fitted port with
  | none => refuse .badField c
  | some i =>
    if textWithin 16 id = false then refuse .badField c
    else if c.carrierIdTaken i id then refuse .badField c
    else if (c.carrier i).state ≠ .empty then refuse .refusedState c
    else answerOk .empty (setCarrier i ⟨.docked, some id, none⟩ c)

def doSlotMap (port : Byte) (entries : List SlotField) (c : Part) : Reply :=
  match c.fitted port with
  | none => refuse .badField c
  | some i =>
    if (c.carrier i).state ≠ .docked then refuse .refusedState c
    else
      match slotMapOf entries with
      | none => refuse .badField c
      | some m => answerOk .empty (setCarrier i { c.carrier i with state := .mapped, map := some m } c)

def doCarrierRelease (port : Byte) (c : Part) : Reply :=
  match c.fitted port with
  | none => refuse .badField c
  | some i =>
    match (c.carrier i).state with
    | .empty => refuse .refusedState c
    | .releasable => answerOk .empty c
    | _ =>
      if (c.lot? i).isSome then refuse .refusedState c
      else answerOk .empty (setCarrier i { c.carrier i with state := .releasable } c)

/-- A lot record is freed with its lists and its place in the report-wait order (R6); LOT_STATE is raised. -/
def freeLot (i : LoadPort) (c : Part) : Part :=
  let c := freeListsOf i (setLot i none c)
  raiseLotState { c with waitingReports := c.waitingReports.filter (fun w => w.lot != i) }

def doCarrierUndocked (port : Byte) (c : Part) : Reply :=
  match LoadPort.ofNum port.toNat with
  | none => refuse .badField c
  | some i =>
    let emptied := setCarrier i ⟨.empty, none, none⟩ c
    match (c.carrier i).state, c.lot? i with
    | .empty, _ => refuse .refusedState c
    | .releasable, some _ => answerOk .empty (freeLot i emptied)
    | .releasable, none => answerOk .empty emptied
    | _, some _ => refuse .refusedState c
    | _, none => answerOk .empty emptied

/-! ### Definition and start (R8, R9) -/

/-- A lot as LOT_DEFINE makes it (R8). -/
def definedLot (id : Text) (recipe : Nat) (priority : Priority) (selection : List Byte) : Lot where
  id := id
  recipe := recipe
  priority := priority
  selection := selection.map (fun b => ⟨b.toNat, .waiting, none, WaferCounts.empty⟩)
  state := .defined
  holdTool := none
  holdAuto := none
  holdExc := none
  aborted := false
  startOrder := none
  counters := LotCounters.empty

/-- Check 5 of R8. -/
def selectionOk (l : List Byte) : Bool :=
  inRange 1 25 l.length && l.all (fun b => inRange 1 25 b.toNat) && decide l.Nodup

/-- Check 7 of R8. -/
def allOccupied (map : Option (List SlotEntry)) (l : List Byte) : Bool :=
  match map with
  | none => false
  | some m => l.all (fun b =>
      match m[b.toNat - 1]? with
      | none => false
      | some e => e.state == .occupied)

def doLotDefine (id : Text) (port recipe priority : Byte) (selection : List Byte) (c : Part) : Reply :=
  if textWithin 20 id = false ∨ (c.findLot id).isSome then refuse .badField c
  else
    match c.fitted port with
    | none => refuse .badField c
    | some i =>
      if (c.recipes.getD recipe.toNat none).isNone then refuse .badField c
      else
        match priorityOf priority with
        | none => refuse .badField c
        | some q =>
          if selectionOk selection = false then refuse .badField c
          else if (c.carrier i).state ≠ .mapped ∨ (c.lot? i).isSome then refuse .refusedState c
          else if allOccupied (c.carrier i).map selection = false then refuse .badField c
          else answerOk .empty (raiseLotState (setLot i (some (definedLot id recipe.toNat q selection)) c))

/-- The lot an ID names, with its record. -/
def Part.lotNamed (c : Part) (id : Text) : Option (LoadPort × Lot) :=
  match c.findLot id with
  | none => none
  | some i =>
    match c.lot? i with
    | none => none
    | some l => some (i, l)

def doLotStart (id : Text) (c : Part) : Reply :=
  match c.lotNamed id with
  | none => refuse .notFound c
  | some (i, l) =>
    if l.state ≠ .defined then refuse .refusedState c
    else
      let n := saturate32 (c.startCounter + 1)
      let c := setLot i (some { l with state := .running, startOrder := some n }) { c with startCounter := n }
      answerOk .empty (settle (raiseLotState c))

/-! ### Holds (R13, R15) -/

/-- The lot with the port's own source set or removed: TOOL for the tool port, AUTOMATION for the automation port. -/
def setOwnSource (p : PortId) (s : Option Scope) (l : Lot) : Lot :=
  match p with
  | .tool => { l with holdTool := s }
  | _ => { l with holdAuto := s }

def ownSource (p : PortId) (l : Lot) : Option Scope :=
  match p with
  | .tool => l.holdTool
  | _ => l.holdAuto

def doLotHold (p : PortId) (id : Text) (scope : Byte) (c : Part) : Reply :=
  match scopeOf scope with
  | none => refuse .badField c
  | some s =>
    match c.lotNamed id with
    | none => refuse .notFound c
    | some (i, l) =>
      if (l.state = .running ∨ l.state = .draining) ∧ l.aborted = false then
        let held := setOwnSource p (some s) l
        let c := raiseEvent .automation .holdSet (changeHold i l held c)
        answerOk .empty (if l.hold = .holdN ∧ held.hold ≠ .holdN then settle c else c)
      else refuse .refusedState c

def doLotRelease (p : PortId) (id : Text) (choice : Byte) (c : Part) : Reply :=
  match releaseChoiceOf choice with
  | none => refuse .badField c
  | some excursion =>
    if excursion ∧ p = .automation then refuse .notPermitted c
    else
      match c.lotNamed id with
      | none => refuse .notFound c
      | some (i, l) =>
        let source := if excursion then l.holdExc else ownSource p l
        if source.isNone then refuse .refusedState c
        else
          let freed := if excursion then { l with holdExc := none } else setOwnSource p none l
          answerOk .empty (settle (changeHold i l freed c))

/-! ### Abort (R17) -/

/-- The record of an aborted lot: aborted, without hold sources. -/
def abortedLot (l : Lot) : Lot := { l with aborted := true, holdTool := none, holdAuto := none, holdExc := none }

def doLotAbort (id : Text) (c : Part) : Reply :=
  match c.lotNamed id with
  | none => refuse .notFound c
  | some (i, l) =>
    match l.state with
    | .defined => answerOk .empty (completeLot i (setLot i (some (abortedLot l)) c))
    | .running =>
      let c := raiseLotState (setLot i (some { abortedLot l with state := .draining }) c)
      answerOk .empty (settle (abortWafers i c))
    | .draining =>
      if l.aborted then answerOk .empty c
      else
        let c := setLot i (some (abortedLot l)) c
        let c := if l.hold = .none then c else raiseLotState c
        answerOk .empty (settle (abortWafers i c))
    | _ => refuse .refusedState c

/-! ### Queries and recipes (R20, R21, R22) -/

/-- The carrier record of a port with its lot, the lot's carrier port and the lot's derived hold (R20). -/
def lotView (i : LoadPort) (c : Part) : Body :=
  let hold := match c.lot? i with | none => Hold.none | some l => l.hold
  .lotQuery (c.carrier i) ((c.lot? i).map (fun l => (i, l))) hold

def doLotQuery (sel : LotSelector) (c : Part) : Reply :=
  match sel with
  | .lot id =>
    match c.findLot id with
    | none => refuse .notFound c
    | some i => answerOk (lotView i c) c
  | .port n =>
    match LoadPort.ofNum n.toNat with
    | none => refuse .badField c
    | some i => answerOk (lotView i c) c

/-- A lot record in use that is not CLOSED names the slot (R21, check 2). -/
def Part.recipeInUse (c : Part) (slot : Nat) : Bool :=
  allLoadPorts.any (fun i =>
    match c.lot? i with
    | none => false
    | some l => l.state != .closed && l.recipe == slot)

def doRecipeSet (slot : Byte) (fields : RecipeFields) (c : Part) : Reply :=
  if 7 < slot.toNat then refuse .badField c
  else if c.recipeInUse slot.toNat then refuse .recipeInUse c
  else
    match recipeOfFields fields with
    | none => refuse .badField c
    | some r => answerOk .empty { c with recipes := c.recipes.set slot.toNat (some r) }

def doRecipeQuery (slot : Byte) (c : Part) : Reply :=
  if 7 < slot.toNat then refuse .badField c else answerOk (.recipe (c.recipes.getD slot.toNat none)) c

end Sys2Proof.Machine
end

