-- ==== Sys2Proof/Machine/SiteRequests.lean ====
section
/-! DEFINITION. The requests of the Site Store (02), of the Wafer Flow Controller (03) and of the Report Builder (08). -/

namespace Sys2Proof.Machine

/-! ### SITE_LOAD, SITE_SEAL (R31 to R33) -/

/-- Checks 1 and 2 of R31: the lot, and the slot in its selection. -/
def findSlot (id : Text) (slot : Byte) (c : Part) : Except Status (LoadPort × Lot × Selection) :=
  match c.lotNamed id with
  | none => .error .notFound
  | some (i, l) =>
    match l.entry? slot.toNat with
    | none => .error .badField
    | some e => .ok (i, l, e)

/-- Checks 3 and 4 of R31. -/
def openSlot (id : Text) (slot : Byte) (c : Part) : Except Status LoadPort :=
  match findSlot id slot c with
  | .error st => .error st
  | .ok (i, l, e) =>
    if l.aborted ∨ l.state = .reportWait ∨ l.state = .closed then .error .refusedState
    else if e.status = .waiting ∧ ((c.list? i slot.toNat).map (·.sealed)).getD false = false then .ok i
    else .error .listSealed

/-- Check 5 of R31: 1..16 sites, every field in range, no site number twice nor in the list. -/
def newSites (sites : List SiteField) (present : List SiteEntry) : Option (List SiteEntry) :=
  if inRange 1 16 sites.length then
    match mapAll siteEntryOf sites with
    | none => none
    | some es =>
      if (es.map (·.number)).Nodup ∧ es.all (fun e => !(present.any (fun f => f.number == e.number))) then some es
      else none
  else none

/-- A list for the lot and slot exists, empty and unsealed when it comes into being (R29, R32). -/
def ensureList (i : LoadPort) (slot : Nat) (c : Part) : Part :=
  match c.list? i slot with
  | none => { c with lists := c.lists ++ [⟨i, slot, false, []⟩] }
  | some _ => c

/-- The sites join the list in visiting order, leave the pool and are counted (R32, R135). -/
def loadSites (i : LoadPort) (slot : Nat) (es : List SiteEntry) (c : Part) : Part :=
  let c := ensureList i slot c
  let c := updateList i slot (fun l => { l with entries := es.foldl (fun acc e => insertEntry e acc) l.entries }) c
  let c := { c with freeCount := c.freeCount - es.length }
  updateLot i (fun l =>
    let l := l.updateEntry slot (fun e => { e with counts := { e.counts with loaded := e.counts.loaded + es.length } })
    { l with counters := { l.counters with loaded := l.counters.loaded + es.length } }) c

def doSiteLoad (id : Text) (slot : Byte) (sites : List SiteField) (c : Part) : Reply :=
  match openSlot id slot c with
  | .error st => refuse st c
  | .ok i =>
    let present := c.entries i slot.toNat
    match newSites sites present with
    | none => refuse .badField c
    | some es =>
      if c.settings.waferCap < present.length + es.length ∨ c.freeCount < es.length then
        ⟨c, .noSpace, .noSpace present.length c.settings.waferCap c.freeCount⟩
      else
        let after := loadSites i slot.toNat es c
        answerOk (.siteLoaded (after.entries i slot.toNat).length after.freeCount) after

def doSiteSeal (id : Text) (slot : Byte) (c : Part) : Reply :=
  match openSlot id slot c with
  | .error st => refuse st c
  | .ok i =>
    let after := updateList i slot.toNat (fun l => { l with sealed := true }) (ensureList i slot.toNat c)
    answerOk (.siteSealed (after.entries i slot.toNat).length) (settle after)

/-! ### SITE_QUERY (R39) -/

/-- The list status SITE_QUERY gives: FREED for a DISPATCHED entry whose list no longer exists. -/
def queryStatus (i : LoadPort) (e : Selection) (c : Part) : ListStatus :=
  if (c.list? i e.slot).isNone ∧ e.status = .dispatched then .freed else c.listStatus i e.slot

/-- SITE_QUERY (R39). A start position of 0 is refused after checks 1 and 2 of R31 (DESIGN CHOICE, log 25). -/
def doSiteQuery (sel : SiteSelector) (c : Part) : Reply :=
  match sel with
  | .pool => answerOk (.pool c.freeCount c.lists.length) c
  | .list id slot start =>
    match findSlot id slot c with
    | .error st => refuse st c
    | .ok (i, _, e) =>
      if start = 0#16 then refuse .badField c
      else
        let es := c.entries i slot.toNat
        answerOk
          (.siteList c.freeCount (queryStatus i e c) es.length (openCount es) ((es.drop (start.toNat - 1)).take 16)) c

/-! ### MOVER_RECOVER (R48) -/

def doMoverRecover (mover disposition : Byte) (c : Part) : Reply :=
  match moverOf mover, dispositionOf disposition with
  | some m, some d =>
    match c.slotOf m with
    | .faulted o _ =>
      if d = .removed ∧ (m = .st ∨ o.wafer = none) then refuse .badField c
      else answerOk .empty (settle (applyDisposition d m o (recoverSlot m o c)))
    | _ => refuse .refusedState c
  | _, _ => refuse .badField c

/-! ### CELL_QUERY (R67) -/

/-- An order slot as CELL_QUERY shows it: without its timer. -/
def OrderSlot.shown : OrderSlot → OrderSlot
  | .idle => .idle
  | .issued o => .issued { o with timer := none }
  | .faulted o cause => .faulted { o with timer := none } cause

def shownOrders (t : OrderTable) : OrderTable :=
  ⟨t.ar.shown, t.vr.shown, t.al.shown, t.la.shown, t.lb.shown, t.st.shown⟩

/-- The wafer records in use, each with its tag and the lot's ID. -/
def waferViews (c : Part) : List WaferView :=
  allTags.filterMap (fun t => (c.wafer? t).map (fun w =>
    ⟨t, (match c.lot? w.lot with | none => [] | some l => l.id), w⟩))

def doCellQuery (c : Part) : Reply :=
  answerOk
    (.cell c.places c.lockA c.lockB c.atLoad (shownOrders c.orders) (waferViews c) c.vacuumInboundCount
      c.inboundClaimCount (allTags.countP (fun t => (c.wafer? t).isNone))) c

/-! ### REPORT_FETCH, REPORT_ACK (R154, R155) -/

def Part.report? (c : Part) (sel : ReportSelector) : Option Report :=
  match sel with
  | .number n => c.reportQueue.find? (fun r => r.number == some n)
  | .oldest => c.reportQueue.head?

def doReportFetch (sel : ReportSelector) (c : Part) : Reply :=
  match c.report? sel with
  | none => ⟨c, .notFound, .queued c.reportQueue.length⟩
  | some r => answerOk (.report (reportBytes r) c.reportQueue.length) c

/-- The number of reports from the oldest to the named one, absent when it is not in the queue. -/
def reportsUpTo (n : Half) (q : List Report) : Option Nat :=
  (q.findIdx? (fun r => r.number == some n)).map (· + 1)

/-- Reports leave the queue and waiting ones enter (R155, R19). -/
def acknowledge (k : Nat) (c : Part) : Part :=
  let waiting := c.waitingReports
  let after := fillQueue waiting { c with reportQueue := c.reportQueue.drop k }
  if waiting.isEmpty then after else raiseLotState after

def doReportAck (number : Half) (c : Part) : Reply :=
  match reportsUpTo number c.reportQueue with
  | none => refuse .notFound c
  | some k =>
    let after := acknowledge k c
    answerOk (.acked k after.reportQueue.length) after

end Sys2Proof.Machine
end

