-- ==== Sys2Proof/Machine/ToolRequests.lean ====
section
/-! DEFINITION. The requests on statistics (07), notices and errors (10), mode (09), settings and TOOL_CLEAR (11), with
the ends of the settings load and of a save. -/

namespace Sys2Proof.Machine

/-! ### Statistics (R145, R146) -/

def doStatsRead (c : Part) : Reply :=
  answerOk (.stats (allStatistics.map c.stats.get) (statsHalf c.stats)) c

def doStatsTake (statistic : Byte) (amount : Full) (c : Part) : Reply :=
  match statisticOf statistic with
  | none => refuse .badField c
  | some k =>
    if c.stats.get k < amount then refuse .badField c
    else
      let left := c.stats.get k - amount
      answerOk (.statistic left) { c with stats := c.stats.set k left }

/-! ### Notices (R171, R172) -/

def doNoticeRead (p : PortId) (c : Part) : Reply :=
  answerOk (.notices (rawSet c p) (maskedSet c p) (noticeCause c p) (c.notices.get p).enabled) (clearEvents p c)

def doNoticeMaskSet (p : PortId) (conds : List Byte) (c : Part) : Reply :=
  match namedConditions p conds with
  | none => refuse .badField c
  | some xs =>
    let after := enableMasks p xs c
    answerOk (.masks (after.notices.get p).enabled) after

def doNoticeMaskClear (p : PortId) (conds : List Byte) (c : Part) : Reply :=
  match namedConditions p conds with
  | none => refuse .badField c
  | some xs =>
    let after := disableMasks p xs c
    answerOk (.masks (after.notices.get p).enabled) after

/-! ### Errors (R176, R177) -/

/-- Whether any kind of a class has its flag set (R176). -/
def classFlagged (t : ErrorTable) (x : ErrorClass) : Bool :=
  allErrorKinds.any (fun k => k.errorClass == x && (t.get k).flag)

/-- The kinds ERROR_READ names, in table order, none when a name is refused (R176, log 16). -/
def selectedKinds : ErrorSelector → Option (List ErrorKind)
  | .all => some allErrorKinds
  | .cls b => (errorClassOf b).map (fun x => allErrorKinds.filter (fun k => k.errorClass == x))
  | .kinds names => (mapAll errorKindOf names).map inTableOrder

def doErrorRead (sel : ErrorSelector) (c : Part) : Reply :=
  match selectedKinds sel with
  | none => refuse .badField c
  | some ks =>
    answerOk
      (.errors ([ErrorClass.note, .tool, .wafer].map (fun x => (x, classFlagged c.errors x)))
        (ks.map (fun k => (k, c.errors.get k)))) c

/-- A reporting change, none when it names no kind or a value other than on or off (R177). -/
def reportingChange (f : ReportingField) : Option (ErrorKind × Bool) :=
  match errorKindOf f.kind, yesNoOf f.value with
  | some k, some v => some (k, v)
  | _, _ => none

/-- ERROR_CLEAR (R177): the kinds named are cleared, then the reporting changes are written in the order of the list, so that
of two changes for one kind the later one stands (DESIGN CHOICE, log 29). -/
def doErrorClear (names : List Byte) (changes : Option (List ReportingField)) (c : Part) : Reply :=
  match mapAll errorNameOf names, mapAll reportingChange (changes.getD []) with
  | some ks, some vs =>
    let after := vs.foldl setReporting (ks.flatten.foldl clearError c)
    answerOk
      (.errorsAfter (allErrorKinds.map (fun k => (k, (after.errors.get k).flag, (after.errors.get k).reporting)))) after
  | _, _ => refuse .badField c

/-! ### Mode (R167) -/

def doModeSet (mode : Byte) (c : Part) : Reply :=
  match modeOf mode with
  | none => refuse .badField c
  | some m => answerOk (.mode c.mode m) { c with mode := m }

/-! ### Settings (R179 to R181) -/

/-- A setting takes a value (R179): the unsaved mark, and the focus drive at a changed park value with no session. -/
def applySetting (k : SettingName) (v : Nat) (c : Part) : Part :=
  if v = c.settings.get k then c
  else
    let drive := if k = .parkZ ∧ c.session.state = .idle then v else c.drive
    { c with settings := c.settings.set k v, unsaved := true, drive := drive }

def doSettingSet (name : Byte) (value : Full) (c : Part) : Reply :=
  match settingNameOf name with
  | none => refuse .badField c
  | some k =>
    if c.anyLot then refuse .busy c
    else if c.saving.isSome then refuse .busy c
    else
      let v := clampSetting k value.toNat
      answerOk (.setting v) (applySetting k v c)

def doSettingRead (c : Part) : Reply :=
  answerOk (.settings c.settings c.loadResult c.saving.isSome c.lastSave c.unsaved) c

def doSettingsSave (c : Part) : Reply :=
  if c.saving.isSome then refuse .busy c else answerOk .empty { c with saving := some c.settings }

/-- What the power-on read gave (R178): the working settings and the load result. An image left partly written has a
wrong CRC (R181). -/
def readImage (bus : BusRead) (c : Part) : Settings × LoadResult :=
  match bus with
  | .noResponse => (defaultSettings, .defaulted .noResponse)
  | .answered =>
    if c.imagePartial then (defaultSettings, .defaulted .crc) else loadImage (memoryReadFrom c.memory 0 56)

/-- The load ends (R178, R180). With no load in progress nothing happens (log 2). -/
def endLoad (bus : BusRead) (c : Part) : Part :=
  if c.loading then
    let read := readImage bus c
    let c := { c with
      settings := read.1, loading := false, loadResult := some read.2, drive := read.1.parkZ
      unsaved := decide (read.2 ≠ .loaded) }
    match read.2 with
    | .defaulted why => recordError .settingsDefaulted (.settingsLoad why) c
    | _ => c
  else c

/-- A failed save (R181). -/
def failSave (why : SaveReason) (c : Part) : Part :=
  recordError .settingsDefaulted (.settingsSave why) { c with lastSave := .failed why }

/-- The result of a save whose copy is `s` (R181). -/
def concludeSave (s : Settings) (bus : SaveBus) (c : Part) : Part :=
  match bus with
  | .readBack bytes =>
    if bytes = settingsImage s then { c with lastSave := .done, unsaved := false } else failSave .verify c
  | .noResponse _ => failSave .noResponse c

/-- The 56 bytes the save leaves in the image area. -/
def saveBytes : SaveBus → List Byte
  | .readBack b => b
  | .noResponse b => b

/-- A save ends (R181). With no save running nothing happens (log 2). -/
def endSave (bus : SaveBus) (c : Part) : Part :=
  match c.saving with
  | none => c
  | some s =>
    let c := concludeSave s bus
      { c with saving := none, imagePartial := false, memory := memoryWriteFrom c.memory 0 ((saveBytes bus).take 56) }
    raiseEvent .tool .settingsDone c

/-! ### TOOL_CLEAR (R182, R23) -/

/-- The number of carrier records that are not EMPTY. -/
def Part.carrierCount (c : Part) : Nat := allLoadPorts.countP (fun i => (c.carrier i).state != .empty)

def Part.lotCount (c : Part) : Nat := allLoadPorts.countP (fun i => (c.lot? i).isSome)

def clearTool (c : Part) : Part :=
  let cleared := { c with
    lots := ⟨none, none, none, none⟩
    carriers := ⟨⟨.empty, none, none⟩, ⟨.empty, none, none⟩, ⟨.empty, none, none⟩, ⟨.empty, none, none⟩⟩
    startCounter := 0
    waitingReports := []
    lists := []
    freeCount := 12288
    credits := 0
    focusMap := [] }
  if c.anyLot then raiseLotState cleared else cleared

def doToolClear (c : Part) : Reply :=
  if c.anyWafer then refuse .busy c
  else if allMovers.any (fun m => (c.slotOf m).isIssued) then refuse .busy c
  else if !c.reportQueue.isEmpty then refuse .busy c
  else answerOk (.cleared c.lotCount c.carrierCount) (clearTool c)

end Sys2Proof.Machine
end

