-- ==== Sys2Proof/Machine/Ports.lean ====
section
/-! DEFINITION. The agent ports (09): the access decision, the checks at the take, the request queue, the send order, the
byte receiver, port reset. -/

namespace Sys2Proof.Machine

/-! ### Access (R166) -/

/-- Whether a kind is permitted from a port in a mode (R166). -/
def permitted (k : Kind) (p : PortId) (m : Mode) : Bool :=
  match k with
  | .lotStart =>
    match p with
    | .tool => m == .localMode
    | .image => false
    | .automation => m == .remoteMode
  | .lotHold | .lotRelease | .lotAbort =>
    match p with
    | .tool => true
    | .image => false
    | .automation => m == .remoteMode
  | .lotDefine | .carrierDocked | .carrierRelease | .carrierUndocked | .slotMap | .recipeSet | .recipeQuery | .siteLoad
  | .siteSeal | .siteQuery | .moverRecover | .errorClear | .settingSet | .settingRead | .settingsSave | .modeSet
  | .toolClear => p == .tool
  | .captureFetch | .captureDone | .captureStatus | .classPost | .bufferGrant => p == .image
  | .reportFetch => p != .image
  | .reportAck => p == .automation
  | .lotQuery | .cellQuery | .statsRead | .errorRead => p != .image
  | .noticeRead | .noticeMaskSet | .noticeMaskClear => true
  | .statsTake => p != .image

/-! ### Execution by the owning block (R168) -/

/-- The owning block executes a request that its port took. -/
def execute (p : PortId) (r : Request) (c : Part) : Reply :=
  match r with
  | .carrierDocked port id => doCarrierDocked port id c
  | .slotMap port entries => doSlotMap port entries c
  | .carrierRelease port => doCarrierRelease port c
  | .carrierUndocked port => doCarrierUndocked port c
  | .lotDefine id port recipe priority selection => doLotDefine id port recipe priority selection c
  | .lotStart id => doLotStart id c
  | .lotHold id scope => doLotHold p id scope c
  | .lotRelease id choice => doLotRelease p id choice c
  | .lotAbort id => doLotAbort id c
  | .lotQuery sel => doLotQuery sel c
  | .recipeSet slot fields => doRecipeSet slot fields c
  | .recipeQuery slot => doRecipeQuery slot c
  | .siteLoad id slot sites => doSiteLoad id slot sites c
  | .siteSeal id slot => doSiteSeal id slot c
  | .siteQuery sel => doSiteQuery sel c
  | .moverRecover mover disposition => doMoverRecover mover disposition c
  | .cellQuery => doCellQuery c
  | .captureFetch => doCaptureFetch c
  | .captureDone number result => doCaptureDone number result c
  | .captureStatus => doCaptureStatus c
  | .classPost number cls confidence => doClassPost number cls confidence c
  | .bufferGrant n => doBufferGrant n c
  | .reportFetch sel => doReportFetch sel c
  | .reportAck number => doReportAck number c
  | .statsRead => doStatsRead c
  | .statsTake statistic amount => doStatsTake statistic amount c
  | .noticeRead => doNoticeRead p c
  | .noticeMaskSet conds => doNoticeMaskSet p conds c
  | .noticeMaskClear conds => doNoticeMaskClear p conds c
  | .errorRead sel => doErrorRead sel c
  | .errorClear names changes => doErrorClear names changes c
  | .modeSet mode => doModeSet mode c
  | .settingSet name value => doSettingSet name value c
  | .settingRead => doSettingRead c
  | .settingsSave => doSettingsSave c
  | .toolClear => doToolClear c

/-! ### The checks at the take (R164) -/

/-- Checks 3 and 4 for a request of a known kind, then the owning block; `body` is absent when the body is malformed. -/
def judgeKind (p : PortId) (k : Kind) (body : Option Request) (c : Part) : Reply :=
  if permitted k p c.mode = false then refuse .notPermitted c
  else
    match body with
    | none => refuse .badField c
    | some r => execute p r c

/-- Checks 1 to 4 for a well-formed request. -/
def judgeRequest (p : PortId) (r : Request) (c : Part) : Reply :=
  if c.loading then refuse .busy c else judgeKind p r.kind (some r) c

/-- Checks 1 to 4 for a request as its bytes. -/
def judgeBytes (p : PortId) (code : Byte) (body : List Byte) (c : Part) : Reply :=
  if c.loading then refuse .busy c
  else
    match Kind.ofCode code with
    | none => refuse .unknownKind c
    | some k => judgeKind p k (decodeBody k body) c

/-! ### The request queue and the send order (R161 to R163) -/

def queueCapacity : Nat := 4

def sendCapacity : Nat := 6

def State.port (s : State) (p : PortId) : Port := s.ports.get p

def State.setPort (p : PortId) (q : Port) (s : State) : State := { s with ports := s.ports.set p q }

/-- The send order holds a response formed by a take (R163). -/
def Port.busy (q : Port) : Bool := q.sendOrder.any (·.taken)

/-- A request that arrives is taken in its own event: the queue is empty and no taken response stands (R163). -/
def Port.free (q : Port) : Bool := q.queue.isEmpty && !q.busy

/-- A take (R163): the part after the request, its response at the end of the send order. -/
def answerTake (p : PortId) (code : Byte) (tag : Half) (r : Reply) (s : State) : State :=
  let q := s.port p
  State.setPort p { q with sendOrder := q.sendOrder ++ [⟨code, tag, r.status, r.body, true⟩] } { s with part := r.part }

/-- A request joins the queue (R161), or at a full queue is answered QUEUE_FULL where that response can be formed, and
recorded (R162). The QUEUE_FULL response has an empty body (DESIGN CHOICE, log 28). -/
def enqueue (p : PortId) (r : QueuedRequest) (s : State) : State :=
  let q := s.port p
  if q.queue.length < queueCapacity then State.setPort p { q with queue := q.queue ++ [r] } s
  else
    let formed := decide (q.sendOrder.length < sendCapacity)
    let s := { s with part := recordError .queueOverrun (.queueOverrun p r.code r.tag formed) s.part }
    if formed then
      State.setPort p { q with sendOrder := q.sendOrder ++ [⟨r.code, r.tag, .queueFull, .empty, false⟩] } s
    else s

/-- A well-formed request arrives at its port (R161, R163); a DOWN link receives nothing (R158). -/
def takeRow (p : PortId) (tag : Half) (r : Request) (s : State) : State :=
  match (s.port p).link with
  | .down => s
  | .up =>
    if (s.port p).free then answerTake p r.kind.code tag (judgeRequest p r s.part) s
    else enqueue p ⟨r.kind.code, tag, r.encode⟩ s

/-- A request arrives as its bytes. -/
def arrival (p : PortId) (r : QueuedRequest) (s : State) : State :=
  match (s.port p).link with
  | .down => s
  | .up =>
    if (s.port p).free then answerTake p r.code r.tag (judgeBytes p r.code r.body s.part) s
    else enqueue p r s

/-- The port takes the oldest request of its queue when no taken response stands in the send order (R163). -/
def takeNext (p : PortId) (s : State) : State :=
  let q := s.port p
  match q.queue with
  | [] => s
  | r :: rest =>
    if q.busy then s
    else answerTake p r.code r.tag (judgeBytes p r.code r.body s.part) (State.setPort p { q with queue := rest } s)

/-- The oldest response has been sent (R162, R163). With an empty send order nothing happens (log 2). -/
def endSending (p : PortId) (s : State) : State :=
  let q := s.port p
  match q.sendOrder with
  | [] => s
  | _ :: rest => takeNext p (State.setPort p { q with sendOrder := rest } s)

/-! ### Frames (R160) -/

def linkCrcKind : PortId → ErrorKind
  | .tool => .linkCrcTool
  | .image => .linkCrcImage
  | .automation => .linkCrcAutomation

/-- A frame is discarded and the port's LINK_CRC kind recorded (R160). -/
def recordLinkCrc (p : PortId) (d : ErrorDetail) (s : State) : State :=
  { s with part := recordError (linkCrcKind p) d s.part }

/-- What the receiver finds at the front of the bytes received, which begin with the sync (R160). -/
inductive FrameScan where
  | incomplete
  | overlong (length : Half) (rest : List Byte)
  | badCrc (length : Half) (code : Byte) (tag : Half) (rest : List Byte)
  | frame (r : QueuedRequest) (rest : List Byte)
  deriving DecidableEq, Repr

/-- The receiver reads the length, then the whole frame, then checks the CRC (R160). -/
def scanFrame (bytes : List Byte) : FrameScan :=
  match bytes with
  | _ :: _ :: l0 :: l1 :: after =>
    let length := joinHalf l0 l1
    let n := length.toNat
    if maxBody < n then .overlong length after
    else
      match after with
      | code :: t0 :: t1 :: tail =>
        if tail.length < n + 2 then .incomplete
        else
          let body := tail.take n
          let crc := joinHalf (tail.getD n 0#8) (tail.getD (n + 1) 0#8)
          let rest := tail.drop (n + 2)
          if crc = crc16 (l0 :: l1 :: code :: t0 :: t1 :: body) then .frame ⟨code, joinHalf t0 t1, body⟩ rest
          else .badCrc length code (joinHalf t0 t1) rest
      | _ => .incomplete
  | _ => .incomplete

/-- The bytes kept by the receiver. -/
def setPartial (p : PortId) (bytes : List Byte) (s : State) : State :=
  State.setPort p { s.port p with partialFrame := bytes } s

/-- Bytes come in on an UP link (R160): they join what was received before, and at most one frame is settled (log 20). -/
def receive (p : PortId) (bytes : List Byte) (s : State) : State :=
  match (s.port p).link with
  | .down => s
  | .up =>
    let held := dropToSync ((s.port p).partialFrame ++ bytes)
    match scanFrame held with
    | .incomplete => setPartial p held s
    | .overlong length rest => recordLinkCrc p (.linkLength length) (setPartial p (dropToSync rest) s)
    | .badCrc length code tag rest => recordLinkCrc p (.linkCrc length code tag) (setPartial p (dropToSync rest) s)
    | .frame r rest => arrival p r (setPartial p (dropToSync rest) s)

/-- A length field over 1,024 (R160); the frame's bytes so far are discarded. -/
def receiveOverlong (p : PortId) (length : Half) (s : State) : State :=
  match (s.port p).link with
  | .down => s
  | .up =>
    if maxBody < length.toNat then recordLinkCrc p (.linkLength length) (setPartial p [] s)
    else s

/-! ### Response frames (R160, R165) -/

/-- The status codes of R165's table. -/
def Status.code : Status → Byte
  | .ok => 0#8
  | .notPermitted => 1#8
  | .refusedState => 2#8
  | .badField => 3#8
  | .noSpace => 4#8
  | .busy => 5#8
  | .queueFull => 6#8
  | .unknownKind => 7#8
  | .late => 8#8
  | .order => 9#8
  | .notFound => 10#8
  | .listSealed => 11#8
  | .recipeInUse => 12#8

/-- The largest body length a response frame may carry (R160). -/
def maxResponseBody : Nat := 2048

/-- The bytes of a body: none for an empty one, a report in its wire form and then the count of reports queued (R154, R157),
and for any other body bytes that the manual does not give (log 14). -/
def Body.bytes (b : Body) : List Byte :=
  let all :=
    match b with
    | .empty => []
    | .report wire n => wire ++ Config.bodyBytes (.queued n)
    | other => Config.bodyBytes other
  all.take maxResponseBody

/-- A response as the port sends it: its frame, with the CRC over it (R160). -/
def Response.frame (r : Response) : List Byte := responseFrame r.code r.tag r.status.code r.body.bytes

/-- The frame a port is sending: that of the oldest response of its send order (R162). -/
def Port.sending (q : Port) : Option (List Byte) := q.sendOrder.head?.map Response.frame

/-! ### The link (R158, R159) -/

def linkUp (p : PortId) (s : State) : State :=
  State.setPort p { s.port p with link := .up } s

/-- A port reset (R159): only an UP link goes DOWN (log 2). -/
def resetPort (p : PortId) (s : State) : State :=
  match (s.port p).link with
  | .down => s
  | .up => State.setPort p Port.powerOn { s with part := resetNotices p s.part }

/-! ### Power-on (R178, R181, R59) -/

/-- Power-on: every record at its power-on value, the serial memory as it was, and MOVE_LOAD ordered. -/
def powerOnState (s : State) : State where
  pending := s.pending
  ports := ⟨Port.powerOn, Port.powerOn, Port.powerOn⟩
  part := settle (Part.powerOn s.part.memory (s.part.imagePartial || s.part.saving.isSome))

/-- An event that touches the part alone. -/
def onPart (f : Part → Part) (s : State) : State := { s with part := f s.part }

end Sys2Proof.Machine
end

