-- ==== Sys2Proof/Machine/Takes.lean ====
section
/-! DEFINITION. The meanings of the take rows: a request of each kind arrives at a port, and is taken in that event when
the port is free (log 3). -/

namespace Sys2Proof.Machine

/-- CARRIER_DOCKED (R2). -/
def execCarrierDocked (p : PortId) (tag : Half) (port : Byte) (id : Text) (s : State) : Host.Outcome State Fault Refusal :=
  .next (takeRow p tag (.carrierDocked port id) s)

/-- SLOT_MAP (R3). -/
def execSlotMap (p : PortId) (tag : Half) (port : Byte) (entries : List SlotField) (s : State) : Host.Outcome State Fault Refusal :=
  .next (takeRow p tag (.slotMap port entries) s)

/-- CARRIER_RELEASE (R4). -/
def execCarrierRelease (p : PortId) (tag : Half) (port : Byte) (s : State) : Host.Outcome State Fault Refusal :=
  .next (takeRow p tag (.carrierRelease port) s)

/-- CARRIER_UNDOCKED (R6). -/
def execCarrierUndocked (p : PortId) (tag : Half) (port : Byte) (s : State) : Host.Outcome State Fault Refusal :=
  .next (takeRow p tag (.carrierUndocked port) s)

/-- LOT_DEFINE (R8). -/
def execLotDefine (p : PortId) (tag : Half) (id : Text) (port recipe priority : Byte) (selection : List Byte) (s : State) : Host.Outcome State Fault Refusal :=
  .next (takeRow p tag (.lotDefine id port recipe priority selection) s)

/-- LOT_START (R9). -/
def execLotStart (p : PortId) (tag : Half) (id : Text) (s : State) : Host.Outcome State Fault Refusal :=
  .next (takeRow p tag (.lotStart id) s)

/-- LOT_HOLD (R13). -/
def execLotHold (p : PortId) (tag : Half) (id : Text) (scope : Byte) (s : State) : Host.Outcome State Fault Refusal :=
  .next (takeRow p tag (.lotHold id scope) s)

/-- LOT_RELEASE (R15). -/
def execLotRelease (p : PortId) (tag : Half) (id : Text) (choice : Byte) (s : State) : Host.Outcome State Fault Refusal :=
  .next (takeRow p tag (.lotRelease id choice) s)

/-- LOT_ABORT (R17). -/
def execLotAbort (p : PortId) (tag : Half) (id : Text) (s : State) : Host.Outcome State Fault Refusal :=
  .next (takeRow p tag (.lotAbort id) s)

/-- LOT_QUERY (R20). -/
def execLotQuery (p : PortId) (tag : Half) (sel : LotSelector) (s : State) : Host.Outcome State Fault Refusal :=
  .next (takeRow p tag (.lotQuery sel) s)

/-- RECIPE_SET (R21). -/
def execRecipeSet (p : PortId) (tag : Half) (slot : Byte) (fields : RecipeFields) (s : State) : Host.Outcome State Fault Refusal :=
  .next (takeRow p tag (.recipeSet slot fields) s)

/-- RECIPE_QUERY (R22). -/
def execRecipeQuery (p : PortId) (tag : Half) (slot : Byte) (s : State) : Host.Outcome State Fault Refusal :=
  .next (takeRow p tag (.recipeQuery slot) s)

/-- SITE_LOAD (R31, R32). -/
def execSiteLoad (p : PortId) (tag : Half) (id : Text) (slot : Byte) (sites : List SiteField) (s : State) : Host.Outcome State Fault Refusal :=
  .next (takeRow p tag (.siteLoad id slot sites) s)

/-- SITE_SEAL (R33). -/
def execSiteSeal (p : PortId) (tag : Half) (id : Text) (slot : Byte) (s : State) : Host.Outcome State Fault Refusal :=
  .next (takeRow p tag (.siteSeal id slot) s)

/-- SITE_QUERY (R39). -/
def execSiteQuery (p : PortId) (tag : Half) (sel : SiteSelector) (s : State) : Host.Outcome State Fault Refusal :=
  .next (takeRow p tag (.siteQuery sel) s)

/-- MOVER_RECOVER (R48 to R50). -/
def execMoverRecover (p : PortId) (tag : Half) (mover disposition : Byte) (s : State) : Host.Outcome State Fault Refusal :=
  .next (takeRow p tag (.moverRecover mover disposition) s)

/-- CELL_QUERY (R67). -/
def execCellQuery (p : PortId) (tag : Half) (s : State) : Host.Outcome State Fault Refusal :=
  .next (takeRow p tag .cellQuery s)

/-- CAPTURE_FETCH (R122). -/
def execCaptureFetch (p : PortId) (tag : Half) (s : State) : Host.Outcome State Fault Refusal :=
  .next (takeRow p tag .captureFetch s)

/-- CAPTURE_DONE (R123 to R125). -/
def execCaptureDone (p : PortId) (tag : Half) (number : Half) (result : Byte) (s : State) : Host.Outcome State Fault Refusal :=
  .next (takeRow p tag (.captureDone number result) s)

/-- CAPTURE_STATUS (R131). -/
def execCaptureStatus (p : PortId) (tag : Half) (s : State) : Host.Outcome State Fault Refusal :=
  .next (takeRow p tag .captureStatus s)

/-- CLASS_POST (R127, R128). -/
def execClassPost (p : PortId) (tag : Half) (number : Half) (cls confidence : Byte) (s : State) : Host.Outcome State Fault Refusal :=
  .next (takeRow p tag (.classPost number cls confidence) s)

/-- BUFFER_GRANT (R117). -/
def execBufferGrant (p : PortId) (tag : Half) (n : Byte) (s : State) : Host.Outcome State Fault Refusal :=
  .next (takeRow p tag (.bufferGrant n) s)

/-- REPORT_FETCH (R154). -/
def execReportFetch (p : PortId) (tag : Half) (sel : ReportSelector) (s : State) : Host.Outcome State Fault Refusal :=
  .next (takeRow p tag (.reportFetch sel) s)

/-- REPORT_ACK (R155). -/
def execReportAck (p : PortId) (tag : Half) (number : Half) (s : State) : Host.Outcome State Fault Refusal :=
  .next (takeRow p tag (.reportAck number) s)

/-- STATS_READ (R145). -/
def execStatsRead (p : PortId) (tag : Half) (s : State) : Host.Outcome State Fault Refusal :=
  .next (takeRow p tag .statsRead s)

/-- STATS_TAKE (R146). -/
def execStatsTake (p : PortId) (tag : Half) (statistic : Byte) (amount : Full) (s : State) : Host.Outcome State Fault Refusal :=
  .next (takeRow p tag (.statsTake statistic amount) s)

/-- NOTICE_READ (R172). -/
def execNoticeRead (p : PortId) (tag : Half) (s : State) : Host.Outcome State Fault Refusal :=
  .next (takeRow p tag .noticeRead s)

/-- NOTICE_MASK_SET (R171). -/
def execNoticeMaskSet (p : PortId) (tag : Half) (conds : List Byte) (s : State) : Host.Outcome State Fault Refusal :=
  .next (takeRow p tag (.noticeMaskSet conds) s)

/-- NOTICE_MASK_CLEAR (R171). -/
def execNoticeMaskClear (p : PortId) (tag : Half) (conds : List Byte) (s : State) : Host.Outcome State Fault Refusal :=
  .next (takeRow p tag (.noticeMaskClear conds) s)

/-- ERROR_READ (R176). -/
def execErrorRead (p : PortId) (tag : Half) (sel : ErrorSelector) (s : State) : Host.Outcome State Fault Refusal :=
  .next (takeRow p tag (.errorRead sel) s)

/-- ERROR_CLEAR (R177). -/
def execErrorClear (p : PortId) (tag : Half) (names : List Byte) (changes : Option (List ReportingField)) (s : State) : Host.Outcome State Fault Refusal :=
  .next (takeRow p tag (.errorClear names changes) s)

/-- MODE_SET (R167). -/
def execModeSet (p : PortId) (tag : Half) (mode : Byte) (s : State) : Host.Outcome State Fault Refusal :=
  .next (takeRow p tag (.modeSet mode) s)

/-- SETTING_SET (R179). -/
def execSettingSet (p : PortId) (tag : Half) (name : Byte) (value : Full) (s : State) : Host.Outcome State Fault Refusal :=
  .next (takeRow p tag (.settingSet name value) s)

/-- SETTING_READ (R180). -/
def execSettingRead (p : PortId) (tag : Half) (s : State) : Host.Outcome State Fault Refusal :=
  .next (takeRow p tag .settingRead s)

/-- SETTINGS_SAVE (R181). -/
def execSettingsSave (p : PortId) (tag : Half) (s : State) : Host.Outcome State Fault Refusal :=
  .next (takeRow p tag .settingsSave s)

/-- TOOL_CLEAR (R182). -/
def execToolClear (p : PortId) (tag : Half) (s : State) : Host.Outcome State Fault Refusal :=
  .next (takeRow p tag .toolClear s)

end Sys2Proof.Machine
end

