-- ==== Sys2Proof/Machine/Events.lean ====
section
/-! DEFINITION. The meanings of the event rows: power, links, bytes, the settings memory, the motion link, the focus
converter, the part's timers. -/

namespace Sys2Proof.Machine

/-- POWER_ON: every record in its power-on state, the settings load in progress (R178). -/
def execPowerOn (s : State) : Host.Outcome State Fault Refusal :=
  .next (powerOnState s)

/-- SETTINGS_LOAD_END (R178). -/
def execSettingsLoadEnd (bus : BusRead) (s : State) : Host.Outcome State Fault Refusal :=
  .next (onPart (endLoad bus) s)

/-- LINK_UP (R158). -/
def execLinkUp (p : PortId) (s : State) : Host.Outcome State Fault Refusal :=
  .next (linkUp p s)

/-- PORT_RESET (R159). -/
def execPortReset (p : PortId) (s : State) : Host.Outcome State Fault Refusal :=
  .next (resetPort p s)

/-- REQUEST_ARRIVAL (R160, R161). -/
def execRequestArrival (p : PortId) (bytes : List Byte) (s : State) : Host.Outcome State Fault Refusal :=
  .next (receive p bytes s)

/-- RESPONSE_SENT (R162, R163). -/
def execResponseSent (p : PortId) (s : State) : Host.Outcome State Fault Refusal :=
  .next (endSending p s)

/-- UNKNOWN_KIND: a request whose kind code is in no table (R164, R168). -/
def execUnknownKind (p : PortId) (tag : Half) (code : Byte) (body : List Byte) (s : State) :
    Host.Outcome State Fault Refusal :=
  .next (arrival p ⟨code, tag, body⟩ s)

/-- OVERLONG_LENGTH_FIELD (R160). -/
def execOverlongLengthField (p : PortId) (length : Half) (s : State) : Host.Outcome State Fault Refusal :=
  .next (receiveOverlong p length s)

/-- SAVE_END (R181). -/
def execSaveEnd (bus : SaveBus) (s : State) : Host.Outcome State Fault Refusal :=
  .next (onPart (endSave bus) s)

/-- A COMPLETE is applied, or late (R45, R46). -/
def takeComplete (m : Mover) (tag : Half) (text : Option Text) (c : Part) : Part :=
  match c.answered? m tag with
  | none => lateAnswer (.lateComplete m tag (c.slotOf m).found) c
  | some o => settle (applyCompletion m o text (countStat .movesCompleted (setSlot m .idle c)))

/-- COMPLETE (R45, R46). -/
def execComplete (m : Mover) (orderTag : Half) (waferId : Option Text) (s : State) :
    Host.Outcome State Fault Refusal :=
  .next (onPart (takeComplete m orderTag waferId) s)

/-- A FAULT faults the slot, or is late (R46, R47). -/
def takeFault (m : Mover) (tag : Half) (code : Byte) (c : Part) : Part :=
  match c.answered? m tag with
  | none => lateAnswer (.lateFault m tag code (c.slotOf m).found) c
  | some o => recordError .moverFault (.moverFault m o.kind o.tag o.wafer code) (faultSlot m o (.fault code) c)

/-- FAULT (R46, R47). -/
def execFault (m : Mover) (orderTag : Half) (code : Byte) (s : State) : Host.Outcome State Fault Refusal :=
  .next (onPart (takeFault m orderTag code) s)

/-- The timer of an ISSUED order expires (R47). With no order ISSUED nothing happens (log 2). -/
def takeTimeout (m : Mover) (c : Part) : Part :=
  match c.slotOf m with
  | .issued o => recordError .moverTimeout (.moverTimeout m o.kind o.tag o.wafer) (faultSlot m o .timeout c)
  | _ => c

/-- ORDER_TIMEOUT (R47). -/
def execOrderTimeout (m : Mover) (s : State) : Host.Outcome State Fault Refusal :=
  .next (onPart (takeTimeout m) s)

/-- STAGE_DISTURB (R109, R110). -/
def execStageDisturb (s : State) : Host.Outcome State Fault Refusal :=
  .next (onPart disturb s)

/-- SETTLING_END (R92). -/
def execSettlingEnd (s : State) : Host.Outcome State Fault Refusal :=
  .next (onPart endSettling s)

/-- ZERO_END (R91). -/
def execZeroEnd (s : State) : Host.Outcome State Fault Refusal :=
  .next (onPart endZero s)

/-- INTEGRATE_END (R91). -/
def execIntegrateEnd (s : State) : Host.Outcome State Fault Refusal :=
  .next (onPart endIntegrate s)

/-- CONVERSION_END (R91, R93). -/
def execConversionEnd (count : Nat) (s : State) : Host.Outcome State Fault Refusal :=
  .next (onPart (endConversion count) s)

/-- MAP_POINT_EXPIRY (R107). -/
def execMapPointExpiry (index : Nat) (s : State) : Host.Outcome State Fault Refusal :=
  .next (onPart (expirePoint index) s)

/-- FOCUS_HOLD_EXPIRY (R120). -/
def execFocusHoldExpiry (s : State) : Host.Outcome State Fault Refusal :=
  .next (onPart expireFocusHold s)

/-- CAPTURE_DONE_TIMEOUT (R126). -/
def execCaptureDoneTimeout (number : Half) (s : State) : Host.Outcome State Fault Refusal :=
  .next (onPart (expireCapture number) s)

/-- CLASS_WAIT_EXPIRY (R129). -/
def execClassWaitExpiry (number : Half) (s : State) : Host.Outcome State Fault Refusal :=
  .next (onPart (expireClassWait number) s)

end Sys2Proof.Machine
end

