-- ==== Sys2Proof/Machine/Dispatch.lean ====
section
/-! DEFINITION. The command's effect: one arm for each row of spec/opcode_table.json. -/

namespace Sys2Proof.Machine

def exec (i : Instr) (s : State) : Host.Outcome State Fault Refusal :=
  match i with
  | .powerOn => Sys2Proof.Machine.execPowerOn s
  | .settingsLoadEnd bus => Sys2Proof.Machine.execSettingsLoadEnd bus s
  | .linkUp p => Sys2Proof.Machine.execLinkUp p s
  | .portReset p => Sys2Proof.Machine.execPortReset p s
  | .requestArrival p bytes => Sys2Proof.Machine.execRequestArrival p bytes s
  | .responseSent p => Sys2Proof.Machine.execResponseSent p s
  | .unknownKind p tag code body => Sys2Proof.Machine.execUnknownKind p tag code body s
  | .carrierDocked p tag port id => Sys2Proof.Machine.execCarrierDocked p tag port id s
  | .slotMap p tag port entries => Sys2Proof.Machine.execSlotMap p tag port entries s
  | .carrierRelease p tag port => Sys2Proof.Machine.execCarrierRelease p tag port s
  | .carrierUndocked p tag port => Sys2Proof.Machine.execCarrierUndocked p tag port s
  | .lotDefine p tag id port recipe priority selection => Sys2Proof.Machine.execLotDefine p tag id port recipe priority selection s
  | .lotStart p tag id => Sys2Proof.Machine.execLotStart p tag id s
  | .lotHold p tag id scope => Sys2Proof.Machine.execLotHold p tag id scope s
  | .lotRelease p tag id choice => Sys2Proof.Machine.execLotRelease p tag id choice s
  | .lotAbort p tag id => Sys2Proof.Machine.execLotAbort p tag id s
  | .lotQuery p tag sel => Sys2Proof.Machine.execLotQuery p tag sel s
  | .recipeSet p tag slot fields => Sys2Proof.Machine.execRecipeSet p tag slot fields s
  | .recipeQuery p tag slot => Sys2Proof.Machine.execRecipeQuery p tag slot s
  | .siteLoad p tag id slot sites => Sys2Proof.Machine.execSiteLoad p tag id slot sites s
  | .siteSeal p tag id slot => Sys2Proof.Machine.execSiteSeal p tag id slot s
  | .siteQuery p tag sel => Sys2Proof.Machine.execSiteQuery p tag sel s
  | .moverRecover p tag mover disposition => Sys2Proof.Machine.execMoverRecover p tag mover disposition s
  | .cellQuery p tag => Sys2Proof.Machine.execCellQuery p tag s
  | .captureFetch p tag => Sys2Proof.Machine.execCaptureFetch p tag s
  | .captureDone p tag number result => Sys2Proof.Machine.execCaptureDone p tag number result s
  | .captureStatus p tag => Sys2Proof.Machine.execCaptureStatus p tag s
  | .classPost p tag number cls confidence => Sys2Proof.Machine.execClassPost p tag number cls confidence s
  | .bufferGrant p tag n => Sys2Proof.Machine.execBufferGrant p tag n s
  | .reportFetch p tag sel => Sys2Proof.Machine.execReportFetch p tag sel s
  | .reportAck p tag number => Sys2Proof.Machine.execReportAck p tag number s
  | .statsRead p tag => Sys2Proof.Machine.execStatsRead p tag s
  | .statsTake p tag statistic amount => Sys2Proof.Machine.execStatsTake p tag statistic amount s
  | .noticeRead p tag => Sys2Proof.Machine.execNoticeRead p tag s
  | .noticeMaskSet p tag conds => Sys2Proof.Machine.execNoticeMaskSet p tag conds s
  | .noticeMaskClear p tag conds => Sys2Proof.Machine.execNoticeMaskClear p tag conds s
  | .errorRead p tag sel => Sys2Proof.Machine.execErrorRead p tag sel s
  | .errorClear p tag names changes => Sys2Proof.Machine.execErrorClear p tag names changes s
  | .modeSet p tag mode => Sys2Proof.Machine.execModeSet p tag mode s
  | .settingSet p tag name value => Sys2Proof.Machine.execSettingSet p tag name value s
  | .settingRead p tag => Sys2Proof.Machine.execSettingRead p tag s
  | .settingsSave p tag => Sys2Proof.Machine.execSettingsSave p tag s
  | .saveEnd bus => Sys2Proof.Machine.execSaveEnd bus s
  | .toolClear p tag => Sys2Proof.Machine.execToolClear p tag s
  | .complete m orderTag waferId => Sys2Proof.Machine.execComplete m orderTag waferId s
  | .fault m orderTag code => Sys2Proof.Machine.execFault m orderTag code s
  | .orderTimeout m => Sys2Proof.Machine.execOrderTimeout m s
  | .stageDisturb => Sys2Proof.Machine.execStageDisturb s
  | .settlingEnd => Sys2Proof.Machine.execSettlingEnd s
  | .zeroEnd => Sys2Proof.Machine.execZeroEnd s
  | .integrateEnd => Sys2Proof.Machine.execIntegrateEnd s
  | .conversionEnd count => Sys2Proof.Machine.execConversionEnd count s
  | .mapPointExpiry index => Sys2Proof.Machine.execMapPointExpiry index s
  | .focusHoldExpiry => Sys2Proof.Machine.execFocusHoldExpiry s
  | .captureDoneTimeout number => Sys2Proof.Machine.execCaptureDoneTimeout number s
  | .classWaitExpiry number => Sys2Proof.Machine.execClassWaitExpiry number s
  | .overlongLengthField p length => Sys2Proof.Machine.execOverlongLengthField p length s

end Sys2Proof.Machine
end

