-- ==== Sys2Proof/WellFormed.lean ====
section
/-! DEFINITION. The commands that can be sent: texts and lists no longer than their length byte tells, bodies within a
frame, an unknown kind that is in no table, an over-long length that is over-long, a wafer ID text from the aligner alone,
the 56 bytes of a settings image. -/

namespace Sys2Proof

/-- A text whose length fits its length byte (R168). -/
def Text.fits (t : Text) : Bool := decide (t.length < 256)

/-- A list whose count fits its count byte (R168). -/
def listFits {α : Type} (l : List α) : Bool := decide (l.length < 256)

def SlotField.fits (e : SlotField) : Bool :=
  match e.expected with
  | none => true
  | some t => Text.fits t

def RecipeFields.fits (f : RecipeFields) : Bool :=
  match f.excursions with
  | none => true
  | some l => listFits l

/-- The texts and lists of a request fit their length and count bytes (R168). -/
def Request.fits : Request → Bool
  | .carrierDocked _ id => Text.fits id
  | .slotMap _ entries => listFits entries && entries.all SlotField.fits
  | .lotDefine id _ _ _ selection => Text.fits id && listFits selection
  | .lotStart id => Text.fits id
  | .lotHold id _ => Text.fits id
  | .lotRelease id _ => Text.fits id
  | .lotAbort id => Text.fits id
  | .lotQuery (.lot id) => Text.fits id
  | .recipeSet _ fields => fields.fits
  | .siteLoad id _ sites => Text.fits id && listFits sites
  | .siteSeal id _ => Text.fits id
  | .siteQuery (.list id _ _) => Text.fits id
  | .noticeMaskSet conds => listFits conds
  | .noticeMaskClear conds => listFits conds
  | .errorRead (.kinds names) => listFits names
  | .errorClear names changes =>
    listFits names &&
      match changes with
      | none => true
      | some l => listFits l
  | _ => true

/-- A request that a frame can carry (R160, R168). -/
def Request.wellFormed (r : Request) : Bool := r.fits && decide (r.encode.length ≤ maxBody)

/-- A command that can be sent. -/
def Instr.wellFormed (i : Instr) : Bool :=
  match i.take? with
  | some (_, _, r) => r.wellFormed
  | none =>
    match i with
    | .unknownKind _ _ code body => (Kind.ofCode code).isNone && decide (body.length ≤ maxBody)
    | .saveEnd (.readBack b) => decide (b.length = 56)
    | .saveEnd (.noResponse b) => decide (b.length = 56)
    | .complete m _ waferId => waferId.isNone || decide (m = .al)
    | .overlongLengthField _ length => decide (maxBody < length.toNat)
    | _ => true

end Sys2Proof
end

