-- ==== Sys2Proof/Safety.lean ====
section
/-! DEFINITION. The terms that claims about the RC-640 are stated in: a step that runs, a request that its port takes at
once, the state after a take, and what a run keeps. -/

namespace Sys2Proof.Machine

/-- A step from `s` ends in a next state. -/
def Runs (s : State) : Prop := ∃ t, step s = .next t

/-! ### Takes (R158, R163, R164) -/

/-- The port's link is UP and a request that arrives is taken in its own event. -/
abbrev PortOpen (s : State) (p : PortId) : Prop :=
  (s.port p).link = .up ∧ (s.port p).queue = [] ∧ ∀ r ∈ (s.port p).sendOrder, r.taken = false

/-- A request of kind `k` that arrives at the port is taken at once and passes checks 1 to 3 of R164. -/
abbrev TakesNow (s : State) (p : PortId) (k : Kind) : Prop :=
  PortOpen s p ∧ s.part.loading = false ∧ permitted k p s.part.mode = true

/-- `s` after the take of a request: the part `c` behind the ports, and the response at the end of the port's send
order. Everything else is as in `s`. -/
def answered (s : State) (p : PortId) (code : Byte) (tag : Half) (c : Part) (st : Status) (b : Body) : State where
  pending := s.pending
  ports := s.ports.set p { s.port p with sendOrder := (s.port p).sendOrder ++ [⟨code, tag, st, b, true⟩] }
  part := c

/-- `s` with another part behind its ports. -/
def withPart (s : State) (c : Part) : State where
  pending := s.pending
  ports := s.ports
  part := c

/-! ### What the WFC's and the LT's own work leaves alone (R45, R10, R18) -/

/-- `d` has the records of `c` that settling never writes. -/
structure SettleKeeps (c d : Part) : Prop where
  mode           : d.mode = c.mode
  startCounter   : d.startCounter = c.startCounter
  recipes        : d.recipes = c.recipes
  session        : d.session = c.session
  converter      : d.converter = c.converter
  convResult     : d.convResult = c.convResult
  drive          : d.drive = c.drive
  focusRequest   : d.focusRequest = c.focusRequest
  focusReference : d.focusReference = c.focusReference
  focusMap       : d.focusMap = c.focusMap
  captureLog     : d.captureLog = c.captureLog
  nextCapture    : d.nextCapture = c.nextCapture
  credits        : d.credits = c.credits
  waitingSite    : d.waitingSite = c.waitingSite
  errors         : d.errors = c.errors
  settings       : d.settings = c.settings
  loading        : d.loading = c.loading
  loadResult     : d.loadResult = c.loadResult
  saving         : d.saving = c.saving
  lastSave       : d.lastSave = c.lastSave
  unsaved        : d.unsaved = c.unsaved
  memory         : d.memory = c.memory
  imagePartial   : d.imagePartial = c.imagePartial

/-! ### One site of a list, and a site that leaves flight -/

/-- The entry of site `n` in the list of lot `i` and slot `slot`. -/
def Part.entryAt (c : Part) (i : LoadPort) (slot n : Nat) : Option SiteEntry :=
  (c.entries i slot).find? (fun e => e.number == n)

/-- Every list but that of lot `i` and slot `slot` is in `d` as in `c`; that list is there or not, and sealed or not, as
before, and holds the same sites in the same order. -/
def OnlyList (i : LoadPort) (slot : Nat) (c d : Part) : Prop :=
  (∀ j k, (j, k) ≠ (i, slot) → d.list? j k = c.list? j k) ∧
    (d.list? i slot).map (fun l => (l.sealed, l.entries.map (·.number))) =
      (c.list? i slot).map (fun l => (l.sealed, l.entries.map (·.number)))

/-- Of every list's entries, at most those of the sites `ns` of lot `i` and slot `slot` differ between `c` and `d`. -/
def OnlySites (i : LoadPort) (slot : Nat) (ns : List Nat) (c d : Part) : Prop :=
  OnlyList i slot c d ∧ ∀ m, m ∉ ns → d.entryAt i slot m = c.entryAt i slot m

/-- `d` is `c` after site `n` of wafer `t` has left flight (R80, R85): when it is the session's site in flight it is so no
longer, an ACTIVE session walks on, and a PAUSING one is PAUSED. -/
def LeavesFlight (t n : Nat) (c d : Part) : Prop :=
  let landed := { c with session := { c.session with inFlight := none } }
  (¬ (c.session.wafer = some t ∧ c.session.inFlight = some n) → d = c) ∧
    (c.session.wafer = some t → c.session.inFlight = some n →
      (c.session.state = .active → d = walk landed) ∧
      (c.session.state = .pausing → d = { landed with session := { landed.session with state := .paused } }) ∧
      (c.session.state ≠ .active → c.session.state ≠ .pausing → d = landed))

/-! ### Wafers, places and locks (R41, R42, R51, R57, R61) -/

/-- Wafer `t`, with the record `w`, is the occupant of the place. -/
def Lies (c : Part) (q : Place) (t : Nat) (w : Wafer) : Prop :=
  (c.places.get q).occupant = some t ∧ c.wafer? t = some w

/-- The place has neither an occupant nor a claim (R41). -/
def EmptyPlace (c : Part) (q : Place) : Prop := (c.places.get q).occupant = none ∧ (c.places.get q).claim = none

/-- The lock is in the state and empty: its place is, and it has no reservation (R51). -/
def EmptyLock (c : Part) (x : LockState) (k : LockId) : Prop :=
  (c.lock k).state = x ∧ (c.lock k).reservation = none ∧ EmptyPlace c k.place

/-- An order in progress, ISSUED or FAULTED, carries or acts on wafer `t` (R44). -/
def Named (c : Part) (t : Nat) : Prop :=
  ∃ m o, (c.slotOf m = .issued o ∨ ∃ cause, c.slotOf m = .faulted o cause) ∧ o.wafer = some t

/-- Lock `k` is reserved for wafer `t` with the purpose; were both, LOCK_A is meant. -/
def Reserved (c : Part) (t : Nat) (p : Purpose) (k : LockId) : Prop :=
  (c.lock k).reservation = some ⟨t, p⟩ ∧ (k = .b → (c.lock .a).reservation ≠ some ⟨t, p⟩)

/-- The wafer at the place needs a return lock and has none: it is REVIEWED on the STAGE, or TO_LOCK on TRANSFER_ARM (R61). -/
def NeedsReturnLock (c : Part) (q : Place) (t : Nat) : Prop :=
  ∃ w, Lies c q t w ∧ ((q = .stage ∧ w.phase = .reviewed) ∨ (q = .transferArm ∧ w.phase = .toLock)) ∧
    ∀ k, (c.lock k).reservation ≠ some ⟨t, .returning⟩

/-- A wafer is vacuum-inbound (R42). -/
def VacuumInbound (c : Part) (t : Nat) : Prop :=
  ∃ w, c.wafer? t = some w ∧ w.exposed = true ∧ c.lotAborted w.lot = false ∧
    w.phase ∉ [Phase.reviewed, .toLock, .venting, .returning, .home]

/-- The second and third conditions of R57: the other lock neither holds nor is reserved for a wafer that is vacuum-inbound or
has an INBOUND reservation, and the inbound claim count is at most 1. -/
def WouldAdmit (c : Part) (k : LockId) : Prop :=
  (∀ t, (c.places.get k.other.place).occupant = some t →
    ¬ VacuumInbound c t ∧ ∀ j, (c.lock j).reservation ≠ some ⟨t, .inbound⟩) ∧
  (∀ r, (c.lock k.other).reservation = some r → r.purpose = .returning ∧ ¬ VacuumInbound c r.wafer) ∧
  c.inboundClaimCount ≤ 1

/-- Lock `k` admits the wafer on the ALIGNER; where both would, LOCK_A (R57). -/
def Admits (c : Part) (k : LockId) : Prop :=
  EmptyLock c .atmosphere k ∧ WouldAdmit c k ∧ (k = .b → ¬ (EmptyLock c .atmosphere .a ∧ WouldAdmit c .a))

/-! ### Aborted wafers (R65) -/

/-- R65's table: a wafer of an aborted lot that no order names takes phase `p` from where it is. -/
def TurnsBack (c : Part) (w : Wafer) (p : Phase) : Prop :=
  (w.place = none ∧ w.phase = .outboundFromSlot ∧ p = .home) ∨
  (w.place = some .upperBlade ∧ w.phase ∈ [Phase.outboundFromSlot, .aligning, .waitLock, .pumping] ∧ p = .returning) ∨
  (w.place = some .aligner ∧ w.phase ∈ [Phase.aligning, .waitLock, .pumping] ∧ p = .returning) ∨
  (w.place = some .transferArm ∧ w.phase = .toStage ∧ p = .toLock) ∨
  (w.place = some .stage ∧ w.phase = .toStage ∧ p = .reviewed) ∨
  ∃ k, w.place = some (LockId.place k) ∧
    (((c.lock k).state = .atmosphere ∧ w.phase = .pumping ∧ p = .returning) ∨
    ((c.lock k).state = .vacuum ∧ w.phase ∈ [Phase.pumping, .ready, .toStage] ∧ p = .venting))

/-! ### The AR's work (R52) -/

/-- A wafer in RETURNING, vacuum-exposed or not, lies in a lock at ATMOSPHERE; LOCK_A is taken before LOCK_B. -/
def ReturnsFrom (c : Part) (exposed : Bool) (j : LockId) (t : Nat) (w : Wafer) : Prop :=
  let lies (j : LockId) (t : Nat) (w : Wafer) : Prop :=
    (c.lock j).state = .atmosphere ∧ Lies c j.place t w ∧ w.phase = .returning ∧ w.exposed = exposed
  lies j t w ∧ (j = .b → ∀ u x, ¬ lies .a u x)

/-- A wafer whose slot pick was recovered AT_SOURCE: home, in OUTBOUND_FROM_SLOT, named by no order (log 9); of several, the one
with the lowest tag. -/
def PickedAgain (c : Part) (t : Nat) (w : Wafer) : Prop :=
  let waits (t : Nat) (w : Wafer) : Prop :=
    t ∈ allTags ∧ c.wafer? t = some w ∧ w.phase = .outboundFromSlot ∧ w.place = none ∧ ¬ Named c t
  waits t w ∧ ∀ u x, u < t → ¬ waits u x

/-- Order `k` for wafer `t` is AR work of preference `n` and ready (R52); of preference 6 only the repeated slot pick, for the grant
is the arbiter's (R53). -/
def ArReady (c : Part) (n : Nat) (k : OrderKind) (t : Nat) (w : Wafer) : Prop :=
  let home : ArEnd := .slot w.lot w.slot
  (n = 1 ∧ Lies c .lowerBlade t w ∧ k = .arPlace .lower home) ∨
  (n = 2 ∧ Lies c .upperBlade t w ∧
    ((w.phase = .aligning ∧ EmptyPlace c .aligner ∧ k = .arPlace .upper (.place .aligner)) ∨
    (w.phase = .pumping ∧ ∃ j, Reserved c t .inbound j ∧ k = .arPlace .upper (.place j.place)) ∨
    (w.phase = .returning ∧ k = .arPlace .upper home))) ∨
  (n = 3 ∧ EmptyPlace c .lowerBlade ∧ ∃ j, ReturnsFrom c true j t w ∧ k = .arPick .lower (.place j.place)) ∨
  (n = 4 ∧ EmptyPlace c .upperBlade ∧ Lies c .aligner t w ∧ k = .arPick .upper (.place .aligner) ∧
    (w.phase = .returning ∨ (w.phase = .pumping ∧ ∃ j, Reserved c t .inbound j) ∨
      (w.phase = .waitLock ∧ ∃ j, Admits c j))) ∨
  (n = 5 ∧ EmptyPlace c .upperBlade ∧ ∃ j, ReturnsFrom c false j t w ∧ k = .arPick .upper (.place j.place)) ∨
  (n = 6 ∧ EmptyPlace c .upperBlade ∧ EmptyPlace c .aligner ∧ PickedAgain c t w ∧ k = .arPick .upper home)

/-! ### What every step keeps -/

/-- A port keeps its capacities (R161, R162), has at most one taken response unsent and a queue only behind one (R163),
and holds nothing while its link is DOWN (R158, R159). -/
def PortKept (q : Port) : Prop :=
  q.queue.length ≤ queueCapacity ∧ q.sendOrder.length ≤ sendCapacity ∧ q.sendOrder.countP (·.taken) ≤ 1 ∧
    (q.queue ≠ [] → q.busy = true) ∧ (q.busy = false → q.sendOrder.length < sendCapacity) ∧
    (q.link = .down → q = Port.powerOn)

def PortsKept (s : State) : Prop := ∀ p, PortKept (s.port p)

/-- The entries held in lists. -/
def heldEntries (c : Part) : Nat := (c.lists.map (·.entries.length)).sum

/-- The pool of R24, and no two lists share a lot and slot (R29). -/
def PoolKept (s : State) : Prop :=
  s.part.freeCount + heldEntries s.part = 12288 ∧ (s.part.lists.map (fun l => (l.lot, l.slot))).Nodup

/-- The bounded records: credits (R116), capture log (R114), focus map (R106), report queue (R153), working settings in
their ranges (R178, R179). -/
def BoundsKept (s : State) : Prop :=
  s.part.credits ≤ 255 ∧ s.part.captureLog.length ≤ captureCapacity ∧ s.part.focusMap.length ≤ 48 ∧
    s.part.reportQueue.length ≤ reportCapacity ∧
    ∀ k, (settingRange k).1 ≤ s.part.settings.get k ∧ s.part.settings.get k ≤ (settingRange k).2

/-- An error kind's flag, count and record stand together, the count at most 255 (R173). -/
def ErrorsKept (s : State) : Prop :=
  ∀ k, let r := s.part.errors.get k
    r.count ≤ 255 ∧ (r.flag = true ↔ 1 ≤ r.count) ∧ (r.flag = true ↔ r.first.isSome = true)

/-- An aborted lot is never held (R17). -/
def AbortsKept (s : State) : Prop :=
  ∀ i l, s.part.lot? i = some l → l.aborted = true → l.hold = .none

/-- The serial memory keeps its canonical form. -/
def MemoryKept (s : State) : Prop := memoryWf s.part.memory = true

end Sys2Proof.Machine
end

