-- ==== Sys2Proof/Certificates/Slice0/Obligations.lean ====
section
/-! DEFINITION. The statements about the RC-640 that the provers settle. A statement about a take row begins with
`TakesNow`: the request arrives at an UP port that takes it in that event, the settings load has ended and the kind is
permitted. What the other arrivals do is said once for all take rows (`ArrivalsWaitOrAreLost`,
`ChecksAtTheTake`). `answered s p code tag c st b` is `s`
with the part `c` behind its ports and the response at the end of the port's send order, and nothing else changed. -/

section Statements

open Sys2Proof Sys2Proof.Machine

/-! ### The machine -/

/-- A step takes the command at the front of the queue (log 1). -/
def Obligations.StepTakesFrontCommand : Prop :=
  ∀ (i : Instr) (s : State), step { s with pending := i :: s.pending } = exec i s

/-- No command stops the machine, none touches the commands that wait behind it, and on an empty queue the block idles
(log 1). -/
def Obligations.EveryCommandCompletes : Prop :=
  (∀ (i : Instr) (s : State), ∃ t, exec i s = .next t ∧ t.pending = s.pending) ∧
    ∀ s : State, s.pending = [] → step s = .next s

/-- The values of reset that the rules give, record by record; and what every step keeps holds there. -/
def Obligations.ResetRecords : Prop :=
  let c := State.reset.part
  (∀ p, State.reset.port p = ⟨.down, [], [], []⟩ ∧ c.notices.get p = ⟨[], []⟩ ∧ noticeLine c p = false) ∧
    c.mode = .localMode ∧ c.loading = true ∧ c.startCounter = 0 ∧ c.freeCount = 12288 ∧ c.lists = [] ∧
    (∀ i, c.carrier i = ⟨.empty, none, none⟩ ∧ c.lot? i = none) ∧ c.recipes = List.replicate 8 none ∧
    (∀ p, c.placeEmpty p = true) ∧ c.wafers = List.replicate 10 none ∧ (∀ m, c.slotOf m = .idle) ∧
    c.orderCounter = 0#16 ∧ (∀ k, c.lock k = ⟨.atmosphere, none⟩) ∧ c.atLoad = false ∧ c.session.state = .idle ∧
    c.converter = .idle ∧ c.convResult = none ∧ c.drive = 32768 ∧ c.focusRequest = none ∧ c.focusReference = none ∧
    c.focusMap = [] ∧ c.captureLog = [] ∧ c.nextCapture = 0#16 ∧ c.credits = 0 ∧ c.waitingSite = none ∧
    (∀ k, c.stats.get k = 0#32) ∧ c.reportQueue = [] ∧ c.waitingReports = [] ∧ c.nextReport = 0#16 ∧
    (∀ k, c.errors.get k = ⟨false, 0, none, true⟩) ∧ c.settings = defaultSettings ∧ c.saving = none ∧
    c.lastSave = .none ∧ rawSet c .image = [.creditLow] ∧
    PortsKept State.reset ∧ PoolKept State.reset ∧ BoundsKept State.reset ∧ ErrorsKept State.reset ∧
    AbortsKept State.reset ∧ MemoryKept State.reset

/-- POWER_ON: the records take their power-on values, the serial memory stays, a save that ran is lost and its image is left
partly written, and a MOVE_LOAD is ordered with the first order tag (R59, R181). The model's own in this: the order's place in
this event (log 4), the mark imagePartial (log 7), the load result absent and the unsaved mark clear until the load ends
(log 21), and the first tag 0 (log 26). -/
def Obligations.PowerOnStartsOver : Prop :=
  ∀ s : State, exec .powerOn s = .next
    { pending := s.pending
      ports := State.reset.ports
      part :=
        { State.reset.part with
          memory := s.part.memory
          imagePartial := s.part.imagePartial || s.part.saving.isSome
          orderCounter := 1#16
          orders := ⟨.idle, .idle, .idle, .idle, .idle, .issued ⟨.moveLoad, 0#16, none, some 5000⟩⟩ } }

/-! ### Links and frames -/

/-- A link that comes UP changes its link state alone. A port reset of an UP port: its queue, its send order and a frame
partly received go, its masks become MASKED and its event conditions are cleared; nothing outside the port changes. A DOWN
port stays as it is. -/
def Obligations.LinkChanges : Prop :=
  ∀ (s : State) (p : PortId),
    exec (.linkUp p) s = .next { s with ports := s.ports.set p { s.port p with link := .up } } ∧
    ((s.port p).link = .up →
      exec (.portReset p) s = .next
        { s with
          ports := s.ports.set p ⟨.down, [], [], []⟩
          part := { s.part with notices := s.part.notices.set p ⟨[], []⟩ } }) ∧
    ((s.port p).link = .down → exec (.portReset p) s = .next s)

/-- A request frame with a good CRC is received as its kind code, its tag and its body, whatever bytes follow it; a frame with
any other CRC bytes is found bad; a length over 1,024 is found at once. A response goes out as the frame of R160 with its kind
code, its tag, the code of its status (R165: 0 to 12) and its body of at most 2,048 bytes, under a CRC formed in the same way;
a port sends the frame of its oldest response. An empty body has no bytes, and a report's body begins with its wire form as far
as the frame has room; the bytes of any other body are a free value of the model (log 14). The CRC register starts at all ones
and takes each byte's bits, the most significant first: a bit that differs from the register's own most significant bit brings
in the generator x^16 + x^12 + x^5 + 1; nothing is inverted at the end. -/
def Obligations.FramesAreScanned : Prop :=
  crc16 [] = 65535#16 ∧
  (∀ (bytes : List Byte) (b : Byte),
    let takeBit (reg : Half) (bit : Bool) : Half := (reg <<< 1) ^^^ (if reg.msb = bit then 0#16 else 4129#16)
    crc16 (bytes ++ [b]) = [7, 6, 5, 4, 3, 2, 1, 0].foldl (fun reg k => takeBit reg (b.getLsbD k)) (crc16 bytes)) ∧
  (∀ (code : Byte) (tag : Half) (body rest : List Byte), body.length ≤ 1024 →
    scanFrame (requestFrame code tag body ++ rest) = .frame ⟨code, tag, body⟩ rest) ∧
  (∀ (l0 l1 code t0 t1 c0 c1 : Byte) (body rest : List Byte),
    body.length ≤ 1024 → joinHalf l0 l1 = BitVec.ofNat 16 body.length →
    joinHalf c0 c1 ≠ crc16 ([l0, l1, code, t0, t1] ++ body) →
    scanFrame ([165#8, 90#8, l0, l1, code, t0, t1] ++ body ++ [c0, c1] ++ rest) =
      .badCrc (joinHalf l0 l1) code (joinHalf t0 t1) rest) ∧
  (∀ (l0 l1 : Byte) (rest : List Byte), 1024 < (joinHalf l0 l1).toNat →
    scanFrame ([165#8, 90#8, l0, l1] ++ rest) = .overlong (joinHalf l0 l1) rest) ∧
  (∀ r : Response,
    let covered := encodeHalf (BitVec.ofNat 16 r.body.bytes.length) ++ [r.code] ++ encodeHalf r.tag ++ [r.status.code] ++
      r.body.bytes
    r.frame = [165#8, 90#8] ++ covered ++ encodeHalf (crc16 covered) ∧ r.body.bytes.length ≤ 2048) ∧
  Body.empty.bytes = [] ∧
  (∀ (wire : List Byte) (n : Nat), wire.length ≤ 2048 → ∃ more, (Body.report wire n).bytes = wire ++ more) ∧
  ([Status.ok, .notPermitted, .refusedState, .badField, .noSpace, .busy, .queueFull, .unknownKind, .late, .order, .notFound,
    .listSealed, .recipeInUse].map Status.code = [0#8, 1#8, 2#8, 3#8, 4#8, 5#8, 6#8, 7#8, 8#8, 9#8, 10#8, 11#8, 12#8]) ∧
  ∀ (q : Port) (r : Response) (rest : List Response), (q.sendOrder = [] → q.sending = none) ∧
    (q.sendOrder = r :: rest → q.sending = some r.frame)

/-- Bytes at an UP port: bytes before a sync go; a frame with a good CRC is a request that arrives. A port with an empty queue
and no taken response to send takes it in that event, judged as its bytes; else it joins the newest end of a queue with room; a
full queue leaves it out, answered QUEUE_FULL when the send order has room, lost otherwise, QUEUE_OVERRUN recorded either way.
A frame with a bad CRC and a length over 1,024 record the port's LINK_CRC kind and are discarded; an incomplete frame waits for
more bytes. One REQUEST_ARRIVAL settles at most one frame (log 20). OVERLONG_LENGTH_FIELD is a length over 1,024 alone. The
empty body of a QUEUE_FULL response is the model's choice (log 28). -/
def Obligations.BytesArrive : Prop :=
  ∀ (s : State) (p : PortId) (bytes rest : List Byte) (length tag : Half) (code : Byte) (r : QueuedRequest),
    (s.port p).link = .up →
    let held := dropToSync ((s.port p).partialFrame ++ bytes)
    let kept (rest : List Byte) : State :=
      { s with ports := s.ports.set p { s.port p with partialFrame := rest } }
    let crcKind : ErrorKind :=
      match p with
      | .tool => .linkCrcTool
      | .image => .linkCrcImage
      | .automation => .linkCrcAutomation
    let recorded (rest : List Byte) (d : ErrorDetail) : State := withPart (kept rest) (recordError crcKind d s.part)
    (scanFrame held = .frame r rest →
      let after := kept (dropToSync rest)
      let port := after.port p
      let reply := judgeBytes p r.code r.body s.part
      let overrun (formed : Bool) : Part := recordError .queueOverrun (.queueOverrun p r.code r.tag formed) s.part
      let out := exec (.requestArrival p bytes) s
      (PortOpen s p → out = .next (answered after p r.code r.tag reply.part reply.status reply.body)) ∧
      (¬ PortOpen s p → port.queue.length < 4 →
        out = .next { after with ports := s.ports.set p { port with queue := port.queue ++ [r] } }) ∧
      (4 ≤ port.queue.length → port.sendOrder.length < 6 → out = .next
        { pending := s.pending, part := overrun true
          ports := s.ports.set p { port with sendOrder := port.sendOrder ++ [⟨r.code, r.tag, .queueFull, .empty, false⟩] } }) ∧
      (4 ≤ port.queue.length → 6 ≤ port.sendOrder.length → out = .next (withPart after (overrun false)))) ∧
    (scanFrame held = .badCrc length code tag rest →
      exec (.requestArrival p bytes) s = .next (recorded (dropToSync rest) (.linkCrc length code tag))) ∧
    (scanFrame held = .overlong length rest →
      exec (.requestArrival p bytes) s = .next (recorded (dropToSync rest) (.linkLength length))) ∧
    (scanFrame held = .incomplete → exec (.requestArrival p bytes) s = .next (kept held)) ∧
    (1024 < length.toNat → exec (.overlongLengthField p length) s = .next (recorded [] (.linkLength length)))

/-- The body of a request, byte by byte: its fields in the order its rule names them, a number least significant byte first, a
text and a list behind their length byte, an optional field behind its presence byte, one of several alternatives behind its
selector byte. The body of every request that a frame can carry is read back as that request, no field dropped or moved; and a
body is read as a request of its kind only when it is exactly that request's bytes, neither shorter nor longer. So a presence
byte other than 0 and 1, and a selector byte that names no alternative, is no body (the model's reading: log 17). -/
def Obligations.RequestBodiesReadBack : Prop :=
  (∀ r : Request, r.fits = true → decodeBody r.kind r.encode = some r) ∧
  (∀ (k : Kind) (body : List Byte) (r : Request), decodeBody k body = some r → r.kind = k ∧ r.encode = body) ∧
  ∀ (id : Text) (a b c : Byte) (v : Half) (w : Full) (l : List Byte) (slots : List SlotField) (sites : List SiteField)
    (f : RecipeFields) (changes : Option (List ReportingField)),
    let half (v : Half) : List Byte := [v.extractLsb' 0 8, v.extractLsb' 8 8]
    let full (w : Full) : List Byte := [w.extractLsb' 0 8, w.extractLsb' 8 8, w.extractLsb' 16 8, w.extractLsb' 24 8]
    let text (t : Text) : List Byte := BitVec.ofNat 8 t.length :: t
    let list (items : List (List Byte)) : List Byte := BitVec.ofNat 8 items.length :: items.flatten
    let opt (field : Option (List Byte)) : List Byte :=
      match field with
      | none => [0#8]
      | some bytes => 1#8 :: bytes
    let names : List Byte := list (l.map fun x => [x])
    (Request.carrierDocked a id).encode = [a] ++ text id ∧
    (Request.slotMap a slots).encode = [a] ++ list (slots.map fun e => [e.state] ++ opt (e.expected.map text)) ∧
    (Request.carrierRelease a).encode = [a] ∧ (Request.carrierUndocked a).encode = [a] ∧
    (Request.lotDefine id a b c l).encode = text id ++ [a, b, c] ++ names ∧
    (Request.lotStart id).encode = text id ∧ (Request.lotHold id a).encode = text id ++ [a] ∧
    (Request.lotRelease id a).encode = text id ++ [a] ∧ (Request.lotAbort id).encode = text id ∧
    (Request.lotQuery (.lot id)).encode = [0#8] ++ text id ∧ (Request.lotQuery (.port a)).encode = [1#8, a] ∧
    (Request.recipeSet a f).encode = [a] ++ ([f.resolution.map ([·]), f.sweepSteps.map ([·]), f.stepSize.map ([·]),
      f.quality.map ([·]), f.mapRadius.map half, f.mapLifetime.map ([·]), f.focusHold.map half, f.attemptLimit.map ([·]),
      f.classWait.map half, f.readId.map ([·]),
      f.excursions.map (fun xs => list (xs.map fun x => [x.cls] ++ half x.limit ++ [x.action])),
      f.samplingFloor.map ([·])].map opt).flatten ∧
    (Request.recipeQuery a).encode = [a] ∧
    (Request.siteLoad id a sites).encode = text id ++ [a] ++ list (sites.map fun x =>
      half x.number ++ [x.row, x.col] ++ full x.x ++ full x.y ++ [x.inspClass] ++ half x.size ++ [x.priority]) ∧
    (Request.siteSeal id a).encode = text id ++ [a] ∧ (Request.siteQuery .pool).encode = [0#8] ∧
    (Request.siteQuery (.list id a v)).encode = [1#8] ++ text id ++ [a] ++ half v ∧
    (Request.moverRecover a b).encode = [a, b] ∧ (Request.captureDone v a).encode = half v ++ [a] ∧
    (Request.classPost v a b).encode = half v ++ [a, b] ∧ (Request.bufferGrant a).encode = [a] ∧
    (Request.reportFetch (.number v)).encode = [0#8] ++ half v ∧ (Request.reportFetch .oldest).encode = [1#8] ∧
    (Request.reportAck v).encode = half v ∧ (Request.statsTake a w).encode = [a] ++ full w ∧
    (Request.noticeMaskSet l).encode = names ∧ (Request.noticeMaskClear l).encode = names ∧
    (Request.errorRead .all).encode = [0#8] ∧ (Request.errorRead (.cls a)).encode = [1#8, a] ∧
    (Request.errorRead (.kinds l)).encode = [2#8] ++ names ∧
    (Request.errorClear l changes).encode =
      names ++ opt (changes.map fun xs => list (xs.map fun x => [x.kind, x.value])) ∧
    (Request.modeSet a).encode = [a] ∧ (Request.settingSet a w).encode = [a] ++ full w ∧
    ∀ r ∈ [Request.cellQuery, .captureFetch, .captureStatus, .statsRead, .noticeRead, .settingRead, .settingsSave,
      .toolClear], r.encode = []

/-! ### Arrival, take, sending -/

/-- A request that arrives at a port that does not take it at once, by a take row or by UNKNOWN_KIND, which the model reads as
the arrival of that request (log 3). A DOWN link receives nothing. A queue with room takes it
at its newest end, unjudged. A full queue leaves it out: it is answered QUEUE_FULL when the send order has room, and lost
otherwise; either way QUEUE_OVERRUN is recorded with the port, the kind code, the tag and whether the response was formed. That
the QUEUE_FULL response has an empty body is the model's choice (log 28). -/
def Obligations.ArrivalsWaitOrAreLost : Prop :=
  ∀ (s : State) (p : PortId) (tag length : Half) (r : Request) (code : Byte) (body bytes : List Byte),
    let joined (q : QueuedRequest) : State :=
      { s with ports := s.ports.set p { s.port p with queue := (s.port p).queue ++ [q] } }
    let c (k : Byte) (formed : Bool) := recordError .queueOverrun (.queueOverrun p k tag formed) s.part
    let turnedAway (k : Byte) : State :=
      { s with
        ports := s.ports.set p { s.port p with
          sendOrder := (s.port p).sendOrder ++ [⟨k, tag, .queueFull, .empty, false⟩] }
        part := c k true }
    ((s.port p).link = .down →
      exec (r.row p tag) s = .next s ∧ exec (.unknownKind p tag code body) s = .next s ∧
        exec (.requestArrival p bytes) s = .next s ∧ exec (.overlongLengthField p length) s = .next s) ∧
    ((s.port p).link = .up →
      ((s.port p).queue.length < 4 → ((s.port p).queue ≠ [] ∨ ∃ x ∈ (s.port p).sendOrder, x.taken = true) →
        exec (r.row p tag) s = .next (joined ⟨r.kind.code, tag, r.encode⟩) ∧
        exec (.unknownKind p tag code body) s = .next (joined ⟨code, tag, body⟩)) ∧
      (4 ≤ (s.port p).queue.length → (s.port p).sendOrder.length < 6 →
        exec (r.row p tag) s = .next (turnedAway r.kind.code) ∧
        exec (.unknownKind p tag code body) s = .next (turnedAway code)) ∧
      (4 ≤ (s.port p).queue.length → 6 ≤ (s.port p).sendOrder.length →
        exec (r.row p tag) s = .next { s with part := c r.kind.code false } ∧
        exec (.unknownKind p tag code body) s = .next { s with part := c code false }))

/-- The checks at the take, for a request whose fields are well formed and for an unknown kind. While the settings load runs
the answer is BUSY; then a kind code that is no kind's code is UNKNOWN_KIND, and a kind that is not permitted from its port
in the mode in force is NOT_PERMITTED. Each answer has an empty body and changes nothing. -/
def Obligations.ChecksAtTheTake : Prop :=
  ∀ (s : State) (p : PortId) (tag : Half) (r : Request) (code : Byte) (body : List Byte), PortOpen s p →
    (s.part.loading = true →
      exec (r.row p tag) s = .next (answered s p r.kind.code tag s.part .busy .empty) ∧
      exec (.unknownKind p tag code body) s = .next (answered s p code tag s.part .busy .empty)) ∧
    (s.part.loading = false → (∀ k : Kind, k.code ≠ code) →
      exec (.unknownKind p tag code body) s = .next (answered s p code tag s.part .unknownKind .empty)) ∧
    (s.part.loading = false → permitted r.kind p s.part.mode = false →
      exec (r.row p tag) s = .next (answered s p r.kind.code tag s.part .notPermitted .empty))

/-- The access decision, row by row of its table; a request that it refuses is answered NOT_PERMITTED and changes nothing,
whether it is taken at its arrival or from the queue, in the mode in force at the take. -/
def Obligations.AccessDecision : Prop :=
  (∀ (k : Kind) (p : PortId) (body : List Byte) (r : Request) (c : Part), c.loading = false →
    (permitted k p c.mode = false → judgeBytes p k.code body c = ⟨c, .notPermitted, .empty⟩) ∧
    (permitted r.kind p c.mode = false → judgeRequest p r c = ⟨c, .notPermitted, .empty⟩) ∧
    (permitted r.kind p c.mode = true → judgeRequest p r c = execute p r c)) ∧
  ∀ (k : Kind) (p : PortId) (m : Mode), permitted k p m =
    (if k ∈ [Kind.lotStart] then
      decide ((p = .tool ∧ m = .localMode) ∨ (p = .automation ∧ m = .remoteMode))
    else if k ∈ [Kind.lotHold, .lotRelease, .lotAbort] then
      decide (p = .tool ∨ (p = .automation ∧ m = .remoteMode))
    else if k ∈ [Kind.lotDefine, .carrierDocked, .carrierRelease, .carrierUndocked, .slotMap, .recipeSet, .recipeQuery,
        .siteLoad, .siteSeal, .siteQuery, .moverRecover, .errorClear, .settingSet, .settingRead, .settingsSave, .modeSet,
        .toolClear] then
      decide (p = .tool)
    else if k ∈ [Kind.captureFetch, .captureDone, .captureStatus, .classPost, .bufferGrant] then decide (p = .image)
    else if k ∈ [Kind.reportAck] then decide (p = .automation)
    else if k ∈ [Kind.noticeRead, .noticeMaskSet, .noticeMaskClear] then true
    else decide (p = .tool ∨ p = .automation))

/-- The end of sending a response: it leaves the send order, and when no taken response is left there the port takes the oldest
request of its queue, judged as the part stands then: BUSY while the load runs; UNKNOWN_KIND; NOT_PERMITTED; a body that is not
its kind's fields is BAD_FIELD; any other is executed as the request its fields spell. It is executed as the take row of the
same request is: where the port takes that row at once, the row's part, status and body are those of the execution. So what the
other statements say of the take rows holds of the requests taken from a queue or from bytes. The empty body of a BAD_FIELD
from check 4 is the model's choice (log 28). -/
def Obligations.QueuedRequestsAreTaken : Prop :=
  (∀ (s : State) (p : PortId) (x : Response) (rest : List Response), (s.port p).sendOrder = x :: rest →
    let sent (q : List QueuedRequest) (o : List Response) (c : Part) : State :=
      { pending := s.pending, ports := s.ports.set p { s.port p with queue := q, sendOrder := o }, part := c }
    ((s.port p).queue = [] → exec (.responseSent p) s = .next (sent [] rest s.part)) ∧
    ((∃ y ∈ rest, y.taken = true) → exec (.responseSent p) s = .next (sent (s.port p).queue rest s.part)) ∧
    ∀ r queued, (s.port p).queue = r :: queued → (∀ y ∈ rest, y.taken = false) →
      let reply := judgeBytes p r.code r.body s.part
      exec (.responseSent p) s = .next
        (sent queued (rest ++ [⟨r.code, r.tag, reply.status, reply.body, true⟩]) reply.part)) ∧
  (∀ (s : State) (p : PortId) (tag : Half) (r : Request), TakesNow s p r.kind →
    let reply := execute p r s.part
    exec (r.row p tag) s = .next (answered s p r.kind.code tag reply.part reply.status reply.body)) ∧
  ∀ (p : PortId) (code : Byte) (k : Kind) (body : List Byte) (r : Request) (c : Part),
    (c.loading = true → judgeBytes p code body c = ⟨c, .busy, .empty⟩) ∧
    (c.loading = false →
      ((∀ j : Kind, j.code ≠ code) → judgeBytes p code body c = ⟨c, .unknownKind, .empty⟩) ∧
      (permitted k p c.mode = false → judgeBytes p k.code body c = ⟨c, .notPermitted, .empty⟩) ∧
      (permitted k p c.mode = true → decodeBody k body = none → judgeBytes p k.code body c = ⟨c, .badField, .empty⟩) ∧
      (permitted k p c.mode = true → decodeBody k body = some r → judgeBytes p k.code body c = execute p r c))

/-! ### Mode, notices, errors (09, 10) -/

/-- MODE_SET: LOCAL is 0 and REMOTE is 1; the answer carries the mode before and after. Any other byte is BAD_FIELD. The
empty body of a refusal is the model's choice (log 28). -/
def Obligations.ModeSetTakesEffect : Prop :=
  ∀ (s : State) (p : PortId) (tag : Half) (b : Byte), TakesNow s p .modeSet →
    let set (m : Mode) := answered s p 64#8 tag { s.part with mode := m } .ok (.mode s.part.mode m)
    (b = 0#8 → exec (.modeSet p tag b) s = .next (set .localMode)) ∧
    (b = 1#8 → exec (.modeSet p tag b) s = .next (set .remoteMode)) ∧
    (1 < b.toNat → exec (.modeSet p tag b) s = .next (answered s p 64#8 tag s.part .badField .empty))

/-- The conditions of a port in priority order, and what is raised at it, in that order: the level conditions by the states
they follow, the event conditions by what was raised. The notice line is high exactly while a raised condition of the port is
ENABLED. Raising an event condition adds it to the port's raised conditions, once, and changes nothing else; LOT_STATE is
raised at the tool and the automation port. -/
def Obligations.NoticesFollowTheStates : Prop :=
  (∀ (c : Part) (p : PortId),
    conditionsOf p = (match p with
      | .tool => [.carrierReleasable, .moverFaulted, .error, .lotState, .settingsDone]
      | .image => [.capturePending, .creditLow, .session]
      | .automation => [.reportReady, .statsHalf, .lotState, .excursion, .holdSet]) ∧
    (rawSet c p).Sublist (conditionsOf p) ∧
    raiseLotState c = raiseEvent .automation .lotState (raiseEvent .tool .lotState c) ∧
    ∀ x ∈ conditionsOf p, x ∈ [Condition.lotState, .settingsDone, .session, .excursion, .holdSet] →
      let d := raiseEvent p x c
      d = { c with notices := d.notices } ∧ (∀ q, q ≠ p → d.notices.get q = c.notices.get q) ∧
        (d.notices.get p).enabled = (c.notices.get p).enabled ∧ ∀ y, y ∈ rawSet d p ↔ y = x ∨ y ∈ rawSet c p) ∧
  ∀ (c : Part) (p : PortId),
    (∀ x : Condition, x ∈ rawSet c p ↔ x ∈ conditionsOf p ∧
      match x with
      | .carrierReleasable => ∃ i, (c.carrier i).state = .releasable
      | .moverFaulted => ∃ m o cause, c.slotOf m = .faulted o cause
      | .error => ∃ k, (c.errors.get k).flag = true ∧ (c.errors.get k).reporting = true
      | .capturePending => ∃ r ∈ c.captureLog, r.state = .unfetched
      | .creditLow => c.credits < c.settings.creditLow
      | .reportReady => c.reportQueue ≠ []
      | .statsHalf => ∃ k, 2147483648 ≤ (c.stats.get k).toNat
      | .lotState | .settingsDone | .session | .excursion | .holdSet => x ∈ (c.notices.get p).raised) ∧
    (noticeLine c p = true ↔ ∃ x ∈ rawSet c p, x ∈ (c.notices.get p).enabled)

/-- NOTICE_READ answers the raw set, the masked set, the cause and the masks as they stand, and clears every event condition of
its port; the cause is the condition of the masked set with the highest priority in the port's table, none of an empty set.
NOTICE_MASK_SET and NOTICE_MASK_CLEAR: a name that is no condition of the port refuses the whole request; otherwise the masks
named change, and the answer carries the port's masks after the change. A condition is named by the number of its first row in
R169's table. The empty body of a refusal is the model's choice (log 28). -/
def Obligations.NoticeRequests : Prop :=
  (∀ b : Byte, conditionOf b = ([some .carrierReleasable, some .moverFaulted, some .error, some .lotState, some .settingsDone,
    some .capturePending, some .creditLow, some .session, some .reportReady, some .statsHalf, none, some .excursion,
    some .holdSet][b.toNat]?).join) ∧
  ∀ (s : State) (p : PortId) (tag : Half) (names : List Byte),
    let n := s.part.notices.get p
    let names? (x : Condition) : Bool := names.any (fun b => conditionOf b == some x)
    let change (enabled : List Condition) : Part := { s.part with notices := s.part.notices.set p { n with enabled } }
    let on := (conditionsOf p).filter (fun x => names? x || n.enabled.contains x)
    let off := (conditionsOf p).filter (fun x => !names? x && n.enabled.contains x)
    (TakesNow s p .noticeRead →
      let masked := (rawSet s.part p).filter (fun x => n.enabled.contains x)
      exec (.noticeRead p tag) s = .next
        (answered s p 56#8 tag { s.part with notices := s.part.notices.set p { n with raised := [] } } .ok
          (.notices (rawSet s.part p) masked masked.head? n.enabled)) ∧
      (masked.head? = none ↔ masked = []) ∧
      ∀ x, masked.head? = some x → x ∈ masked ∧
        ∀ y ∈ masked, y ≠ x → (conditionsOf p).idxOf x < (conditionsOf p).idxOf y) ∧
    (TakesNow s p .noticeMaskSet → (∀ b ∈ names, ∃ x ∈ conditionsOf p, conditionOf b = some x) →
      exec (.noticeMaskSet p tag names) s = .next (answered s p 57#8 tag (change on) .ok (.masks on))) ∧
    (TakesNow s p .noticeMaskClear → (∀ b ∈ names, ∃ x ∈ conditionsOf p, conditionOf b = some x) →
      exec (.noticeMaskClear p tag names) s = .next (answered s p 58#8 tag (change off) .ok (.masks off))) ∧
    (TakesNow s p .noticeMaskSet → (∃ b ∈ names, ∀ x ∈ conditionsOf p, conditionOf b ≠ some x) →
      exec (.noticeMaskSet p tag names) s = .next (answered s p 57#8 tag s.part .badField .empty)) ∧
    (TakesNow s p .noticeMaskClear → (∃ b ∈ names, ∀ x ∈ conditionsOf p, conditionOf b ≠ some x) →
      exec (.noticeMaskClear p tag names) s = .next (answered s p 58#8 tag s.part .badField .empty))

/-- An occurrence of an error kind: with its flag clear it sets the flag, the count to 1 and the record; with the flag set
it only counts, to 255. Its reporting enable and the other kinds stay. -/
def Obligations.ErrorOccurrence : Prop :=
  ∀ (k : ErrorKind) (d : ErrorDetail) (c : Part),
    let before := c.errors.get k
    let after := (recordError k d c).errors
    (before.flag = false → after.get k = ⟨true, 1, some d, before.reporting⟩) ∧
    (before.flag = true → after.get k = ⟨true, min (before.count + 1) 255, before.first, before.reporting⟩) ∧
    (∀ j, j ≠ k → after.get j = c.errors.get j) ∧ recordError k d c = { c with errors := after }

/-- ERROR_READ answers the flags by class and the records of the kinds named, in table order, and changes nothing; a name that
is refused is answered BAD_FIELD (a class named in a list of kinds is refused: log 16). ERROR_CLEAR clears the kinds named,
directly or through their class, and writes the reporting changes in their order, so that of two for one kind the later stands
(the model's choice: log 29); any bad name or value refuses it whole, and nothing but the error table changes. The table holds
the twelve kinds, each in its class; a kind is named by its place in it from 0, the classes NOTE, TOOL and WAFER by 12, 13 and
14. The empty body of a refusal is the model's choice (log 28). -/
def Obligations.ErrorRequests : Prop :=
  allErrorKinds.map (fun k => (k, k.errorClass)) =
    [(.linkCrcTool, .note), (.linkCrcImage, .note), (.linkCrcAutomation, .note), (.queueOverrun, .note), (.moverTimeout, .tool),
      (.moverFault, .tool), (.lateCompletion, .note), (.captureTimeout, .wafer), (.creditOverflow, .note),
      (.focusDisturbed, .wafer), (.idMismatch, .wafer), (.settingsDefaulted, .tool)] ∧
  (∀ b : Byte, errorKindOf b = allErrorKinds[b.toNat]? ∧
    errorClassOf b = if b.toNat < 12 then none else [ErrorClass.note, .tool, .wafer][b.toNat - 12]?) ∧
  (∀ (s : State) (p : PortId) (tag : Half) (sel : ErrorSelector), TakesNow s p .errorRead →
    let flagged (x : ErrorClass) : Bool := allErrorKinds.any (fun k => k.errorClass == x && (s.part.errors.get k).flag)
    let shown (ks : List ErrorKind) : Body :=
      .errors [(.note, flagged .note), (.tool, flagged .tool), (.wafer, flagged .wafer)]
        (ks.map (fun k => (k, s.part.errors.get k)))
    (sel = .all → exec (.errorRead p tag sel) s = .next (answered s p 59#8 tag s.part .ok (shown allErrorKinds))) ∧
    (∀ b x, sel = .cls b → errorClassOf b = some x →
      exec (.errorRead p tag sel) s = .next
        (answered s p 59#8 tag s.part .ok (shown (allErrorKinds.filter (fun k => k.errorClass == x))))) ∧
    (∀ names, sel = .kinds names → (∀ b ∈ names, b.toNat < 12) →
      exec (.errorRead p tag sel) s = .next
        (answered s p 59#8 tag s.part .ok
          (shown (allErrorKinds.filter (fun k => names.any (fun b => errorKindOf b == some k)))))) ∧
    ((∃ b, sel = .cls b ∧ errorClassOf b = none) ∨ (∃ names, sel = .kinds names ∧ ∃ b ∈ names, 12 ≤ b.toNat) →
      exec (.errorRead p tag sel) s = .next (answered s p 59#8 tag s.part .badField .empty))) ∧
  ∀ (s : State) (p : PortId) (tag : Half) (names : List Byte) (changes : Option (List ReportingField)),
    TakesNow s p .errorClear →
    let cleared (k : ErrorKind) : Prop :=
      ∃ b ∈ names, errorKindOf b = some k ∨ errorClassOf b = some k.errorClass
    let good : Prop := (∀ b ∈ names, b.toNat < 15) ∧ ∀ f ∈ changes.getD [], f.kind.toNat < 12 ∧ f.value.toNat < 2
    (good → ∃ t : ErrorTable,
      exec (.errorClear p tag names changes) s = .next
        (answered s p 60#8 tag { s.part with errors := t } .ok
          (.errorsAfter (allErrorKinds.map (fun k => (k, (t.get k).flag, (t.get k).reporting))))) ∧
      ∀ k, let before := s.part.errors.get k
        (cleared k → (t.get k).flag = false ∧ (t.get k).count = 0 ∧ (t.get k).first = none) ∧
        (¬ cleared k →
          (t.get k).flag = before.flag ∧ (t.get k).count = before.count ∧ (t.get k).first = before.first) ∧
        (t.get k).reporting =
          match (changes.getD []).reverse.find? (fun f => errorKindOf f.kind == some k) with
          | none => before.reporting
          | some f => f.value == 1#8) ∧
    (¬ good → exec (.errorClear p tag names changes) s = .next (answered s p 60#8 tag s.part .badField .empty))

/-! ### Statistics (07) -/

/-- STATS_READ answers the twelve statistics in table order and whether one is 2,147,483,648 or greater; nothing changes.
STATS_TAKE subtracts an amount that the statistic covers and answers the new value; an amount it does not cover, and a name
that is none of the twelve, is BAD_FIELD. The empty body of a refusal is the model's choice (log 28). -/
def Obligations.StatisticsAreReadAndTaken : Prop :=
  allStatistics = [.sitesClassified, .sitesSkipped, .sitesFailed, .sitesUnclassified, .capturesIssued, .capturesRejected,
    .sweeps, .mapHits, .checksFailed, .movesCompleted, .moveFaults, .latePosts] ∧
  ∀ (s : State) (p : PortId) (tag : Half) (b : Byte) (amount : Full),
    (TakesNow s p .statsRead → ∃ half : Bool, (half = true ↔ ∃ k, 2147483648 ≤ (s.part.stats.get k).toNat) ∧
      exec (.statsRead p tag) s = .next
        (answered s p 48#8 tag s.part .ok (.stats (allStatistics.map s.part.stats.get) half))) ∧
    (TakesNow s p .statsTake →
      (∀ k, allStatistics[b.toNat]? = some k → amount.toNat ≤ (s.part.stats.get k).toNat →
        exec (.statsTake p tag b amount) s = .next
          (answered s p 49#8 tag { s.part with stats := s.part.stats.set k (s.part.stats.get k - amount) } .ok
            (.statistic (s.part.stats.get k - amount)))) ∧
      (∀ k, allStatistics[b.toNat]? = some k → (s.part.stats.get k).toNat < amount.toNat →
        exec (.statsTake p tag b amount) s = .next (answered s p 49#8 tag s.part .badField .empty)) ∧
      (12 ≤ b.toNat → exec (.statsTake p tag b amount) s = .next (answered s p 49#8 tag s.part .badField .empty)))

/-! ### Settings and TOOL_CLEAR (11) -/

/-- SETTING_SET: the name, then a lot in use, then a save running; then the value is clamped into the setting's range and
applied. A changed park z moves the drive while no session runs. The empty body of a refusal is the model's choice (log 28).
-/
def Obligations.SettingSetClampsAndApplies : Prop :=
  ∀ (s : State) (p : PortId) (tag : Half) (b : Byte) (value : Full), TakesNow s p .settingSet →
    let refused (st : Status) := answered s p 65#8 tag s.part st .empty
    (13 ≤ b.toNat → exec (.settingSet p tag b value) s = .next (refused .badField)) ∧
    ∀ k, allSettings[b.toNat]? = some k →
      ((∃ i l, s.part.lot? i = some l) → exec (.settingSet p tag b value) s = .next (refused .busy)) ∧
      ((∀ i, s.part.lot? i = none) → s.part.saving ≠ none →
        exec (.settingSet p tag b value) s = .next (refused .busy)) ∧
      ((∀ i, s.part.lot? i = none) → s.part.saving = none →
        let v := max (settingRange k).1 (min value.toNat (settingRange k).2)
        let changed := v ≠ s.part.settings.get k
        exec (.settingSet p tag b value) s = .next
          (answered s p 65#8 tag
            { s.part with
              settings := s.part.settings.set k v
              unsaved := s.part.unsaved || decide changed
              drive := if k = .parkZ ∧ changed ∧ s.part.session.state = .idle then v else s.part.drive } .ok
            (.setting v)))

/-- SETTINGS_SAVE starts a save of a copy of the working settings, or is BUSY while one runs. The save's end: DONE exactly
when every byte read back matches the image; a failure records SETTINGS_DEFAULTED; SETTINGS_DONE is raised either way. The
bytes that a save leaves in the memory come with its end (log 6), and each end clears the model's mark imagePartial (log 7).
The image has 56 bytes: the version 1, each setting in 4 bytes from offset 2 in table order, and the CRC over the bytes before
it. The empty body of a refusal is the model's choice (log 28). -/
def Obligations.SettingsSaveAndItsEnd : Prop :=
  (∀ ws : Settings,
    let image := settingsImage ws
    image.length = 56 ∧ imageHalf image 0 = 1#16 ∧ (∀ k, storedSetting image k = ws.get k % 4294967296) ∧
      imageHalf image 54 = crc16 (image.take 54)) ∧
  ∀ (s : State) (p : PortId) (tag : Half) (bytes : List Byte) (ws : Settings), bytes.length = 56 →
    let stored := { s.part with
      saving := none, imagePartial := false, memory := memoryWriteFrom s.part.memory 0 bytes }
    let ended (c : Part) := withPart s (raiseEvent .tool .settingsDone c)
    let failed (why : SaveReason) :=
      ended (recordError .settingsDefaulted (.settingsSave why) { stored with lastSave := .failed why })
    (TakesNow s p .settingsSave → s.part.saving = none →
      exec (.settingsSave p tag) s = .next
        (answered s p 67#8 tag { s.part with saving := some s.part.settings } .ok .empty)) ∧
    (TakesNow s p .settingsSave → s.part.saving ≠ none →
      exec (.settingsSave p tag) s = .next (answered s p 67#8 tag s.part .busy .empty)) ∧
    (s.part.saving = some ws → bytes = settingsImage ws →
      exec (.saveEnd (.readBack bytes)) s = .next (ended { stored with lastSave := .done, unsaved := false })) ∧
    (s.part.saving = some ws → bytes ≠ settingsImage ws →
      exec (.saveEnd (.readBack bytes)) s = .next (failed .verify)) ∧
    (s.part.saving = some ws → exec (.saveEnd (.noResponse bytes)) s = .next (failed .noResponse))

/-- The end of the settings load, by what the read gave: no answer, a wrong CRC, another version than 1, or an image whose
values are clamped into their ranges. The thirteen settings stand in table order, each with its range and its default; a stored
setting is the number of its 4 bytes, and any number of the image comes least significant byte first. That an image marked
imagePartial fails its CRC whatever its bytes is the model's reading of R181 (log 7). -/
def Obligations.SettingsLoadEnds : Prop :=
  allSettings.map (fun k => (k, settingRange k, defaultSettings.get k)) =
    [(.portsFitted, (1, 4), 4), (.arTimeout, (1, 120), 20), (.vrTimeout, (1, 120), 15), (.alTimeout, (1, 120), 10),
      (.pumpTimeout, (1, 120), 60), (.ventTimeout, (1, 120), 45), (.stTimeout, (1, 120), 5), (.captureTimeout, (1, 60), 10),
      (.creditLow, (0, 255), 4), (.waferCap, (1, 4095), 2000), (.nominalZ, (0, 65535), 32768), (.parkZ, (0, 65535), 32768),
      (.settleTime, (1, 50), 5)] ∧
  (∀ (bytes : List Byte) (n : Nat) (k : SettingName),
    let byte (j : Nat) : Nat := (bytes.getD j 0#8).toNat
    (imageHalf bytes n).toNat = byte n + 256 * byte (n + 1) ∧
    (allSettings[n]? = some k → storedSetting bytes k =
      byte (2 + 4 * n) + 256 * byte (3 + 4 * n) + 65536 * byte (4 + 4 * n) + 16777216 * byte (5 + 4 * n))) ∧
  ∀ s : State, s.part.loading = true →
    let bytes := memoryReadFrom s.part.memory 0 56
    let crcGood := imageHalf bytes 54 = crc16 (bytes.take 54)
    let loaded (ws : Settings) (r : LoadResult) : Part :=
      { s.part with settings := ws, loading := false, loadResult := some r, drive := ws.parkZ, unsaved := decide (r ≠ .loaded) }
    let defaulted (why : LoadReason) : State :=
      withPart s (recordError .settingsDefaulted (.settingsLoad why) (loaded defaultSettings (.defaulted why)))
    exec (.settingsLoadEnd .noResponse) s = .next (defaulted .noResponse) ∧
    (s.part.imagePartial = true ∨ ¬ crcGood → exec (.settingsLoadEnd .answered) s = .next (defaulted .crc)) ∧
    (s.part.imagePartial = false → crcGood → imageHalf bytes 0 ≠ 1#16 →
      exec (.settingsLoadEnd .answered) s = .next (defaulted .version)) ∧
    (s.part.imagePartial = false → crcGood → imageHalf bytes 0 = 1#16 →
      ∃ ws r, exec (.settingsLoadEnd .answered) s = .next (withPart s (loaded ws r)) ∧
        (∀ k, ws.get k = max (settingRange k).1 (min (storedSetting bytes k) (settingRange k).2)) ∧
        ((∀ k, ws.get k = storedSetting bytes k) → r = .loaded) ∧
        ((∃ k, ws.get k ≠ storedSetting bytes k) → r = .loadedClamped))

/-- Settings saved and read back come back whole: after a save that ends DONE and a power-on, the load gives the same
settings without clamping, and the unsaved mark is clear. -/
def Obligations.SavedSettingsComeBack : Prop :=
  ∀ (s : State) (ws : Settings), s.part.saving = some ws → MemoryKept s →
    (∀ k, (settingRange k).1 ≤ ws.get k ∧ ws.get k ≤ (settingRange k).2) →
    ∃ t u v, exec (.saveEnd (.readBack (settingsImage ws))) s = .next t ∧ exec .powerOn t = .next u ∧
      exec (.settingsLoadEnd .answered) u = .next v ∧ v.part.settings = ws ∧ v.part.loadResult = some .loaded ∧
      v.part.unsaved = false ∧ v.part.loading = false ∧ v.part.drive = ws.parkZ

/-- TOOL_CLEAR: a wafer record in use, an ISSUED order or a queued report is BUSY; otherwise the lots, the carriers, the
lists, the start counter, the report-wait order, the credits and the map go back to their start-up values, LOT_STATE is
raised when a lot was in use, and the rest is kept. The empty body of a refusal is the model's choice (log 28). -/
def Obligations.ToolClearEmptiesTheRecords : Prop :=
  ∀ (s : State) (p : PortId) (tag : Half), TakesNow s p .toolClear →
    let blocked := (∃ t ∈ allTags, s.part.wafer? t ≠ none) ∨ (∃ m o, s.part.slotOf m = .issued o) ∨ s.part.reportQueue ≠ []
    let cleared := { s.part with
      lots := State.reset.part.lots, carriers := State.reset.part.carriers, startCounter := 0, waitingReports := []
      lists := [], freeCount := 12288, credits := 0, focusMap := [] }
    let lots := allLoadPorts.countP (fun i => (s.part.lot? i).isSome)
    let carriers := allLoadPorts.countP (fun i => (s.part.carrier i).state != .empty)
    (blocked → exec (.toolClear p tag) s = .next (answered s p 68#8 tag s.part .busy .empty)) ∧
    (¬ blocked → exec (.toolClear p tag) s = .next
      (answered s p 68#8 tag (if 0 < lots then raiseLotState cleared else cleared) .ok (.cleared lots carriers)))

/-! ### Carriers, lots, recipes (01) -/

/-- CARRIER_DOCKED: the port, the ID's length, the ID against the other carriers, the state of the port's carrier; the first
that fails decides. The record becomes DOCKED with that ID and nothing else changes. The empty body of a refusal is the
model's choice (log 28). -/
def Obligations.CarrierDocks : Prop :=
  ∀ (s : State) (p : PortId) (tag : Half) (n : Byte) (id : Text), TakesNow s p .carrierDocked →
    let refused (st : Status) := answered s p 1#8 tag s.part st .empty
    let fits := 1 ≤ id.length ∧ id.length ≤ 16
    ((∀ i : LoadPort, i.num = n.toNat → s.part.settings.portsFitted < n.toNat) →
      exec (.carrierDocked p tag n id) s = .next (refused .badField)) ∧
    ∀ i : LoadPort, i.num = n.toNat → n.toNat ≤ s.part.settings.portsFitted →
      let used := ∃ j, j ≠ i ∧ (s.part.carrier j).state ≠ .empty ∧ (s.part.carrier j).id = some id
      (¬ fits ∨ used → exec (.carrierDocked p tag n id) s = .next (refused .badField)) ∧
      (fits → ¬ used → (s.part.carrier i).state ≠ .empty →
        exec (.carrierDocked p tag n id) s = .next (refused .refusedState)) ∧
      (fits → ¬ used → (s.part.carrier i).state = .empty →
        exec (.carrierDocked p tag n id) s = .next
          (answered s p 1#8 tag { s.part with carriers := s.part.carriers.set i ⟨.docked, some id, none⟩ } .ok .empty))

/-- SLOT_MAP: the port, the carrier's state, then the map: 25 entries, each with one of the four slot states, an expected
wafer ID of 1..24 characters only on an OCCUPIED entry. The map is stored whole and the record becomes MAPPED. The empty
body of a refusal is the model's choice (log 28). -/
def Obligations.SlotMapIsStored : Prop :=
  ∀ (s : State) (p : PortId) (tag : Half) (n : Byte) (entries : List SlotField), TakesNow s p .slotMap →
    let refused (st : Status) := answered s p 2#8 tag s.part st .empty
    let good := entries.length = 25 ∧ ∀ e ∈ entries, e.state.toNat < 4 ∧
      ∀ t, e.expected = some t → 1 ≤ t.length ∧ t.length ≤ 24 ∧ e.state = 1#8
    ((∀ i : LoadPort, i.num = n.toNat → s.part.settings.portsFitted < n.toNat) →
      exec (.slotMap p tag n entries) s = .next (refused .badField)) ∧
    ∀ i : LoadPort, i.num = n.toNat → n.toNat ≤ s.part.settings.portsFitted →
      ((s.part.carrier i).state ≠ .docked → exec (.slotMap p tag n entries) s = .next (refused .refusedState)) ∧
      ((s.part.carrier i).state = .docked → ¬ good →
        exec (.slotMap p tag n entries) s = .next (refused .badField)) ∧
      ((s.part.carrier i).state = .docked → good →
        exec (.slotMap p tag n entries) s = .next
          (answered s p 2#8 tag
            { s.part with carriers := s.part.carriers.set i { s.part.carrier i with
                state := .mapped
                map := some (entries.map (fun e =>
                  ⟨[SlotState.empty, .occupied, .crossed, .double].getD e.state.toNat .empty, e.expected⟩)) } }
            .ok .empty))

/-- CARRIER_RELEASE and CARRIER_UNDOCKED, by the carrier's state and its bound lot. A release names a fitted port, an undock
any port 1..4; an undock of a RELEASABLE carrier frees its lot record. The empty body of a refusal is the model's choice
(log 28). -/
def Obligations.CarrierLeaves : Prop :=
  ∀ (s : State) (p : PortId) (tag : Half) (n : Byte),
    (TakesNow s p .carrierRelease →
      let refused (st : Status) := answered s p 3#8 tag s.part st .empty
      ((∀ i : LoadPort, i.num = n.toNat → s.part.settings.portsFitted < n.toNat) →
        exec (.carrierRelease p tag n) s = .next (refused .badField)) ∧
      ∀ i : LoadPort, i.num = n.toNat → n.toNat ≤ s.part.settings.portsFitted →
        let k := s.part.carrier i
        (k.state = .empty ∨ (k.state ≠ .releasable ∧ s.part.lot? i ≠ none) →
          exec (.carrierRelease p tag n) s = .next (refused .refusedState)) ∧
        (k.state = .releasable → exec (.carrierRelease p tag n) s = .next (refused .ok)) ∧
        ((k.state = .docked ∨ k.state = .mapped) → s.part.lot? i = none →
          exec (.carrierRelease p tag n) s = .next
            (answered s p 3#8 tag { s.part with carriers := s.part.carriers.set i { k with state := .releasable } } .ok
              .empty))) ∧
    (TakesNow s p .carrierUndocked →
      let refused (st : Status) := answered s p 4#8 tag s.part st .empty
      ((∀ i : LoadPort, i.num ≠ n.toNat) → exec (.carrierUndocked p tag n) s = .next (refused .badField)) ∧
      ∀ i : LoadPort, i.num = n.toNat →
        let k := s.part.carrier i
        let emptied := { s.part with carriers := s.part.carriers.set i ⟨.empty, none, none⟩ }
        (k.state = .empty ∨ (k.state ≠ .releasable ∧ s.part.lot? i ≠ none) →
          exec (.carrierUndocked p tag n) s = .next (refused .refusedState)) ∧
        (k.state ≠ .empty → s.part.lot? i = none →
          exec (.carrierUndocked p tag n) s = .next (answered s p 4#8 tag emptied .ok .empty)) ∧
        (k.state = .releasable → s.part.lot? i ≠ none →
          exec (.carrierUndocked p tag n) s = .next
            (answered s p 4#8 tag
              (raiseLotState
                { emptied with
                  lots := s.part.lots.set i none
                  lists := s.part.lists.filter (fun l => l.lot != i)
                  freeCount := s.part.freeCount +
                    ((s.part.lists.filter (fun l => l.lot == i)).map (·.entries.length)).sum
                  waitingReports := s.part.waitingReports.filter (fun w => w.lot != i) }) .ok .empty)))

/-- LOT_DEFINE: its seven checks in order, then the new lot record, DEFINED, with every entry WAITING, no hold source, no
start order number and zero counters; LOT_STATE is raised. The empty body of a refusal is the model's choice (log 28). -/
def Obligations.LotIsDefined : Prop :=
  ∀ (s : State) (p : PortId) (tag : Half) (id : Text) (n recipe priority : Byte) (sel : List Byte),
    TakesNow s p .lotDefine →
    let out := exec (.lotDefine p tag id n recipe priority sel) s
    let refused (st : Status) := answered s p 5#8 tag s.part st .empty
    let fieldsOk :=
      (1 ≤ id.length ∧ id.length ≤ 20 ∧ ∀ i l, s.part.lot? i = some l → l.id ≠ id) ∧
      (∃ i : LoadPort, i.num = n.toNat ∧ n.toNat ≤ s.part.settings.portsFitted) ∧
      (∃ r, s.part.recipes.getD recipe.toNat none = some r) ∧ priority.toNat < 2 ∧
      1 ≤ sel.length ∧ sel.length ≤ 25 ∧ (∀ b ∈ sel, 1 ≤ b.toNat ∧ b.toNat ≤ 25) ∧ sel.Nodup
    (¬ fieldsOk → out = .next (refused .badField)) ∧
    ∀ i : LoadPort, i.num = n.toNat → fieldsOk →
      let mapped := (s.part.carrier i).state = .mapped ∧ s.part.lot? i = none
      let occupied := ∀ b ∈ sel, ∃ m e, (s.part.carrier i).map = some m ∧ m[b.toNat - 1]? = some e ∧ e.state = .occupied
      (¬ mapped → out = .next (refused .refusedState)) ∧
      (mapped → ¬ occupied → out = .next (refused .badField)) ∧
      (mapped → occupied → out = .next
        (answered s p 5#8 tag
          (raiseLotState { s.part with lots := s.part.lots.set i (some
            { id, recipe := recipe.toNat, priority := if priority = 1#8 then .hot else .normal
              selection := sel.map (fun b => ⟨b.toNat, .waiting, none, WaferCounts.empty⟩)
              state := .defined, holdTool := none, holdAuto := none, holdExc := none, aborted := false
              startOrder := none, counters := LotCounters.empty }) }) .ok .empty))

/-- LOT_START: a DEFINED lot takes the next start order number, saturating, and becomes RUNNING; what that makes ready is done
in the same event, which leaves everything outside the cell's records and the lots as it was. At the end of any event that
settles, port by port and in this order (log 5): in a RUNNING lot that is not aborted each WAITING entry whose list is sealed
and empty is RULED_OUT, its summary NO_SITES with the slot's counts and no wafer ID; a RUNNING lot with no WAITING entry
becomes DRAINING; a DRAINING lot with no wafer record in use completes. So a lot whose entries are all ruled out goes on to
CLOSED or REPORT_WAIT in that event, one with a WAITING entry left stays RUNNING until a grant. Each change of state raises
LOT_STATE. The empty body of a refusal is the model's choice (log 28). -/
def Obligations.LotStarts : Prop :=
  (∀ c : Part,
    let each (f : Part → LoadPort → Part) (x : Part) : Part := f (f (f (f x .p1) .p2) .p3) .p4
    settleLots c = each (fun x i => completeIfDone i x) (allTags.foldl freeIfDone (allTags.foldl redirect
      (each (fun x i => drainLot i x) (each (fun x i => ruleOutLot i x) c))))) ∧
  (∀ (c : Part) (i : LoadPort),
    (c.lot? i = none → ruleOutLot i c = c ∧ drainLot i c = c ∧ completeIfDone i c = c) ∧
    ∀ l, c.lot? i = some l →
      let barren (e : Selection) : Prop :=
        e.status = .waiting ∧ ∃ r, c.list? i e.slot = some r ∧ r.sealed = true ∧ r.entries = []
      let inUse : Prop := ∃ t w, t ∈ allTags ∧ c.wafer? t = some w ∧ w.lot = i
      let put (x : Lot) : Part := { c with lots := c.lots.set i (some x) }
      (¬ (l.state = .running ∧ l.aborted = false) → ruleOutLot i c = c) ∧
      (l.state = .running → l.aborted = false → ∃ selection : List Selection,
        ruleOutLot i c = put { l with selection := selection } ∧ selection.length = l.selection.length ∧
        ∀ (n : Nat) (e : Selection), l.selection[n]? = some e →
          (barren e → selection[n]? =
            some { e with status := .ruledOut, summary := some ⟨e.slot, none, .noSites, e.counts⟩ }) ∧
          (¬ barren e → selection[n]? = some e)) ∧
      (l.state = .running → (∀ e ∈ l.selection, e.status ≠ .waiting) →
        drainLot i c = raiseLotState (put { l with state := .draining })) ∧
      (¬ (l.state = .running ∧ ∀ e ∈ l.selection, e.status ≠ .waiting) → drainLot i c = c) ∧
      (l.state = .draining → ¬ inUse → completeIfDone i c = completeLot i c) ∧
      (¬ (l.state = .draining ∧ ¬ inUse) → completeIfDone i c = c) ∧
      (l.state = .running → l.aborted = false → (∀ e ∈ l.selection, e.status = .waiting → barren e) → ¬ inUse →
        (∃ x, (settle c).lot? i = some x ∧ (x.state = .closed ∨ x.state = .reportWait) ∧
          ∀ e ∈ x.selection, e.status ≠ .waiting) ∧
        .lotState ∈ rawSet (settle c) .tool ∧ .lotState ∈ rawSet (settle c) .automation) ∧
      (l.state = .running → l.aborted = false → (∃ e ∈ l.selection, e.status = .waiting ∧ ¬ barren e) →
        ∃ x, (settleLots c).lot? i = some x ∧ x.state = .running)) ∧
  ∀ (s : State) (p : PortId) (tag : Half) (id : Text), TakesNow s p .lotStart →
    let out := exec (.lotStart p tag id) s
    (s.part.lotNamed id = none → out = .next (answered s p 6#8 tag s.part .notFound .empty)) ∧
    ∀ i l, s.part.lotNamed id = some (i, l) →
      (l.state ≠ .defined → out = .next (answered s p 6#8 tag s.part .refusedState .empty)) ∧
      (l.state = .defined →
        let n := min (s.part.startCounter + 1) 4294967295
        let started := raiseLotState { s.part with
          startCounter := n, lots := s.part.lots.set i (some { l with state := .running, startOrder := some n }) }
        out = .next (answered s p 6#8 tag (settle started) .ok .empty) ∧ SettleKeeps started (settle started))

/-- LOT_HOLD: the scope, the lot, its state. The source of the port that took it takes the scope, HOLD_SET is raised, and a
change of the derived hold raises LOT_STATE. The session is reached only when its wafer belongs to the lot. The empty body
of a refusal is the model's choice (log 28). -/
def Obligations.LotHoldIsRecorded : Prop :=
  ∀ (s : State) (p : PortId) (tag : Half) (id : Text) (b : Byte), TakesNow s p .lotHold →
    let out := exec (.lotHold p tag id b) s
    let refused (st : Status) := answered s p 7#8 tag s.part st .empty
    (1 < b.toNat → out = .next (refused .badField)) ∧
    (b.toNat ≤ 1 → s.part.lotNamed id = none → out = .next (refused .notFound)) ∧
    ∀ i l, b.toNat ≤ 1 → s.part.lotNamed id = some (i, l) →
      let takes := (l.state = .running ∨ l.state = .draining) ∧ l.aborted = false
      let scope : Scope := if b = 0#8 then .w else .n
      let held : Lot := if p = .tool then { l with holdTool := some scope } else { l with holdAuto := some scope }
      let recorded := { s.part with lots := s.part.lots.set i (some held) }
      (¬ takes → out = .next (refused .refusedState)) ∧
      (takes → l.hold = held.hold →
        out = .next (answered s p 7#8 tag (raiseEvent .automation .holdSet recorded) .ok .empty)) ∧
      (takes → l.hold ≠ held.hold → l.hold ≠ .holdN → (held.hold ≠ .holdN ∨ s.part.sessionLot ≠ some i) →
        out = .next (answered s p 7#8 tag (raiseEvent .automation .holdSet (raiseLotState recorded)) .ok .empty)) ∧
      (takes → l.hold ≠ held.hold → held.hold = .holdN → s.part.sessionLot = some i →
        out = .next
          (answered s p 7#8 tag (raiseEvent .automation .holdSet (pauseSession (raiseLotState recorded))) .ok .empty)) ∧
      (takes → l.hold ≠ held.hold → l.hold = .holdN →
        let freed := if s.part.sessionLot = some i then resumeSession (raiseLotState recorded) else raiseLotState recorded
        out = .next (answered s p 7#8 tag (settle (raiseEvent .automation .holdSet freed)) .ok .empty))

/-- LOT_RELEASE: the choice, EXCURSION from the automation port, the lot, the source. The source leaves the set; a change of
the derived hold raises LOT_STATE; a hold that leaves HOLD.N lets the session of the lot's wafer go on: a PAUSED session is
ACTIVE and walks, a PAUSING one is ACTIVE with its site still in flight, any other stays as it is. The empty body of a
refusal is the model's choice (log 28). -/
def Obligations.LotReleaseRemovesASource : Prop :=
  (∀ c : Part,
    let active := { c with session := { c.session with state := .active } }
    (c.session.state = .paused → resumeSession c = walk active) ∧
    (c.session.state = .pausing → resumeSession c = active) ∧
    (c.session.state ≠ .paused → c.session.state ≠ .pausing → resumeSession c = c)) ∧
  ∀ (s : State) (p : PortId) (tag : Half) (id : Text) (b : Byte), TakesNow s p .lotRelease →
    let out := exec (.lotRelease p tag id b) s
    let refused (st : Status) := answered s p 8#8 tag s.part st .empty
    (1 < b.toNat → out = .next (refused .badField)) ∧
    (b = 1#8 → p = .automation → out = .next (refused .notPermitted)) ∧
    (b.toNat ≤ 1 → ¬ (b = 1#8 ∧ p = .automation) → s.part.lotNamed id = none → out = .next (refused .notFound)) ∧
    ∀ i l, b.toNat ≤ 1 → ¬ (b = 1#8 ∧ p = .automation) → s.part.lotNamed id = some (i, l) →
      let source := if b = 1#8 then l.holdExc else if p = .tool then l.holdTool else l.holdAuto
      let freed : Lot :=
        if b = 1#8 then { l with holdExc := none }
        else if p = .tool then { l with holdTool := none } else { l with holdAuto := none }
      let removed := { s.part with lots := s.part.lots.set i (some freed) }
      (source = none → out = .next (refused .refusedState)) ∧
      (source ≠ none → l.hold = freed.hold → out = .next (answered s p 8#8 tag (settle removed) .ok .empty)) ∧
      (source ≠ none → l.hold ≠ freed.hold → (l.hold ≠ .holdN ∨ s.part.sessionLot ≠ some i) →
        out = .next (answered s p 8#8 tag (settle (raiseLotState removed)) .ok .empty)) ∧
      (source ≠ none → l.hold ≠ freed.hold → l.hold = .holdN → s.part.sessionLot = some i →
        out = .next (answered s p 8#8 tag (settle (resumeSession (raiseLotState removed))) .ok .empty))

/-- LOT_ABORT, by the lot's state: DEFINED completes at once; RUNNING becomes DRAINING; DRAINING drains on, aborted; a second
abort changes nothing; REPORT_WAIT and CLOSED refuse. The abort removes every hold source. It then reaches the lot's wafers and
the session before anything else is settled: no site of the lot's wafers stays PENDING; a wafer before REVIEWING without an
outcome takes ABORTED and loses its INBOUND reservation, unless its PLACE into a lock is ISSUED; wafers of other lots stay. At
the end of the event, and of every later one, a wafer of the lot that no order in progress names turns back by its place and
phase, as R65's table says, and loses its INBOUND reservation: home in OUTBOUND_FROM_SLOT it is HOME; on UPPER_BLADE or the
ALIGNER, or in PUMPING in a lock at ATMOSPHERE, RETURNING; on TRANSFER_ARM TO_LOCK; on the STAGE in TO_STAGE REVIEWED; in a
lock at VACUUM in PUMPING, READY or TO_STAGE, VENTING. Any other wafer stays, every other field of it too. The session of the
lot's wafer is ACTIVE again: with no site in flight it ends; a site MOVING, FOCUSING (its focus request abandoned) or
CAPTURE_WAIT (withdrawn) is SKIPPED(ABORTED) and the session ends; a CAPTURING site stays in flight. A session that ends leaves
its wafer REVIEWED with outcome ABORTED. The empty body of a refusal is the model's choice (log 28). -/
def Obligations.LotAborts : Prop :=
  (∀ (s : State) (p : PortId) (tag : Half) (id : Text), TakesNow s p .lotAbort →
    let out := exec (.lotAbort p tag id) s
    let answer (c : Part) (st : Status) := answered s p 9#8 tag c st .empty
    (s.part.lotNamed id = none → out = .next (answer s.part .notFound)) ∧
    ∀ i l, s.part.lotNamed id = some (i, l) →
      let ended : Lot := { l with aborted := true, holdTool := none, holdAuto := none, holdExc := none }
      let put (l : Lot) : Part := { s.part with lots := s.part.lots.set i (some l) }
      (l.state = .defined → out = .next (answer (completeLot i (put ended)) .ok)) ∧
      (l.state = .running →
        out = .next (answer (settle (abortWafers i (raiseLotState (put { ended with state := .draining })))) .ok)) ∧
      (l.state = .draining → l.aborted = true → out = .next (answer s.part .ok)) ∧
      (l.state = .draining → l.aborted = false →
        let put' := if l.hold = .none then put ended else raiseLotState (put ended)
        out = .next (answer (settle (abortWafers i put')) .ok)) ∧
      ((l.state = .reportWait ∨ l.state = .closed) → out = .next (answer s.part .refusedState))) ∧
  (∀ (c : Part) (t : Nat) (w : Wafer), c.wafer? t = some w →
    let turned (p : Phase) : Wafer := { w with phase := p }
    let freed (k : Lock) : Lock :=
      { k with reservation := if k.reservation = some ⟨t, .inbound⟩ then none else k.reservation }
    let free := c.lotAborted w.lot = true ∧ ¬ Named c t
    (∀ p, free → TurnsBack c w p → redirect c t =
      { c with wafers := c.wafers.set t (some (turned p)), lockA := freed c.lockA, lockB := freed c.lockB }) ∧
    (¬ (free ∧ ∃ p, TurnsBack c w p) → redirect c t = c) ∧
    (∀ p, t ∈ allTags → free → TurnsBack c w p → p ≠ .home →
      (settleLots c).wafer? t = some (turned p) ∧ (settleLots c).reservedFor t .inbound = none)) ∧
  ∀ (c : Part) (i : LoadPort) (l : Lot), c.lot? i = some l → l.aborted = true →
    let d := abortWafers i c
    let inbound (w : Wafer) : Prop := w.outcome = none ∧
      w.phase ∈ [Phase.outboundFromSlot, .aligning, .waitLock, .pumping, .ready, .toStage]
    let placing (t : Nat) : Prop := ∃ o blade k, c.slotOf .ar = .issued o ∧ o.wafer = some t ∧
      o.kind = .arPlace blade (.place (LockId.place k))
    (∀ t w, c.wafer? t = some w → w.lot ≠ i → d.wafer? t = some w) ∧
    (∀ t w, t ∈ allTags → c.wafer? t = some w → w.lot = i →
      (∀ e ∈ d.entries i w.slot, e.state ≠ .pending) ∧
      (c.session.wafer ≠ some t ∨ c.session.state = .idle →
        (inbound w → d.wafer? t = some { w with outcome := some .aborted }) ∧ (¬ inbound w → d.wafer? t = some w)) ∧
      (inbound w → ¬ placing t → d.reservedFor t .inbound = none) ∧
      (¬ inbound w ∨ placing t → d.reservedFor t .inbound = c.reservedFor t .inbound)) ∧
    ∀ t w, t ∈ allTags → c.session.wafer = some t → c.wafer? t = some w → w.lot = i → c.session.state ≠ .idle →
      let ended := d.session = ⟨.idle, none, none, .forward, none, none⟩ ∧
        ∃ x, d.wafer? t = some x ∧ x.outcome = some .aborted ∧ x.phase = .reviewed
      (c.session.inFlight = none → ended) ∧
      ∀ n slot e, c.session.inFlight = some n → c.site? t n = some (i, slot, e) →
        let skipped := d.site? t n =
          some (i, slot, { e with state := .skipped, captureNo := none, reason := some .aborted })
        (e.state = .moving → ended ∧ skipped) ∧
        (e.state = .focusing → ended ∧ skipped ∧ d.focusRequest = none ∧ d.converter = .idle) ∧
        (e.state = .captureWait → ended ∧ skipped ∧ d.waitingSite = none) ∧
        (e.state = .capturing → d.session = { c.session with state := .active } ∧ d.site? t n = some (i, slot, e))

/-- Completion. Every entry still WAITING is RULED_OUT with a summary NOT_DISPATCHED that holds the slot's counts; the PENDING
sites of its list, all of them where the wafer was never picked, become SKIPPED(NOT_DISPATCHED) if the list is sealed and
SKIPPED(UNSEALED) if not, counted in the slot, in the lot and in SITES_SKIPPED; the lists stay. Every hold source goes. The
report holds the IDs, the recipe, the summaries, the totals and the events; its outcome is ABORTED for an aborted lot, COMPLETE
when every summary is REVIEWED or NO_SITES, else PARTIAL. It enters the queue with the next report number, the lot CLOSED and
its carrier RELEASABLE, or waits at the end of the report-wait order, the lot in REPORT_WAIT. LOT_STATE is raised at both
ports. A wafer record is freed when its wafer is home and every site of its list is resolved: the slot's summary takes the
outcome, the wafer ID read and the slot's counts, the list goes and its entries return to the pool; the same event frees every
record that can be freed. -/
def Obligations.LotCompletes : Prop :=
  (∀ (c : Part) (i : LoadPort) (l : Lot), c.lot? i = some l →
    let d := completeLot i c
    let waiting := (l.selection.filter (fun e => e.status == .waiting)).map (·.slot)
    let pending (slot : Nat) : Nat := (c.entries i slot).countP (fun e => e.state == .pending)
    let skipped := (waiting.dedup.map pending).sum
    let ruledOut (e : Selection) : Selection :=
      let counts := { e.counts with skipped := e.counts.skipped + pending e.slot }
      { e with status := .ruledOut, counts, summary := some ⟨e.slot, none, .notDispatched, counts⟩ }
    let done : Lot := { l with
      selection := l.selection.map (fun e => if e.slot ∈ waiting then ruledOut e else e)
      counters := { l.counters with skipped := l.counters.skipped + skipped }
      holdTool := none, holdAuto := none, holdExc := none }
    let summaries : List Summary := done.selection.filterMap (·.summary)
    let outcome : ReportOutcome :=
      if l.aborted = true then .aborted
      else if ∀ x ∈ summaries, x.outcome = .reviewed ∨ x.outcome = .noSites then .complete else .partialReport
    ∃ carrierId : Text, (∀ x, (c.carrier i).id = some x → carrierId = x) ∧
      let report (number : Option Half) : Report :=
        ⟨number, l.id, carrierId, l.recipe, outcome, summaries, done.counters⟩
      (∀ slot ∈ waiting, d.list? i slot = (c.list? i slot).map (fun r => { r with entries := r.entries.map (fun e =>
        if e.state = .pending then
          { e with state := .skipped, captureNo := none, reason := some (if r.sealed then .notDispatched else .unsealed) }
        else e) })) ∧
      (∀ j slot, (j = i → slot ∉ waiting) → d.list? j slot = c.list? j slot) ∧
      d.stats = c.stats.set .sitesSkipped (c.stats.get .sitesSkipped + BitVec.ofNat 32 skipped) ∧
      .lotState ∈ rawSet d .tool ∧ .lotState ∈ rawSet d .automation ∧
      (c.reportQueue.length < 6 → d.lots = c.lots.set i (some { done with state := .closed }) ∧
        d.carriers = c.carriers.set i { c.carrier i with state := .releasable } ∧ d.nextReport = c.nextReport + 1#16 ∧
        d.waitingReports = c.waitingReports ∧ d.reportQueue = c.reportQueue ++ [report (some c.nextReport)]) ∧
      (6 ≤ c.reportQueue.length → d.lots = c.lots.set i (some { done with state := .reportWait }) ∧
        d.carriers = c.carriers ∧ d.nextReport = c.nextReport ∧ d.reportQueue = c.reportQueue ∧
        d.waitingReports = c.waitingReports ++ [⟨i, report none⟩])) ∧
  ∀ (c : Part) (t : Nat) (w : Wafer), c.wafer? t = some w →
    let d := freeIfDone c t
    let home := w.phase = .home ∧ w.place = none ∧
      ∀ e ∈ c.entries w.lot w.slot, e.state ∈ [SiteState.classified, .skipped, .failed, .unclassified]
    (¬ home → d = c) ∧
    (home → t ∈ allTags → (settle c).wafer? t ≠ some w) ∧
    ∀ l outcome, home → c.lot? w.lot = some l → w.outcome = some outcome →
      d = { c with
        wafers := c.wafers.set t none
        lists := c.lists.filter (fun r => ¬ (r.lot = w.lot ∧ r.slot = w.slot))
        freeCount := d.freeCount
        lots := c.lots.set w.lot (some { l with selection := l.selection.map (fun e => if e.slot = w.slot then
          { e with summary := some ⟨e.slot, w.readId, outcome, e.counts⟩ } else e) }) } ∧
      d.freeCount + heldEntries d = c.freeCount + heldEntries c

/-- RECIPE_SET: the slot, the slot's use, the fields. The slot takes every field given and the default of every field left
out; it is replaced whole. The empty body of a refusal is the model's choice (log 28). -/
def Obligations.RecipeIsSet : Prop :=
  ∀ (s : State) (p : PortId) (tag : Half) (slot : Byte) (f : RecipeFields), TakesNow s p .recipeSet →
    let out := exec (.recipeSet p tag slot f) s
    let refused (st : Status) := answered s p 11#8 tag s.part st .empty
    let num (x : Option Byte) (d : Nat) : Nat := (x.map BitVec.toNat).getD d
    let wide (x : Option Half) (d : Nat) : Nat := (x.map BitVec.toNat).getD d
    let inUse := ∃ i l, s.part.lot? i = some l ∧ l.state ≠ .closed ∧ l.recipe = slot.toNat
    let good :=
      num f.resolution 1 ≤ 3 ∧ (5 ≤ num f.sweepSteps 9 ∧ num f.sweepSteps 9 ≤ 15 ∧ num f.sweepSteps 9 % 2 = 1) ∧
      1 ≤ num f.stepSize 16 ∧ num f.quality 1 ≤ 3 ∧ (100 ≤ wide f.mapRadius 5000 ∧ wide f.mapRadius 5000 ≤ 50000) ∧
      1 ≤ num f.mapLifetime 20 ∧ (100 ≤ wide f.focusHold 1000 ∧ wide f.focusHold 1000 ≤ 5000) ∧
      (1 ≤ num f.attemptLimit 2 ∧ num f.attemptLimit 2 ≤ 4) ∧ (1 ≤ wide f.classWait 30 ∧ wide f.classWait 30 ≤ 600) ∧
      num f.readId 0 ≤ 1 ∧ (f.excursions.getD []).length ≤ 4 ∧
      (∀ e ∈ f.excursions.getD [], (1 ≤ e.cls.toNat ∧ e.cls.toNat ≤ 15) ∧ (1 ≤ e.limit.toNat ∧ e.limit.toNat ≤ 4095) ∧
        e.action.toNat ≤ 3) ∧ num f.samplingFloor 2 ≤ 3
    (7 < slot.toNat → out = .next (refused .badField)) ∧
    (slot.toNat ≤ 7 → inUse → out = .next (refused .recipeInUse)) ∧
    (slot.toNat ≤ 7 → ¬ inUse → ¬ good → out = .next (refused .badField)) ∧
    (slot.toNat ≤ 7 → ¬ inUse → good → out = .next
      (answered s p 11#8 tag
        { s.part with recipes := s.part.recipes.set slot.toNat (some
          { resolution := num f.resolution 1, sweepSteps := num f.sweepSteps 9, stepSize := num f.stepSize 16
            quality := [Quality.q0, .q1, .q2, .q3].getD (num f.quality 1) .q1, mapRadius := wide f.mapRadius 5000
            mapLifetime := num f.mapLifetime 20, focusHold := wide f.focusHold 1000
            attemptLimit := num f.attemptLimit 2, classWait := wide f.classWait 30
            readId := decide (num f.readId 0 = 1)
            excursions := (f.excursions.getD []).map (fun e =>
              ⟨e.cls.toNat, e.limit.toNat, [ExcursionAction.note, .sample, .holdW, .holdN].getD e.action.toNat .note⟩)
            samplingFloor := num f.samplingFloor 2 }) } .ok .empty))

/-! ### Sites and queries (02, 01, 03, 06, 07, 11) -/

/-- SITE_LOAD: its seven checks in order; then each site has an entry in its list, in visiting order, with its review fields
empty, the pool's free count falls by the number of sites, and the lot and the slot count them as loaded. The visiting
order: die row, then die column, then x, then y, then site number, each from the lower to the higher. The empty body of a
refusal is the model's choice (log 28). -/
def Obligations.SitesAreLoaded : Prop :=
  (∀ a b : SiteEntry, entryBefore a b = true ↔
    a.row < b.row ∨ (a.row = b.row ∧ (a.col < b.col ∨ (a.col = b.col ∧ (a.x < b.x ∨ (a.x = b.x ∧
      (a.y < b.y ∨ (a.y = b.y ∧ a.number < b.number)))))))) ∧
  ∀ (s : State) (p : PortId) (tag : Half) (id : Text) (b : Byte) (sites : List SiteField), TakesNow s p .siteLoad →
    let out := exec (.siteLoad p tag id b sites) s
    let refused (st : Status) := answered s p 16#8 tag s.part st .empty
    (s.part.lotNamed id = none → out = .next (refused .notFound)) ∧
    ∀ i l, s.part.lotNamed id = some (i, l) →
      let present := s.part.entries i b.toNat
      let free := s.part.freeCount
      let cap := s.part.settings.waferCap
      let n := sites.length
      let good := (1 ≤ n ∧ n ≤ 16) ∧
        (∀ f ∈ sites, (1 ≤ f.number.toNat ∧ f.number.toNat ≤ 4095) ∧ f.priority.toNat ≤ 3 ∧
          (-150000 ≤ f.x.toInt ∧ f.x.toInt ≤ 150000) ∧ (-150000 ≤ f.y.toInt ∧ f.y.toInt ≤ 150000)) ∧
        (sites.map (·.number)).Nodup ∧ ∀ f ∈ sites, ∀ e ∈ present, e.number ≠ f.number.toNat
      (l.entry? b.toNat = none → out = .next (refused .badField)) ∧
      ∀ e, l.entry? b.toNat = some e →
        let gone := l.aborted = true ∨ l.state = .reportWait ∨ l.state = .closed
        let waits := e.status = .waiting ∧ ∀ r, s.part.list? i b.toNat = some r → r.sealed = false
        (gone → out = .next (refused .refusedState)) ∧
        (¬ gone → ¬ waits → out = .next (refused .listSealed)) ∧
        (¬ gone → waits → ¬ good → out = .next (refused .badField)) ∧
        (¬ gone → waits → good → (cap < present.length + n ∨ free < n) →
          out = .next (answered s p 16#8 tag s.part .noSpace (.noSpace present.length cap free))) ∧
        (¬ gone → waits → good → present.length + n ≤ cap → n ≤ free → ∃ lists : List RevisitList,
          let c := { s.part with
            lists := lists
            freeCount := free - n
            lots := s.part.lots.set i (some { l with
              counters := { l.counters with loaded := l.counters.loaded + n }
              selection := l.selection.map (fun q => if q.slot = b.toNat then
                { q with counts := { q.counts with loaded := q.counts.loaded + n } } else q) }) }
          out = .next (answered s p 16#8 tag c .ok (.siteLoaded (present.length + n) (free - n))) ∧
          (c.entries i b.toNat).Perm (present ++ sites.map (fun f =>
            ⟨f.number.toNat, f.row.toInt, f.col.toInt, f.x.toInt, f.y.toInt, f.inspClass.toNat, f.size.toNat,
              f.priority.toNat, .pending, 0, none, none, none, none⟩)) ∧
          (present.Pairwise (fun x y => entryBefore x y = true) →
            (c.entries i b.toNat).Pairwise (fun x y => entryBefore x y = true)) ∧
          (∃ r, c.list? i b.toNat = some r ∧ r.sealed = false) ∧
          ∀ j k, (j, k) ≠ (i, b.toNat) → c.list? j k = s.part.list? j k)

/-- SITE_SEAL: checks 1 to 4 of a load; then the list, empty if it did not exist, is sealed, and what that makes ready is
done in the same event: in a RUNNING lot an entry whose list is sealed empty is RULED_OUT, its summary NO_SITES with the slot's
counts; when no other entry is WAITING and no wafer record of the lot is in use, the lot goes on to CLOSED or REPORT_WAIT. In a
lot that is not RUNNING the entry stays WAITING. The empty body of a refusal is the model's choice (log 28). -/
def Obligations.ListIsSealed : Prop :=
  ∀ (s : State) (p : PortId) (tag : Half) (id : Text) (b : Byte), TakesNow s p .siteSeal →
    let out := exec (.siteSeal p tag id b) s
    let refused (st : Status) := answered s p 17#8 tag s.part st .empty
    (s.part.lotNamed id = none → out = .next (refused .notFound)) ∧
    ∀ i l, s.part.lotNamed id = some (i, l) →
      (l.entry? b.toNat = none → out = .next (refused .badField)) ∧
      ∀ e, l.entry? b.toNat = some e →
        let gone := l.aborted = true ∨ l.state = .reportWait ∨ l.state = .closed
        let waits := e.status = .waiting ∧ ∀ r, s.part.list? i b.toNat = some r → r.sealed = false
        let marked := s.part.lists.map (fun r => if r.lot = i ∧ r.slot = b.toNat then { r with sealed := true } else r)
        let done := { s.part with
          lists := if s.part.list? i b.toNat = none then s.part.lists ++ [⟨i, b.toNat, true, []⟩] else marked }
        (gone → out = .next (refused .refusedState)) ∧
        (¬ gone → ¬ waits → out = .next (refused .listSealed)) ∧
        (¬ gone → waits →
          out = .next (answered s p 17#8 tag (settle done) .ok (.siteSealed (s.part.entries i b.toNat).length)) ∧
          SettleKeeps done (settle done) ∧
          (l.state = .running → s.part.entries i b.toNat = [] →
            (∀ t w, s.part.wafer? t = some w → w.lot = i → w.slot ≠ b.toNat) →
            ∃ x q, (settle done).lot? i = some x ∧ x.entry? b.toNat = some q ∧ q.status = .ruledOut ∧
              q.summary = some ⟨b.toNat, none, .noSites, e.counts⟩ ∧
              ((∀ t w, s.part.wafer? t = some w → w.lot ≠ i) →
                (∀ f ∈ l.selection, f.status = .waiting → f.slot = b.toNat) →
                (x.state = .closed ∨ x.state = .reportWait))) ∧
          (l.state = .defined → (∀ t w, s.part.wafer? t = some w → w.lot ≠ i) → (settle done).lot? i = some l))

/-- LOT_QUERY by lot ID and by port, and RECIPE_QUERY: what each answers; nothing changes. A bound lot is answered with its
carrier port, every other field of its record and its derived hold. The empty body of a refusal is the model's choice (log
28). -/
def Obligations.LotAndRecipeQueries : Prop :=
  ∀ (s : State) (p : PortId) (tag : Half) (id : Text) (n : Byte),
    let shown (i : LoadPort) : Body :=
      .lotQuery (s.part.carrier i) ((s.part.lot? i).map (fun l => (i, l))) (((s.part.lot? i).map Lot.hold).getD .none)
    (TakesNow s p .lotQuery →
      (∀ i l, s.part.lotNamed id = some (i, l) →
        exec (.lotQuery p tag (.lot id)) s = .next (answered s p 10#8 tag s.part .ok (shown i))) ∧
      (s.part.lotNamed id = none →
        exec (.lotQuery p tag (.lot id)) s = .next (answered s p 10#8 tag s.part .notFound .empty)) ∧
      (∀ i : LoadPort, i.num = n.toNat →
        exec (.lotQuery p tag (.port n)) s = .next (answered s p 10#8 tag s.part .ok (shown i))) ∧
      ((∀ i : LoadPort, i.num ≠ n.toNat) →
        exec (.lotQuery p tag (.port n)) s = .next (answered s p 10#8 tag s.part .badField .empty))) ∧
    (TakesNow s p .recipeQuery →
      (n.toNat ≤ 7 → exec (.recipeQuery p tag n) s = .next
        (answered s p 12#8 tag s.part .ok (.recipe (s.part.recipes.getD n.toNat none)))) ∧
      (7 < n.toNat → exec (.recipeQuery p tag n) s = .next (answered s p 12#8 tag s.part .badField .empty)))

/-- SITE_QUERY, CELL_QUERY, CAPTURE_STATUS and SETTING_READ: what each answers; nothing changes. CELL_QUERY shows every order
slot with its state, its order and its cause, the timer left out, and every wafer record in use, once, with its tag, its lot's
ID and its fields. That SITE_QUERY looks for the lot before it refuses a start position of 0 is the model's choice (log 25).
The empty body of a refusal is the model's choice (log 28). -/
def Obligations.PartQueries : Prop :=
  ∀ (s : State) (p : PortId) (tag : Half),
    (TakesNow s p .siteQuery →
      exec (.siteQuery p tag .pool) s = .next
        (answered s p 18#8 tag s.part .ok (.pool s.part.freeCount s.part.lists.length)) ∧
      ∀ (id : Text) (b : Byte) (start : Half),
        let out := exec (.siteQuery p tag (.list id b start)) s
        (s.part.lotNamed id = none → out = .next (answered s p 18#8 tag s.part .notFound .empty)) ∧
        ∀ i l, s.part.lotNamed id = some (i, l) →
          ((l.entry? b.toNat = none ∨ start = 0#16) → out = .next (answered s p 18#8 tag s.part .badField .empty)) ∧
          ∀ e, l.entry? b.toNat = some e → start ≠ 0#16 →
            let list := s.part.list? i b.toNat
            let entries := (list.map (·.entries)).getD []
            let status : ListStatus :=
              match list with
              | none => if e.status = .dispatched then .freed else .absent
              | some r => if r.sealed = false then .open else if r.entries = [] then .sealedEmpty else .sealed
            out = .next (answered s p 18#8 tag s.part .ok
              (.siteList s.part.freeCount status entries.length (entries.countP (fun x => !x.state.isResolved))
                ((entries.drop (start.toNat - 1)).take 16)))) ∧
    (TakesNow s p .cellQuery → ∃ (orders : OrderTable) (views : List WaferView),
      exec (.cellQuery p tag) s = .next (answered s p 25#8 tag s.part .ok
        (.cell s.part.places s.part.lockA s.part.lockB s.part.atLoad orders views
          s.part.vacuumInboundCount s.part.inboundClaimCount
          ((List.range 10).countP (fun t => (s.part.wafer? t).isNone)))) ∧
      (∀ m, (s.part.slotOf m = .idle → orders.get m = .idle) ∧
        (∀ o, s.part.slotOf m = .issued o → orders.get m = .issued { o with timer := none }) ∧
        ∀ o cause, s.part.slotOf m = .faulted o cause → orders.get m = .faulted { o with timer := none } cause) ∧
      (views.map (·.tag)).Nodup ∧
      (∀ t w, t < 10 → s.part.wafer? t = some w → ∃ v ∈ views, v.tag = t) ∧
      ∀ v ∈ views, v.tag < 10 ∧ s.part.wafer? v.tag = some v.wafer ∧
        ∀ l, s.part.lot? v.wafer.lot = some l → v.lotId = l.id) ∧
    (TakesNow s p .captureStatus →
      exec (.captureStatus p tag) s = .next (answered s p 34#8 tag s.part .ok
        (.captureStatus s.part.credits s.part.nextCapture (s.part.waitingSite.map (fun w => (w.wafer, w.site)))
          (s.part.captureLog.map (fun r => (r.number, r.wafer, r.site, r.attempt, r.state)))))) ∧
    (TakesNow s p .settingRead →
      exec (.settingRead p tag) s = .next (answered s p 66#8 tag s.part .ok
        (.settings s.part.settings s.part.loadResult s.part.saving.isSome s.part.lastSave s.part.unsaved)))

/-! ### Orders, answers, recovery, locks, dispatch (03) -/

/-- An order goes out: the mover's slot is ISSUED with the next order tag and the timeout in force, the counter moves on, and
the order's target place is claimed for the wafer it carries. Nothing else changes. That the tag is the counter's value before
its step is the model's choice (log 26). The timeout is the setting of the order's mover, for a lock that of PUMP or VENT, in
seconds; the target of a PICK is the blade or TRANSFER_ARM, of a PLACE its place; no other order has one. When an event has
settled its lots and records, the orders the state allows go out, mover by mover in the model's order (log 5), in which the
return locks come before the AR's admission (log 10). MOVE_SITE and MOVE_LOAD name no wafer, a REVIEWED one on the STAGE
neither (the model's reading: log 12). The ST, IDLE in an ACTIVE session with its site in flight MOVING, gets that site's
MOVE_SITE and is not at load; the AL, IDLE under a wafer in ALIGNING that no order names, ALIGN with the recipe's read mark.
The VR, IDLE, places the wafer on TRANSFER_ARM on the empty STAGE at load, or TO_LOCK into its empty return lock at VACUUM;
picks the REVIEWED wafer from the STAGE at load when its return lock is at VACUUM and the arm empty; or, stage and arm empty,
picks a READY wafer, or one whose pick was recovered, from its lock, which makes it TO_STAGE, LOCK_A first (log 19). The ST,
IDLE and not at load, gets MOVE_LOAD when the session is IDLE or the wafer on the STAGE REVIEWED, and the STAGE is empty or
that wafer has its return lock. Otherwise the mover gets nothing and nothing changes. -/
def Obligations.OrderGoesOut : Prop :=
  (∀ (m : Mover) (k : OrderKind) (t : Option Nat) (c : Part),
    let d := issueOrder m k t c
    d = { c with orders := d.orders, orderCounter := c.orderCounter + 1#16, places := d.places } ∧
    d.slotOf m = .issued ⟨k, c.orderCounter, t, some (orderTimeoutMs c.settings m k)⟩ ∧
    (∀ j, j ≠ m → d.slotOf j = c.slotOf j) ∧
    ∀ q, d.places.get q =
      if k.target? = some q ∧ t ≠ none then { c.places.get q with claim := t } else c.places.get q) ∧
  (∀ (g : Settings) (blade : Blade) (at' : ArEnd) (q : Place) (readId : Bool) (x y : Int) (k : LockId),
    (∀ o ∈ [OrderKind.arPick blade at', .arPlace blade at'], orderTimeoutMs g .ar o = g.arTimeout * 1000) ∧
    (∀ o ∈ [OrderKind.vrPick q, .vrPlace q], orderTimeoutMs g .vr o = g.vrTimeout * 1000) ∧
    orderTimeoutMs g .al (.align readId) = g.alTimeout * 1000 ∧
    orderTimeoutMs g k.mover .pump = g.pumpTimeout * 1000 ∧ orderTimeoutMs g k.mover .vent = g.ventTimeout * 1000 ∧
    (∀ o ∈ [OrderKind.moveSite x y, .moveLoad], orderTimeoutMs g .st o = g.stTimeout * 1000) ∧
    (OrderKind.arPick blade at').target? = some blade.place ∧ (OrderKind.arPlace blade (.place q)).target? = some q ∧
    (OrderKind.vrPick q).target? = some .transferArm ∧ (OrderKind.vrPlace q).target? = some q ∧
    (∀ port n, (OrderKind.arPlace blade (.slot port n)).target? = none) ∧
    ∀ o ∈ [OrderKind.align readId, .pump, .vent, .moveSite x y, .moveLoad], o.target? = none) ∧
  (∀ c : Part,
    let locked := lockWork (lockWork (issueMoveSite (settleLots c)) .a) .b
    let returned := returnWork (returnWork (alignWork locked) .stage) .transferArm
    settle c = moveLoadWork (ventWork (ventWork (vrWork (arWork returned)) .a) .b)) ∧
  ∀ c : Part,
    let moving (e : SiteEntry) : Prop := c.slotOf .st = .idle ∧ c.session.state = .active ∧ ∃ t n i slot,
      c.session.wafer = some t ∧ c.session.inFlight = some n ∧ c.site? t n = some (i, slot, e) ∧ e.state = .moving
    let aligning (t : Nat) (w : Wafer) : Prop :=
      c.slotOf .al = .idle ∧ Lies c .aligner t w ∧ w.phase = .aligning ∧ ¬ Named c t
    let placing (k : OrderKind) (t : Nat) : Prop := c.slotOf .vr = .idle ∧ ∃ w, Lies c .transferArm t w ∧
      ((w.phase = .toStage ∧ EmptyPlace c .stage ∧ c.atLoad = true ∧ k = .vrPlace .stage) ∨
      (w.phase = .toLock ∧ ∃ j, Reserved c t .returning j ∧ (c.lock j).state = .vacuum ∧ EmptyPlace c j.place ∧
        k = .vrPlace j.place))
    let leaving (t : Nat) : Prop := c.slotOf .vr = .idle ∧ ∃ w j, Lies c .stage t w ∧ w.phase = .reviewed ∧
      c.atLoad = true ∧ EmptyPlace c .transferArm ∧ Reserved c t .returning j ∧ (c.lock j).state = .vacuum
    let coming (j : LockId) (t : Nat) (w : Wafer) : Prop := c.slotOf .vr = .idle ∧ EmptyPlace c .stage ∧
      EmptyPlace c .transferArm ∧ (c.lock j).state = .vacuum ∧ Lies c j.place t w ∧ (w.phase = .ready ∨ w.phase = .toStage)
    let reviewed (t : Nat) : Prop := ∃ w, Lies c .stage t w ∧ w.phase = .reviewed
    let called : Prop := c.slotOf .st = .idle ∧ c.atLoad = false ∧ (c.session.state = .idle ∨ ∃ t, reviewed t) ∧
      (EmptyPlace c .stage ∨ ∃ t k, reviewed t ∧ Reserved c t .returning k)
    (∀ e, moving e → issueMoveSite c = { issueOrder .st (.moveSite e.x e.y) none c with atLoad := false }) ∧
    ((∀ e, ¬ moving e) → issueMoveSite c = c) ∧
    (∀ t w, aligning t w → alignWork c = issueOrder .al (.align (c.recipeOf w.lot).readId) (some t) c) ∧
    ((∀ t w, ¬ aligning t w) → alignWork c = c) ∧
    (∀ k t, placing k t → vrWork c = issueOrder .vr k (some t) c) ∧
    (∀ t, leaving t → vrWork c = issueOrder .vr (.vrPick .stage) (some t) c) ∧
    (∀ j t w, coming j t w → (j = .b → ∀ u x, ¬ coming .a u x) → vrWork c = issueOrder .vr (.vrPick j.place) (some t)
      { c with wafers := c.wafers.set t (some { w with phase := .toStage }) }) ∧
    ((∀ k t, ¬ placing k t) → (∀ t, ¬ leaving t) → (∀ j t w, ¬ coming j t w) → vrWork c = c) ∧
    (called → moveLoadWork c = issueOrder .st .moveLoad none c) ∧ (¬ called → moveLoadWork c = c)

/-- A COMPLETE or FAULT is late when its mover's slot holds no ISSUED order with its tag: it records LATE_COMPLETION and
counts LATE_POSTS and changes nothing else. A FAULT for the ISSUED order, and the expiry of its timer, fault the slot, mark
the order's wafer uncertain, record the error and count MOVE_FAULTS, and change nothing else. An expiry with no order ISSUED
changes nothing (log 2). -/
def Obligations.LateAndFailedAnswers : Prop :=
  ∀ (s : State) (m : Mover) (tag : Half) (text : Option Text) (code : Byte),
    let counted (k : Statistic) : Stats := s.part.stats.set k (s.part.stats.get k + 1#32)
    let late (d : ErrorDetail) : State :=
      withPart s { recordError .lateCompletion d s.part with stats := counted .latePosts }
    let found : FoundSlot :=
      match s.part.slotOf m with
      | .idle => .idle
      | .issued _ => .otherTag
      | .faulted _ _ => .faulted
    let faulted (o : Order) (cause : SlotCause) : Part := { s.part with
      orders := s.part.orders.set m (.faulted { o with timer := none } cause)
      stats := counted .moveFaults
      wafers := match o.wafer with
        | none => s.part.wafers
        | some t => match s.part.wafer? t with
          | none => s.part.wafers
          | some w => s.part.wafers.set t (some { w with uncertain := true }) }
    ((∀ o, s.part.slotOf m = .issued o → o.tag ≠ tag) →
      exec (.complete m tag text) s = .next (late (.lateComplete m tag found)) ∧
      exec (.fault m tag code) s = .next (late (.lateFault m tag code found))) ∧
    (∀ o, s.part.slotOf m = .issued o →
      exec (.fault m o.tag code) s = .next (withPart s
        (recordError .moverFault (.moverFault m o.kind o.tag o.wafer code) (faulted o (.fault code)))) ∧
      exec (.orderTimeout m) s = .next (withPart s
        (recordError .moverTimeout (.moverTimeout m o.kind o.tag o.wafer) (faulted o .timeout)))) ∧
    ((∀ o, s.part.slotOf m ≠ .issued o) → exec (.orderTimeout m) s = .next s)

/-- A COMPLETE with the tag of the ISSUED order is applied: the slot becomes IDLE, MOVES_COMPLETED is counted, the order's
effect follows and then whatever the new state allows. The effect of a PICK or PLACE: the wafer leaves its source and is the
occupant of its target; home, it has no place. A slot PICK makes it ALIGNING, a PICK from the STAGE TO_LOCK, a PLACE by the VR
into a lock VENTING with its RETURN reservation gone. PUMP ends in VACUUM with its wafer READY, VENT in ATMOSPHERE with its
wafer RETURNING, MOVE_LOAD at load. A PLACE onto the STAGE makes the wafer of an aborted lot REVIEWED with no session; any
other is REVIEWING and its session begins, FORWARD with no row, cursor or site, the focus map and reference cleared, SESSION
raised: PAUSED under HOLD.N, else ACTIVE and walking. ALIGN keeps a read of 1..24 characters that the order asked for (log 13);
it passes the wafer to WAIT_LOCK, or where the recipe reads IDs, the slot map expects one and the read is another or none,
gives it outcome ID_MISMATCH and phase RETURNING, records the error and skips its PENDING sites; for a wafer of an aborted lot
no check is made. A MOVE_SITE takes the site in flight from MOVING to FOCUSING with a PREDICTED request, under PAUSING back to
PENDING; without a MOVING site in flight it changes nothing. -/
def Obligations.CompletionIsApplied : Prop :=
  (∀ (s : State) (m : Mover) (o : Order) (text : Option Text), s.part.slotOf m = .issued o →
    let freed := { s.part with
      orders := s.part.orders.set m .idle
      stats := s.part.stats.set .movesCompleted (s.part.stats.get .movesCompleted + 1#32) }
    exec (.complete m o.tag text) s = .next (withPart s (settle (applyCompletion m o text freed)))) ∧
  ∀ (c : Part) (m : Mover) (o : Order) (text : Option Text),
    let d := applyCompletion m o text c
    (∀ t w source target, o.wafer = some t → c.wafer? t = some w → o.kind.target? = some target →
      (o.kind.source? = some source ∨ (o.kind.source? = none ∧ source = target)) →
      d.places.get target = ⟨some t, none⟩ ∧ (d.wafer? t).map (·.place) = some (some target) ∧
      (source ≠ target → d.places.get source = { c.places.get source with occupant := none }) ∧
      ∀ q, q ≠ target → q ≠ source → d.places.get q = c.places.get q) ∧
    (∀ t w, o.wafer = some t → c.wafer? t = some w →
      let wafer (x : Wafer) : List (Option Wafer) := c.wafers.set t (some x)
      let carried (x : Wafer) : Prop := d = { c with places := d.places, wafers := wafer x }
      (∀ blade port n, o.kind = .arPick blade (.slot port n) →
        carried { w with place := some blade.place, phase := .aligning }) ∧
      (∀ blade p, o.kind = .arPick blade (.place p) → carried { w with place := some blade.place }) ∧
      (∀ blade p, o.kind = .arPlace blade (.place p) → carried { w with place := some p }) ∧
      (∀ p, o.kind = .vrPick p →
        carried { w with place := some .transferArm, phase := if p = .stage then .toLock else w.phase }) ∧
      (∀ k, o.kind = .vrPlace (LockId.place k) →
        d.wafers = wafer { w with place := some (LockId.place k), phase := .venting } ∧
        d.lock k = { c.lock k with reservation :=
          if (c.lock k).reservation = some ⟨t, .returning⟩ then none else (c.lock k).reservation } ∧
        d.lock k.other = c.lock k.other ∧
        d = { c with places := d.places, wafers := d.wafers, lockA := d.lockA, lockB := d.lockB }) ∧
      ∀ l, o.kind = .vrPlace .stage → c.lot? w.lot = some l →
        let onStage (ph : Phase) : Part := { c with
          places := (c.places.set .transferArm { c.places.get .transferArm with occupant := none }).set .stage ⟨some t, none⟩
          wafers := wafer { w with place := some .stage, phase := ph } }
        let begun := raiseEvent .image .session { onStage .reviewing with
          session := ⟨.active, some t, none, .forward, none, none⟩, focusMap := [], focusReference := none }
        (l.aborted = true → d = onStage .reviewed) ∧
        (l.aborted = false → l.hold = .holdN → d = { begun with session := { begun.session with state := .paused } }) ∧
        (l.aborted = false → l.hold ≠ .holdN → d = walk begun)) ∧
    (∀ t w blade port n, o.wafer = some t → c.wafer? t = some w → o.kind = .arPlace blade (.slot port n) →
      d.places = c.places.set blade.place { c.places.get blade.place with occupant := none } ∧
      d.wafer? t = some { w with place := none, phase := .home }) ∧
    (∀ k, m = LockId.mover k →
      let turned (x : LockState) (ph : Phase) : Prop := d.lock k = { c.lock k with state := x } ∧
        d.lock k.other = c.lock k.other ∧ d = { c with lockA := d.lockA, lockB := d.lockB, wafers := d.wafers } ∧
        (o.wafer = none → d.wafers = c.wafers) ∧
        ∀ t w, o.wafer = some t → c.wafer? t = some w → d.wafers = c.wafers.set t (some { w with phase := ph })
      (o.kind = .pump → turned .vacuum .ready) ∧ (o.kind = .vent → turned .atmosphere .returning)) ∧
    (o.kind = .moveLoad → d = { c with atLoad := true }) ∧
    (∀ t w readId, o.wafer = some t → c.wafer? t = some w → o.kind = .align readId →
      let read := text.filter (fun x => readId && decide (1 ≤ x.length ∧ x.length ≤ 24))
      let kept := { w with readId := if read = none then w.readId else read }
      let put (x : Wafer) : Part := { c with wafers := c.wafers.set t (some x) }
      let expects (x : Text) : Prop := (c.recipeOf w.lot).readId = true ∧
        ∃ map e, (c.carrier w.lot).map = some map ∧ map[w.slot - 1]? = some e ∧ e.expected = some x
      let pending := (c.entries w.lot w.slot).countP (fun e => e.state == .pending)
      (c.lotAborted w.lot = true → d = put kept) ∧
      (c.lotAborted w.lot = false → (∀ x, expects x → read = some x) → d = put { kept with phase := .waitLock }) ∧
      ∀ x l, c.lotAborted w.lot = false → expects x → read ≠ some x → c.lot? w.lot = some l →
        d.wafers = c.wafers.set t (some { kept with outcome := some .idMismatch, phase := .returning }) ∧
        d.errors = (recordError .idMismatch (.idMismatch l.id w.slot x read) c).errors ∧
        d.entries w.lot w.slot = (c.entries w.lot w.slot).map (fun e => if e.state = .pending then
          { e with state := .skipped, captureNo := none, reason := some .idMismatch } else e) ∧
        OnlyList w.lot w.slot c d ∧
        d.stats = c.stats.set .sitesSkipped (c.stats.get .sitesSkipped + BitVec.ofNat 32 pending)) ∧
    ∀ x y, o.kind = .moveSite x y →
      (c.session.wafer = none ∨ c.session.inFlight = none → d = c) ∧
      ∀ t n, c.session.wafer = some t → c.session.inFlight = some n →
        (c.site? t n = none → d = c) ∧
        ∀ i slot e, c.site? t n = some (i, slot, e) →
          (e.state ≠ .moving → d = c) ∧
          (e.state = .moving → c.session.state = .active → ∃ (lists : List RevisitList) (r : FocusRequest),
            let there := { c with lists := lists }
            there.site? t n = some (i, slot, { e with state := .focusing }) ∧ OnlySites i slot [n] c there ∧
            d = takeFocusRequest .predicted e.x e.y 0 there ∧
            d.focusRequest = some r ∧ r.kind = .predicted ∧ r.x = e.x ∧ r.y = e.y) ∧
          (e.state = .moving → c.session.state = .pausing → ∃ lists : List RevisitList,
            d = { c with lists := lists, session := { c.session with state := .paused, inFlight := none } } ∧
            d.site? t n = some (i, slot, { e with state := .pending, acceptedZ := none }) ∧ OnlySites i slot [n] c d)

/-- MOVER_RECOVER: the mover (AR, VR, AL, LOCK_A, LOCK_B, ST by 0 to 5) and the disposition, the slot, then REMOVED against the
order. An accepted recovery makes the slot IDLE and clears the wafer's uncertain mark. AT_SOURCE gives up the target's claim, a
lock goes back to where its PUMP or VENT began, its reservation kept, the stage is not at load, and an ALIGN or a PLACE home
changes nothing; so the wafer keeps its place, phase and mark. AT_TARGET applies the order's completion, without a wafer ID
text and uncounted. REMOVED takes the wafer home, not exposed, with outcome HANDLING_FAULT: its place's occupant, the target's
claim and its reservations go, a lock that was pumping or venting is at ATMOSPHERE, and its PENDING sites are skipped with
reason HANDLING. A MOVE_SITE under AT_SOURCE and AT_TARGET alike leaves the stage not at load and returns a MOVING site in
flight to PENDING: an ACTIVE session walks on, a PAUSING one is PAUSED. The empty body of a refusal is the model's choice (log
28). -/
def Obligations.MoverIsRecovered : Prop :=
  allMovers = [.ar, .vr, .al, .la, .lb, .st] ∧
  (∀ (s : State) (p : PortId) (tag : Half) (b e : Byte), TakesNow s p .moverRecover →
    let out := exec (.moverRecover p tag b e) s
    let refused (st : Status) := answered s p 24#8 tag s.part st .empty
    (5 < b.toNat ∨ 2 < e.toNat → out = .next (refused .badField)) ∧
    ∀ m, allMovers[b.toNat]? = some m → e.toNat ≤ 2 →
      ((∀ o cause, s.part.slotOf m ≠ .faulted o cause) → out = .next (refused .refusedState)) ∧
      ∀ o cause, s.part.slotOf m = .faulted o cause →
        let noRemoval := e = 2#8 ∧ (m = .st ∨ o.wafer = none)
        let disposition : Disposition := if e = 0#8 then .atSource else if e = 1#8 then .atTarget else .removed
        let freed := { s.part with
          orders := s.part.orders.set m .idle
          wafers := match o.wafer with
            | none => s.part.wafers
            | some t => match s.part.wafer? t with
              | none => s.part.wafers
              | some w => s.part.wafers.set t (some { w with uncertain := false }) }
        (noRemoval → out = .next (refused .badField)) ∧
        (¬ noRemoval → out = .next
          (answered s p 24#8 tag (settle (applyDisposition disposition m o freed)) .ok .empty))) ∧
  ∀ (m : Mover) (o : Order) (c : Part),
    ((∀ x y, o.kind ≠ .moveSite x y) → applyDisposition .atTarget m o c = applyCompletion m o none c) ∧
    (∀ k, m = LockId.mover k →
      let d := applyDisposition .atSource m o c
      let back (x : LockState) : Prop := d.lock k = { c.lock k with state := x } ∧ d.lock k.other = c.lock k.other ∧
        d = { c with lockA := d.lockA, lockB := d.lockB }
      (o.kind = .pump → back .atmosphere) ∧ (o.kind = .vent → back .vacuum)) ∧
    ((∃ readId, o.kind = .align readId) ∨ (∃ blade port n, o.kind = .arPlace blade (.slot port n)) →
      applyDisposition .atSource m o c = c) ∧
    (∀ target, o.kind.target? = some target →
      applyDisposition .atSource m o c =
        { c with places := c.places.set target { c.places.get target with claim := none } }) ∧
    (∀ t w, o.wafer = some t → c.wafer? t = some w →
      let d := applyDisposition .removed m o c
      d.wafer? t = some { w with place := none, phase := .home, exposed := false, outcome := some .handlingFault } ∧
      (∀ q, w.place = some q → (d.places.get q).occupant = none) ∧ (d.reservedFor t .inbound) = none ∧
      (d.reservedFor t .returning) = none ∧
      (∀ target, o.kind.target? = some target → (d.places.get target).claim = none) ∧
      (∀ q, w.place ≠ some q → o.kind.target? ≠ some q → d.places.get q = c.places.get q) ∧
      (∀ k, m = LockId.mover k → o.kind = .pump ∨ o.kind = .vent → (d.lock k).state = .atmosphere) ∧
      d.entries w.lot w.slot = (c.entries w.lot w.slot).map (fun e => if e.state = .pending then
        { e with state := .skipped, captureNo := none, reason := some .handling } else e) ∧
      OnlyList w.lot w.slot c d ∧
      d.stats = c.stats.set .sitesSkipped (c.stats.get .sitesSkipped +
        BitVec.ofNat 32 ((c.entries w.lot w.slot).countP (fun e => e.state == .pending)))) ∧
    (o.kind = .moveLoad →
      applyDisposition .atSource m o c = { c with atLoad := false } ∧
      applyDisposition .atTarget m o c = { c with atLoad := true }) ∧
    ∀ x y, o.kind = .moveSite x y → ∀ disposition ∈ [Disposition.atSource, .atTarget],
      let d := applyDisposition disposition m o c
      let away := { c with atLoad := false }
      ((∀ t n i slot e, c.session.wafer = some t → c.session.inFlight = some n → c.site? t n = some (i, slot, e) →
        e.state ≠ .moving) → d = away) ∧
      ∀ t n i slot e, c.session.wafer = some t → c.session.inFlight = some n → c.site? t n = some (i, slot, e) →
        e.state = .moving → ∃ lists : List RevisitList,
          let returned := { away with lists := lists, session := { c.session with inFlight := none } }
          returned.site? t n = some (i, slot, { e with state := .pending, acceptedZ := none }) ∧
          OnlySites i slot [n] c returned ∧
          (c.session.state = .active → d = walk returned) ∧
          (c.session.state = .pausing → d = { returned with session := { returned.session with state := .paused } })

/-- The locks' work. A wafer that needs a return lock takes an empty lock at VACUUM, else an empty lock at ATMOSPHERE whose
mover is IDLE, which is then pumped; LOCK_A before LOCK_B; else it waits. It needs one when it is REVIEWED on the STAGE or
TO_LOCK on TRANSFER_ARM and has none. PUMP makes the lock PUMPING and a wafer inside vacuum-exposed, its INBOUND reservation
gone; VENT makes it VENTING. A lock whose mover is IDLE is pumped at ATMOSPHERE for a wafer inside in PUMPING of a lot not
aborted, or without an occupant for its RETURN reservation, whose PUMP was recovered; it is vented at VACUUM for a wafer inside
in VENTING. An empty lock at VACUUM whose mover is IDLE is vented when a wafer on the ALIGNER is in WAIT_LOCK, no lock is empty
at ATMOSPHERE, the lock would admit the wafer and no wafer needs a return lock; LOCK_A and then LOCK_B are asked (log 11).
Otherwise nothing changes. A lock is empty without an occupant, a claim or a reservation. -/
def Obligations.ReturnLockIsReserved : Prop :=
  (∀ (c : Part) (k : LockId) (x : LockState) (t : Nat) (p : Purpose),
    ((c.lock k).state = x ∧ c.lockEmpty k = true ↔ EmptyLock c x k) ∧ (c.reservedFor t p = some k ↔ Reserved c t p k) ∧
    (c.reservedFor t p = none ↔ ∀ j, (c.lock j).reservation ≠ some ⟨t, p⟩)) ∧
  (∀ (c : Part) (t : Nat),
    let at' (x : LockState) (k : LockId) : Prop := (c.lock k).state = x ∧ c.lockEmpty k = true
    let pumpable (k : LockId) : Prop := at' .atmosphere k ∧ c.slotOf k.mover = .idle
    let reserved (k : LockId) := setReservation k (some ⟨t, .returning⟩) c
    let pumped (k : LockId) := issuePump k none (reserved k)
    (at' .vacuum .a → reserveReturn t c = reserved .a) ∧
    (¬ at' .vacuum .a → at' .vacuum .b → reserveReturn t c = reserved .b) ∧
    (¬ at' .vacuum .a → ¬ at' .vacuum .b → pumpable .a → reserveReturn t c = pumped .a) ∧
    (¬ at' .vacuum .a → ¬ at' .vacuum .b → ¬ pumpable .a → pumpable .b → reserveReturn t c = pumped .b) ∧
    (¬ at' .vacuum .a → ¬ at' .vacuum .b → ¬ pumpable .a → ¬ pumpable .b → reserveReturn t c = c) ∧
    ∀ k, at' .atmosphere k → ((pumped k).lock k).state = .pumping ∧
      ((pumped k).lock k).reservation = some ⟨t, .returning⟩ ∧
      ∃ o, (pumped k).slotOf k.mover = .issued o ∧ o.kind = .pump) ∧
  (∀ (c : Part) (q : Place), (∀ t, NeedsReturnLock c q t → returnWork c q = reserveReturn t c) ∧
    ((∀ t, ¬ NeedsReturnLock c q t) → returnWork c q = c)) ∧
  (∀ (c : Part) (k : LockId),
    let ordered (d : Part) (kind : OrderKind) (t : Option Nat) (x : Lock) : Prop := d.lock k = x ∧
      d.lock k.other = c.lock k.other ∧
      d = { issueOrder k.mover kind t c with lockA := d.lockA, lockB := d.lockB, wafers := d.wafers }
    (ordered (issuePump k none c) .pump none { c.lock k with state := .pumping } ∧
      (issuePump k none c).wafers = c.wafers) ∧
    (∀ t w, c.wafer? t = some w →
      let d := issuePump k (some t) c
      ordered d .pump (some t) ⟨.pumping, if (c.lock k).reservation = some ⟨t, .inbound⟩ then none
        else (c.lock k).reservation⟩ ∧ d.wafers = c.wafers.set t (some { w with exposed := true })) ∧
    ∀ t,
      let d := issueVent k t c
      ordered d .vent t { c.lock k with state := .venting } ∧ d.wafers = c.wafers) ∧
  (∀ (c : Part) (k : LockId),
    let pump (t : Nat) : Prop := c.slotOf k.mover = .idle ∧ (c.lock k).state = .atmosphere ∧
      ∃ w, Lies c k.place t w ∧ w.phase = .pumping ∧ c.lotAborted w.lot = false
    let again : Prop := c.slotOf k.mover = .idle ∧ (c.lock k).state = .atmosphere ∧
      (c.places.get k.place).occupant = none ∧ ∃ t, (c.lock k).reservation = some ⟨t, .returning⟩
    let vent (t : Nat) : Prop := c.slotOf k.mover = .idle ∧ (c.lock k).state = .vacuum ∧
      ∃ w, Lies c k.place t w ∧ w.phase = .venting
    (∀ t, pump t → lockWork c k = issuePump k (some t) c) ∧ (again → lockWork c k = issuePump k none c) ∧
    (∀ t, vent t → lockWork c k = issueVent k (some t) c) ∧
    ((∀ t, ¬ pump t) → ¬ again → (∀ t, ¬ vent t) → lockWork c k = c)) ∧
  ∀ (c : Part) (k : LockId),
    let idle : Prop := EmptyLock c .vacuum k ∧ c.slotOf k.mover = .idle
    let wanted : Prop := (∃ t w, Lies c .aligner t w ∧ w.phase = .waitLock) ∧ (∀ j, ¬ EmptyLock c .atmosphere j) ∧
      WouldAdmit c k ∧ ∀ q t, ¬ NeedsReturnLock c q t
    (idle → wanted → ventWork c k = issueVent k none c) ∧ (¬ (idle ∧ wanted) → ventWork c k = c)

/-- The AR's work and the dispatch arbiter's choice. The AR, when IDLE, takes the ready work of the highest preference, 1 to 6
in R52's order, LOCK_A before LOCK_B in 3 and 5: the wafer on LOWER_BLADE goes home; the one on UPPER_BLADE goes to its target;
a vacuum-exposed wafer in RETURNING is picked from its lock at ATMOSPHERE; the wafer on the ALIGNER is picked when it is
RETURNING or admitted, and admission gives its lock the INBOUND reservation and makes it PUMPING; a wafer in RETURNING that is
not exposed is picked from its lock; a slot pick that was recovered is made again (log 9). With none of these, UPPER_BLADE and
ALIGNER empty and a record free, the best offer is granted: the free record with the lowest tag, in OUTBOUND_FROM_SLOT, the
entry DISPATCHED, the slot pick out, and a lot with no WAITING entry left DRAINING, LOT_STATE raised. Otherwise nothing
changes. The offer taken is made by a RUNNING lot that is not aborted and not held, and no other lot with an offer is preferred
to it: HOT before NORMAL, then the lower start order number, then the lower carrier port. It makes no choice only when no lot
makes an offer. Such a lot always offers its first WAITING entry, in selection order, whose list is sealed and not empty. The
inbound claim count is the vacuum-inbound count and the INBOUND reservations together. -/
def Obligations.DispatchChoosesTheBestOffer : Prop :=
  (∀ c : Part,
    (∀ t, c.vacuumInbound t = true ↔ VacuumInbound c t) ∧ c.vacuumInboundCount = allTags.countP c.vacuumInbound ∧
    c.inboundClaimCount = c.vacuumInboundCount +
      [LockId.a, .b].countP (fun k => (c.lock k).reservation.map (·.purpose) == some .inbound)) ∧
  (∀ c : Part,
    let noneBefore (n : Nat) : Prop := ∀ m, m < n → ∀ k t w, ¬ ArReady c m k t w
    let granted (i : LoadPort) (slot t : Nat) : Prop := noneBefore 7 ∧ EmptyPlace c .upperBlade ∧ EmptyPlace c .aligner ∧
      (t ∈ allTags ∧ c.wafer? t = none ∧ ∀ u, u < t → c.wafer? u ≠ none) ∧ c.bestOffer = some (i, slot)
    (c.slotOf .ar ≠ .idle → arWork c = c) ∧
    (c.slotOf .ar = .idle →
      (∀ n k t w, ArReady c n k t w → noneBefore n → w.phase ≠ .waitLock ∨ n ≠ 4 →
        arWork c = issueOrder .ar k (some t) c) ∧
      (∀ k t w j, ArReady c 4 k t w → noneBefore 4 → w.phase = .waitLock → Admits c j →
        arWork c = issueOrder .ar k (some t) (setReservation j (some ⟨t, .inbound⟩)
          { c with wafers := c.wafers.set t (some { w with phase := .pumping }) })) ∧
      (∀ i slot t l, granted i slot t → c.lot? i = some l →
        let taken : Lot := { l with selection := l.selection.map (fun e =>
          if e.slot = slot then { e with status := .dispatched } else e) }
        let record : Wafer :=
          { lot := i, slot, readId := none, place := none, phase := .outboundFromSlot, exposed := false
            uncertain := false, outcome := none }
        let picked (x : Lot) : Part := issueOrder .ar (.arPick .upper (.slot i slot)) (some t)
          { c with wafers := c.wafers.set t (some record), lots := c.lots.set i (some x) }
        ((∃ e ∈ taken.selection, e.status = .waiting) → arWork c = picked taken) ∧
        ((∀ e ∈ taken.selection, e.status ≠ .waiting) →
          arWork c = raiseLotState (picked { taken with state := .draining }))) ∧
      (noneBefore 7 → (∀ i slot t, ¬ granted i slot t) → arWork c = c))) ∧
  ∀ c : Part,
    (c.bestOffer = none → ∀ i, c.offer i = none) ∧
    (∀ i slot, c.offer i = some slot → ∃ l e r, c.lot? i = some l ∧ l.state = .running ∧ l.aborted = false ∧
      l.hold = .none ∧ e ∈ l.selection ∧ e.slot = slot ∧ e.status = .waiting ∧ c.list? i slot = some r ∧
      r.sealed = true ∧ r.entries ≠ []) ∧
    (∀ i l before e after, c.lot? i = some l → l.state = .running → l.aborted = false → l.hold = .none →
      let ready (x : Selection) : Prop :=
        x.status = .waiting ∧ ∃ r, c.list? i x.slot = some r ∧ r.sealed = true ∧ r.entries ≠ []
      l.selection = before ++ e :: after → (∀ x ∈ before, ¬ ready x) → ready e → c.offer i = some e.slot) ∧
    ∀ i slot, c.bestOffer = some (i, slot) → c.offer i = some slot ∧ ∃ l, c.lot? i = some l ∧
      ∀ j slot' m, j ≠ i → c.offer j = some slot' → c.lot? j = some m →
        (l.priority = .hot ∧ m.priority = .normal) ∨
        (l.priority = m.priority ∧ (l.startOrder.getD 0 < m.startOrder.getD 0 ∨
          (l.startOrder.getD 0 = m.startOrder.getD 0 ∧ i.num < j.num)))

/-! ### Sessions and focus (04, 05) -/

/-- A lot's hold is HOLD.N when a source has scope N, HOLD.W when there is a source and none has scope N, else NONE. HOLD.N
reaches an ACTIVE session by the state of its site in flight: MOVING and CAPTURING make it PAUSING and go on; FOCUSING
abandons the focus request, CAPTURE_WAIT withdraws the waiting site, and both return the site to PENDING without its accepted
z, its attempts kept, and pause the session. A session in another state stays as it is. -/
def Obligations.HoldsAreDerivedAndPause : Prop :=
  (∀ l : Lot,
    let source (sc : Scope) := l.holdTool = some sc ∨ l.holdAuto = some sc ∨ l.holdExc = some sc
    (l.hold = .holdN ↔ source .n) ∧ (l.hold = .holdW ↔ source .w ∧ ¬ source .n) ∧
      (l.hold = .none ↔ l.holdTool = none ∧ l.holdAuto = none ∧ l.holdExc = none)) ∧
  ∀ c : Part,
    (c.session.state ≠ .active → pauseSession c = c) ∧
    ∀ t n i slot e, c.session.state = .active → c.session.wafer = some t → c.session.inFlight = some n →
      c.site? t n = some (i, slot, e) →
      let d := pauseSession c
      let paused := { c.session with state := .paused, inFlight := none }
      let returned := some (i, slot, { e with state := .pending, acceptedZ := none })
      (e.state = .moving ∨ e.state = .capturing → d = { c with session := { c.session with state := .pausing } }) ∧
      (e.state = .focusing → d.session = paused ∧ d.site? t n = returned ∧ OnlySites i slot [n] c d ∧
        d = { c with converter := .idle, focusRequest := none, session := d.session, lists := d.lists }) ∧
      (e.state = .captureWait → d.session = paused ∧ d.site? t n = returned ∧ OnlySites i slot [n] c d ∧
        d = { c with waitingSite := none, session := d.session, lists := d.lists })

/-- The walk takes the first entry that its search meets, whatever the search meets. It meets PENDING entries of the current
row and of the later rows only, each in its place of the list, the rows ascending, the entries of a row in the direction the
row is walked in. Of the current row it meets exactly those at the cursor or past it in the present direction; of the later
rows all. The first row a session enters is walked FORWARD, each later row entered in the opposite direction to the row before.
With no sampling floor in force, or at a priority at or above it, the entry becomes MOVING and the site in flight. With the
floor in force, each entry met below it before the first that is not becomes SKIPPED(SAMPLED_DOWN) and is counted, and the
search goes on from there. When the search meets nothing more the session ends: the wafer is REVIEWED, with outcome ABORTED
when its lot is aborted, else PARTIAL when an entry of its list is SKIPPED or FAILED, else REVIEWED; the focus map is cleared,
the reference absent, the drive parked, SESSION raised, the record IDLE. Every other entry stays. -/
def Obligations.WalkTakesTheNextSite : Prop :=
  ∀ (c : Part) (t : Nat) (w : Wafer), c.session.wafer = some t → c.wafer? t = some w →
    let entries := c.entries w.lot w.slot
    let found := walkOrder c.session entries
    let floor := c.sessionRecipe.samplingFloor
    let took (k : Candidate) : Session := { c.session with
      row := some k.row, direction := k.direction, cursor := some k.position, inFlight := some k.entry.number }
    let outcome (d : Part) : WaferOutcome :=
      if c.lotAborted w.lot = true then .aborted
      else if ∃ e ∈ d.entries w.lot w.slot, e.state = .skipped ∨ e.state = .failed then .partialReview else .reviewed
    let ended (d : Part) : Prop := d.session = ⟨.idle, none, none, .forward, none, none⟩ ∧ d.focusMap = [] ∧
      d.focusReference = none ∧ d.drive = c.settings.parkZ ∧ .session ∈ rawSet d .image ∧
      d.wafers = c.wafers.set t (some { w with phase := .reviewed, outcome := some (outcome d) })
    (∀ k rest, found = k :: rest → (c.sampled w.lot w.slot = false ∨ floor ≤ k.entry.priority) →
      let d := walk c
      d.session = took k ∧ d = { c with session := d.session, lists := d.lists } ∧
      OnlySites w.lot w.slot [k.entry.number] c d ∧
      ∀ i slot e, c.site? t k.entry.number = some (i, slot, e) →
        d.site? t k.entry.number = some (i, slot, { e with state := .moving })) ∧
    (found = [] → walk c = sessionEnd c ∧ ended (walk c) ∧ (walk c).lists = c.lists) ∧
    (∀ skipped rest, c.sampled w.lot w.slot = true → (entries.map (·.number)).Nodup → found = skipped ++ rest →
      (∀ k ∈ skipped, k.entry.priority < floor) → (∀ k more, rest = k :: more → floor ≤ k.entry.priority) →
      let d := walk c
      d.stats = c.stats.set .sitesSkipped (c.stats.get .sitesSkipped + BitVec.ofNat 32 skipped.length) ∧
      OnlySites w.lot w.slot ((skipped ++ rest.take 1).map (·.entry.number)) c d ∧
      (∀ k ∈ skipped, d.site? t k.entry.number = some (w.lot, w.slot,
        { k.entry with state := .skipped, captureNo := none, reason := some .sampledDown })) ∧
      (∀ k more, rest = k :: more → d.session = took k ∧
        d.site? t k.entry.number = some (w.lot, w.slot, { k.entry with state := .moving })) ∧
      (rest = [] → ended d)) ∧
    (∀ k ∈ found, k.entry.state = .pending ∧ k.entry.row = k.row ∧ 1 ≤ k.position ∧
      entries[k.position - 1]? = some k.entry ∧ ∀ r, c.session.row = some r → r ≤ k.row) ∧
    found.Pairwise (fun a b => a.row < b.row ∨ (a.row = b.row ∧ a.direction = b.direction ∧
      if a.direction = .forward then a.position < b.position else b.position < a.position)) ∧
    (∀ k rest, found = k :: rest → k.direction =
      match c.session.row with
      | none => .forward
      | some r => if k.row = r then c.session.direction
        else if c.session.direction = .forward then .backward else .forward) ∧
    (∀ before a b after, found = before ++ a :: b :: after → a.row < b.row → a.direction ≠ b.direction) ∧
    (∀ n e, entries[n]? = some e → e.state = .pending → (∀ r, c.session.row = some r → r < e.row) →
      ∃ k ∈ found, k.position = n + 1 ∧ k.entry = e) ∧
    ∀ n e cursor, entries[n]? = some e → e.state = .pending → c.session.row = some e.row →
      c.session.cursor = some cursor →
      ((∃ k ∈ found, k.position = n + 1 ∧ k.entry = e) ↔
        if c.session.direction = .forward then cursor ≤ n + 1 else n + 1 ≤ cursor)

/-- The converter's phases follow one another: SETTLING, ZERO, INTEGRATE, DEINTEGRATE; a map point that expires leaves the
map. Nothing else changes, and the end of a phase that the converter is not in changes nothing (log 2). -/
def Obligations.ConverterPhasesFollow : Prop :=
  ∀ (s : State) (r ms index : Nat),
    let at' (x : Converter) : State := withPart s { s.part with converter := x }
    (s.part.converter = .settling r ms → exec .settlingEnd s = .next (at' (.zero r))) ∧
    (s.part.converter = .zero r → exec .zeroEnd s = .next (at' (.integrate r))) ∧
    (s.part.converter = .integrate r → exec .integrateEnd s = .next (at' (.deintegrate r))) ∧
    ((∀ r ms, s.part.converter ≠ .settling r ms) → exec .settlingEnd s = .next s) ∧
    ((∀ r, s.part.converter ≠ .zero r) → exec .zeroEnd s = .next s) ∧
    ((∀ r, s.part.converter ≠ .integrate r) → exec .integrateEnd s = .next s) ∧
    exec (.mapPointExpiry index) s = .next
      (withPart s { s.part with focusMap := s.part.focusMap.take index ++ s.part.focusMap.drop (index + 1) })

/-- A conversion ends: its count, at most full scale, becomes the converter's result with the drive and the resolution, and
the request in progress takes it. Before the last step of a sweep the next step starts at its drive value, settling when the
value changes. A request begins by its kind: PREDICTED with a check at the nearest map point within the map radius, a sweep
around that point's z beyond it, around the nominal z with no point; RECHECK with a check at the accepted z against the
reference, 0 without one; NOMINAL with a sweep around the nominal z; FORCED around the z given, at most 65,535. A request in
progress is abandoned first. A check passes when the count meets the quality threshold and 8 times it is at least 7 times the
check reference: its z is accepted, and MAP_HITS counted for PREDICTED alone; else CHECKS_FAILED is counted and a sweep begins
around the check z. The last step of a sweep: too low fails with FOCUS_LOW; a peak at an edge is swept again around it once,
then fails with FOCUS_EDGE; else the z is accepted and its map point added. Each sweep is counted. Acceptance sets drive and
reference; the site takes the z and is CAPTURE_WAIT, handed over, and issued at once with a credit and a free record, else its
focus hold timer starts. A failure spends an attempt and removes the accepted z: below the limit the site stays FOCUSING with a
NOMINAL request, at it the site is FAILED with the reason and leaves flight. Of the sweep record, the check fields in a sweep
and the step index 0 in a check are the model's (logs 27, 30). -/
def Obligations.ConversionEnds : Prop :=
  let start (z : Nat) (c : Part) : Part := { c with
    drive := z
    converter := if z ≠ c.drive then .settling c.sessionRecipe.resolution c.settings.settleTime
      else match c.converter with
        | .settling r ms => .settling r ms
        | _ => .zero c.sessionRecipe.resolution }
  let count (k : Statistic) (f : LotCounters → LotCounters) (c : Part) : Part := { c with
    stats := c.stats.set k (c.stats.get k + 1#32)
    lots := match c.sessionLot with
      | none => c.lots
      | some i => match c.lot? i with
        | none => c.lots
        | some l => c.lots.set i (some { l with counters := f l.counters }) }
  let sweep (stage : FocusStage) (centre : Nat) (r : FocusRequest) (c : Part) : Part :=
    let z := stepDrive centre c.sessionRecipe.sweepSteps c.sessionRecipe.stepSize 1
    { start z (count .sweeps (fun k => { k with sweeps := min (k.sweeps + 1) 4294967295 }) c) with
      focusRequest := some { r with
        stage, checkZ := none, checkRef := none, centre := some centre, step := 1, counts := [], drives := [z]
        restarts := 0 } }
  (∀ (s : State) (raw res : Nat), s.part.converter = .deintegrate res →
    let n := min raw (fullScale res)
    ∃ t, exec (.conversionEnd raw) s = .next (withPart s t) ∧
      t = settle (takeCount n { s.part with converter := .idle, convResult := some ⟨n, s.part.drive, res⟩ }) ∧
      t.convResult = some ⟨n, s.part.drive, res⟩ ∧
      (s.part.focusRequest = none → t.converter = .idle ∧ t.drive = s.part.drive) ∧
      ∀ r, s.part.focusRequest = some r → r.stage ≠ .check → r.step < s.part.sessionRecipe.sweepSteps →
        let steps := s.part.sessionRecipe.sweepSteps
        let z := stepDrive (r.centre.getD 0) steps s.part.sessionRecipe.stepSize (r.step + 1)
        t.drive = z ∧
        t.converter = (if z = s.part.drive then .zero s.part.sessionRecipe.resolution
          else .settling s.part.sessionRecipe.resolution s.part.settings.settleTime) ∧
        t.focusRequest = some { r with
          step := r.step + 1, counts := r.counts ++ [n], drives := r.drives ++ [z], restarts := 0 }) ∧
  ([0, 1, 2, 3].map fullScale = [8192, 4096, 2048, 1024] ∧ ∀ r, threshold r .q0 = fullScale r / 2 ∧
    threshold r .q1 = fullScale r * 3 / 8 ∧ threshold r .q2 = fullScale r / 4 ∧ threshold r .q3 = fullScale r / 8) ∧
  (∀ (c : Part) (kind : FocusKind) (x y : Int) (z : Nat),
    let fresh := if c.focusRequest = none then c else { c with converter := .idle, focusRequest := none }
    let r : FocusRequest := { kind, x, y, stage := .sweep, checkZ := none, checkRef := none, centre := none, step := 0
                              counts := [], drives := [], restarts := 0 }
    let check (z ref : Nat) : Part := { start z fresh with
      focusRequest := some { r with stage := .check, checkZ := some z, checkRef := some ref } }
    let begun := takeFocusRequest kind x y z c
    (kind = .predicted → c.focusMap = [] → begun = sweep .sweep c.settings.nominalZ r fresh) ∧
    (∀ p, kind = .predicted → nearestPoint x y c.focusMap = some p →
      let near := (x - p.x) ^ 2 + (y - p.y) ^ 2 ≤ (c.sessionRecipe.mapRadius : Int) ^ 2
      (near → begun = check p.z p.sharpness) ∧ (¬ near → begun = sweep .sweep p.z r fresh)) ∧
    (kind = .recheck → begun = check z ((c.focusReference.map (·.sharpness)).getD 0)) ∧
    (kind = .nominal → begun = sweep .sweep c.settings.nominalZ r fresh) ∧
    (kind = .forced → begun = sweep .sweep (min z 65535) r fresh)) ∧
  (∀ (c : Part) (n : Nat) (r : FocusRequest), c.focusRequest = some r →
    let recipe := c.sessionRecipe
    let limit := threshold recipe.resolution recipe.quality
    let after := takeCount n c
    let answered := { c with focusRequest := none }
    (∀ z ref, r.stage = .check → r.checkZ = some z → r.checkRef = some ref →
      let hit := if r.kind = .predicted then
        count .mapHits (fun k => { k with mapHits := min (k.mapHits + 1) 4294967295 }) answered else answered
      (limit ≤ n → 7 * ref ≤ 8 * n →
        after = focusAccepted z n { hit with drive := z, focusReference := some ⟨z, n⟩ }) ∧
      (n < limit ∨ 8 * n < 7 * ref → after = sweep .sweep z r
        { c with stats := c.stats.set .checksFailed (c.stats.get .checksFailed + 1#32) })) ∧
    (r.stage ≠ .check → recipe.sweepSteps ≤ r.step →
      let verdict := evaluateSweep limit recipe.sweepSteps recipe.stepSize (r.counts ++ [n]) r.drives
      (verdict = .low → after = focusFailed .focusLow answered) ∧
      (∀ z, verdict = .edge z → r.stage = .sweep → after = sweep .resweep z r c) ∧
      (∀ z, verdict = .edge z → r.stage = .resweep → after = focusFailed .focusEdge answered) ∧
      ∀ z sharpness, verdict = .accept z sharpness → after = focusAccepted z sharpness { answered with
        drive := z, focusReference := some ⟨z, sharpness⟩
        focusMap := addMapPoint recipe.mapRadius ⟨r.x, r.y, z, sharpness, recipe.mapLifetime * 1000⟩ c.focusMap })) ∧
  ∀ (c : Part) (t n slot : Nat) (i : LoadPort) (e : SiteEntry), c.session.wafer = some t → c.session.inFlight = some n →
    c.site? t n = some (i, slot, e) →
    (∀ z sharpness, ∃ lists : List RevisitList,
      let waiting := { c with lists := lists, waitingSite := some ⟨t, n, sharpness, none⟩ }
      waiting.site? t n = some (i, slot, { e with acceptedZ := some z, state := .captureWait }) ∧
      OnlySites i slot [n] c waiting ∧
      (1 ≤ c.credits → c.captureLog.length < 32 → focusAccepted z sharpness c = tryIssue waiting) ∧
      (c.credits = 0 ∨ 32 ≤ c.captureLog.length → focusAccepted z sharpness c =
        { waiting with waitingSite := some ⟨t, n, sharpness, some c.sessionRecipe.focusHold⟩ })) ∧
    ∀ why, ∃ lists : List RevisitList,
      let spent := { c with lists := lists }
      let attempts := e.attempts + 1
      OnlySites i slot [n] c spent ∧
      (attempts < c.sessionRecipe.attemptLimit →
        spent.site? t n = some (i, slot, { e with attempts := attempts, acceptedZ := none }) ∧
        focusFailed why c = takeFocusRequest .nominal e.x e.y 0 spent) ∧
      (c.sessionRecipe.attemptLimit ≤ attempts →
        spent.site? t n = some (i, slot,
          { e with attempts := attempts, acceptedZ := none, state := .failed, captureNo := none, reason := some why }) ∧
        LeavesFlight t n (countResolution i slot (.failed why) spent) (focusFailed why c))

/-- The drive value of a sweep's step, and the verdict on its counts: too low a greatest count fails; the peak is the step of
the greatest count nearest the centre, the lower of two; a peak at the first or last step is an edge; otherwise the accepted z
is the parabola's, rounded to the nearest unit with halves to the higher, and clamped. -/
def Obligations.SweepIsEvaluated : Prop :=
  (∀ centre n size k : Nat, n % 2 = 1 →
    (stepDrive centre n size k : Int) =
      max 0 (min ((centre : Int) + ((k : Int) - ((n : Int) + 1) / 2) * (size : Int)) 65535)) ∧
  ∀ (limit n size top : Nat) (counts drives : List Nat), 3 ≤ n → counts.length = n → drives.length = n →
    top ∈ counts → (∀ x ∈ counts, x ≤ top) →
    (top < limit → evaluateSweep limit n size counts drives = .low) ∧
    (limit ≤ top → ∃ k z0, 1 ≤ k ∧ k ≤ n ∧ counts[k - 1]? = some top ∧ drives[k - 1]? = some z0 ∧
      (∀ j, 1 ≤ j → j ≤ n → counts[j - 1]? = some top →
        let away (i : Nat) : Int := |(i : Int) - ((n + 1) / 2 : Nat)|
        away k < away j ∨ (away k = away j ∧ k ≤ j)) ∧
      (k = 1 ∨ k = n → evaluateSweep limit n size counts drives = .edge z0) ∧
      (1 < k → k < n → ∃ below above z, counts[k - 2]? = some below ∧ counts[k]? = some above ∧
        evaluateSweep limit n size counts drives = .accept z top ∧
        (z : Int) = max 0 (min (⌊(z0 : ℚ) + (size : ℚ) * ((below : ℚ) - (above : ℚ)) /
          (2 * ((below : ℚ) - 2 * (top : ℚ) + (above : ℚ))) + 1 / 2⌋) 65535)))

/-- The focus map: an accepted sweep's point joins the newest end; points closer to it than a quarter of the map radius go and
the others keep their order; of 49 points the oldest goes, so that the map never passes 48. The nearest point is one at the
least distance, of several the one nearest the newest end. -/
def Obligations.FocusMapIsKept : Prop :=
  let apart (x y : Int) (q : MapPoint) : Int := (x - q.x) ^ 2 + (y - q.y) ^ 2
  (∀ (radius : Nat) (p : MapPoint) (m : List MapPoint), m.length ≤ 48 →
    let kept := m.filter (fun q => (radius : Int) ^ 2 ≤ 16 * apart p.x p.y q)
    let d := addMapPoint radius p m
    d.length ≤ 48 ∧ (kept.length < 48 → d = kept ++ [p]) ∧ (kept.length = 48 → d = kept.drop 1 ++ [p])) ∧
  ∀ (x y : Int) (m : List MapPoint),
    (nearestPoint x y m = none ↔ m = []) ∧
    ∀ b, nearestPoint x y m = some b → ∃ older newer, m = older ++ b :: newer ∧
      (∀ q ∈ older, apart x y b ≤ apart x y q) ∧ ∀ q ∈ newer, apart x y b < apart x y q

/-- STAGE_DISTURB: while a session exists it clears the focus map; a conversion in progress starts again at ZERO, and at its
fourth disturbance the request fails with FOCUS_DISTURBED recorded. Otherwise nothing changes. -/
def Obligations.StageDisturbance : Prop :=
  ∀ s : State,
    let map := if s.part.session.state = .idle then s.part.focusMap else []
    let quiet : State := withPart s { s.part with focusMap := map }
    ((s.part.converter = .idle ∨ (∃ r ms, s.part.converter = .settling r ms) ∨ s.part.focusRequest = none) →
      exec .stageDisturb s = .next quiet) ∧
    ∀ r res, s.part.focusRequest = some r →
      (s.part.converter = .zero res ∨ s.part.converter = .integrate res ∨ s.part.converter = .deintegrate res) →
      (r.restarts < 3 → exec .stageDisturb s = .next (withPart s { s.part with
        focusMap := map, converter := .zero s.part.sessionRecipe.resolution
        focusRequest := some { r with restarts := r.restarts + 1 } })) ∧
      (3 ≤ r.restarts → exec .stageDisturb s = .next (withPart s (settle (focusFailed .focusDisturbed
        (recordError .focusDisturbed
          (.focusDisturbed s.part.session.wafer s.part.session.inFlight r.kind s.part.drive)
          { s.part with focusMap := map, converter := .idle, focusRequest := none })))))

/-! ### Captures and classes (06), counts (07) -/

/-- CAPTURE_FETCH answers the oldest UNFETCHED record, every field but its timer, and makes it FETCHED; with none it answers
no record. Nothing else changes; its timer runs on, and CAPTURE_PENDING falls when no UNFETCHED record remains. -/
def Obligations.CaptureIsFetched : Prop :=
  ∀ (s : State) (p : PortId) (tag : Half), TakesNow s p .captureFetch →
    ((∀ r ∈ s.part.captureLog, r.state ≠ .unfetched) →
      exec (.captureFetch p tag) s = .next (answered s p 32#8 tag s.part .ok (.capture none))) ∧
    ∀ older r newer, s.part.captureLog = older ++ r :: newer → (∀ x ∈ older, x.state ≠ .unfetched) →
      r.state = .unfetched →
      let c := { s.part with captureLog := older ++ { r with state := .fetched } :: newer }
      exec (.captureFetch p tag) s = .next
        (answered s p 32#8 tag c .ok
          (.capture (some ⟨r.number, r.wafer, r.site, r.x, r.y, r.inspClass, r.size, r.z, r.resolution, r.sharpness,
            r.attempt, .fetched⟩))) ∧
      (.capturePending ∈ rawSet c .image ↔ ∃ x ∈ newer, x.state = .unfetched)

/-- CAPTURE_DONE: the result, the number, the record's state; a number that no record holds is LATE and counted. GOOD makes
the record DONE_GOOD with the class wait of its recipe, and the site CAPTURED with its accepted z and capture number kept; a
site in flight leaves flight, and an ACTIVE session walks on, a PAUSING one is PAUSED. REJECT takes the record out of the log,
counts CAPTURES_REJECTED and the lot's rejections, and spends an attempt of the site, whose accepted z and capture number go.
At the attempt limit the site is FAILED(CAPTURE_REJECTED), counted, and leaves flight. Below it the site of an aborted lot is
SKIPPED(ABORTED), counted, and leaves flight; otherwise an ACTIVE session has it FOCUSING with a FORCED request at the record's
z, and in a PAUSING one it is PENDING, out of flight, and the session PAUSED. What follows is done in the same event. That a
waiting site may take the freed place before the rest is the model's reading of the order of the rules (log 15). The empty body
of a refusal is the model's choice (log 28). -/
def Obligations.CaptureDoneIsTaken : Prop :=
  ∀ (s : State) (p : PortId) (tag number : Half) (b : Byte), TakesNow s p .captureDone →
    let out := exec (.captureDone p tag number b) s
    let answer (c : Part) (st : Status) := answered s p 33#8 tag c st .empty
    (1 < b.toNat → out = .next (answer s.part .badField)) ∧
    (b.toNat ≤ 1 → (∀ r ∈ s.part.captureLog, r.number ≠ number) → out = .next
      (answer { s.part with stats := s.part.stats.set .latePosts (s.part.stats.get .latePosts + 1#32) } .late)) ∧
    ∀ r, b.toNat ≤ 1 → s.part.capture? number = some r →
      (r.state ≠ .fetched → out = .next (answer s.part .order)) ∧
      (r.state = .fetched → b = 0#8 →
        let d := doneGood r s.part
        let log := s.part.captureLog.map (fun x => if x.number = number then
          { x with state := .doneGood, timer := (s.part.waferRecipe r.wafer).classWait * 1000 } else x)
        out = .next (answer (settle d) .ok) ∧ (settle d).captureLog = log ∧
        (settle d).credits = s.part.credits ∧ (settle d).nextCapture = s.part.nextCapture ∧
        ∀ i slot e, s.part.site? r.wafer r.site = some (i, slot, e) → ∃ lists : List RevisitList,
          let captured := { s.part with captureLog := log, lists := lists }
          captured.site? r.wafer r.site = some (i, slot, { e with state := .captured }) ∧
          OnlySites i slot [r.site] s.part captured ∧ LeavesFlight r.wafer r.site captured d) ∧
      (r.state = .fetched → b = 1#8 →
        let d := doneReject r s.part
        let kept := s.part.captureLog.filter (fun x => x.number != number)
        let freed := tryIssue { s.part with captureLog := kept }
        out = .next (answer (settle d) .ok) ∧ (settle d).captureLog = freed.captureLog ∧
        (s.part.waitingSite = none → freed = { s.part with captureLog := kept }) ∧
        (freed.captureLog = kept ∨ ∃ x, freed.captureLog = kept ++ [x] ∧ x.number = s.part.nextCapture) ∧
        ∀ i slot e l, freed.site? r.wafer r.site = some (i, slot, e) → freed.lot? i = some l →
          ∃ lists : List RevisitList,
            let rejected := { freed with
              lists := lists
              stats := freed.stats.set .capturesRejected (freed.stats.get .capturesRejected + 1#32)
              lots := freed.lots.set i (some { l with counters :=
                { l.counters with rejections := min (l.counters.rejections + 1) 4294967295 } }) }
            let spent := { e with attempts := e.attempts + 1, acceptedZ := none, captureNo := none }
            let below := spent.attempts < (freed.recipeOf i).attemptLimit
            let site (x : SiteEntry) : Prop := rejected.site? r.wafer r.site = some (i, slot, x)
            OnlySites i slot [r.site] freed rejected ∧
            (¬ below → site { spent with state := .failed, reason := some .captureRejected } ∧
              LeavesFlight r.wafer r.site (countResolution i slot (.failed .captureRejected) rejected) d) ∧
            (below → l.aborted = true → site { spent with state := .skipped, reason := some .aborted } ∧
              LeavesFlight r.wafer r.site (countResolution i slot (.skipped .aborted) rejected) d) ∧
            (below → l.aborted = false → s.part.session.state = .active →
              site { spent with state := .focusing } ∧ d = takeFocusRequest .forced e.x e.y r.z rejected) ∧
            (below → l.aborted = false → s.part.session.state = .pausing → site { spent with state := .pending } ∧
              d = { rejected with session := { s.part.session with state := .paused, inFlight := none } }) ∧
            (below → l.aborted = false → s.part.session.state ≠ .active → s.part.session.state ≠ .pausing →
              site { spent with state := .focusing } ∧ d = rejected))

/-- CLASS_POST: class and confidence, the number, the record's state; a number that no record holds is LATE and counted. An
accepted post takes the record out of the log, where the waiting site may take its place at once, and then makes the site
CLASSIFIED with its class and confidence, its capture number gone, its other fields kept, counted, with any excursion entry
fired, and last does what that makes ready. That the waiting site is issued before the resolution is counted and may fire
HOLD.N is the model's reading of the order of the rules (log 15). The empty body of a refusal is the model's choice (log
28). -/
def Obligations.ClassIsPosted : Prop :=
  ∀ (s : State) (p : PortId) (tag number : Half) (cls conf : Byte), TakesNow s p .classPost →
    let out := exec (.classPost p tag number cls conf) s
    let answer (c : Part) (st : Status) := answered s p 35#8 tag c st .empty
    let good := cls.toNat ≤ 15 ∧ conf.toNat ≤ 100
    (¬ good → out = .next (answer s.part .badField)) ∧
    (good → (∀ r ∈ s.part.captureLog, r.number ≠ number) → out = .next
      (answer { s.part with stats := s.part.stats.set .latePosts (s.part.stats.get .latePosts + 1#32) } .late)) ∧
    ∀ r, good → s.part.capture? number = some r →
      (r.state ≠ .doneGood → out = .next (answer s.part .order)) ∧
      (r.state = .doneGood →
        let kept := s.part.captureLog.filter (fun x => x.number != number)
        let freed := tryIssue { s.part with captureLog := kept }
        let d := resolveSite r.wafer r.site (.classified cls.toNat conf.toNat) freed
        out = .next (answer (settle d) .ok) ∧ (settle d).captureLog = freed.captureLog ∧
        (s.part.waitingSite = none → freed.captureLog = kept) ∧
        (freed.captureLog = kept ∨ ∃ x, freed.captureLog = kept ++ [x] ∧ x.number = s.part.nextCapture) ∧
        ∀ i slot e, s.part.site? r.wafer r.site = some (i, slot, e) → d.site? r.wafer r.site = some (i, slot,
          { e with state := .classified, captureNo := none, classResult := some (cls.toNat, conf.toNat) }))

/-- BUFFER_GRANT adds to the credits, at most 255, recording an excess, and tries to issue the waiting site; the count
answered is the one the grant gives (log 24). An issue spends a credit and puts a record with the next capture number at the
newest end of the log; without a waiting site, a credit or a place in the log nothing is issued. The empty body of a refusal
is the model's choice (log 28). -/
def Obligations.GrantAndIssue : Prop :=
  (∀ (s : State) (p : PortId) (tag : Half) (b : Byte), TakesNow s p .bufferGrant →
    let out := exec (.bufferGrant p tag b) s
    let sum := s.part.credits + b.toNat
    (b = 0#8 → out = .next (answered s p 36#8 tag s.part .badField .empty)) ∧
    (b ≠ 0#8 → sum ≤ 255 → out = .next
      (answered s p 36#8 tag (tryIssue { s.part with credits := sum }) .ok (.credits sum 0))) ∧
    (b ≠ 0#8 → 255 < sum → out = .next
      (answered s p 36#8 tag
        (tryIssue { recordError .creditOverflow (.creditOverflow s.part.credits b.toNat (sum - 255)) s.part with
          credits := 255 }) .ok (.credits 255 (sum - 255))))) ∧
  ∀ c : Part,
    ((c.waitingSite = none ∨ c.credits = 0 ∨ 32 ≤ c.captureLog.length) → tryIssue c = c) ∧
    ∀ w i slot e l, c.waitingSite = some w → 1 ≤ c.credits → c.captureLog.length < 32 →
      c.site? w.wafer w.site = some (i, slot, e) → c.lot? i = some l →
      let d := tryIssue c
      d = { c with
        waitingSite := none, credits := c.credits - 1, nextCapture := c.nextCapture + 1#16, lists := d.lists
        stats := c.stats.set .capturesIssued (c.stats.get .capturesIssued + 1#32)
        lots := c.lots.set i (some { l with counters :=
          { l.counters with captures := min (l.counters.captures + 1) 4294967295 } })
        captureLog := c.captureLog ++ [⟨c.nextCapture, w.wafer, e.number, e.x, e.y, e.inspClass, e.size,
          e.acceptedZ.getD 0, (c.recipeOf i).resolution, w.sharpness, e.attempts + 1, .unfetched,
          c.settings.captureTimeout * 1000⟩] } ∧
      d.site? w.wafer w.site = some (i, slot, { e with state := .capturing, captureNo := some c.nextCapture }) ∧
      OnlySites i slot [w.site] c d

/-- The timers of the Capture Exchange. The focus hold timer returns the waiting site to FOCUSING, its accepted z kept, for a
RECHECK at that z against the FU's reference, its step index 0 for absent (the model's choice: log 30). The capture-done timer
takes the record out of the log, makes its site FAILED(CAPTURE_TIMEOUT) and records the error; a site in flight leaves flight,
and an ACTIVE session walks on, a PAUSING one is PAUSED. The class wait takes the record out of the log and leaves its site
UNCLASSIFIED. Both keep the site's accepted z and remove its capture number, and both let the waiting site take the freed place
before the resolution is counted, which is the model's reading of the order of the rules (log 15). A timer that does not run
changes nothing (log 2). -/
def Obligations.CaptureTimersExpire : Prop :=
  ∀ (s : State) (number : Half),
    (∀ w ms i slot e, s.part.waitingSite = some w → w.timer = some ms →
      s.part.site? w.wafer w.site = some (i, slot, e) →
      let z := e.acceptedZ.getD 0
      ∃ lists : List RevisitList,
        let c := { s.part with waitingSite := none, lists := lists }
        c.site? w.wafer w.site = some (i, slot, { e with state := .focusing }) ∧ OnlySites i slot [w.site] s.part c ∧
        exec .focusHoldExpiry s = .next (withPart s (takeFocusRequest .recheck e.x e.y z c)) ∧
        (s.part.focusRequest = none → s.part.converter = .idle →
          takeFocusRequest .recheck e.x e.y z c = { c with
            focusRequest := some
              { kind := .recheck, x := e.x, y := e.y, stage := .check, checkZ := some z
                checkRef := some ((s.part.focusReference.map (·.sharpness)).getD 0), centre := none, step := 0
                counts := [], drives := [], restarts := 0 }
            drive := z
            converter := if z = s.part.drive then .zero s.part.sessionRecipe.resolution
              else .settling s.part.sessionRecipe.resolution s.part.settings.settleTime })) ∧
    ((∀ w, s.part.waitingSite = some w → w.timer = none) → exec .focusHoldExpiry s = .next s) ∧
    ((∀ r ∈ s.part.captureLog, r.number ≠ number) →
      exec (.captureDoneTimeout number) s = .next s ∧ exec (.classWaitExpiry number) s = .next s) ∧
    ∀ r, s.part.capture? number = some r →
      let kept := s.part.captureLog.filter (fun x => x.number != number)
      let freed := tryIssue { s.part with captureLog := kept }
      let failed := recordError .captureTimeout (.captureTimeout r.wafer r.site r.number r.state)
        (resolveSite r.wafer r.site (.failed .captureTimeout) freed)
      let unclassified := resolveSite r.wafer r.site .unclassified freed
      let landed := { failed with session := { failed.session with inFlight := none } }
      let inFlight := s.part.session.wafer = some r.wafer ∧ s.part.session.inFlight = some r.site
      let out := exec (.captureDoneTimeout number) s
      (freed.captureLog = kept ∨ ∃ x, freed.captureLog = kept ++ [x] ∧ x.number = s.part.nextCapture) ∧
      (∀ i slot e, s.part.site? r.wafer r.site = some (i, slot, e) →
        failed.site? r.wafer r.site = some (i, slot,
          { e with state := .failed, captureNo := none, reason := some .captureTimeout }) ∧
        unclassified.site? r.wafer r.site = some (i, slot, { e with state := .unclassified, captureNo := none }) ∧
        OnlySites i slot [r.site] freed failed ∧ OnlySites i slot [r.site] freed unclassified) ∧
      (r.state ≠ .doneGood →
        exec (.classWaitExpiry number) s = .next s ∧
        (¬ inFlight → out = .next (withPart s (settle failed))) ∧
        (inFlight → s.part.session.state = .active → out = .next (withPart s (settle (walk landed)))) ∧
        (inFlight → s.part.session.state = .pausing → out = .next (withPart s (settle
          { landed with session := { landed.session with state := .paused } }))) ∧
        (inFlight → s.part.session.state ≠ .active → s.part.session.state ≠ .pausing →
          out = .next (withPart s (settle landed)))) ∧
      (r.state = .doneGood →
        out = .next s ∧ exec (.classWaitExpiry number) s = .next (withPart s (settle unclassified)))

/-- A site that is resolved takes its new state with what it carries, loses its capture number and keeps its accepted z. A
resolution raises one lot counter, one slot counter and one statistic by 1, those of its state; CLASSIFIED also the class count
of both, and with a class 1..15 the excursion list of the lot's recipe is then compared at the slot's new count of that class,
its entries in list order, each that fires acting before the next is compared. An entry fires when its class is the one posted,
its limit the slot's new count and its flag not set; a firing sets the flag, adds the lot's event once and raises EXCURSION.
HOLD.W and HOLD.N in a RUNNING or DRAINING lot that is not aborted set the source EXCURSION, N staying N, and raise HOLD_SET; a
change of the derived hold raises LOT_STATE, and one to HOLD.N pauses the session of the lot's wafer. NOTE, SAMPLE and every
action in another lot do no more; nothing else changes. A wafer is sampled when a set flag belongs to an entry whose action is
SAMPLE. The PENDING entries of a list that are skipped together are counted together. -/
def Obligations.ResolutionsAreCounted : Prop :=
  (∀ (c : Part) (t n slot : Nat) (i : LoadPort) (e : SiteEntry) (r : Resolution), c.site? t n = some (i, slot, e) →
    ∃ lists : List RevisitList,
      resolveSite t n r c = countResolution i slot r { c with lists := lists } ∧
      OnlySites i slot [n] c { c with lists := lists } ∧
      Part.site? { c with lists := lists } t n = some (i, slot,
        match r with
        | .classified cls conf =>
          { e with state := .classified, captureNo := none, classResult := some (cls, conf) }
        | .skipped why => { e with state := .skipped, captureNo := none, reason := some why }
        | .failed why => { e with state := .failed, captureNo := none, reason := some why }
        | .unclassified => { e with state := .unclassified, captureNo := none })) ∧
  (∀ (c : Part) (i : LoadPort) (slot : Nat) (l : Lot), c.lot? i = some l →
    let counted (k : Statistic) (n : Nat) (f : WaferCounts → WaferCounts) (g : LotCounters → LotCounters) : Part :=
      { c with
        stats := c.stats.set k (c.stats.get k + BitVec.ofNat 32 n)
        lots := c.lots.set i (some { l with
          selection := l.selection.map (fun e => if e.slot = slot then { e with counts := f e.counts } else e)
          counters := g l.counters }) }
    let bump (cls : Nat) (l : List Nat) : List Nat := l.set cls (l.getD cls 0 + 1)
    let classified (cls : Nat) : Part := counted .sitesClassified 1
      (fun k => { k with classified := k.classified + 1, classes := bump cls k.classes })
      (fun k => { k with classified := k.classified + 1, classes := bump cls k.classes })
    (∀ why, countResolution i slot (.skipped why) c = counted .sitesSkipped 1
      (fun k => { k with skipped := k.skipped + 1 }) (fun k => { k with skipped := k.skipped + 1 })) ∧
    (∀ why, countResolution i slot (.failed why) c = counted .sitesFailed 1
      (fun k => { k with failed := k.failed + 1 }) (fun k => { k with failed := k.failed + 1 })) ∧
    (countResolution i slot .unclassified c = counted .sitesUnclassified 1
      (fun k => { k with unclassified := k.unclassified + 1 })
      (fun k => { k with unclassified := k.unclassified + 1 })) ∧
    (∀ conf, countResolution i slot (.classified 0 conf) c = classified 0) ∧
    (∀ cls conf e, cls ≠ 0 → l.entry? slot = some e → cls < e.counts.classes.length →
      countResolution i slot (.classified cls conf) c =
        compareEntries i slot cls (e.counts.classes.getD cls 0 + 1) 1 (c.recipeOf i).excursions (classified cls)) ∧
    ∀ why, ∃ lists : List RevisitList,
      let n := (c.entries i slot).countP (fun e => e.state == .pending)
      skipPending i slot why c = { counted .sitesSkipped n
        (fun k => { k with skipped := k.skipped + n }) (fun k => { k with skipped := k.skipped + n }) with
        lists := lists } ∧
      Part.entries { c with lists := lists } i slot = (c.entries i slot).map (fun e => if e.state = .pending then
        { e with state := .skipped, captureNo := none, reason := some why } else e) ∧
      OnlyList i slot c { c with lists := lists }) ∧
  (∀ (c : Part) (i : LoadPort) (slot cls count pos : Nat) (x : ExcursionEntry) (rest : List ExcursionEntry),
    compareEntries i slot cls count pos [] c = c ∧
    compareEntries i slot cls count pos (x :: rest) c = compareEntries i slot cls count (pos + 1) rest
      (if entryFires c i slot cls count pos x = true then fireEntry i slot pos x c else c)) ∧
  (∀ (c : Part) (i : LoadPort) (slot cls count pos : Nat) (x : ExcursionEntry) (l : Lot) (e : Selection),
    c.lot? i = some l → l.entry? slot = some e → 1 ≤ pos → pos ≤ e.counts.flags.length →
    (entryFires c i slot cls count pos x = true ↔
      x.cls = cls ∧ x.limit = count ∧ e.counts.flags[pos - 1]? = some false)) ∧
  (∀ (c : Part) (i : LoadPort) (slot : Nat) (l : Lot) (e : Selection), c.lot? i = some l → l.entry? slot = some e →
    (c.sampled i slot = true ↔ ∃ (n : Nat) (x : ExcursionEntry), (c.recipeOf i).excursions[n]? = some x ∧
      x.action = .sample ∧ e.counts.flags[n]? = some true)) ∧
  ∀ (c : Part) (i : LoadPort) (slot pos : Nat) (x : ExcursionEntry) (l : Lot), c.lot? i = some l →
    let d := fireEntry i slot pos x c
    let flagged : Lot := { l with
      selection := l.selection.map (fun e => if e.slot = slot then
        { e with counts := { e.counts with flags := e.counts.flags.set (pos - 1) true } } else e)
      counters := { l.counters with events :=
        if ∃ v ∈ l.counters.events, v.position = pos then l.counters.events
        else l.counters.events ++ [⟨slot, x.cls, x.limit, x.action, pos⟩] } }
    let holds : Prop := (l.state = .running ∨ l.state = .draining) ∧ l.aborted = false ∧
      (x.action = .holdW ∨ x.action = .holdN)
    let held : Lot := { flagged with holdExc := some (if l.holdExc = some .n ∨ x.action = .holdN then .n else .w) }
    let put (m : Lot) : Part := { c with lots := c.lots.set i (some m) }
    let fired (y : Part) : Part := raiseEvent .automation .excursion y
    let set (y : Part) : Part := fired (raiseEvent .automation .holdSet y)
    .excursion ∈ rawSet d .automation ∧
    (¬ holds → d = fired (put flagged) ∧ d.lot? i = some flagged) ∧
    (holds → d.lot? i = some held ∧ .holdSet ∈ rawSet d .automation) ∧
    (holds → held.hold = l.hold → d = set (put held)) ∧
    (holds → held.hold ≠ l.hold → (held.hold ≠ .holdN ∨ c.sessionLot ≠ some i) → d = set (raiseLotState (put held))) ∧
    (holds → held.hold ≠ l.hold → held.hold = .holdN → c.sessionLot = some i →
      d = set (pauseSession (raiseLotState (put held))))

/-! ### Reports (08) -/

/-- REPORT_FETCH answers a queued report in its wire form and changes nothing; REPORT_ACK removes the named report and every
older one, and waiting reports enter the freed places: the oldest first, as many as there are places of the six, at the
newest end of the queue, each with the next report number, its lot CLOSED and its carrier RELEASABLE; the others go on
waiting. LOT_STATE is raised when a report waited, for then one entered. The wire form has 144 bytes, 6 for each event and
70 for each summary, and every field of R157's three tables stands in it at its offset, numbers least significant byte first,
texts with their unused bytes 0. The empty body of a refusal is the model's choice (log 28). -/
def Obligations.ReportsAreFetchedAndAcknowledged : Prop :=
  (∀ (s : State) (p : PortId) (tag n : Half),
    let queue := s.part.reportQueue
    (TakesNow s p .reportFetch →
      (∀ older r newer, queue = older ++ r :: newer → r.number = some n → (∀ x ∈ older, x.number ≠ some n) →
        exec (.reportFetch p tag (.number n)) s = .next
          (answered s p 40#8 tag s.part .ok (.report (reportBytes r) queue.length))) ∧
      (∀ r newer, queue = r :: newer → exec (.reportFetch p tag .oldest) s = .next
        (answered s p 40#8 tag s.part .ok (.report (reportBytes r) queue.length))) ∧
      ((∀ x ∈ queue, x.number ≠ some n) → exec (.reportFetch p tag (.number n)) s = .next
        (answered s p 40#8 tag s.part .notFound (.queued queue.length))) ∧
      (queue = [] → exec (.reportFetch p tag .oldest) s = .next
        (answered s p 40#8 tag s.part .notFound (.queued 0)))) ∧
    (TakesNow s p .reportAck →
      ((∀ x ∈ queue, x.number ≠ some n) →
        exec (.reportAck p tag n) s = .next (answered s p 41#8 tag s.part .notFound .empty)) ∧
      ∀ older r newer, queue = older ++ r :: newer → r.number = some n → (∀ x ∈ older, x.number ≠ some n) →
        let kept := { s.part with reportQueue := newer }
        let filled := raiseLotState (fillQueue s.part.waitingReports kept)
        (s.part.waitingReports = [] → exec (.reportAck p tag n) s = .next
          (answered s p 41#8 tag kept .ok (.acked (older.length + 1) newer.length))) ∧
        (s.part.waitingReports ≠ [] → exec (.reportAck p tag n) s = .next
          (answered s p 41#8 tag filled .ok (.acked (older.length + 1) filled.reportQueue.length))))) ∧
  (∀ (waiting : List WaitingReport) (c : Part),
    let room := 6 - c.reportQueue.length
    let entered := waiting.take room
    let d := fillQueue waiting c
    d = { c with
      reportQueue := c.reportQueue ++
        entered.zipIdx.map (fun p => { p.1.report with number := some (c.nextReport + BitVec.ofNat 16 p.2) })
      nextReport := c.nextReport + BitVec.ofNat 16 entered.length
      waitingReports := waiting.drop room, lots := d.lots, carriers := d.carriers } ∧
    ∀ i, d.lot? i = (c.lot? i).map (fun l =>
        if entered.any (fun w => w.lot == i) then { l with state := .closed } else l) ∧
      d.carrier i =
        if entered.any (fun w => w.lot == i) then { c.carrier i with state := .releasable } else c.carrier i) ∧
  ∀ r : Report, r.lotId.length ≤ 20 → r.carrierId.length ≤ 16 → r.totals.classes.length = 16 →
    (∀ x ∈ r.summaries, x.counts.classes.length = 16 ∧ (x.waferId.getD []).length ≤ 24) →
    let bytes := reportBytes r
    let num (offset size : Nat) : Nat := ((bytes.drop offset).take size).foldr (fun b n => b.toNat + 256 * n) 0
    let text (offset size : Nat) (t : Text) : Prop :=
      (bytes.drop offset).take size = t ++ List.replicate (size - t.length) 0#8
    let nums (offset size : Nat) (values : List Nat) : Prop :=
      ∀ j v, values[j]? = some v → num (offset + size * j) size = v % 256 ^ size
    let t := r.totals
    bytes.length = 144 + 6 * t.events.length + 70 * r.summaries.length ∧
    (∀ n : Half, r.number = some n → num 0 2 = n.toNat) ∧
    num 2 1 = (match r.outcome with | .complete => 0 | .partialReport => 1 | .aborted => 2) ∧
    nums 3 1 [r.recipe, r.summaries.length, t.events.length, r.lotId.length, r.carrierId.length] ∧
    text 8 20 r.lotId ∧ text 28 16 r.carrierId ∧
    nums 44 4 [t.loaded, t.classified, t.skipped, t.failed, t.unclassified] ∧ nums 64 4 t.classes ∧
    nums 128 4 [t.sweeps, t.mapHits, t.captures, t.rejections] ∧
    (∀ j v, t.events[j]? = some v →
      let at' := 144 + 6 * j
      nums at' 1 [v.slot, v.cls] ∧ nums (at' + 2) 2 [v.limit] ∧
      num (at' + 4) 1 = (match v.action with | .note => 0 | .sample => 1 | .holdW => 2 | .holdN => 3) ∧
      nums (at' + 5) 1 [v.position]) ∧
    ∀ j x, r.summaries[j]? = some x →
      let at' := 144 + 6 * t.events.length + 70 * j
      let k := x.counts
      nums at' 1 [x.slot] ∧
      num (at' + 1) 1 = (match x.outcome with
        | .reviewed => 0 | .partialReview => 1 | .aborted => 2 | .notDispatched => 3 | .noSites => 4 | .idMismatch => 5
        | .handlingFault => 6) ∧
      num (at' + 2) 1 = (x.waferId.getD []).length ∧
      (k.flags.length = 4 → ∀ q, (num (at' + 3) 1).testBit q = k.flags.getD q false) ∧
      text (at' + 4) 24 (x.waferId.getD []) ∧
      nums (at' + 28) 2 [k.loaded, k.classified, k.skipped, k.failed, k.unclassified] ∧ nums (at' + 38) 2 k.classes

/-! ### What every step keeps -/

/-- Every step keeps the ports: at most 4 requests queued and 6 responses to send, at most one taken request unanswered, a
queue only behind one, and nothing held on a DOWN link. -/
def Obligations.EveryStepKeepsThePorts : Prop :=
  ∀ s t : State, PortsKept s → step s = .next t → PortsKept t

/-- Every step keeps the pool: free entries and entries held in lists are always 12,288 together, and no two lists share a lot
and slot. -/
def Obligations.EveryStepKeepsThePool : Prop :=
  ∀ s t : State, PoolKept s → step s = .next t → PoolKept t

/-- Every step keeps the bounded records within their bounds (credits, capture log, focus map, report queue, settings), each
error kind's flag, count and record together, an aborted lot without a hold, and the serial memory in its canonical form. -/
def Obligations.EveryStepKeepsTheRecords : Prop :=
  ∀ s t : State, step s = .next t →
    (BoundsKept s → BoundsKept t) ∧ (ErrorsKept s → ErrorsKept t) ∧ (AbortsKept s → AbortsKept t) ∧
      (MemoryKept s → MemoryKept t)

end Statements
end

