-- ==== Sys2Proof/Laws/State.lean ====
section
/-! SUPPORT. Reading a table after writing one of its entries, and each field of the part after each of the plain updates
of Ops.lean. -/

namespace Sys2Proof.Machine

/-! ### Tables -/

@[simp] theorem PerPort.get_set_same {α : Type} (t : PerPort α) (i : PortId) (a) : (t.set i a).get i = a := by
  cases i <;> rfl

theorem PerPort.get_set_other {α : Type} (t : PerPort α) (i j : PortId) (a) (h : i ≠ j) : (t.set i a).get j = t.get j := by
  cases i <;> cases j <;> first | rfl | exact absurd rfl h

@[simp] theorem PerLoadPort.get_set_same {α : Type} (t : PerLoadPort α) (i : LoadPort) (a) : (t.set i a).get i = a := by
  cases i <;> rfl

theorem PerLoadPort.get_set_other {α : Type} (t : PerLoadPort α) (i j : LoadPort) (a) (h : i ≠ j) : (t.set i a).get j = t.get j := by
  cases i <;> cases j <;> first | rfl | exact absurd rfl h

@[simp] theorem PlaceTable.get_set_same (t : PlaceTable) (i : Place) (a) : (t.set i a).get i = a := by
  cases i <;> rfl

theorem PlaceTable.get_set_other (t : PlaceTable) (i j : Place) (a) (h : i ≠ j) : (t.set i a).get j = t.get j := by
  cases i <;> cases j <;> first | rfl | exact absurd rfl h

@[simp] theorem OrderTable.get_set_same (t : OrderTable) (i : Mover) (a) : (t.set i a).get i = a := by
  cases i <;> rfl

theorem OrderTable.get_set_other (t : OrderTable) (i j : Mover) (a) (h : i ≠ j) : (t.set i a).get j = t.get j := by
  cases i <;> cases j <;> first | rfl | exact absurd rfl h

@[simp] theorem Stats.get_set_same (t : Stats) (i : Statistic) (a) : (t.set i a).get i = a := by
  cases i <;> rfl

theorem Stats.get_set_other (t : Stats) (i j : Statistic) (a) (h : i ≠ j) : (t.set i a).get j = t.get j := by
  cases i <;> cases j <;> first | rfl | exact absurd rfl h

@[simp] theorem ErrorTable.get_set_same (t : ErrorTable) (i : ErrorKind) (a) : (t.set i a).get i = a := by
  cases i <;> rfl

theorem ErrorTable.get_set_other (t : ErrorTable) (i j : ErrorKind) (a) (h : i ≠ j) : (t.set i a).get j = t.get j := by
  cases i <;> cases j <;> first | rfl | exact absurd rfl h

@[simp] theorem Settings.get_set_same (t : Settings) (i : SettingName) (a) : (t.set i a).get i = a := by
  cases i <;> rfl

theorem Settings.get_set_other (t : Settings) (i j : SettingName) (a) (h : i ≠ j) : (t.set i a).get j = t.get j := by
  cases i <;> cases j <;> first | rfl | exact absurd rfl h

/-! ### Ports of the state -/

@[simp] theorem State.port_setPort_same (s : State) (p : PortId) (q : Port) : (State.setPort p q s).port p = q :=
  PerPort.get_set_same s.ports p q

theorem State.port_setPort_other (s : State) (p p' : PortId) (q : Port) (h : p ≠ p') :
    (State.setPort p q s).port p' = s.port p' :=
  PerPort.get_set_other s.ports p p' q h

@[simp] theorem State.setPort_part (s : State) (p : PortId) (q : Port) : (State.setPort p q s).part = s.part := rfl

@[simp] theorem State.setPort_pending (s : State) (p : PortId) (q : Port) :
    (State.setPort p q s).pending = s.pending := rfl

/-! ### setCarrier -/

@[simp] theorem setCarrier_mode (i : LoadPort) (k : Carrier) (c : Part) : (setCarrier i k c).mode = c.mode := rfl
@[simp] theorem setCarrier_carriers (i : LoadPort) (k : Carrier) (c : Part) : (setCarrier i k c).carriers = c.carriers.set i k := rfl
@[simp] theorem setCarrier_lots (i : LoadPort) (k : Carrier) (c : Part) : (setCarrier i k c).lots = c.lots := rfl
@[simp] theorem setCarrier_startCounter (i : LoadPort) (k : Carrier) (c : Part) : (setCarrier i k c).startCounter = c.startCounter := rfl
@[simp] theorem setCarrier_recipes (i : LoadPort) (k : Carrier) (c : Part) : (setCarrier i k c).recipes = c.recipes := rfl
@[simp] theorem setCarrier_freeCount (i : LoadPort) (k : Carrier) (c : Part) : (setCarrier i k c).freeCount = c.freeCount := rfl
@[simp] theorem setCarrier_lists (i : LoadPort) (k : Carrier) (c : Part) : (setCarrier i k c).lists = c.lists := rfl
@[simp] theorem setCarrier_places (i : LoadPort) (k : Carrier) (c : Part) : (setCarrier i k c).places = c.places := rfl
@[simp] theorem setCarrier_wafers (i : LoadPort) (k : Carrier) (c : Part) : (setCarrier i k c).wafers = c.wafers := rfl
@[simp] theorem setCarrier_orders (i : LoadPort) (k : Carrier) (c : Part) : (setCarrier i k c).orders = c.orders := rfl
@[simp] theorem setCarrier_orderCounter (i : LoadPort) (k : Carrier) (c : Part) : (setCarrier i k c).orderCounter = c.orderCounter := rfl
@[simp] theorem setCarrier_lockA (i : LoadPort) (k : Carrier) (c : Part) : (setCarrier i k c).lockA = c.lockA := rfl
@[simp] theorem setCarrier_lockB (i : LoadPort) (k : Carrier) (c : Part) : (setCarrier i k c).lockB = c.lockB := rfl
@[simp] theorem setCarrier_atLoad (i : LoadPort) (k : Carrier) (c : Part) : (setCarrier i k c).atLoad = c.atLoad := rfl
@[simp] theorem setCarrier_session (i : LoadPort) (k : Carrier) (c : Part) : (setCarrier i k c).session = c.session := rfl
@[simp] theorem setCarrier_converter (i : LoadPort) (k : Carrier) (c : Part) : (setCarrier i k c).converter = c.converter := rfl
@[simp] theorem setCarrier_convResult (i : LoadPort) (k : Carrier) (c : Part) : (setCarrier i k c).convResult = c.convResult := rfl
@[simp] theorem setCarrier_drive (i : LoadPort) (k : Carrier) (c : Part) : (setCarrier i k c).drive = c.drive := rfl
@[simp] theorem setCarrier_focusRequest (i : LoadPort) (k : Carrier) (c : Part) : (setCarrier i k c).focusRequest = c.focusRequest := rfl
@[simp] theorem setCarrier_focusReference (i : LoadPort) (k : Carrier) (c : Part) : (setCarrier i k c).focusReference = c.focusReference := rfl
@[simp] theorem setCarrier_focusMap (i : LoadPort) (k : Carrier) (c : Part) : (setCarrier i k c).focusMap = c.focusMap := rfl
@[simp] theorem setCarrier_captureLog (i : LoadPort) (k : Carrier) (c : Part) : (setCarrier i k c).captureLog = c.captureLog := rfl
@[simp] theorem setCarrier_nextCapture (i : LoadPort) (k : Carrier) (c : Part) : (setCarrier i k c).nextCapture = c.nextCapture := rfl
@[simp] theorem setCarrier_credits (i : LoadPort) (k : Carrier) (c : Part) : (setCarrier i k c).credits = c.credits := rfl
@[simp] theorem setCarrier_waitingSite (i : LoadPort) (k : Carrier) (c : Part) : (setCarrier i k c).waitingSite = c.waitingSite := rfl
@[simp] theorem setCarrier_stats (i : LoadPort) (k : Carrier) (c : Part) : (setCarrier i k c).stats = c.stats := rfl
@[simp] theorem setCarrier_reportQueue (i : LoadPort) (k : Carrier) (c : Part) : (setCarrier i k c).reportQueue = c.reportQueue := rfl
@[simp] theorem setCarrier_waitingReports (i : LoadPort) (k : Carrier) (c : Part) : (setCarrier i k c).waitingReports = c.waitingReports := rfl
@[simp] theorem setCarrier_nextReport (i : LoadPort) (k : Carrier) (c : Part) : (setCarrier i k c).nextReport = c.nextReport := rfl
@[simp] theorem setCarrier_notices (i : LoadPort) (k : Carrier) (c : Part) : (setCarrier i k c).notices = c.notices := rfl
@[simp] theorem setCarrier_errors (i : LoadPort) (k : Carrier) (c : Part) : (setCarrier i k c).errors = c.errors := rfl
@[simp] theorem setCarrier_settings (i : LoadPort) (k : Carrier) (c : Part) : (setCarrier i k c).settings = c.settings := rfl
@[simp] theorem setCarrier_loading (i : LoadPort) (k : Carrier) (c : Part) : (setCarrier i k c).loading = c.loading := rfl
@[simp] theorem setCarrier_loadResult (i : LoadPort) (k : Carrier) (c : Part) : (setCarrier i k c).loadResult = c.loadResult := rfl
@[simp] theorem setCarrier_saving (i : LoadPort) (k : Carrier) (c : Part) : (setCarrier i k c).saving = c.saving := rfl
@[simp] theorem setCarrier_lastSave (i : LoadPort) (k : Carrier) (c : Part) : (setCarrier i k c).lastSave = c.lastSave := rfl
@[simp] theorem setCarrier_unsaved (i : LoadPort) (k : Carrier) (c : Part) : (setCarrier i k c).unsaved = c.unsaved := rfl
@[simp] theorem setCarrier_memory (i : LoadPort) (k : Carrier) (c : Part) : (setCarrier i k c).memory = c.memory := rfl
@[simp] theorem setCarrier_imagePartial (i : LoadPort) (k : Carrier) (c : Part) : (setCarrier i k c).imagePartial = c.imagePartial := rfl

/-! ### setLot -/

@[simp] theorem setLot_mode (i : LoadPort) (l : Option Lot) (c : Part) : (setLot i l c).mode = c.mode := rfl
@[simp] theorem setLot_carriers (i : LoadPort) (l : Option Lot) (c : Part) : (setLot i l c).carriers = c.carriers := rfl
@[simp] theorem setLot_lots (i : LoadPort) (l : Option Lot) (c : Part) : (setLot i l c).lots = c.lots.set i l := rfl
@[simp] theorem setLot_startCounter (i : LoadPort) (l : Option Lot) (c : Part) : (setLot i l c).startCounter = c.startCounter := rfl
@[simp] theorem setLot_recipes (i : LoadPort) (l : Option Lot) (c : Part) : (setLot i l c).recipes = c.recipes := rfl
@[simp] theorem setLot_freeCount (i : LoadPort) (l : Option Lot) (c : Part) : (setLot i l c).freeCount = c.freeCount := rfl
@[simp] theorem setLot_lists (i : LoadPort) (l : Option Lot) (c : Part) : (setLot i l c).lists = c.lists := rfl
@[simp] theorem setLot_places (i : LoadPort) (l : Option Lot) (c : Part) : (setLot i l c).places = c.places := rfl
@[simp] theorem setLot_wafers (i : LoadPort) (l : Option Lot) (c : Part) : (setLot i l c).wafers = c.wafers := rfl
@[simp] theorem setLot_orders (i : LoadPort) (l : Option Lot) (c : Part) : (setLot i l c).orders = c.orders := rfl
@[simp] theorem setLot_orderCounter (i : LoadPort) (l : Option Lot) (c : Part) : (setLot i l c).orderCounter = c.orderCounter := rfl
@[simp] theorem setLot_lockA (i : LoadPort) (l : Option Lot) (c : Part) : (setLot i l c).lockA = c.lockA := rfl
@[simp] theorem setLot_lockB (i : LoadPort) (l : Option Lot) (c : Part) : (setLot i l c).lockB = c.lockB := rfl
@[simp] theorem setLot_atLoad (i : LoadPort) (l : Option Lot) (c : Part) : (setLot i l c).atLoad = c.atLoad := rfl
@[simp] theorem setLot_session (i : LoadPort) (l : Option Lot) (c : Part) : (setLot i l c).session = c.session := rfl
@[simp] theorem setLot_converter (i : LoadPort) (l : Option Lot) (c : Part) : (setLot i l c).converter = c.converter := rfl
@[simp] theorem setLot_convResult (i : LoadPort) (l : Option Lot) (c : Part) : (setLot i l c).convResult = c.convResult := rfl
@[simp] theorem setLot_drive (i : LoadPort) (l : Option Lot) (c : Part) : (setLot i l c).drive = c.drive := rfl
@[simp] theorem setLot_focusRequest (i : LoadPort) (l : Option Lot) (c : Part) : (setLot i l c).focusRequest = c.focusRequest := rfl
@[simp] theorem setLot_focusReference (i : LoadPort) (l : Option Lot) (c : Part) : (setLot i l c).focusReference = c.focusReference := rfl
@[simp] theorem setLot_focusMap (i : LoadPort) (l : Option Lot) (c : Part) : (setLot i l c).focusMap = c.focusMap := rfl
@[simp] theorem setLot_captureLog (i : LoadPort) (l : Option Lot) (c : Part) : (setLot i l c).captureLog = c.captureLog := rfl
@[simp] theorem setLot_nextCapture (i : LoadPort) (l : Option Lot) (c : Part) : (setLot i l c).nextCapture = c.nextCapture := rfl
@[simp] theorem setLot_credits (i : LoadPort) (l : Option Lot) (c : Part) : (setLot i l c).credits = c.credits := rfl
@[simp] theorem setLot_waitingSite (i : LoadPort) (l : Option Lot) (c : Part) : (setLot i l c).waitingSite = c.waitingSite := rfl
@[simp] theorem setLot_stats (i : LoadPort) (l : Option Lot) (c : Part) : (setLot i l c).stats = c.stats := rfl
@[simp] theorem setLot_reportQueue (i : LoadPort) (l : Option Lot) (c : Part) : (setLot i l c).reportQueue = c.reportQueue := rfl
@[simp] theorem setLot_waitingReports (i : LoadPort) (l : Option Lot) (c : Part) : (setLot i l c).waitingReports = c.waitingReports := rfl
@[simp] theorem setLot_nextReport (i : LoadPort) (l : Option Lot) (c : Part) : (setLot i l c).nextReport = c.nextReport := rfl
@[simp] theorem setLot_notices (i : LoadPort) (l : Option Lot) (c : Part) : (setLot i l c).notices = c.notices := rfl
@[simp] theorem setLot_errors (i : LoadPort) (l : Option Lot) (c : Part) : (setLot i l c).errors = c.errors := rfl
@[simp] theorem setLot_settings (i : LoadPort) (l : Option Lot) (c : Part) : (setLot i l c).settings = c.settings := rfl
@[simp] theorem setLot_loading (i : LoadPort) (l : Option Lot) (c : Part) : (setLot i l c).loading = c.loading := rfl
@[simp] theorem setLot_loadResult (i : LoadPort) (l : Option Lot) (c : Part) : (setLot i l c).loadResult = c.loadResult := rfl
@[simp] theorem setLot_saving (i : LoadPort) (l : Option Lot) (c : Part) : (setLot i l c).saving = c.saving := rfl
@[simp] theorem setLot_lastSave (i : LoadPort) (l : Option Lot) (c : Part) : (setLot i l c).lastSave = c.lastSave := rfl
@[simp] theorem setLot_unsaved (i : LoadPort) (l : Option Lot) (c : Part) : (setLot i l c).unsaved = c.unsaved := rfl
@[simp] theorem setLot_memory (i : LoadPort) (l : Option Lot) (c : Part) : (setLot i l c).memory = c.memory := rfl
@[simp] theorem setLot_imagePartial (i : LoadPort) (l : Option Lot) (c : Part) : (setLot i l c).imagePartial = c.imagePartial := rfl

/-! ### setWafer -/

@[simp] theorem setWafer_mode (t : Nat) (w : Option Wafer) (c : Part) : (setWafer t w c).mode = c.mode := rfl
@[simp] theorem setWafer_carriers (t : Nat) (w : Option Wafer) (c : Part) : (setWafer t w c).carriers = c.carriers := rfl
@[simp] theorem setWafer_lots (t : Nat) (w : Option Wafer) (c : Part) : (setWafer t w c).lots = c.lots := rfl
@[simp] theorem setWafer_startCounter (t : Nat) (w : Option Wafer) (c : Part) : (setWafer t w c).startCounter = c.startCounter := rfl
@[simp] theorem setWafer_recipes (t : Nat) (w : Option Wafer) (c : Part) : (setWafer t w c).recipes = c.recipes := rfl
@[simp] theorem setWafer_freeCount (t : Nat) (w : Option Wafer) (c : Part) : (setWafer t w c).freeCount = c.freeCount := rfl
@[simp] theorem setWafer_lists (t : Nat) (w : Option Wafer) (c : Part) : (setWafer t w c).lists = c.lists := rfl
@[simp] theorem setWafer_places (t : Nat) (w : Option Wafer) (c : Part) : (setWafer t w c).places = c.places := rfl
@[simp] theorem setWafer_wafers (t : Nat) (w : Option Wafer) (c : Part) : (setWafer t w c).wafers = c.wafers.set t w := rfl
@[simp] theorem setWafer_orders (t : Nat) (w : Option Wafer) (c : Part) : (setWafer t w c).orders = c.orders := rfl
@[simp] theorem setWafer_orderCounter (t : Nat) (w : Option Wafer) (c : Part) : (setWafer t w c).orderCounter = c.orderCounter := rfl
@[simp] theorem setWafer_lockA (t : Nat) (w : Option Wafer) (c : Part) : (setWafer t w c).lockA = c.lockA := rfl
@[simp] theorem setWafer_lockB (t : Nat) (w : Option Wafer) (c : Part) : (setWafer t w c).lockB = c.lockB := rfl
@[simp] theorem setWafer_atLoad (t : Nat) (w : Option Wafer) (c : Part) : (setWafer t w c).atLoad = c.atLoad := rfl
@[simp] theorem setWafer_session (t : Nat) (w : Option Wafer) (c : Part) : (setWafer t w c).session = c.session := rfl
@[simp] theorem setWafer_converter (t : Nat) (w : Option Wafer) (c : Part) : (setWafer t w c).converter = c.converter := rfl
@[simp] theorem setWafer_convResult (t : Nat) (w : Option Wafer) (c : Part) : (setWafer t w c).convResult = c.convResult := rfl
@[simp] theorem setWafer_drive (t : Nat) (w : Option Wafer) (c : Part) : (setWafer t w c).drive = c.drive := rfl
@[simp] theorem setWafer_focusRequest (t : Nat) (w : Option Wafer) (c : Part) : (setWafer t w c).focusRequest = c.focusRequest := rfl
@[simp] theorem setWafer_focusReference (t : Nat) (w : Option Wafer) (c : Part) : (setWafer t w c).focusReference = c.focusReference := rfl
@[simp] theorem setWafer_focusMap (t : Nat) (w : Option Wafer) (c : Part) : (setWafer t w c).focusMap = c.focusMap := rfl
@[simp] theorem setWafer_captureLog (t : Nat) (w : Option Wafer) (c : Part) : (setWafer t w c).captureLog = c.captureLog := rfl
@[simp] theorem setWafer_nextCapture (t : Nat) (w : Option Wafer) (c : Part) : (setWafer t w c).nextCapture = c.nextCapture := rfl
@[simp] theorem setWafer_credits (t : Nat) (w : Option Wafer) (c : Part) : (setWafer t w c).credits = c.credits := rfl
@[simp] theorem setWafer_waitingSite (t : Nat) (w : Option Wafer) (c : Part) : (setWafer t w c).waitingSite = c.waitingSite := rfl
@[simp] theorem setWafer_stats (t : Nat) (w : Option Wafer) (c : Part) : (setWafer t w c).stats = c.stats := rfl
@[simp] theorem setWafer_reportQueue (t : Nat) (w : Option Wafer) (c : Part) : (setWafer t w c).reportQueue = c.reportQueue := rfl
@[simp] theorem setWafer_waitingReports (t : Nat) (w : Option Wafer) (c : Part) : (setWafer t w c).waitingReports = c.waitingReports := rfl
@[simp] theorem setWafer_nextReport (t : Nat) (w : Option Wafer) (c : Part) : (setWafer t w c).nextReport = c.nextReport := rfl
@[simp] theorem setWafer_notices (t : Nat) (w : Option Wafer) (c : Part) : (setWafer t w c).notices = c.notices := rfl
@[simp] theorem setWafer_errors (t : Nat) (w : Option Wafer) (c : Part) : (setWafer t w c).errors = c.errors := rfl
@[simp] theorem setWafer_settings (t : Nat) (w : Option Wafer) (c : Part) : (setWafer t w c).settings = c.settings := rfl
@[simp] theorem setWafer_loading (t : Nat) (w : Option Wafer) (c : Part) : (setWafer t w c).loading = c.loading := rfl
@[simp] theorem setWafer_loadResult (t : Nat) (w : Option Wafer) (c : Part) : (setWafer t w c).loadResult = c.loadResult := rfl
@[simp] theorem setWafer_saving (t : Nat) (w : Option Wafer) (c : Part) : (setWafer t w c).saving = c.saving := rfl
@[simp] theorem setWafer_lastSave (t : Nat) (w : Option Wafer) (c : Part) : (setWafer t w c).lastSave = c.lastSave := rfl
@[simp] theorem setWafer_unsaved (t : Nat) (w : Option Wafer) (c : Part) : (setWafer t w c).unsaved = c.unsaved := rfl
@[simp] theorem setWafer_memory (t : Nat) (w : Option Wafer) (c : Part) : (setWafer t w c).memory = c.memory := rfl
@[simp] theorem setWafer_imagePartial (t : Nat) (w : Option Wafer) (c : Part) : (setWafer t w c).imagePartial = c.imagePartial := rfl

/-! ### setPlace -/

@[simp] theorem setPlace_mode (p : Place) (e : PlaceEntry) (c : Part) : (setPlace p e c).mode = c.mode := rfl
@[simp] theorem setPlace_carriers (p : Place) (e : PlaceEntry) (c : Part) : (setPlace p e c).carriers = c.carriers := rfl
@[simp] theorem setPlace_lots (p : Place) (e : PlaceEntry) (c : Part) : (setPlace p e c).lots = c.lots := rfl
@[simp] theorem setPlace_startCounter (p : Place) (e : PlaceEntry) (c : Part) : (setPlace p e c).startCounter = c.startCounter := rfl
@[simp] theorem setPlace_recipes (p : Place) (e : PlaceEntry) (c : Part) : (setPlace p e c).recipes = c.recipes := rfl
@[simp] theorem setPlace_freeCount (p : Place) (e : PlaceEntry) (c : Part) : (setPlace p e c).freeCount = c.freeCount := rfl
@[simp] theorem setPlace_lists (p : Place) (e : PlaceEntry) (c : Part) : (setPlace p e c).lists = c.lists := rfl
@[simp] theorem setPlace_places (p : Place) (e : PlaceEntry) (c : Part) : (setPlace p e c).places = c.places.set p e := rfl
@[simp] theorem setPlace_wafers (p : Place) (e : PlaceEntry) (c : Part) : (setPlace p e c).wafers = c.wafers := rfl
@[simp] theorem setPlace_orders (p : Place) (e : PlaceEntry) (c : Part) : (setPlace p e c).orders = c.orders := rfl
@[simp] theorem setPlace_orderCounter (p : Place) (e : PlaceEntry) (c : Part) : (setPlace p e c).orderCounter = c.orderCounter := rfl
@[simp] theorem setPlace_lockA (p : Place) (e : PlaceEntry) (c : Part) : (setPlace p e c).lockA = c.lockA := rfl
@[simp] theorem setPlace_lockB (p : Place) (e : PlaceEntry) (c : Part) : (setPlace p e c).lockB = c.lockB := rfl
@[simp] theorem setPlace_atLoad (p : Place) (e : PlaceEntry) (c : Part) : (setPlace p e c).atLoad = c.atLoad := rfl
@[simp] theorem setPlace_session (p : Place) (e : PlaceEntry) (c : Part) : (setPlace p e c).session = c.session := rfl
@[simp] theorem setPlace_converter (p : Place) (e : PlaceEntry) (c : Part) : (setPlace p e c).converter = c.converter := rfl
@[simp] theorem setPlace_convResult (p : Place) (e : PlaceEntry) (c : Part) : (setPlace p e c).convResult = c.convResult := rfl
@[simp] theorem setPlace_drive (p : Place) (e : PlaceEntry) (c : Part) : (setPlace p e c).drive = c.drive := rfl
@[simp] theorem setPlace_focusRequest (p : Place) (e : PlaceEntry) (c : Part) : (setPlace p e c).focusRequest = c.focusRequest := rfl
@[simp] theorem setPlace_focusReference (p : Place) (e : PlaceEntry) (c : Part) : (setPlace p e c).focusReference = c.focusReference := rfl
@[simp] theorem setPlace_focusMap (p : Place) (e : PlaceEntry) (c : Part) : (setPlace p e c).focusMap = c.focusMap := rfl
@[simp] theorem setPlace_captureLog (p : Place) (e : PlaceEntry) (c : Part) : (setPlace p e c).captureLog = c.captureLog := rfl
@[simp] theorem setPlace_nextCapture (p : Place) (e : PlaceEntry) (c : Part) : (setPlace p e c).nextCapture = c.nextCapture := rfl
@[simp] theorem setPlace_credits (p : Place) (e : PlaceEntry) (c : Part) : (setPlace p e c).credits = c.credits := rfl
@[simp] theorem setPlace_waitingSite (p : Place) (e : PlaceEntry) (c : Part) : (setPlace p e c).waitingSite = c.waitingSite := rfl
@[simp] theorem setPlace_stats (p : Place) (e : PlaceEntry) (c : Part) : (setPlace p e c).stats = c.stats := rfl
@[simp] theorem setPlace_reportQueue (p : Place) (e : PlaceEntry) (c : Part) : (setPlace p e c).reportQueue = c.reportQueue := rfl
@[simp] theorem setPlace_waitingReports (p : Place) (e : PlaceEntry) (c : Part) : (setPlace p e c).waitingReports = c.waitingReports := rfl
@[simp] theorem setPlace_nextReport (p : Place) (e : PlaceEntry) (c : Part) : (setPlace p e c).nextReport = c.nextReport := rfl
@[simp] theorem setPlace_notices (p : Place) (e : PlaceEntry) (c : Part) : (setPlace p e c).notices = c.notices := rfl
@[simp] theorem setPlace_errors (p : Place) (e : PlaceEntry) (c : Part) : (setPlace p e c).errors = c.errors := rfl
@[simp] theorem setPlace_settings (p : Place) (e : PlaceEntry) (c : Part) : (setPlace p e c).settings = c.settings := rfl
@[simp] theorem setPlace_loading (p : Place) (e : PlaceEntry) (c : Part) : (setPlace p e c).loading = c.loading := rfl
@[simp] theorem setPlace_loadResult (p : Place) (e : PlaceEntry) (c : Part) : (setPlace p e c).loadResult = c.loadResult := rfl
@[simp] theorem setPlace_saving (p : Place) (e : PlaceEntry) (c : Part) : (setPlace p e c).saving = c.saving := rfl
@[simp] theorem setPlace_lastSave (p : Place) (e : PlaceEntry) (c : Part) : (setPlace p e c).lastSave = c.lastSave := rfl
@[simp] theorem setPlace_unsaved (p : Place) (e : PlaceEntry) (c : Part) : (setPlace p e c).unsaved = c.unsaved := rfl
@[simp] theorem setPlace_memory (p : Place) (e : PlaceEntry) (c : Part) : (setPlace p e c).memory = c.memory := rfl
@[simp] theorem setPlace_imagePartial (p : Place) (e : PlaceEntry) (c : Part) : (setPlace p e c).imagePartial = c.imagePartial := rfl

/-! ### setSlot -/

@[simp] theorem setSlot_mode (m : Mover) (o : OrderSlot) (c : Part) : (setSlot m o c).mode = c.mode := rfl
@[simp] theorem setSlot_carriers (m : Mover) (o : OrderSlot) (c : Part) : (setSlot m o c).carriers = c.carriers := rfl
@[simp] theorem setSlot_lots (m : Mover) (o : OrderSlot) (c : Part) : (setSlot m o c).lots = c.lots := rfl
@[simp] theorem setSlot_startCounter (m : Mover) (o : OrderSlot) (c : Part) : (setSlot m o c).startCounter = c.startCounter := rfl
@[simp] theorem setSlot_recipes (m : Mover) (o : OrderSlot) (c : Part) : (setSlot m o c).recipes = c.recipes := rfl
@[simp] theorem setSlot_freeCount (m : Mover) (o : OrderSlot) (c : Part) : (setSlot m o c).freeCount = c.freeCount := rfl
@[simp] theorem setSlot_lists (m : Mover) (o : OrderSlot) (c : Part) : (setSlot m o c).lists = c.lists := rfl
@[simp] theorem setSlot_places (m : Mover) (o : OrderSlot) (c : Part) : (setSlot m o c).places = c.places := rfl
@[simp] theorem setSlot_wafers (m : Mover) (o : OrderSlot) (c : Part) : (setSlot m o c).wafers = c.wafers := rfl
@[simp] theorem setSlot_orders (m : Mover) (o : OrderSlot) (c : Part) : (setSlot m o c).orders = c.orders.set m o := rfl
@[simp] theorem setSlot_orderCounter (m : Mover) (o : OrderSlot) (c : Part) : (setSlot m o c).orderCounter = c.orderCounter := rfl
@[simp] theorem setSlot_lockA (m : Mover) (o : OrderSlot) (c : Part) : (setSlot m o c).lockA = c.lockA := rfl
@[simp] theorem setSlot_lockB (m : Mover) (o : OrderSlot) (c : Part) : (setSlot m o c).lockB = c.lockB := rfl
@[simp] theorem setSlot_atLoad (m : Mover) (o : OrderSlot) (c : Part) : (setSlot m o c).atLoad = c.atLoad := rfl
@[simp] theorem setSlot_session (m : Mover) (o : OrderSlot) (c : Part) : (setSlot m o c).session = c.session := rfl
@[simp] theorem setSlot_converter (m : Mover) (o : OrderSlot) (c : Part) : (setSlot m o c).converter = c.converter := rfl
@[simp] theorem setSlot_convResult (m : Mover) (o : OrderSlot) (c : Part) : (setSlot m o c).convResult = c.convResult := rfl
@[simp] theorem setSlot_drive (m : Mover) (o : OrderSlot) (c : Part) : (setSlot m o c).drive = c.drive := rfl
@[simp] theorem setSlot_focusRequest (m : Mover) (o : OrderSlot) (c : Part) : (setSlot m o c).focusRequest = c.focusRequest := rfl
@[simp] theorem setSlot_focusReference (m : Mover) (o : OrderSlot) (c : Part) : (setSlot m o c).focusReference = c.focusReference := rfl
@[simp] theorem setSlot_focusMap (m : Mover) (o : OrderSlot) (c : Part) : (setSlot m o c).focusMap = c.focusMap := rfl
@[simp] theorem setSlot_captureLog (m : Mover) (o : OrderSlot) (c : Part) : (setSlot m o c).captureLog = c.captureLog := rfl
@[simp] theorem setSlot_nextCapture (m : Mover) (o : OrderSlot) (c : Part) : (setSlot m o c).nextCapture = c.nextCapture := rfl
@[simp] theorem setSlot_credits (m : Mover) (o : OrderSlot) (c : Part) : (setSlot m o c).credits = c.credits := rfl
@[simp] theorem setSlot_waitingSite (m : Mover) (o : OrderSlot) (c : Part) : (setSlot m o c).waitingSite = c.waitingSite := rfl
@[simp] theorem setSlot_stats (m : Mover) (o : OrderSlot) (c : Part) : (setSlot m o c).stats = c.stats := rfl
@[simp] theorem setSlot_reportQueue (m : Mover) (o : OrderSlot) (c : Part) : (setSlot m o c).reportQueue = c.reportQueue := rfl
@[simp] theorem setSlot_waitingReports (m : Mover) (o : OrderSlot) (c : Part) : (setSlot m o c).waitingReports = c.waitingReports := rfl
@[simp] theorem setSlot_nextReport (m : Mover) (o : OrderSlot) (c : Part) : (setSlot m o c).nextReport = c.nextReport := rfl
@[simp] theorem setSlot_notices (m : Mover) (o : OrderSlot) (c : Part) : (setSlot m o c).notices = c.notices := rfl
@[simp] theorem setSlot_errors (m : Mover) (o : OrderSlot) (c : Part) : (setSlot m o c).errors = c.errors := rfl
@[simp] theorem setSlot_settings (m : Mover) (o : OrderSlot) (c : Part) : (setSlot m o c).settings = c.settings := rfl
@[simp] theorem setSlot_loading (m : Mover) (o : OrderSlot) (c : Part) : (setSlot m o c).loading = c.loading := rfl
@[simp] theorem setSlot_loadResult (m : Mover) (o : OrderSlot) (c : Part) : (setSlot m o c).loadResult = c.loadResult := rfl
@[simp] theorem setSlot_saving (m : Mover) (o : OrderSlot) (c : Part) : (setSlot m o c).saving = c.saving := rfl
@[simp] theorem setSlot_lastSave (m : Mover) (o : OrderSlot) (c : Part) : (setSlot m o c).lastSave = c.lastSave := rfl
@[simp] theorem setSlot_unsaved (m : Mover) (o : OrderSlot) (c : Part) : (setSlot m o c).unsaved = c.unsaved := rfl
@[simp] theorem setSlot_memory (m : Mover) (o : OrderSlot) (c : Part) : (setSlot m o c).memory = c.memory := rfl
@[simp] theorem setSlot_imagePartial (m : Mover) (o : OrderSlot) (c : Part) : (setSlot m o c).imagePartial = c.imagePartial := rfl

/-! ### setSessionState -/

@[simp] theorem setSessionState_mode (x : SessionState) (c : Part) : (setSessionState x c).mode = c.mode := rfl
@[simp] theorem setSessionState_carriers (x : SessionState) (c : Part) : (setSessionState x c).carriers = c.carriers := rfl
@[simp] theorem setSessionState_lots (x : SessionState) (c : Part) : (setSessionState x c).lots = c.lots := rfl
@[simp] theorem setSessionState_startCounter (x : SessionState) (c : Part) : (setSessionState x c).startCounter = c.startCounter := rfl
@[simp] theorem setSessionState_recipes (x : SessionState) (c : Part) : (setSessionState x c).recipes = c.recipes := rfl
@[simp] theorem setSessionState_freeCount (x : SessionState) (c : Part) : (setSessionState x c).freeCount = c.freeCount := rfl
@[simp] theorem setSessionState_lists (x : SessionState) (c : Part) : (setSessionState x c).lists = c.lists := rfl
@[simp] theorem setSessionState_places (x : SessionState) (c : Part) : (setSessionState x c).places = c.places := rfl
@[simp] theorem setSessionState_wafers (x : SessionState) (c : Part) : (setSessionState x c).wafers = c.wafers := rfl
@[simp] theorem setSessionState_orders (x : SessionState) (c : Part) : (setSessionState x c).orders = c.orders := rfl
@[simp] theorem setSessionState_orderCounter (x : SessionState) (c : Part) : (setSessionState x c).orderCounter = c.orderCounter := rfl
@[simp] theorem setSessionState_lockA (x : SessionState) (c : Part) : (setSessionState x c).lockA = c.lockA := rfl
@[simp] theorem setSessionState_lockB (x : SessionState) (c : Part) : (setSessionState x c).lockB = c.lockB := rfl
@[simp] theorem setSessionState_atLoad (x : SessionState) (c : Part) : (setSessionState x c).atLoad = c.atLoad := rfl
@[simp] theorem setSessionState_session (x : SessionState) (c : Part) : (setSessionState x c).session = { c.session with state := x } := rfl
@[simp] theorem setSessionState_converter (x : SessionState) (c : Part) : (setSessionState x c).converter = c.converter := rfl
@[simp] theorem setSessionState_convResult (x : SessionState) (c : Part) : (setSessionState x c).convResult = c.convResult := rfl
@[simp] theorem setSessionState_drive (x : SessionState) (c : Part) : (setSessionState x c).drive = c.drive := rfl
@[simp] theorem setSessionState_focusRequest (x : SessionState) (c : Part) : (setSessionState x c).focusRequest = c.focusRequest := rfl
@[simp] theorem setSessionState_focusReference (x : SessionState) (c : Part) : (setSessionState x c).focusReference = c.focusReference := rfl
@[simp] theorem setSessionState_focusMap (x : SessionState) (c : Part) : (setSessionState x c).focusMap = c.focusMap := rfl
@[simp] theorem setSessionState_captureLog (x : SessionState) (c : Part) : (setSessionState x c).captureLog = c.captureLog := rfl
@[simp] theorem setSessionState_nextCapture (x : SessionState) (c : Part) : (setSessionState x c).nextCapture = c.nextCapture := rfl
@[simp] theorem setSessionState_credits (x : SessionState) (c : Part) : (setSessionState x c).credits = c.credits := rfl
@[simp] theorem setSessionState_waitingSite (x : SessionState) (c : Part) : (setSessionState x c).waitingSite = c.waitingSite := rfl
@[simp] theorem setSessionState_stats (x : SessionState) (c : Part) : (setSessionState x c).stats = c.stats := rfl
@[simp] theorem setSessionState_reportQueue (x : SessionState) (c : Part) : (setSessionState x c).reportQueue = c.reportQueue := rfl
@[simp] theorem setSessionState_waitingReports (x : SessionState) (c : Part) : (setSessionState x c).waitingReports = c.waitingReports := rfl
@[simp] theorem setSessionState_nextReport (x : SessionState) (c : Part) : (setSessionState x c).nextReport = c.nextReport := rfl
@[simp] theorem setSessionState_notices (x : SessionState) (c : Part) : (setSessionState x c).notices = c.notices := rfl
@[simp] theorem setSessionState_errors (x : SessionState) (c : Part) : (setSessionState x c).errors = c.errors := rfl
@[simp] theorem setSessionState_settings (x : SessionState) (c : Part) : (setSessionState x c).settings = c.settings := rfl
@[simp] theorem setSessionState_loading (x : SessionState) (c : Part) : (setSessionState x c).loading = c.loading := rfl
@[simp] theorem setSessionState_loadResult (x : SessionState) (c : Part) : (setSessionState x c).loadResult = c.loadResult := rfl
@[simp] theorem setSessionState_saving (x : SessionState) (c : Part) : (setSessionState x c).saving = c.saving := rfl
@[simp] theorem setSessionState_lastSave (x : SessionState) (c : Part) : (setSessionState x c).lastSave = c.lastSave := rfl
@[simp] theorem setSessionState_unsaved (x : SessionState) (c : Part) : (setSessionState x c).unsaved = c.unsaved := rfl
@[simp] theorem setSessionState_memory (x : SessionState) (c : Part) : (setSessionState x c).memory = c.memory := rfl
@[simp] theorem setSessionState_imagePartial (x : SessionState) (c : Part) : (setSessionState x c).imagePartial = c.imagePartial := rfl

/-! ### countStat -/

@[simp] theorem countStat_mode (k : Statistic) (c : Part) : (countStat k c).mode = c.mode := rfl
@[simp] theorem countStat_carriers (k : Statistic) (c : Part) : (countStat k c).carriers = c.carriers := rfl
@[simp] theorem countStat_lots (k : Statistic) (c : Part) : (countStat k c).lots = c.lots := rfl
@[simp] theorem countStat_startCounter (k : Statistic) (c : Part) : (countStat k c).startCounter = c.startCounter := rfl
@[simp] theorem countStat_recipes (k : Statistic) (c : Part) : (countStat k c).recipes = c.recipes := rfl
@[simp] theorem countStat_freeCount (k : Statistic) (c : Part) : (countStat k c).freeCount = c.freeCount := rfl
@[simp] theorem countStat_lists (k : Statistic) (c : Part) : (countStat k c).lists = c.lists := rfl
@[simp] theorem countStat_places (k : Statistic) (c : Part) : (countStat k c).places = c.places := rfl
@[simp] theorem countStat_wafers (k : Statistic) (c : Part) : (countStat k c).wafers = c.wafers := rfl
@[simp] theorem countStat_orders (k : Statistic) (c : Part) : (countStat k c).orders = c.orders := rfl
@[simp] theorem countStat_orderCounter (k : Statistic) (c : Part) : (countStat k c).orderCounter = c.orderCounter := rfl
@[simp] theorem countStat_lockA (k : Statistic) (c : Part) : (countStat k c).lockA = c.lockA := rfl
@[simp] theorem countStat_lockB (k : Statistic) (c : Part) : (countStat k c).lockB = c.lockB := rfl
@[simp] theorem countStat_atLoad (k : Statistic) (c : Part) : (countStat k c).atLoad = c.atLoad := rfl
@[simp] theorem countStat_session (k : Statistic) (c : Part) : (countStat k c).session = c.session := rfl
@[simp] theorem countStat_converter (k : Statistic) (c : Part) : (countStat k c).converter = c.converter := rfl
@[simp] theorem countStat_convResult (k : Statistic) (c : Part) : (countStat k c).convResult = c.convResult := rfl
@[simp] theorem countStat_drive (k : Statistic) (c : Part) : (countStat k c).drive = c.drive := rfl
@[simp] theorem countStat_focusRequest (k : Statistic) (c : Part) : (countStat k c).focusRequest = c.focusRequest := rfl
@[simp] theorem countStat_focusReference (k : Statistic) (c : Part) : (countStat k c).focusReference = c.focusReference := rfl
@[simp] theorem countStat_focusMap (k : Statistic) (c : Part) : (countStat k c).focusMap = c.focusMap := rfl
@[simp] theorem countStat_captureLog (k : Statistic) (c : Part) : (countStat k c).captureLog = c.captureLog := rfl
@[simp] theorem countStat_nextCapture (k : Statistic) (c : Part) : (countStat k c).nextCapture = c.nextCapture := rfl
@[simp] theorem countStat_credits (k : Statistic) (c : Part) : (countStat k c).credits = c.credits := rfl
@[simp] theorem countStat_waitingSite (k : Statistic) (c : Part) : (countStat k c).waitingSite = c.waitingSite := rfl
@[simp] theorem countStat_stats (k : Statistic) (c : Part) : (countStat k c).stats = c.stats.set k (c.stats.get k + 1#32) := rfl
@[simp] theorem countStat_reportQueue (k : Statistic) (c : Part) : (countStat k c).reportQueue = c.reportQueue := rfl
@[simp] theorem countStat_waitingReports (k : Statistic) (c : Part) : (countStat k c).waitingReports = c.waitingReports := rfl
@[simp] theorem countStat_nextReport (k : Statistic) (c : Part) : (countStat k c).nextReport = c.nextReport := rfl
@[simp] theorem countStat_notices (k : Statistic) (c : Part) : (countStat k c).notices = c.notices := rfl
@[simp] theorem countStat_errors (k : Statistic) (c : Part) : (countStat k c).errors = c.errors := rfl
@[simp] theorem countStat_settings (k : Statistic) (c : Part) : (countStat k c).settings = c.settings := rfl
@[simp] theorem countStat_loading (k : Statistic) (c : Part) : (countStat k c).loading = c.loading := rfl
@[simp] theorem countStat_loadResult (k : Statistic) (c : Part) : (countStat k c).loadResult = c.loadResult := rfl
@[simp] theorem countStat_saving (k : Statistic) (c : Part) : (countStat k c).saving = c.saving := rfl
@[simp] theorem countStat_lastSave (k : Statistic) (c : Part) : (countStat k c).lastSave = c.lastSave := rfl
@[simp] theorem countStat_unsaved (k : Statistic) (c : Part) : (countStat k c).unsaved = c.unsaved := rfl
@[simp] theorem countStat_memory (k : Statistic) (c : Part) : (countStat k c).memory = c.memory := rfl
@[simp] theorem countStat_imagePartial (k : Statistic) (c : Part) : (countStat k c).imagePartial = c.imagePartial := rfl

/-! ### recordError -/

@[simp] theorem recordError_mode (k : ErrorKind) (d : ErrorDetail) (c : Part) : (recordError k d c).mode = c.mode := rfl
@[simp] theorem recordError_carriers (k : ErrorKind) (d : ErrorDetail) (c : Part) : (recordError k d c).carriers = c.carriers := rfl
@[simp] theorem recordError_lots (k : ErrorKind) (d : ErrorDetail) (c : Part) : (recordError k d c).lots = c.lots := rfl
@[simp] theorem recordError_startCounter (k : ErrorKind) (d : ErrorDetail) (c : Part) : (recordError k d c).startCounter = c.startCounter := rfl
@[simp] theorem recordError_recipes (k : ErrorKind) (d : ErrorDetail) (c : Part) : (recordError k d c).recipes = c.recipes := rfl
@[simp] theorem recordError_freeCount (k : ErrorKind) (d : ErrorDetail) (c : Part) : (recordError k d c).freeCount = c.freeCount := rfl
@[simp] theorem recordError_lists (k : ErrorKind) (d : ErrorDetail) (c : Part) : (recordError k d c).lists = c.lists := rfl
@[simp] theorem recordError_places (k : ErrorKind) (d : ErrorDetail) (c : Part) : (recordError k d c).places = c.places := rfl
@[simp] theorem recordError_wafers (k : ErrorKind) (d : ErrorDetail) (c : Part) : (recordError k d c).wafers = c.wafers := rfl
@[simp] theorem recordError_orders (k : ErrorKind) (d : ErrorDetail) (c : Part) : (recordError k d c).orders = c.orders := rfl
@[simp] theorem recordError_orderCounter (k : ErrorKind) (d : ErrorDetail) (c : Part) : (recordError k d c).orderCounter = c.orderCounter := rfl
@[simp] theorem recordError_lockA (k : ErrorKind) (d : ErrorDetail) (c : Part) : (recordError k d c).lockA = c.lockA := rfl
@[simp] theorem recordError_lockB (k : ErrorKind) (d : ErrorDetail) (c : Part) : (recordError k d c).lockB = c.lockB := rfl
@[simp] theorem recordError_atLoad (k : ErrorKind) (d : ErrorDetail) (c : Part) : (recordError k d c).atLoad = c.atLoad := rfl
@[simp] theorem recordError_session (k : ErrorKind) (d : ErrorDetail) (c : Part) : (recordError k d c).session = c.session := rfl
@[simp] theorem recordError_converter (k : ErrorKind) (d : ErrorDetail) (c : Part) : (recordError k d c).converter = c.converter := rfl
@[simp] theorem recordError_convResult (k : ErrorKind) (d : ErrorDetail) (c : Part) : (recordError k d c).convResult = c.convResult := rfl
@[simp] theorem recordError_drive (k : ErrorKind) (d : ErrorDetail) (c : Part) : (recordError k d c).drive = c.drive := rfl
@[simp] theorem recordError_focusRequest (k : ErrorKind) (d : ErrorDetail) (c : Part) : (recordError k d c).focusRequest = c.focusRequest := rfl
@[simp] theorem recordError_focusReference (k : ErrorKind) (d : ErrorDetail) (c : Part) : (recordError k d c).focusReference = c.focusReference := rfl
@[simp] theorem recordError_focusMap (k : ErrorKind) (d : ErrorDetail) (c : Part) : (recordError k d c).focusMap = c.focusMap := rfl
@[simp] theorem recordError_captureLog (k : ErrorKind) (d : ErrorDetail) (c : Part) : (recordError k d c).captureLog = c.captureLog := rfl
@[simp] theorem recordError_nextCapture (k : ErrorKind) (d : ErrorDetail) (c : Part) : (recordError k d c).nextCapture = c.nextCapture := rfl
@[simp] theorem recordError_credits (k : ErrorKind) (d : ErrorDetail) (c : Part) : (recordError k d c).credits = c.credits := rfl
@[simp] theorem recordError_waitingSite (k : ErrorKind) (d : ErrorDetail) (c : Part) : (recordError k d c).waitingSite = c.waitingSite := rfl
@[simp] theorem recordError_stats (k : ErrorKind) (d : ErrorDetail) (c : Part) : (recordError k d c).stats = c.stats := rfl
@[simp] theorem recordError_reportQueue (k : ErrorKind) (d : ErrorDetail) (c : Part) : (recordError k d c).reportQueue = c.reportQueue := rfl
@[simp] theorem recordError_waitingReports (k : ErrorKind) (d : ErrorDetail) (c : Part) : (recordError k d c).waitingReports = c.waitingReports := rfl
@[simp] theorem recordError_nextReport (k : ErrorKind) (d : ErrorDetail) (c : Part) : (recordError k d c).nextReport = c.nextReport := rfl
@[simp] theorem recordError_notices (k : ErrorKind) (d : ErrorDetail) (c : Part) : (recordError k d c).notices = c.notices := rfl
@[simp] theorem recordError_errors (k : ErrorKind) (d : ErrorDetail) (c : Part) : (recordError k d c).errors = c.errors.set k (noteError d (c.errors.get k)) := rfl
@[simp] theorem recordError_settings (k : ErrorKind) (d : ErrorDetail) (c : Part) : (recordError k d c).settings = c.settings := rfl
@[simp] theorem recordError_loading (k : ErrorKind) (d : ErrorDetail) (c : Part) : (recordError k d c).loading = c.loading := rfl
@[simp] theorem recordError_loadResult (k : ErrorKind) (d : ErrorDetail) (c : Part) : (recordError k d c).loadResult = c.loadResult := rfl
@[simp] theorem recordError_saving (k : ErrorKind) (d : ErrorDetail) (c : Part) : (recordError k d c).saving = c.saving := rfl
@[simp] theorem recordError_lastSave (k : ErrorKind) (d : ErrorDetail) (c : Part) : (recordError k d c).lastSave = c.lastSave := rfl
@[simp] theorem recordError_unsaved (k : ErrorKind) (d : ErrorDetail) (c : Part) : (recordError k d c).unsaved = c.unsaved := rfl
@[simp] theorem recordError_memory (k : ErrorKind) (d : ErrorDetail) (c : Part) : (recordError k d c).memory = c.memory := rfl
@[simp] theorem recordError_imagePartial (k : ErrorKind) (d : ErrorDetail) (c : Part) : (recordError k d c).imagePartial = c.imagePartial := rfl

end Sys2Proof.Machine
end

