-- ==== Sys2Proof/Laws/Ops.lean ====
section
/-! SUPPORT. The shared operations of Ops.lean, each said once: recording an error, raising an event condition, issuing an
order, dropping a reservation, rewriting a list. -/

namespace Sys2Proof.Machine

/-! ### Errors and event conditions -/

/-- The error table after an occurrence: that kind's record, and the others as they were (R173). -/
theorem recordError_get (k j : ErrorKind) (d : ErrorDetail) (c : Part) :
    (recordError k d c).errors.get j = if j = k then noteError d (c.errors.get k) else c.errors.get j := by
  by_cases h : j = k
  · subst h
    simp [recordError]
  · simp only [recordError, h, if_false]
    exact ErrorTable.get_set_other _ _ _ _ (fun e => h e.symm)

/-- After an occurrence the flag is set and a record stands (R173). -/
theorem noteError_flag (d : ErrorDetail) (r : ErrorRecord) : (noteError d r).flag = true := by
  unfold noteError
  split
  · assumption
  · rfl

@[simp] theorem noteError_reporting (d : ErrorDetail) (r : ErrorRecord) : (noteError d r).reporting = r.reporting := by
  unfold noteError
  split <;> rfl

/-- The count never passes 255 (R173). -/
theorem noteError_count (d : ErrorDetail) (r : ErrorRecord) : (noteError d r).count ≤ 255 := by
  unfold noteError
  split
  · exact Nat.min_le_right _ _
  · simp

/-- What stands raised at the port after an event condition is raised there (R169). -/
theorem mem_raiseEvent (p : PortId) (x y : Condition) (c : Part) :
    y ∈ ((raiseEvent p x c).notices.get p).raised ↔
      y ∈ conditionsOf p ∧ y.isEvent = true ∧ (y = x ∨ y ∈ (c.notices.get p).raised) := by
  simp [raiseEvent]

/-- Raising at one port leaves the others as they are. -/
theorem raiseEvent_other (p q : PortId) (x : Condition) (c : Part) (h : p ≠ q) :
    (raiseEvent p x c).notices.get q = c.notices.get q := by
  simp only [raiseEvent]
  exact PerPort.get_set_other _ _ _ _ h

/-- Raising changes no mask. -/
@[simp] theorem raiseEvent_enabled (p q : PortId) (x : Condition) (c : Part) :
    ((raiseEvent p x c).notices.get q).enabled = (c.notices.get q).enabled := by
  by_cases h : p = q
  · subst h
    simp [raiseEvent]
  · rw [raiseEvent_other p q x c h]

/-! ### Orders -/

/-- The order slots after an order goes out: that slot ISSUED with the next tag, the others as they were (R44). -/
theorem issueOrder_slot (m j : Mover) (k : OrderKind) (t : Option Nat) (c : Part) :
    (issueOrder m k t c).slotOf j =
      if j = m then .issued ⟨k, c.orderCounter, t, some (orderTimeoutMs c.settings m k)⟩ else c.slotOf j := by
  have core : (issueOrder m k t c).orders =
      c.orders.set m (.issued ⟨k, c.orderCounter, t, some (orderTimeoutMs c.settings m k)⟩) := by
    simp only [issueOrder]
    split <;> rfl
  simp only [Part.slotOf, core]
  by_cases h : j = m
  · subst h
    simp
  · simp only [h, if_false]
    exact OrderTable.get_set_other _ _ _ _ (fun e => h e.symm)

/-- The order counter after an order goes out (R44). -/
theorem issueOrder_counter (m : Mover) (k : OrderKind) (t : Option Nat) (c : Part) :
    (issueOrder m k t c).orderCounter = c.orderCounter + 1#16 := by
  simp only [issueOrder]
  split <;> rfl

/-! ### Locks -/

/-- A lock reads as it was written; the other lock as before. -/
theorem setLock_lock (j k : LockId) (l : Lock) (c : Part) :
    (setLock k l c).lock j = if j = k then l else c.lock j := by
  cases j <;> cases k <;> rfl

/-- Dropping a reservation changes the lock's reservation alone, and only when it names that wafer and purpose. -/
theorem dropReservation_lock (t : Nat) (p : Purpose) (k : LockId) (c : Part) :
    (dropReservation t p k c).lock k =
      if (c.lock k).reservation = some ⟨t, p⟩ then { c.lock k with reservation := none } else c.lock k := by
  unfold dropReservation
  by_cases h : (c.lock k).reservation = some ⟨t, p⟩
  · rw [if_pos h, if_pos h, setReservation, setLock_lock, if_pos rfl]
  · rw [if_neg h, if_neg h]

theorem dropReservation_other (t : Nat) (p : Purpose) (j k : LockId) (c : Part) (h : j ≠ k) :
    (dropReservation t p k c).lock j = c.lock j := by
  unfold dropReservation
  by_cases r : (c.lock k).reservation = some ⟨t, p⟩
  · rw [if_pos r, setReservation, setLock_lock, if_neg h]
  · rw [if_neg r]

/-! ### Lists -/

/-- The pool's free count is untouched by a rewritten list. -/
@[simp] theorem updateList_freeCount (i : LoadPort) (slot : Nat) (f : RevisitList → RevisitList) (c : Part) :
    (updateList i slot f c).freeCount = c.freeCount := rfl

@[simp] theorem updateEntry_freeCount (i : LoadPort) (slot n : Nat) (f : SiteEntry → SiteEntry) (c : Part) :
    (updateEntry i slot n f c).freeCount = c.freeCount := rfl

/-- Rewriting the fields of entries keeps every list's length. -/
theorem updateEntry_lengths (i : LoadPort) (slot n : Nat) (f : SiteEntry → SiteEntry) (c : Part) :
    (updateEntry i slot n f c).lists.map (·.entries.length) = c.lists.map (·.entries.length) := by
  simp only [updateEntry, updateList, List.map_map]
  apply List.map_congr_left
  intro l _
  simp only [Function.comp]
  split <;> simp

/-- The entries that a list's end returns to the pool are those it held (R38). -/
theorem freeList_pool (i : LoadPort) (slot : Nat) (c : Part) :
    (freeList i slot c).freeCount + ((freeList i slot c).lists.map (·.entries.length)).sum =
      c.freeCount + (c.lists.map (·.entries.length)).sum := by
  have split (l : List RevisitList) (q : RevisitList → Bool) :
      ((l.filter q).map (·.entries.length)).sum + ((l.filter (fun x => !q x)).map (·.entries.length)).sum =
        (l.map (·.entries.length)).sum := by
    induction l with
    | nil => rfl
    | cons a rest ih =>
      by_cases h : q a = true
      · simp [h, List.filter_cons]
        omega
      · simp [h, List.filter_cons]
        omega
  have := split c.lists (fun l => l.lot == i && l.slot == slot)
  simp only [freeList]
  omega

/-! ### Lots and reports -/

/-- A rewritten lot record, and the others as they were. -/
theorem updateLot_lot (i j : LoadPort) (f : Lot → Lot) (c : Part) :
    (updateLot i f c).lot? j = (c.lot? j).map (fun l => if i = j then f l else l) := by
  unfold updateLot
  by_cases h : i = j
  · subst h
    cases q : c.lot? i with
    | none => simp [q]
    | some l => simp [setLot, Part.lot?]
  · cases c.lot? i with
    | none => simp [h]
    | some l => simp [h, setLot, Part.lot?, PerLoadPort.get_set_other _ _ _ _ h]

/-- Rewriting a lot record writes the lot records alone. -/
theorem updateLot_rest (i : LoadPort) (f : Lot → Lot) (c : Part) :
    updateLot i f c = { c with lots := (updateLot i f c).lots } := by
  unfold updateLot; split <;> rfl

/-- A report that enters the queue takes the next number at the tail, its lot closes, its carrier may be released
(R155). -/
theorem enterReport_rest (i : LoadPort) (r : Report) (c : Part) :
    enterReport i r c = { c with
      reportQueue := c.reportQueue ++ [{ r with number := some c.nextReport }]
      nextReport := c.nextReport + 1#16
      lots := (updateLot i (fun l => { l with state := .closed }) c).lots
      carriers := c.carriers.set i { c.carrier i with state := .releasable } } := by
  unfold enterReport closeLot setCarrier updateLot Part.lot?; dsimp only
  split <;> rfl

/-- A rewritten lot record that keeps its aborted mark leaves every lot's. -/
theorem updateLot_lotAborted (i j : LoadPort) (f : Lot → Lot) (c : Part) (hf : ∀ l, (f l).aborted = l.aborted) :
    (updateLot i f c).lotAborted j = c.lotAborted j := by
  simp only [Part.lotAborted, updateLot_lot]
  cases c.lot? j with
  | none => rfl
  | some l => by_cases q : i = j <;> simp [q, hf]

/-- Counting a SKIPPED site writes its statistic and its lot's record. -/
theorem countResolution_skipped (c : Part) (i : LoadPort) (slot : Nat) (why : Reason) :
    countResolution i slot (.skipped why) c = { c with
      stats := c.stats.set .sitesSkipped (c.stats.get .sitesSkipped + 1#32)
      lots := (countResolution i slot (.skipped why) c).lots } ∧
    ∀ j, (countResolution i slot (.skipped why) c).lotAborted j = c.lotAborted j := by
  simp only [countResolution]
  refine ⟨?_, fun j => ?_⟩
  · rw [updateLot_rest]; rfl
  · rw [updateLot_lotAborted]
    · rfl
    · exact fun _ => rfl

/-! ### Wafer records -/

/-- A record in use lies within the table. -/
theorem wafer?_lt (c : Part) (t : Nat) (w : Wafer) (h : c.wafer? t = some w) : t < c.wafers.length := by
  by_contra q
  rw [Part.wafer?, List.getD_eq_getElem?_getD, List.getElem?_eq_none (by omega)] at h
  simp at h

/-- A record in use, rewritten: the wafer table alone. -/
theorem updateWafer_some (c : Part) (t : Nat) (w : Wafer) (f : Wafer → Wafer) (h : c.wafer? t = some w) :
    updateWafer t f c = { c with wafers := c.wafers.set t (some (f w)) } := by
  simp [updateWafer, h, setWafer]

/-- A record in use reads as it was written. -/
theorem wafer?_set (c d : Part) (t : Nat) (w x : Wafer) (h : c.wafer? t = some w)
    (hd : d.wafers = c.wafers.set t (some x)) : d.wafer? t = some x := by
  have := wafer?_lt c t w h
  simp [Part.wafer?, hd, List.getD_eq_getElem?_getD, this]

/-- An arrival writes the place and the wafer's record (R41, R45). -/
theorem arrive_some (c : Part) (t : Nat) (p : Place) (w : Wafer) (h : c.wafer? t = some w) :
    arrive t p c = { c with
      places := c.places.set p ⟨some t, none⟩, wafers := c.wafers.set t (some { w with place := some p }) } := by
  unfold arrive
  rw [updateWafer_some _ t w _ (by exact h)]; rfl

end Sys2Proof.Machine
end

