-- ==== Sys2Proof/Laws/Focus.lean ====
section
/-! SUPPORT. The Focus Unit: a conversion's start, a sweep's begin and the counts it makes, field by field. -/

namespace Sys2Proof.Machine

/-- A conversion's start (R92): the drive and the converter. -/
theorem startConversion_eq (z : Nat) (c : Part) : startConversion z c = { c with
    drive := z
    converter := if z ≠ c.drive then .settling c.sessionRecipe.resolution c.settings.settleTime
      else match c.converter with
        | .settling r ms => .settling r ms
        | _ => .zero c.sessionRecipe.resolution } := by
  unfold startConversion
  by_cases h : z = c.drive
  · subst h
    simp only [if_true, ne_eq, not_true, if_false]
    cases hc : c.converter <;> simp only [] 
    rw [← hc]
  · simp [h]

/-- A focus count: a statistic, and a total of the session wafer's lot (R98, R101, R138). -/
def countFor (k : Statistic) (f : LotCounters → LotCounters) (c : Part) : Part := { c with
    stats := c.stats.set k (c.stats.get k + 1#32)
    lots := match c.sessionLot with
      | none => c.lots
      | some i => match c.lot? i with
        | none => c.lots
        | some l => c.lots.set i (some { l with counters := f l.counters }) }

/-- A sweep counted. -/
theorem countSweep_eq (c : Part) : countSweep c = countFor .sweeps (fun k => { k with sweeps := min (k.sweeps + 1) 4294967295 }) c := by
  have h : (countStat .sweeps c).sessionLot = c.sessionLot := rfl
  have h2 : ∀ i, (countStat .sweeps c).lot? i = c.lot? i := fun _ => rfl
  simp only [countSweep, countFor, h, updateLot, h2]
  cases c.sessionLot with
  | none => rfl
  | some i => dsimp only; cases c.lot? i <;> rfl

/-- A map hit counted. -/
theorem countMapHit_eq (c : Part) : countMapHit c = countFor .mapHits (fun k => { k with mapHits := min (k.mapHits + 1) 4294967295 }) c := by
  have h : (countStat .mapHits c).sessionLot = c.sessionLot := rfl
  have h2 : ∀ i, (countStat .mapHits c).lot? i = c.lot? i := fun _ => rfl
  simp only [countMapHit, countFor, h, updateLot, h2]
  cases c.sessionLot with
  | none => rfl
  | some i => dsimp only; cases c.lot? i <;> rfl

/-- Counting leaves the session's recipe. -/
theorem countFor_recipe (k f) (c : Part) : (countFor k f c).sessionRecipe = c.sessionRecipe := by
  have h : (countFor k f c).sessionLot = c.sessionLot := rfl
  simp only [Part.sessionRecipe, h]
  cases hs : c.sessionLot with
  | none => rfl
  | some i =>
    simp only [Part.recipeOf, countFor, Part.lot?, hs]
    cases hl : c.lots.get i with
    | none => simp [hl]
    | some l => simp

/-- A sweep's begin, field by field (R101; log 27). -/
theorem beginSweep_eq (stage centre r) (c : Part) : beginSweep stage centre r c =
    (let z := stepDrive centre c.sessionRecipe.sweepSteps c.sessionRecipe.stepSize 1
    let s := countFor .sweeps (fun k => { k with sweeps := min (k.sweeps + 1) 4294967295 }) c
    { s with
      drive := z
      converter := if z ≠ s.drive then .settling s.sessionRecipe.resolution s.settings.settleTime
      else match s.converter with
        | .settling r ms => .settling r ms
        | _ => .zero s.sessionRecipe.resolution
      focusRequest := some { r with
        stage, checkZ := none, checkRef := none, centre := some centre, step := 1, counts := [], drives := [z]
        restarts := 0 } }) := by
  simp only [beginSweep, countSweep_eq, startStep, startConversion_eq, countFor_recipe, List.nil_append]

end Sys2Proof.Machine
end

