-- ==== Sys2Proof/Laws/Sites.lean ====
section
/-! SUPPORT. Site entries: what rewriting one entry of a wafer's list leaves readable. -/

namespace Sys2Proof.Machine

/-- A site that is found: its wafer record, and the entry in that wafer's list. -/
theorem site?_some (c : Part) (t n : Nat) (i : LoadPort) (slot : Nat) (e : SiteEntry) (h : c.site? t n = some (i, slot, e)) :
    ∃ w, c.wafer? t = some w ∧ w.lot = i ∧ w.slot = slot ∧
      (c.entries i slot).find? (fun x => x.number == n) = some e ∧ e.number = n := by
  unfold Part.site? at h
  cases e1 : c.wafer? t with
  | none => simp [e1] at h
  | some w =>
    simp only [e1] at h
    cases e2 : (c.entries w.lot w.slot).find? (fun x => x.number == n) with
    | none => simp [e2] at h
    | some x =>
      simp only [e2, Option.some.injEq, Prod.mk.injEq] at h
      obtain ⟨rfl, rfl, rfl⟩ := h
      exact ⟨w, rfl, rfl, rfl, e2, by simpa using List.find?_some e2⟩

/-- An entry rewritten in place, its number kept, is found rewritten. -/
theorem find_mapped (l : List SiteEntry) (n : Nat) (f : SiteEntry → SiteEntry) (hf : ∀ e, (f e).number = e.number)
    (e : SiteEntry) (h : l.find? (fun x => x.number == n) = some e) :
    (l.map (fun x => if x.number == n then f x else x)).find? (fun x => x.number == n) = some (f e) := by
  induction l with
  | nil => simp at h
  | cons a r ih =>
    by_cases q : (a.number == n) = true
    · simp only [List.find?, q, Option.some.injEq] at h
      subst h
      simp only [List.map_cons, q, if_true, List.find?, hf]
    · have q : (a.number == n) = false := by simpa using q
      simp only [List.find?, q] at h
      simp only [List.map_cons, q, List.find?, Bool.false_eq_true, if_false]
      exact ih h

/-- Rewriting a list that keeps its lot and slot rewrites the list found under them, and no other. -/
theorem updateList_list (c : Part) (i j : LoadPort) (slot k : Nat) (f : RevisitList → RevisitList)
    (hf : ∀ l, (f l).lot = l.lot ∧ (f l).slot = l.slot) :
    (updateList i slot f c).list? j k =
      (c.list? j k).map (fun l => if j = i ∧ k = slot then f l else l) := by
  simp only [Part.list?, updateList]
  generalize c.lists = ls
  induction ls with
  | nil => rfl
  | cons a r ih =>
    by_cases here : a.lot = i ∧ a.slot = slot
    · have m : (a.lot == i && a.slot == slot) = true := by simp [here]
      simp only [List.map_cons, m, if_true, List.find?, (hf a).1, (hf a).2]
      by_cases q : (a.lot == j && a.slot == k) = true
      · have : j = i ∧ k = slot := by
          simp only [Bool.and_eq_true, beq_iff_eq] at q
          exact ⟨q.1.symm.trans here.1, q.2.symm.trans here.2⟩
        simp only [this, m, and_self, if_true, Option.map]
      · have q : (a.lot == j && a.slot == k) = false := by simpa using q
        simpa only [q] using ih
    · have m : (a.lot == i && a.slot == slot) = false := by
        rw [← Bool.not_eq_true]
        simpa using here
      simp only [List.map_cons, m, Bool.false_eq_true, if_false, List.find?]
      by_cases q : (a.lot == j && a.slot == k) = true
      · have : ¬ (j = i ∧ k = slot) := by
          simp only [Bool.and_eq_true, beq_iff_eq] at q
          rintro ⟨rfl, rfl⟩
          exact here q
        simp only [q, if_neg this, Option.map]
      · have q : (a.lot == j && a.slot == k) = false := by simpa using q
        simpa only [q] using ih

/-- The entries of the list in which an entry is rewritten. -/
theorem updateEntry_entries (c : Part) (i : LoadPort) (slot n : Nat) (f : SiteEntry → SiteEntry) :
    (updateEntry i slot n f c).entries i slot =
      (c.entries i slot).map (fun e => if e.number == n then f e else e) := by
  simp only [Part.entries, updateEntry]
  have h := updateList_list c i i slot slot
    (fun l => { l with entries := l.entries.map (fun e => if e.number == n then f e else e) }) (fun _ => ⟨rfl, rfl⟩)
  rw [h]
  cases c.list? i slot <;> simp

/-- A site rewritten, its number kept, is found rewritten. -/
theorem updateSite_site? (c : Part) (t n : Nat) (f : SiteEntry → SiteEntry) (i : LoadPort) (slot : Nat) (e : SiteEntry)
    (hf : ∀ e, (f e).number = e.number) (h : c.site? t n = some (i, slot, e)) :
    (updateSite t n f c).site? t n = some (i, slot, f e) := by
  obtain ⟨w, h1, h2, h3, h4, _⟩ := site?_some c t n i slot e h
  simp only [updateSite, h1, h2, h3, Part.site?]
  have : (updateEntry i slot n f c).wafer? t = some w := h1
  simp only [this, h2, h3, updateEntry_entries, find_mapped _ n f hf e h4]

/-- Rewriting a site changes the lists alone. -/
theorem updateSite_rest (c : Part) (t n : Nat) (f : SiteEntry → SiteEntry) :
    updateSite t n f c = { c with lists := (updateSite t n f c).lists } := by
  unfold updateSite
  split <;> rfl

/-- What a site query reads: the wafer records and the lists. -/
theorem site?_congr (c d : Part) (hw : c.wafers = d.wafers) (hl : c.lists = d.lists) (t n : Nat) :
    c.site? t n = d.site? t n := by
  unfold Part.site? Part.wafer? Part.entries Part.list?
  rw [hw, hl]

end Sys2Proof.Machine
end

