-- ==== Sys2Proof/Laws/Frames.lean ====
section
/-! SUPPORT. Which site entries an operation can change (`OnlyList`, `OnlySites`), and what leaving flight does
(`LeavesFlight`). -/

namespace Sys2Proof.Machine

/-! ### One list -/

/-- What is said of lists alone holds of any parts with those lists. -/
theorem onlyList_congr (i : LoadPort) (slot : Nat) (c d c' d' : Part) (hc : c'.lists = c.lists) (hd : d'.lists = d.lists)
    (h : OnlyList i slot c d) : OnlyList i slot c' d' := by
  simpa only [OnlyList, Part.list?, hc, hd] using h

theorem onlyList_refl (i : LoadPort) (slot : Nat) (c d : Part) (h : d.lists = c.lists) : OnlyList i slot c d :=
  onlyList_congr i slot c c c d rfl h ⟨fun _ _ _ => rfl, rfl⟩

theorem OnlyList.trans {i : LoadPort} {slot : Nat} {a b c : Part} (h : OnlyList i slot a b) (k : OnlyList i slot b c) :
    OnlyList i slot a c :=
  ⟨fun j m x => (k.1 j m x).trans (h.1 j m x), k.2.trans h.2⟩

/-- A list rewritten in its entries' review fields: that list alone, its sites in their order. -/
theorem updateList_onlyList (i : LoadPort) (slot : Nat) (g : SiteEntry → SiteEntry) (c : Part)
    (hg : ∀ e, (g e).number = e.number) :
    OnlyList i slot c (updateList i slot (fun l => { l with entries := l.entries.map g }) c) := by
  refine ⟨fun j k h => ?_, ?_⟩ <;>
    rw [updateList_list c i _ slot _ (fun l => { l with entries := l.entries.map g }) (fun _ => ⟨rfl, rfl⟩)]
  · have : ¬ (j = i ∧ k = slot) := fun x => h (by rw [x.1, x.2])
    simp only [this, if_false]
    cases c.list? j k <;> rfl
  · cases c.list? i slot with
    | none => rfl
    | some l => simp [hg]

/-! ### One site -/

theorem onlySites_congr (i : LoadPort) (slot : Nat) (ns : List Nat) (c d c' d' : Part) (hc : c'.lists = c.lists)
    (hd : d'.lists = d.lists) (h : OnlySites i slot ns c d) : OnlySites i slot ns c' d' := by
  simpa only [OnlySites, OnlyList, Part.entryAt, Part.entries, Part.list?, hc, hd] using h

theorem onlySites_refl (i : LoadPort) (slot : Nat) (ns : List Nat) (c d : Part) (h : d.lists = c.lists) :
    OnlySites i slot ns c d :=
  onlySites_congr i slot ns c c c d rfl h ⟨onlyList_refl i slot c c rfl, fun _ _ => rfl⟩

theorem OnlySites.trans {i : LoadPort} {slot : Nat} {ns : List Nat} {a b c : Part} (h : OnlySites i slot ns a b)
    (k : OnlySites i slot ns b c) : OnlySites i slot ns a c :=
  ⟨h.1.trans k.1, fun m x => (k.2 m x).trans (h.2 m x)⟩

theorem OnlySites.mono {i : LoadPort} {slot : Nat} {ns ms : List Nat} {a b : Part} (h : OnlySites i slot ns a b)
    (sub : ∀ n ∈ ns, n ∈ ms) : OnlySites i slot ms a b :=
  ⟨h.1, fun m x => h.2 m (fun y => x (sub m y))⟩

/-- Another entry of the list is found as before. -/
theorem find_unmapped (l : List SiteEntry) (n m : Nat) (g : SiteEntry → SiteEntry) (hg : ∀ e, (g e).number = e.number)
    (h : m ≠ n) :
    (l.map (fun x => if x.number == n then g x else x)).find? (fun x => x.number == m) =
      l.find? (fun x => x.number == m) := by
  induction l with
  | nil => rfl
  | cons a r ih =>
    by_cases q : a.number = n
    · have : (a.number == m) = false := by simpa [q] using h.symm
      simp only [List.map_cons, q, beq_self_eq_true, if_true, List.find?, hg, ih]
      simp only [← q, this]
    · have : (a.number == n) = false := by simpa using q
      simp only [List.map_cons, this, Bool.false_eq_true, if_false, List.find?, ih]

/-- An entry rewritten, its number kept: that site alone. -/
theorem updateEntry_onlySites (i : LoadPort) (slot n : Nat) (g : SiteEntry → SiteEntry) (c : Part)
    (hg : ∀ e, (g e).number = e.number) : OnlySites i slot [n] c (updateEntry i slot n g c) := by
  have only := updateList_onlyList i slot (fun e => if e.number == n then g e else e) c
    (fun e => by cases (e.number == n) <;> [rfl; exact hg e])
  refine ⟨only, fun m h => ?_⟩
  rw [Part.entryAt, updateEntry_entries, find_unmapped _ n m g hg (by simpa using h), Part.entryAt]

theorem updateSite_onlySites (t n : Nat) (g : SiteEntry → SiteEntry) (c : Part) (w : Wafer) (h : c.wafer? t = some w)
    (hg : ∀ e, (g e).number = e.number) : OnlySites w.lot w.slot [n] c (updateSite t n g c) := by
  rw [updateSite, h]
  exact updateEntry_onlySites w.lot w.slot n g c hg

/-- A site that is found and rewritten: it reads the new entry, and it is the only one that changes. -/
theorem updateSite_found (c : Part) (t n : Nat) (g : SiteEntry → SiteEntry) (i : LoadPort) (slot : Nat) (e : SiteEntry)
    (hg : ∀ e, (g e).number = e.number) (h : c.site? t n = some (i, slot, e)) :
    (updateSite t n g c).site? t n = some (i, slot, g e) ∧ OnlySites i slot [n] c (updateSite t n g c) := by
  obtain ⟨w, h1, rfl, rfl, -, -⟩ := site?_some c t n i slot e h
  exact ⟨updateSite_site? c t n g _ _ e hg h, updateSite_onlySites t n g c w h1 hg⟩

/-- A site is read from its wafer's list. -/
theorem site?_entryAt (c : Part) (t n : Nat) (w : Wafer) (h : c.wafer? t = some w) :
    c.site? t n = (c.entryAt w.lot w.slot n).map (fun e => (w.lot, w.slot, e)) := by
  simp only [Part.site?, h, Part.entryAt]
  cases (c.entries w.lot w.slot).find? (fun e => e.number == n) <;> rfl

/-- The PENDING entries of a list skipped together: that list alone. -/
theorem skipPending_onlyList (i : LoadPort) (slot : Nat) (why : Reason) (c : Part) :
    OnlyList i slot c (skipPending i slot why c) := by
  refine onlyList_congr _ _ _ _ _ _ rfl ?_ (updateList_onlyList i slot
    (fun e => if e.state == .pending then resolveEntry (.skipped why) e else e) c
    (fun e => by cases (e.state == .pending) <;> rfl))
  simp only [skipPending, countSkips]
  rw [updateLot_rest]

/-- A site skipped: its entry, its statistic and its lot's counts. -/
theorem resolveSite_skipped (c : Part) (t n : Nat) (w : Wafer) (e : SiteEntry) (why : Reason) (hw : c.wafer? t = some w)
    (h : c.site? t n = some (w.lot, w.slot, e)) :
    let d := resolveSite t n (.skipped why) c
    d = { c with
      lists := d.lists, lots := d.lots, stats := c.stats.set .sitesSkipped (c.stats.get .sitesSkipped + 1#32) } ∧
    d.site? t n = some (w.lot, w.slot, resolveEntry (.skipped why) e) ∧ OnlySites w.lot w.slot [n] c d ∧
    ∀ i, d.lotAborted i = c.lotAborted i := by
  have here : updateEntry w.lot w.slot n (resolveEntry (.skipped why)) c =
      updateSite t n (resolveEntry (.skipped why)) c := by
    simp [updateSite, hw]
  have rest := updateSite_rest c t n (resolveEntry (.skipped why))
  obtain ⟨found, only⟩ := updateSite_found c t n (resolveEntry (.skipped why)) w.lot w.slot e (fun _ => rfl) h
  simp only [resolveSite, h, here]
  generalize updateSite t n (resolveEntry (.skipped why)) c = x at *
  obtain ⟨counted, aborted⟩ := countResolution_skipped x w.lot w.slot why
  generalize countResolution w.lot w.slot (.skipped why) x = d at *
  have lists : d.lists = x.lists := by rw [counted]
  have wafers : d.wafers = x.wafers := by rw [counted]
  refine ⟨?_, (site?_congr _ _ wafers lists t n).trans found, onlySites_congr _ _ _ _ _ _ _ rfl lists only, fun i => ?_⟩
  · rw [lists]
    conv_lhs => rw [counted]
    rw [rest]
  · rw [aborted, rest]; rfl

/-! ### Leaving flight -/

/-- The CX's word that a site has left flight, and the session's own step for it. -/
theorem siteLeft_leaves (t n : Nat) (c : Part) : LeavesFlight t n c (siteLeft t n c) := by
  refine ⟨fun h => if_neg h, fun h k => ?_⟩
  have : siteLeft t n c = leaveFlight c := if_pos ⟨h, k⟩
  rw [this]
  refine ⟨fun q => ?_, fun q => ?_, fun q r => ?_⟩
  · simp only [leaveFlight, q]
  · simp only [leaveFlight, q, setSessionState]
  · cases x : c.session.state <;> simp_all [leaveFlight]

theorem leaveFlight_leaves (t n : Nat) (c : Part) (h : c.session.wafer = some t) (k : c.session.inFlight = some n) :
    LeavesFlight t n c (leaveFlight c) := by
  have : siteLeft t n c = leaveFlight c := if_pos ⟨h, k⟩
  exact this ▸ siteLeft_leaves t n c

end Sys2Proof.Machine
end

