-- ==== Sys2Proof/Laws/Settle.lean ====
section
/-! SUPPORT. What `settle` and the operations under it leave unchanged: the mode, the recipes, the session, the focus unit,
the capture exchange, the errors, the settings and the serial memory. -/

namespace Sys2Proof.Machine

namespace SettleKeeps

theorem refl (c : Part) : SettleKeeps c c := by constructor <;> rfl

theorem trans {a b c : Part} (h : SettleKeeps a b) (k : SettleKeeps b c) : SettleKeeps a c := by
  cases h; cases k; constructor <;> (simp only [*])

end SettleKeeps

/-- A fold keeps what each of its steps keeps. -/
theorem foldl_keeps {α : Type} (f : Part → α → Part) (h : ∀ c a, SettleKeeps c (f c a)) (l : List α) (c : Part) :
    SettleKeeps c (l.foldl f c) := by
  induction l generalizing c with
  | nil => exact SettleKeeps.refl c
  | cons a rest ih => exact (h c a).trans (ih (f c a))

theorem setLot_keeps (i : LoadPort) (l : Option Lot) (c : Part) : SettleKeeps c (setLot i l c) := by
  constructor <;> rfl

theorem setCarrier_keeps (i : LoadPort) (k : Carrier) (c : Part) : SettleKeeps c (setCarrier i k c) := by
  constructor <;> rfl

theorem setWafer_keeps (t : Nat) (w : Option Wafer) (c : Part) : SettleKeeps c (setWafer t w c) := by
  constructor <;> rfl

theorem setPlace_keeps (p : Place) (e : PlaceEntry) (c : Part) : SettleKeeps c (setPlace p e c) := by
  constructor <;> rfl

theorem setLock_keeps (k : LockId) (l : Lock) (c : Part) : SettleKeeps c (setLock k l c) := by
  cases k <;> constructor <;> rfl

theorem raiseEvent_keeps (p : PortId) (x : Condition) (c : Part) : SettleKeeps c (raiseEvent p x c) := by
  constructor <;> rfl

theorem raiseLotState_keeps (c : Part) : SettleKeeps c (raiseLotState c) :=
  (raiseEvent_keeps _ _ c).trans (raiseEvent_keeps _ _ _)

theorem updateList_keeps (i : LoadPort) (slot : Nat) (f) (c : Part) : SettleKeeps c (updateList i slot f c) := by
  constructor <;> rfl

theorem freeList_keeps (i : LoadPort) (slot : Nat) (c : Part) : SettleKeeps c (freeList i slot c) := by
  constructor <;> rfl

theorem updateLot_keeps (i : LoadPort) (f) (c : Part) : SettleKeeps c (updateLot i f c) := by
  unfold updateLot; split
  · exact SettleKeeps.refl c
  · exact setLot_keeps _ _ _

theorem updateWafer_keeps (t : Nat) (f) (c : Part) : SettleKeeps c (updateWafer t f c) := by
  unfold updateWafer; split
  · exact SettleKeeps.refl c
  · exact setWafer_keeps _ _ _

theorem setPhase_keeps (t : Nat) (p : Phase) (c : Part) : SettleKeeps c (setPhase t p c) := updateWafer_keeps _ _ _

theorem setReservation_keeps (k : LockId) (r) (c : Part) : SettleKeeps c (setReservation k r c) := setLock_keeps _ _ _

theorem setLockState_keeps (k : LockId) (x) (c : Part) : SettleKeeps c (setLockState k x c) := setLock_keeps _ _ _

theorem dropReservation_keeps (t : Nat) (p : Purpose) (k : LockId) (c : Part) :
    SettleKeeps c (dropReservation t p k c) := by
  unfold dropReservation; split
  · exact setReservation_keeps _ _ _
  · exact SettleKeeps.refl c

theorem dropReservations_keeps (t : Nat) (p : Purpose) (c : Part) : SettleKeeps c (dropReservations t p c) :=
  (dropReservation_keeps _ _ _ _).trans (dropReservation_keeps _ _ _ _)

theorem issueOrder_keeps (m : Mover) (k : OrderKind) (t : Option Nat) (c : Part) :
    SettleKeeps c (issueOrder m k t c) := by
  unfold issueOrder; dsimp only; split
  · refine SettleKeeps.trans ?_ (setPlace_keeps _ _ _)
    constructor <;> rfl
  · constructor <;> rfl

theorem issuePump_keeps (k : LockId) (t : Option Nat) (c : Part) : SettleKeeps c (issuePump k t c) := by
  unfold issuePump; dsimp only; split
  · exact (setLockState_keeps _ _ _).trans (issueOrder_keeps _ _ _ _)
  · exact ((setLockState_keeps _ _ _).trans (issueOrder_keeps _ _ _ _)).trans
      ((updateWafer_keeps _ _ _).trans (dropReservation_keeps _ _ _ _))

theorem issueVent_keeps (k : LockId) (t : Option Nat) (c : Part) : SettleKeeps c (issueVent k t c) :=
  (setLockState_keeps _ _ _).trans (issueOrder_keeps _ _ _ _)

theorem issueMoveSite_keeps (c : Part) : SettleKeeps c (issueMoveSite c) := by
  unfold issueMoveSite
  repeat' split
  all_goals first
    | exact SettleKeeps.refl c
    | exact (issueOrder_keeps _ _ _ c).trans (by constructor <;> rfl)

theorem redirect_keeps (c : Part) (t : Nat) : SettleKeeps c (redirect c t) := by
  unfold redirect
  repeat' split
  all_goals first
    | exact SettleKeeps.refl c
    | exact (setPhase_keeps _ _ _).trans (dropReservations_keeps _ _ _)

theorem lockWork_keeps (c : Part) (k : LockId) : SettleKeeps c (lockWork c k) := by
  unfold lockWork
  repeat' split
  all_goals first
    | exact SettleKeeps.refl c
    | exact issuePump_keeps _ _ _
    | exact issueVent_keeps _ _ _

theorem alignWork_keeps (c : Part) : SettleKeeps c (alignWork c) := by
  unfold alignWork
  repeat' split
  all_goals first
    | exact SettleKeeps.refl c
    | exact issueOrder_keeps _ _ _ _

theorem reserveReturn_keeps (t : Nat) (c : Part) : SettleKeeps c (reserveReturn t c) := by
  unfold reserveReturn
  repeat' split
  all_goals first
    | exact SettleKeeps.refl c
    | exact setReservation_keeps _ _ _
    | exact (setReservation_keeps _ _ _).trans (issuePump_keeps _ _ _)

theorem returnWork_keeps (c : Part) (p : Place) : SettleKeeps c (returnWork c p) := by
  unfold returnWork
  split
  · exact SettleKeeps.refl c
  · exact reserveReturn_keeps _ _

theorem drainLot_keeps (i : LoadPort) (c : Part) : SettleKeeps c (drainLot i c) := by
  unfold drainLot
  repeat' split
  all_goals first
    | exact SettleKeeps.refl c
    | exact (setLot_keeps _ _ _).trans (raiseLotState_keeps _)

theorem doArTask_keeps (task : ArTask) (c : Part) : SettleKeeps c (doArTask task c) := by
  unfold doArTask
  split
  · exact issueOrder_keeps _ _ _ _
  · exact ((setReservation_keeps _ _ _).trans (setPhase_keeps _ _ _)).trans (issueOrder_keeps _ _ _ _)
  · exact (((setWafer_keeps _ _ _).trans (updateLot_keeps _ _ _)).trans (issueOrder_keeps _ _ _ _)).trans
      (drainLot_keeps _ _)

theorem arWork_keeps (c : Part) : SettleKeeps c (arWork c) := by
  unfold arWork
  repeat' split
  all_goals first
    | exact SettleKeeps.refl c
    | exact doArTask_keeps _ _

theorem doVrTask_keeps (k : OrderKind) (t : Nat) (c : Part) : SettleKeeps c (doVrTask k t c) := by
  unfold doVrTask
  split
  · exact issueOrder_keeps _ _ _ _
  · exact (setPhase_keeps _ _ _).trans (issueOrder_keeps _ _ _ _)
  · exact issueOrder_keeps _ _ _ _

theorem vrWork_keeps (c : Part) : SettleKeeps c (vrWork c) := by
  unfold vrWork
  repeat' split
  all_goals first
    | exact SettleKeeps.refl c
    | exact doVrTask_keeps _ _ _

theorem ventWork_keeps (c : Part) (k : LockId) : SettleKeeps c (ventWork c k) := by
  unfold ventWork
  split
  · exact issueVent_keeps _ _ _
  · exact SettleKeeps.refl c

theorem moveLoadWork_keeps (c : Part) : SettleKeeps c (moveLoadWork c) := by
  unfold moveLoadWork
  split
  · exact issueOrder_keeps _ _ _ _
  · exact SettleKeeps.refl c

theorem ruleOutLot_keeps (i : LoadPort) (c : Part) : SettleKeeps c (ruleOutLot i c) := by
  unfold ruleOutLot
  repeat' split
  all_goals first
    | exact SettleKeeps.refl c
    | exact setLot_keeps _ _ _

theorem countSkips_keeps (i : LoadPort) (slot k : Nat) (c : Part) : SettleKeeps c (countSkips i slot k c) :=
  SettleKeeps.trans (b := { c with stats := { c.stats with
    sitesSkipped := c.stats.sitesSkipped + BitVec.ofNat 32 k } }) (by constructor <;> rfl) (updateLot_keeps _ _ _)

theorem skipPending_keeps (i : LoadPort) (slot : Nat) (why : Reason) (c : Part) :
    SettleKeeps c (skipPending i slot why c) :=
  (updateList_keeps _ _ _ _).trans (countSkips_keeps _ _ _ _)

theorem ruleOutUndispatched_keeps (i : LoadPort) (slot : Nat) (c : Part) :
    SettleKeeps c (ruleOutUndispatched i slot c) := by
  unfold ruleOutUndispatched; dsimp only; split
  · exact updateLot_keeps _ _ _
  · exact (skipPending_keeps _ _ _ _).trans (updateLot_keeps _ _ _)

theorem ruleOutWaiting_keeps (i : LoadPort) (l : List Selection) (c : Part) :
    SettleKeeps c (ruleOutWaiting i l c) := by
  induction l generalizing c with
  | nil => exact SettleKeeps.refl c
  | cons e rest ih =>
    unfold ruleOutWaiting
    split
    · exact (ruleOutUndispatched_keeps _ _ _).trans (ih _)
    · exact ih _

theorem closeLot_keeps (i : LoadPort) (c : Part) : SettleKeeps c (closeLot i c) :=
  (updateLot_keeps _ _ _).trans (setCarrier_keeps _ _ _)

theorem enterReport_keeps (i : LoadPort) (r : Report) (c : Part) : SettleKeeps c (enterReport i r c) :=
  SettleKeeps.trans (b := { c with
    reportQueue := c.reportQueue ++ [{ r with number := some c.nextReport }], nextReport := c.nextReport + 1#16 })
    (by constructor <;> rfl) (closeLot_keeps _ _)

theorem waitReport_keeps (i : LoadPort) (r : Report) (c : Part) : SettleKeeps c (waitReport i r c) :=
  SettleKeeps.trans (b := { c with waitingReports := c.waitingReports ++ [⟨i, r⟩] }) (by constructor <;> rfl)
    (updateLot_keeps _ _ _)

theorem deliverReport_keeps (i : LoadPort) (c : Part) : SettleKeeps c (deliverReport i c) := by
  unfold deliverReport
  repeat' split
  all_goals first
    | exact SettleKeeps.refl c
    | exact enterReport_keeps _ _ _
    | exact waitReport_keeps _ _ _

theorem completeLot_keeps (i : LoadPort) (c : Part) : SettleKeeps c (completeLot i c) := by
  unfold completeLot
  split
  · exact SettleKeeps.refl c
  · exact (((ruleOutWaiting_keeps _ _ _).trans (updateLot_keeps _ _ _)).trans (deliverReport_keeps _ _)).trans
      (raiseLotState_keeps _)

theorem completeIfDone_keeps (i : LoadPort) (c : Part) : SettleKeeps c (completeIfDone i c) := by
  unfold completeIfDone
  repeat' split
  all_goals first
    | exact SettleKeeps.refl c
    | exact completeLot_keeps _ _

theorem freeIfDone_keeps (c : Part) (t : Nat) : SettleKeeps c (freeIfDone c t) := by
  unfold freeIfDone
  repeat' split
  all_goals first
    | exact SettleKeeps.refl c
    | exact ((updateLot_keeps _ _ _).trans (freeList_keeps _ _ _)).trans (setWafer_keeps _ _ _)

theorem settleLots_keeps (c : Part) : SettleKeeps c (settleLots c) :=
  ((((foldl_keeps _ (fun c i => ruleOutLot_keeps i c) _ c).trans
    (foldl_keeps _ (fun c i => drainLot_keeps i c) _ _)).trans
    (foldl_keeps _ redirect_keeps _ _)).trans
    (foldl_keeps _ freeIfDone_keeps _ _)).trans
    (foldl_keeps _ (fun c i => completeIfDone_keeps i c) _ _)

theorem issueWork_keeps (c : Part) : SettleKeeps c (issueWork c) := by
  unfold issueWork
  exact ((((((((((issueMoveSite_keeps c).trans (lockWork_keeps _ _)).trans (lockWork_keeps _ _)).trans
    (alignWork_keeps _)).trans (returnWork_keeps _ _)).trans (returnWork_keeps _ _)).trans
    (arWork_keeps _)).trans (vrWork_keeps _)).trans (ventWork_keeps _ _)).trans (ventWork_keeps _ _)).trans
    (moveLoadWork_keeps _)

/-- Settling writes none of the records of `SettleKeeps`. -/
theorem settle_keeps (c : Part) : SettleKeeps c (settle c) := (settleLots_keeps c).trans (issueWork_keeps _)


/-! ### The state right after power-on -/

theorem settleLots_powerOn (m : List Host.Cell) (b : Bool) : settleLots (Part.powerOn m b) = Part.powerOn m b := by
  simp [settleLots, allLoadPorts, allTags, ruleOutLot, drainLot, redirect, freeIfDone, completeIfDone, Part.powerOn,
    Part.lot?, PerLoadPort.get, Part.wafer?]

/-- All that power-on makes ready is the stage's MOVE_LOAD (R59). -/
theorem settle_powerOn (m : List Host.Cell) (b : Bool) :
    settle (Part.powerOn m b) = issueOrder .st .moveLoad none (Part.powerOn m b) := by
  have h1 : issueMoveSite (Part.powerOn m b) = Part.powerOn m b := rfl
  have h2 : lockWork (Part.powerOn m b) .a = Part.powerOn m b := rfl
  have h3 : lockWork (Part.powerOn m b) .b = Part.powerOn m b := rfl
  have h4 : alignWork (Part.powerOn m b) = Part.powerOn m b := rfl
  have h5 : returnWork (Part.powerOn m b) .stage = Part.powerOn m b := rfl
  have h6 : returnWork (Part.powerOn m b) .transferArm = Part.powerOn m b := rfl
  have h7 : arWork (Part.powerOn m b) = Part.powerOn m b := rfl
  have h8 : vrWork (Part.powerOn m b) = Part.powerOn m b := rfl
  have h9 : ventWork (Part.powerOn m b) .a = Part.powerOn m b := by
    simp [ventWork, Part.emptyAt, Part.powerOn, Part.lock]
  have h10 : ventWork (Part.powerOn m b) .b = Part.powerOn m b := by
    simp [ventWork, Part.emptyAt, Part.powerOn, Part.lock]
  have h11 : moveLoadWork (Part.powerOn m b) = issueOrder .st .moveLoad none (Part.powerOn m b) := by
    simp [moveLoadWork, Part.powerOn, Part.moverIdle, Part.slotOf, OrderTable.get, Part.placeEmpty, PlaceTable.get]
  simp only [settle, settleLots_powerOn, issueWork, h1, h2, h3, h4, h5, h6, h7, h8, h9, h10, h11]

end Sys2Proof.Machine
end

