-- ==== Sys2Proof/Laws/Issue.lean ====
section
/-! SUPPORT. When each order goes out: the model's tests on places, locks and orders, as the terms of Safety.lean say them, and
what each piece of the WFC's work does. -/

namespace Sys2Proof.Machine

/-! ### The tests -/

theorem moverIdle_iff (c : Part) (m : Mover) : c.moverIdle m = true ↔ c.slotOf m = .idle := by
  simp [Part.moverIdle]

theorem placeEmpty_iff (c : Part) (q : Place) : c.placeEmpty q = true ↔ EmptyPlace c q := by
  simp [Part.placeEmpty, EmptyPlace]

theorem lockEmpty_iff (c : Part) (k : LockId) :
    c.lockEmpty k = true ↔ EmptyPlace c k.place ∧ (c.lock k).reservation = none := by
  simp [Part.lockEmpty, placeEmpty_iff]

theorem emptyAt_iff (c : Part) (x : LockState) (k : LockId) : c.emptyAt x k = true ↔ EmptyLock c x k := by
  simp [Part.emptyAt, lockEmpty_iff, EmptyLock]; tauto

theorem orderNames_iff (c : Part) (t : Nat) : c.orderNames t = true ↔ Named c t := by
  simp only [Part.orderNames, Named, List.any_eq_true]
  constructor
  · rintro ⟨m, _, h⟩
    refine ⟨m, ?_⟩
    cases q : c.slotOf m <;> simp [q, OrderSlot.order?] at h
    · exact ⟨_, .inl rfl, h⟩
    · exact ⟨_, .inr ⟨_, rfl⟩, h⟩
  · rintro ⟨m, o, h, e⟩
    refine ⟨m, by cases m <;> decide, ?_⟩
    rcases h with h | ⟨_, h⟩ <;> simp [h, OrderSlot.order?, e]

theorem orderNames_false (c : Part) (t : Nat) : c.orderNames t = false ↔ ¬ Named c t := by
  rw [← orderNames_iff]; simp

/-- LOCK_A before LOCK_B. -/
theorem firstLock_some (f : LockId → Bool) (k : LockId) :
    bothLocks.find? f = some k ↔ f k = true ∧ (k = .b → ¬ f .a = true) := by
  cases k <;> cases ha : f .a <;> cases hb : f .b <;> simp [bothLocks, List.find?, ha, hb]

theorem reservedFor_some (c : Part) (t : Nat) (p : Purpose) (k : LockId) : c.reservedFor t p = some k ↔ Reserved c t p k := by
  simp [Part.reservedFor, firstLock_some, Reserved]

theorem reservedFor_none (c : Part) (t : Nat) (p : Purpose) :
    c.reservedFor t p = none ↔ ∀ k, (c.lock k).reservation ≠ some ⟨t, p⟩ := by
  simp only [Part.reservedFor, bothLocks, List.find?_eq_none]
  constructor
  · intro h k; have := h k (by cases k <;> simp); simpa using this
  · intro h k _; simpa using h k

theorem vacuumInbound_iff (c : Part) (t : Nat) : c.vacuumInbound t = true ↔ VacuumInbound c t := by
  simp only [Part.vacuumInbound, VacuumInbound]
  cases c.wafer? t with
  | none => simp
  | some w => cases h : w.phase <;> simp [h]

theorem wouldAdmit_iff (c : Part) (k : LockId) : c.wouldAdmit k = true ↔ WouldAdmit c k := by
  have hn : c.holdsInbound k.other = false ↔
      (∀ t, (c.places.get k.other.place).occupant = some t →
        ¬ VacuumInbound c t ∧ ∀ j, (c.lock j).reservation ≠ some ⟨t, .inbound⟩) ∧
      (∀ r, (c.lock k.other).reservation = some r → r.purpose = .returning ∧ ¬ VacuumInbound c r.wafer) := by
    simp only [Part.holdsInbound, Bool.or_eq_false_iff, Part.occupant]
    apply and_congr
    · cases (c.places.get k.other.place).occupant with
      | none => simp
      | some t =>
        simp only [Bool.or_eq_false_iff, Option.isSome_eq_false_iff, Option.isNone_iff_eq_none, reservedFor_none,
          ← vacuumInbound_iff, Bool.not_eq_true, Option.some.injEq, forall_eq']
    · cases (c.lock k.other).reservation with
      | none => simp
      | some r => cases h : r.purpose <;> simp [← vacuumInbound_iff, h]
  simp [Part.wouldAdmit, WouldAdmit, hn, and_assoc]

theorem admittingLock_some (c : Part) (k : LockId) : c.admittingLock = some k ↔ Admits c k := by
  simp only [Part.admittingLock, firstLock_some, Bool.and_eq_true, emptyAt_iff, wouldAdmit_iff, Admits, and_assoc]

theorem needsReturn_some (c : Part) (q : Place) (t : Nat) : c.needsReturn q = some t ↔ NeedsReturnLock c q t := by
  simp only [Part.needsReturn, NeedsReturnLock, Lies, Part.occupant, ← reservedFor_none]
  cases (c.places.get q).occupant with
  | none => simp
  | some u =>
    by_cases e : u = t
    · subst e
      cases hw : c.wafer? u with
      | none => simp [hw]
      | some w => cases q <;> cases hp : w.phase <;> cases hr : c.reservedFor u .returning <;> simp [hw, hp, hr]
    · simp only [Option.some.injEq, e, false_and, exists_false, iff_false]
      cases hw : c.wafer? u with
      | none => simp
      | some w => dsimp only; split <;> simp [e]

theorem needsReturn_none (c : Part) (q : Place) : c.needsReturn q = none ↔ ∀ t, ¬ NeedsReturnLock c q t := by
  simp only [← needsReturn_some]
  cases c.needsReturn q <;> simp

/-- The wafer on the STAGE is REVIEWED. -/
theorem stageReviewed_iff (c : Part) : c.stageReviewed = true ↔ ∃ t w, Lies c .stage t w ∧ w.phase = .reviewed := by
  simp only [Part.stageReviewed, Part.occupant, Lies]
  cases (c.places.get .stage).occupant with
  | none => simp
  | some t =>
    cases h : c.wafer? t with
    | none => simp [h]
    | some w => simp [h]

/-- The wafer on the STAGE is REVIEWED and has its return lock. -/
theorem stageReturning_iff (c : Part) : c.stageReturning = true ↔
    ∃ t k, (∃ w, Lies c .stage t w ∧ w.phase = .reviewed) ∧ Reserved c t .returning k := by
  simp only [Part.stageReturning, Part.occupant]
  cases h : (c.places.get .stage).occupant with
  | none => simp [Lies, h]
  | some t =>
    simp only [Bool.and_eq_true, stageReviewed_iff, Lies, h, Option.isSome_iff_exists, reservedFor_some]
    constructor
    · rintro ⟨⟨t', w, ⟨e, a⟩, b⟩, k, r⟩
      cases e
      exact ⟨t, k, ⟨w, ⟨rfl, a⟩, b⟩, r⟩
    · rintro ⟨t', k, ⟨w, ⟨e, a⟩, b⟩, r⟩
      cases e
      exact ⟨⟨t, w, ⟨rfl, a⟩, b⟩, k, r⟩

/-- The wafer on the ALIGNER is in WAIT_LOCK. -/
theorem alignerWaits_iff (c : Part) : c.alignerWaits = true ↔ ∃ t w, Lies c .aligner t w ∧ w.phase = .waitLock := by
  simp only [Part.alignerWaits, Part.occupant, Lies]
  cases (c.places.get .aligner).occupant with
  | none => simp
  | some t =>
    cases h : c.wafer? t with
    | none => simp [h]
    | some w => simp [h]

/-! ### What an order leaves alone -/

theorem setLock_rest (k : LockId) (l : Lock) (c : Part) :
    setLock k l c = { c with lockA := (setLock k l c).lockA, lockB := (setLock k l c).lockB } := by
  cases k <;> rfl

theorem dropReservation_rest (t : Nat) (p : Purpose) (k : LockId) (c : Part) : dropReservation t p k c =
    { c with lockA := (dropReservation t p k c).lockA, lockB := (dropReservation t p k c).lockB } := by
  unfold dropReservation
  split
  · exact setLock_rest k _ c
  · rfl

theorem issueOrder_rest (m : Mover) (k : OrderKind) (t : Option Nat) (c : Part) : issueOrder m k t c =
    { c with
      orders := (issueOrder m k t c).orders, orderCounter := c.orderCounter + 1#16
      places := (issueOrder m k t c).places } := by
  unfold issueOrder
  dsimp only
  split <;> rfl

theorem issueOrder_lock (m : Mover) (k : OrderKind) (t : Option Nat) (c : Part) (j : LockId) :
    (issueOrder m k t c).lock j = c.lock j := by
  rw [issueOrder_rest]
  cases j <;> rfl

theorem issueOrder_wafers (m : Mover) (k : OrderKind) (t : Option Nat) (c : Part) :
    (issueOrder m k t c).wafers = c.wafers := by
  rw [issueOrder_rest]

/-- An order goes out the same before and after a lock is written. -/
theorem issueOrder_setLock (m : Mover) (kind : OrderKind) (t : Option Nat) (k : LockId) (l : Lock) (c : Part) :
    issueOrder m kind t (setLock k l c) = setLock k l (issueOrder m kind t c) := by
  unfold issueOrder
  cases k <;> dsimp only <;> cases kind.target? <;> cases t <;> rfl

/-- An order goes out the same before and after a lot is written. -/
theorem issueOrder_setLot (m : Mover) (kind : OrderKind) (t : Option Nat) (i : LoadPort) (l : Option Lot) (c : Part) :
    issueOrder m kind t (setLot i l c) = setLot i l (issueOrder m kind t c) := by
  unfold issueOrder
  dsimp only
  cases kind.target? <;> cases t <;> rfl

/-! ### AR work (R52, R53) -/

/-- A claim about the one record that a tag has. -/
theorem lies_exists (c : Part) (q : Place) (t u : Nat) (w : Wafer) (P : Wafer → Prop) (h : (c.places.get q).occupant = some u)
    (hw : c.wafer? u = some w) : (∃ x, Lies c q t x ∧ P x) ↔ u = t ∧ P w := by
  constructor
  · rintro ⟨x, ⟨a, b⟩, p⟩
    rw [h] at a
    cases a
    rw [hw] at b
    cases b
    exact ⟨rfl, p⟩
  · rintro ⟨rfl, p⟩
    exact ⟨w, ⟨h, hw⟩, p⟩

theorem not_lies (c : Part) (q : Place) (t u : Nat) (P : Wafer → Prop) (h : (c.places.get q).occupant = some u)
    (hw : c.wafer? u = none) : ¬ ∃ x, Lies c q t x ∧ P x := by
  rintro ⟨x, ⟨a, b⟩, _⟩
  rw [h] at a
  cases a
  rw [hw] at b
  cases b

theorem not_lies_empty (c : Part) (q : Place) (t : Nat) (P : Wafer → Prop) (h : (c.places.get q).occupant = none) :
    ¬ ∃ x, Lies c q t x ∧ P x := by
  rintro ⟨x, ⟨a, _⟩, _⟩
  rw [h] at a
  cases a

theorem returningIn_some (c : Part) (x : Bool) (j : LockId) (t : Nat) :
    c.returningIn x j = some t ↔
      ∃ w, (c.lock j).state = .atmosphere ∧ Lies c j.place t w ∧ w.phase = .returning ∧ w.exposed = x := by
  unfold Part.returningIn Lies
  split
  · rename_i u a b
    simp only [Part.occupant] at b
    rw [a, b]
    cases h : c.wafer? u with
    | none =>
      simp only [Option.some.injEq, reduceCtorEq, true_and, false_iff, not_exists]
      rintro w ⟨⟨rfl, q⟩, _⟩
      rw [h] at q
      cases q
    | some v =>
      constructor
      · intro q
        dsimp only at q
        split at q
        · cases q
          rename_i z
          exact ⟨v, rfl, ⟨rfl, h⟩, z⟩
        · cases q
      · rintro ⟨w, _, ⟨e, q⟩, z⟩
        cases e
        rw [h] at q
        cases q
        dsimp only
        rw [if_pos z]
  · rename_i a
    simp only [reduceCtorEq, false_iff, not_exists]
    rintro w ⟨p, ⟨q, _⟩, _⟩
    exact a t p q

/-- Preference 1. -/
theorem arHomeLower_order (c : Part) (k : OrderKind) (t : Nat) :
    c.arHomeLower = some (.order k t) ↔ ∃ w, ArReady c 1 k t w := by
  simp only [Part.arHomeLower, Part.occupant, ArReady, Nat.reduceEqDiff, false_and, or_false, true_and]
  cases h : (c.places.get .lowerBlade).occupant with
  | none => simpa using not_lies_empty c _ t (fun w => k = .arPlace .lower (.slot w.lot w.slot)) h
  | some u =>
    cases hw : c.wafer? u with
    | none => simpa [hw] using not_lies c _ t u (fun w => k = .arPlace .lower (.slot w.lot w.slot)) h hw
    | some w =>
      rw [lies_exists c _ t u w (fun w => k = .arPlace .lower (.slot w.lot w.slot)) h hw]
      simp only [hw, Option.map_some, Option.some.injEq, ArTask.order.injEq, Wafer.home]
      exact ⟨fun ⟨a, b⟩ => ⟨b, a.symm⟩, fun ⟨a, b⟩ => ⟨b.symm, a⟩⟩

theorem arHomeLower_cases (c : Part) : c.arHomeLower = none ∨ ∃ k t, c.arHomeLower = some (.order k t) := by
  unfold Part.arHomeLower
  split
  · simp
  · rename_i u _
    cases c.wafer? u <;> simp

/-- Preference 2. -/
theorem arPlaceUpper_order (c : Part) (k : OrderKind) (t : Nat) :
    c.arPlaceUpper = some (.order k t) ↔ ∃ w, ArReady c 2 k t w := by
  simp only [Part.arPlaceUpper, Part.occupant, ArReady, Nat.reduceEqDiff, false_and, or_false, false_or, true_and]
  cases h : (c.places.get .upperBlade).occupant with
  | none =>
    simp only [reduceCtorEq, false_iff]
    exact not_lies_empty c _ t _ h
  | some u =>
    cases hw : c.wafer? u with
    | none =>
      simp only [hw, reduceCtorEq, false_iff]
      exact not_lies c _ t u _ h hw
    | some w =>
      rw [lies_exists c _ t u w _ h hw]
      simp only [hw]
      cases hp : w.phase <;> simp only [reduceCtorEq, false_and, or_false, false_or, true_and, and_false]
      · rw [← placeEmpty_iff]
        split
        · rename_i q
          simp only [Option.some.injEq, ArTask.order.injEq, q, true_and]
          exact ⟨fun ⟨a, b⟩ => ⟨b, a.symm⟩, fun ⟨a, b⟩ => ⟨b.symm, a⟩⟩
        · rename_i q
          simp [q]
      · simp only [Option.map_eq_some_iff, reservedFor_some, ArTask.order.injEq]
        constructor
        · rintro ⟨j, a, b, rfl⟩
          exact ⟨rfl, j, a, b.symm⟩
        · rintro ⟨rfl, j, a, b⟩
          exact ⟨j, a, b.symm, rfl⟩
      · simp only [Option.some.injEq, ArTask.order.injEq, Wafer.home]
        exact ⟨fun ⟨a, b⟩ => ⟨b, a.symm⟩, fun ⟨a, b⟩ => ⟨b.symm, a⟩⟩

theorem arPlaceUpper_cases (c : Part) : c.arPlaceUpper = none ∨ ∃ k t, c.arPlaceUpper = some (.order k t) := by
  unfold Part.arPlaceUpper
  split
  · simp
  · rename_i u _
    split
    · simp
    · split
      · split <;> simp
      · cases c.reservedFor u .inbound <;> simp
      · simp
      · simp

/-- Preferences 3 and 5: the two locks' picks onto one blade. -/
def Part.arPickLocks (c : Part) (blade : Blade) : Option ArTask := (c.arPickLock blade .a).or (c.arPickLock blade .b)

theorem arPickLocks_order (c : Part) (blade : Blade) (k : OrderKind) (t : Nat) :
    c.arPickLocks blade = some (.order k t) ↔
      ∃ w, EmptyPlace c blade.place ∧ ∃ j, ReturnsFrom c (blade == .lower) j t w ∧ k = .arPick blade (.place j.place) := by
  simp only [Part.arPickLocks, Part.arPickLock, ← placeEmpty_iff]
  generalize hx : (blade == Blade.lower) = x
  cases he : c.placeEmpty blade.place with
  | false => simp
  | true =>
    simp only [if_true, true_and]
    have hin (j u) := returningIn_some c x j u
    cases ha : c.returningIn x .a with
    | none =>
      have na : ∀ u v, ¬ ((c.lock .a).state = .atmosphere ∧ Lies c (LockId.place .a) u v ∧ v.phase = .returning ∧
          v.exposed = x) := fun u v h => by
        have := (hin .a u).2 ⟨v, h⟩
        rw [ha] at this
        cases this
      simp only [Option.map_none, Option.none_or, Option.map_eq_some_iff, ArTask.order.injEq, hin]
      constructor
      · rintro ⟨u, ⟨w, a⟩, b, rfl⟩
        exact ⟨w, .b, ⟨a, fun _ => na⟩, b.symm⟩
      · rintro ⟨w, j, ⟨a, _⟩, b⟩
        cases j
        · exact absurd a (na _ _)
        · exact ⟨t, ⟨w, a⟩, b.symm, rfl⟩
    | some u =>
      obtain ⟨v, hv⟩ := (hin .a u).1 ha
      simp only [Option.map_some, Option.some_or, Option.some.injEq, ArTask.order.injEq]
      constructor
      · rintro ⟨a, rfl⟩
        exact ⟨v, .a, ⟨hv, by simp⟩, a.symm⟩
      · rintro ⟨w, j, ⟨a, b⟩, d⟩
        cases j
        · have := (hin .a t).2 ⟨w, a⟩
          rw [ha] at this
          cases this
          exact ⟨d.symm, rfl⟩
        · exact absurd hv (b rfl _ _)

theorem arPickLocks_cases (c : Part) (blade : Blade) :
    c.arPickLocks blade = none ∨ ∃ k t, c.arPickLocks blade = some (.order k t) := by
  simp only [Part.arPickLocks, Part.arPickLock]
  cases c.placeEmpty blade.place
  · simp
  · cases c.returningIn (blade == .lower) .a <;> cases c.returningIn (blade == .lower) .b <;> simp

theorem arPickLower_order (c : Part) (k : OrderKind) (t : Nat) :
    c.arPickLocks .lower = some (.order k t) ↔ ∃ w, ArReady c 3 k t w := by
  simpa [ArReady, Blade.place] using arPickLocks_order c .lower k t

theorem arPickUpper_order (c : Part) (k : OrderKind) (t : Nat) :
    c.arPickLocks .upper = some (.order k t) ↔ ∃ w, ArReady c 5 k t w := by
  simpa [ArReady, Blade.place, show (Blade.upper == Blade.lower) = false from rfl] using arPickLocks_order c .upper k t

/-- Preference 4 without an admission. -/
theorem arPickAligner_order (c : Part) (k : OrderKind) (t : Nat) (w : Wafer) (h : ArReady c 4 k t w)
    (hp : w.phase ≠ .waitLock) : c.arPickAligner = some (.order k t) := by
  simp only [ArReady, Nat.reduceEqDiff, false_and, or_false, false_or, true_and] at h
  obtain ⟨a, ⟨b, d⟩, rfl, q | ⟨q, j, hj⟩ | ⟨q, _⟩⟩ := h
  · simp [Part.arPickAligner, placeEmpty_iff, a, Part.occupant, b, d, q]
  · rw [← reservedFor_some] at hj
    simp [Part.arPickAligner, placeEmpty_iff, a, Part.occupant, b, d, q, hj]
  · exact absurd q hp

/-- Preference 4 with an admission (R57). -/
theorem arPickAligner_admission (c : Part) (k : OrderKind) (t : Nat) (w : Wafer) (j : LockId) (h : ArReady c 4 k t w)
    (hp : w.phase = .waitLock) (hj : Admits c j) : c.arPickAligner = some (.admission j t) := by
  simp only [ArReady, Nat.reduceEqDiff, false_and, or_false, false_or, true_and] at h
  obtain ⟨a, ⟨b, d⟩, _⟩ := h
  rw [← admittingLock_some] at hj
  simp [Part.arPickAligner, placeEmpty_iff, a, Part.occupant, b, d, hp, hj]

theorem arPickAligner_none (c : Part) : c.arPickAligner = none ↔ ∀ k t w, ¬ ArReady c 4 k t w := by
  constructor
  · intro h k t w q
    have q' := q
    simp only [ArReady, Nat.reduceEqDiff, false_and, or_false, false_or, true_and] at q'
    obtain ⟨_, _, _, p | ⟨p, _⟩ | ⟨p, j, hj⟩⟩ := q'
    · rw [arPickAligner_order c k t w q (by simp [p])] at h
      cases h
    · rw [arPickAligner_order c k t w q (by simp [p])] at h
      cases h
    · rw [arPickAligner_admission c k t w j q p hj] at h
      cases h
  · intro h
    unfold Part.arPickAligner
    split
    · rename_i e
      rw [placeEmpty_iff] at e
      split
      · rfl
      · rename_i t a
        split
        · rfl
        · rename_i w b
          have no : ¬ (w.phase = .returning ∨ (w.phase = .pumping ∧ ∃ j, Reserved c t .inbound j) ∨
              (w.phase = .waitLock ∧ ∃ j, Admits c j)) :=
            fun x => h (.arPick .upper (.place .aligner)) t w (.inr (.inr (.inr (.inl ⟨rfl, e, ⟨a, b⟩, rfl, x⟩))))
          split
          · rename_i z
            exact absurd (.inl z) no
          · rename_i z
            cases q : c.reservedFor t .inbound with
            | none => rfl
            | some j => exact absurd (.inr (.inl ⟨z, j, (reservedFor_some _ _ _ _).1 q⟩)) no
          · rename_i z
            cases q : c.admittingLock with
            | none => rfl
            | some j => exact absurd (.inr (.inr ⟨z, j, (admittingLock_some _ _).1 q⟩)) no
          · rfl
    · rfl

/-- The first of a rising list that passes a test is the least that does. -/
theorem find_least (l : List Nat) (h : l.Pairwise (· < ·)) (f : Nat → Bool) (t : Nat) :
    l.find? f = some t ↔ t ∈ l ∧ f t = true ∧ ∀ u, u < t → u ∈ l → f u = false := by
  induction l with
  | nil => simp
  | cons a rest ih =>
    rw [List.pairwise_cons] at h
    rw [List.find?_cons]
    cases q : f a with
    | true =>
      simp only [Option.some.injEq, List.mem_cons]
      constructor
      · rintro rfl
        refine ⟨.inl rfl, q, fun u hu m => ?_⟩
        rcases m with rfl | m
        · omega
        · have := h.1 u m
          omega
      · rintro ⟨m, ft, lo⟩
        rcases m with rfl | m
        · rfl
        · have := lo a (h.1 t m) (.inl rfl)
          rw [q] at this
          cases this
    | false =>
      simp only [ih h.2, List.mem_cons]
      constructor
      · rintro ⟨m, ft, lo⟩
        refine ⟨.inr m, ft, fun u hu m' => ?_⟩
        rcases m' with rfl | m'
        · exact q
        · exact lo u hu m'
      · rintro ⟨m, ft, lo⟩
        rcases m with rfl | m
        · rw [q] at ft
          cases ft
        · exact ⟨m, ft, fun u hu m' => lo u hu (.inr m')⟩

theorem freeTag_some (c : Part) (t : Nat) :
    c.freeTag = some t ↔ t ∈ allTags ∧ c.wafer? t = none ∧ ∀ u, u < t → c.wafer? u ≠ none := by
  rw [Part.freeTag, find_least _ (by decide)]
  simp only [Option.isNone_iff_eq_none, Option.isNone_eq_false_iff, ← Option.ne_none_iff_isSome]
  refine and_congr_right fun m => and_congr_right fun _ => forall_congr' fun u => ?_
  simp only [allTags, List.mem_cons, List.not_mem_nil, or_false] at m ⊢
  constructor
  · exact fun h hu => h hu (by omega)
  · exact fun h hu _ => h hu

theorem repick_some (c : Part) (t : Nat) : c.repick = some t ↔ ∃ w, PickedAgain c t w := by
  obtain ⟨f, hf, test⟩ : ∃ f : Nat → Bool, c.repick = allTags.find? f ∧ ∀ u, f u = true ↔
      ∃ w, c.wafer? u = some w ∧ w.phase = .outboundFromSlot ∧ w.place = none ∧ ¬ Named c u := by
    refine ⟨_, rfl, fun u => ?_⟩
    cases c.wafer? u with
    | none => simp
    | some w => simp [orderNames_false, and_assoc]
  rw [hf, find_least _ (by decide), test]
  simp only [← Bool.not_eq_true, test, PickedAgain]
  constructor
  · rintro ⟨a, ⟨w, b⟩, d⟩
    exact ⟨w, ⟨a, b⟩, fun u x h ⟨e, f⟩ => d u h e ⟨x, f⟩⟩
  · rintro ⟨w, ⟨a, b⟩, d⟩
    exact ⟨a, ⟨w, b⟩, fun u h e ⟨x, f⟩ => d u x h ⟨e, f⟩⟩

theorem pickedAgain_unique (c : Part) (t u : Nat) (w x : Wafer) (h : PickedAgain c t w) (k : PickedAgain c u x) :
    t = u ∧ w = x := by
  have : t = u := by
    rcases Nat.lt_trichotomy t u with l | l | l
    · exact absurd h.1 (k.2 t w l)
    · exact l
    · exact absurd k.1 (h.2 u x l)
  subst this
  exact ⟨rfl, Option.some.inj (h.1.2.1.symm.trans k.1.2.1)⟩

/-- Preference 6, the repeated slot pick. -/
theorem arDispatch_order (c : Part) (k : OrderKind) (t : Nat) :
    c.arDispatch = some (.order k t) ↔ ∃ w, ArReady c 6 k t w := by
  simp only [ArReady, Nat.reduceEqDiff, false_and, false_or, true_and, Part.arDispatch, ← placeEmpty_iff]
  by_cases he : c.placeEmpty .upperBlade = true ∧ c.placeEmpty .aligner = true
  · rw [if_pos (by simp [he])]
    simp only [he, true_and]
    cases q : c.repick with
    | some u =>
      obtain ⟨w, z⟩ := (repick_some c u).1 q
      simp only [z.1.2.1, Option.map_some, Option.some.injEq, ArTask.order.injEq]
      constructor
      · rintro ⟨rfl, rfl⟩
        exact ⟨w, z, rfl⟩
      · rintro ⟨w', z', rfl⟩
        obtain ⟨rfl, rfl⟩ := pickedAgain_unique c _ _ _ _ z z'
        exact ⟨rfl, rfl⟩
    | none =>
      constructor
      · intro h
        dsimp only at h
        split at h <;> cases h
      · rintro ⟨w, z, _⟩
        have := (repick_some c t).2 ⟨w, z⟩
        rw [q] at this
        cases this
  · rw [if_neg (by simpa using he)]
    simp only [reduceCtorEq, false_iff, not_exists]
    rintro w ⟨a, b, _⟩
    exact he ⟨a, b⟩

/-- Preference 6, the grant (R53). -/
theorem arDispatch_grant (c : Part) (i : LoadPort) (slot t : Nat) :
    c.arDispatch = some (.grant i slot t) ↔
      (∀ k t w, ¬ ArReady c 6 k t w) ∧ EmptyPlace c .upperBlade ∧ EmptyPlace c .aligner ∧ c.freeTag = some t ∧ c.bestOffer = some (i, slot) := by
  simp only [ArReady, Nat.reduceEqDiff, false_and, false_or, true_and, Part.arDispatch, ← placeEmpty_iff]
  by_cases he : c.placeEmpty .upperBlade = true ∧ c.placeEmpty .aligner = true
  · rw [if_pos (by simp [he])]
    simp only [he, true_and]
    cases q : c.repick with
    | some u =>
      obtain ⟨w, z⟩ := (repick_some c u).1 q
      simp only [z.1.2.1, Option.map_some, Option.some.injEq, reduceCtorEq, false_iff]
      rintro ⟨h, _⟩
      exact h _ _ _ ⟨z, rfl⟩
    | none =>
      constructor
      · intro h
        dsimp only at h
        split at h
        · rename_i a b
          cases h
          refine ⟨fun k t w z => ?_, a, b⟩
          have := (repick_some c t).2 ⟨w, z.1⟩
          rw [q] at this
          cases this
        · cases h
      · rintro ⟨_, a, b⟩
        rw [a, b]
  · rw [if_neg (by simpa using he)]
    simp only [reduceCtorEq, false_iff]
    rintro ⟨_, a, b, _⟩
    exact he ⟨a, b⟩

theorem arDispatch_admission (c : Part) (j : LockId) (t : Nat) : c.arDispatch ≠ some (.admission j t) := by
  unfold Part.arDispatch
  split
  · split
    · rename_i u _
      cases c.wafer? u <;> simp
    · split <;> simp
  · simp

/-- The AR's task, by preference (R52). -/
theorem arTask_eq (c : Part) : c.arTask = c.arHomeLower.or (c.arPlaceUpper.or ((c.arPickLocks .lower).or
    (c.arPickAligner.or ((c.arPickLocks .upper).or c.arDispatch)))) := by
  simp only [Part.arTask, Part.arPickLocks, Option.orElse_eq_orElse, Option.orElse_eq_or, Option.or_assoc]

end Sys2Proof.Machine
end

