-- ==== Sys2Proof/Laws/Lots.lean ====
section
/-! SUPPORT. What settling does to a lot and to a wafer record: ruling out, draining, turning aborted wafers back, freeing,
completing, and what the orders that follow leave of a lot. -/

namespace Sys2Proof.Machine

/-! ### One element of a fold -/

/-- A fold that meets `a` once: `P` holds until then and `Q` after. -/
theorem foldl_at {α : Type} (f : Part → α → Part) (a : α) (P Q : Part → Prop) (hP : ∀ c b, b ≠ a → P c → P (f c b))
    (ha : ∀ c, P c → Q (f c a)) (hQ : ∀ c b, b ≠ a → Q c → Q (f c b)) (l : List α) (hl : l.Nodup) (m : a ∈ l) (c : Part)
    (h : P c) : Q (l.foldl f c) := by
  have rest (l : List α) (no : a ∉ l) (c : Part) (h : Q c) : Q (l.foldl f c) := by
    induction l generalizing c with
    | nil => exact h
    | cons b l ih =>
      exact ih (fun x => no (List.mem_cons_of_mem _ x)) _ (hQ c b (fun e => no (e ▸ List.mem_cons_self ..)) h)
  induction l generalizing c with
  | nil => cases m
  | cons b l ih =>
    rw [List.nodup_cons] at hl
    by_cases e : b = a
    · subst e
      exact rest l hl.1 _ (ha c h)
    · exact ih hl.2 ((List.mem_cons.1 m).resolve_left (fun x => e x.symm)) _ (hP c b e h)

/-- A fold keeps what each of its steps keeps. -/
theorem foldl_inv {α : Type} (f : Part → α → Part) (P : Part → Prop) (h : ∀ c b, P c → P (f c b)) (l : List α) (c : Part)
    (hc : P c) : P (l.foldl f c) := by
  induction l generalizing c with
  | nil => exact hc
  | cons b l ih => exact ih _ (h c b hc)

theorem mem_allLoadPorts (i : LoadPort) : i ∈ allLoadPorts := by cases i <;> decide

/-! ### Aborted wafers (R65) -/

/-- The model's table is R65's. -/
theorem redirectPhase_some (c : Part) (w : Wafer) (p : Phase) : redirectPhase c w = some p ↔ TurnsBack c w p := by
  have lk (q) : (∃ k, some q = some (LockId.place k) ∧
        (((c.lock k).state = .atmosphere ∧ w.phase = .pumping ∧ p = .returning) ∨
        ((c.lock k).state = .vacuum ∧ w.phase ∈ [Phase.pumping, .ready, .toStage] ∧ p = .venting))) ↔
        (∃ k, q.lock? = some k ∧ (((c.lock k).state = .atmosphere ∧ w.phase = .pumping ∧ p = .returning) ∨
        ((c.lock k).state = .vacuum ∧ w.phase ∈ [Phase.pumping, .ready, .toStage] ∧ p = .venting))) := by
    refine exists_congr fun k => and_congr_left fun _ => ?_
    cases q <;> cases k <;> simp [LockId.place, Place.lock?]
  simp only [redirectPhase, TurnsBack]
  cases hq : w.place with
  | none => cases hp : w.phase <;> simp [eq_comm]
  | some q =>
    rw [lk]
    cases q
    · cases hp : w.phase <;> simp [Place.lock?, eq_comm]
    · cases hp : w.phase <;> simp [Place.lock?, eq_comm]
    · cases hp : w.phase <;> simp [Place.lock?, eq_comm]
    · cases hp : w.phase <;> cases hs : (c.lock .a).state <;> simp [Place.lock?, eq_comm, hs]
    · cases hp : w.phase <;> cases hs : (c.lock .b).state <;> simp [Place.lock?, eq_comm, hs]
    · cases hp : w.phase <;> simp [Place.lock?, eq_comm]
    · cases hp : w.phase <;> simp [Place.lock?, eq_comm]

/-- Both locks lose a reservation for that wafer and purpose, and nothing else changes. -/
theorem dropReservations_eq (c : Part) (t : Nat) (p : Purpose) :
    let freed (k : Lock) : Lock := { k with reservation := if k.reservation = some ⟨t, p⟩ then none else k.reservation }
    dropReservations t p c = { c with lockA := freed c.lockA, lockB := freed c.lockB } := by
  have fl (k : Lock) : ({ k with reservation := if k.reservation = some ⟨t, p⟩ then none else k.reservation } : Lock) =
      if k.reservation = some ⟨t, p⟩ then ⟨k.state, none⟩ else k := by
    split <;> rfl
  simp only [fl]
  unfold dropReservations dropReservation
  simp only [setReservation, setLock, Part.lock]
  by_cases ha : c.lockA.reservation = some ⟨t, p⟩ <;> by_cases hb : c.lockB.reservation = some ⟨t, p⟩ <;> simp [ha, hb]

/-- Turning back, by the table. -/
theorem redirect_eq (c : Part) (t : Nat) (w : Wafer) (hw : c.wafer? t = some w) :
    let freed (k : Lock) : Lock :=
      { k with reservation := if k.reservation = some ⟨t, .inbound⟩ then none else k.reservation }
    let free := c.lotAborted w.lot = true ∧ ¬ Named c t
    (∀ p, free → TurnsBack c w p → redirect c t =
      { c with wafers := c.wafers.set t (some { w with phase := p }), lockA := freed c.lockA, lockB := freed c.lockB }) ∧
    (¬ (free ∧ ∃ p, TurnsBack c w p) → redirect c t = c) := by
  dsimp only
  simp only [← orderNames_false, ← redirectPhase_some]
  constructor
  · rintro p ⟨a, b⟩ h
    simp only [redirect, hw, a, b, h, and_self, if_true]
    rw [dropReservations_eq, setPhase, updateWafer_some c t w _ hw]
  · intro h
    simp only [redirect, hw]
    split
    · rename_i q
      cases r : redirectPhase c w with
      | none => rfl
      | some p => exact absurd ⟨q, p, r⟩ h
    · rfl

/-- Turning back writes the wafer table and the locks alone. -/
theorem redirect_rest (c : Part) (t : Nat) : redirect c t = { c with
    wafers := (redirect c t).wafers, lockA := (redirect c t).lockA, lockB := (redirect c t).lockB } := by
  cases hw : c.wafer? t with
  | none => simp [redirect, hw]
  | some w =>
    by_cases h : (c.lotAborted w.lot = true ∧ ¬ Named c t) ∧ ∃ p, TurnsBack c w p
    · obtain ⟨a, p, b⟩ := h
      rw [(redirect_eq c t w hw).1 p a b]
    · rw [(redirect_eq c t w hw).2 h]

theorem redirect_other (c : Part) (t u : Nat) (h : u ≠ t) : (redirect c t).wafer? u = c.wafer? u := by
  cases hw : c.wafer? t with
  | none => simp [redirect, hw]
  | some w =>
    by_cases q : (c.lotAborted w.lot = true ∧ ¬ Named c t) ∧ ∃ p, TurnsBack c w p
    · obtain ⟨a, p, b⟩ := q
      rw [(redirect_eq c t w hw).1 p a b]
      simp [Part.wafer?, List.getD_eq_getElem?_getD, h.symm]
    · rw [(redirect_eq c t w hw).2 q]

/-- A lock keeps its state; its reservation stays or goes. -/
theorem redirect_lock (c : Part) (t : Nat) (k : LockId) : ((redirect c t).lock k).state = (c.lock k).state ∧
   (((redirect c t).lock k).reservation = none ∨ ((redirect c t).lock k).reservation = (c.lock k).reservation) := by
  cases hw : c.wafer? t with
  | none => simp [redirect, hw]
  | some w =>
    by_cases q : (c.lotAborted w.lot = true ∧ ¬ Named c t) ∧ ∃ p, TurnsBack c w p
    · obtain ⟨a, p, b⟩ := q
      rw [(redirect_eq c t w hw).1 p a b]
      cases k <;> simp only [Part.lock, true_and] <;> split <;> simp
    · rw [(redirect_eq c t w hw).2 q]; simp

/-! ### Ruling out and draining (R10, R11) -/

theorem setLot_lot (i j : LoadPort) (x : Option Lot) (c : Part) : (setLot i x c).lot? j = if j = i then x else c.lot? j := by
  by_cases h : j = i
  · subst h
    simp [setLot, Part.lot?]
  · simp [setLot, Part.lot?, h, PerLoadPort.get_set_other _ _ _ _ (fun e => h e.symm)]

/-- A WAITING entry whose list is sealed and empty. -/
def Part.barren (c : Part) (i : LoadPort) (e : Selection) : Bool :=
  e.status == .waiting && c.listStatus i e.slot == .sealedEmpty

theorem barren_iff (c : Part) (i : LoadPort) (e : Selection) :
    c.barren i e = true ↔ e.status = .waiting ∧ ∃ r, c.list? i e.slot = some r ∧ r.sealed = true ∧ r.entries = [] := by
  simp only [Part.barren, Part.listStatus, Bool.and_eq_true, beq_iff_eq]
  refine and_congr_right fun _ => ?_
  cases c.list? i e.slot with
  | none => simp
  | some r => cases hs : r.sealed <;> cases he : r.entries <;> simp [hs, he]

/-- The lot with its barren entries ruled out. -/
def Lot.ruled (l : Lot) (c : Part) (i : LoadPort) : Lot :=
  { l with selection := l.selection.map (fun e => if c.barren i e then ruleOutEntry .noSites e else e) }

theorem ruleOutLot_running (c : Part) (i : LoadPort) (l : Lot) (h : c.lot? i = some l) (hr : l.state = .running)
    (ha : l.aborted = false) : ruleOutLot i c = setLot i (some (l.ruled c i)) c := by
  simp [ruleOutLot, h, hr, ha, Lot.ruled, Part.barren]

theorem ruleOutLot_stays (c : Part) (i : LoadPort) (h : ∀ l, c.lot? i = some l → ¬ (l.state = .running ∧ l.aborted = false)) :
    ruleOutLot i c = c := by
  unfold ruleOutLot
  split
  · rfl
  · rename_i l q
    rw [if_neg (h l q)]

theorem ruleOutLot_rest (i : LoadPort) (c : Part) : ruleOutLot i c = { c with lots := (ruleOutLot i c).lots } := by
  unfold ruleOutLot
  split
  · rfl
  · split <;> rfl

theorem ruleOutLot_other (i j : LoadPort) (c : Part) (h : j ≠ i) : (ruleOutLot i c).lot? j = c.lot? j := by
  unfold ruleOutLot
  split
  · rfl
  · split
    · rw [setLot_lot, if_neg h]
    · rfl

theorem anyWaiting_false (l : Lot) : l.anyWaiting = false ↔ ∀ e ∈ l.selection, e.status ≠ .waiting := by
  simp [Lot.anyWaiting]

theorem drainLot_running (c : Part) (i : LoadPort) (l : Lot) (h : c.lot? i = some l) (hr : l.state = .running)
    (hw : ∀ e ∈ l.selection, e.status ≠ .waiting) :
    drainLot i c = raiseLotState (setLot i (some { l with state := .draining }) c) := by
  simp [drainLot, h, hr, (anyWaiting_false l).2 hw]

theorem drainLot_stays (c : Part) (i : LoadPort)
    (h : ∀ l, c.lot? i = some l → ¬ (l.state = .running ∧ ∀ e ∈ l.selection, e.status ≠ .waiting)) : drainLot i c = c := by
  unfold drainLot
  split
  · rfl
  · rename_i l q
    rw [if_neg (fun x => h l q ⟨x.1, (anyWaiting_false l).1 x.2⟩)]

theorem drainLot_rest (i : LoadPort) (c : Part) :
    drainLot i c = { c with lots := (drainLot i c).lots, notices := (drainLot i c).notices } := by
  unfold drainLot
  split
  · rfl
  · split <;> rfl

theorem drainLot_other (i j : LoadPort) (c : Part) (h : j ≠ i) : (drainLot i c).lot? j = c.lot? j := by
  unfold drainLot
  split
  · rfl
  · split
    · change (setLot i _ c).lot? j = _
      rw [setLot_lot, if_neg h]
    · rfl

/-! ### Freeing (R43) -/

/-- What freeing writes of a lot: summaries alone, of that wafer's slot. -/
theorem freeIfDone_lot (c : Part) (t : Nat) (i : LoadPort) : ∃ g : Selection → Selection,
    (∀ e, (g e).slot = e.slot ∧ (g e).status = e.status) ∧
    (∀ e, (∀ w, c.wafer? t = some w → w.lot = i → w.slot ≠ e.slot) → g e = e) ∧
    (freeIfDone c t).lot? i = (c.lot? i).map (fun l => { l with selection := l.selection.map g }) := by
  have same : ∃ g : Selection → Selection, (∀ e, (g e).slot = e.slot ∧ (g e).status = e.status) ∧
      (∀ e, (∀ w, c.wafer? t = some w → w.lot = i → w.slot ≠ e.slot) → g e = e) ∧
      c.lot? i = (c.lot? i).map (fun l => { l with selection := l.selection.map g }) :=
    ⟨id, fun _ => ⟨rfl, rfl⟩, fun _ _ => rfl, by simp⟩
  unfold freeIfDone
  split
  · exact same
  · rename_i w hw
    split
    · have : (freeWafer t w c).lot? i = (updateLot w.lot
          (Lot.updateEntry w.slot (fun e => { e with summary := some (waferSummary w e) })) c).lot? i := rfl
      rw [this, updateLot_lot]
      by_cases e : w.lot = i
      · refine ⟨fun x => if x.slot == w.slot then { x with summary := some (waferSummary w x) } else x, ?_, ?_, ?_⟩
        · intro x
          dsimp only
          split <;> exact ⟨rfl, rfl⟩
        · intro x h
          dsimp only
          rw [if_neg]
          simpa using fun q => h w hw e q.symm
        · simp only [e, if_true, Lot.updateEntry]
      · simpa [e] using same
    · exact same

theorem freeIfDone_other (c : Part) (t u : Nat) (h : u ≠ t) : (freeIfDone c t).wafer? u = c.wafer? u := by
  unfold freeIfDone
  split
  · rfl
  · split
    · have : (freeWafer t ‹_› c).wafers = c.wafers.set t none := by
        unfold freeWafer setWafer
        dsimp only
        rw [show (freeList _ _ (updateLot _ _ c)).wafers = (updateLot _ _ c).wafers from rfl, updateLot_rest]
      simp [Part.wafer?, this, List.getD_eq_getElem?_getD, h.symm]
    · rfl

/-- A record that freeing leaves in use is as it was. -/
theorem freeIfDone_wafer (c : Part) (t u : Nat) (w : Wafer) (h : (freeIfDone c t).wafer? u = some w) : c.wafer? u = some w := by
  by_cases e : u = t
  · subst e
    revert h
    unfold freeIfDone
    split
    · exact id
    · rename_i w' hw
      split
      · have : (freeWafer u w' c).wafers = c.wafers.set u none := by
          unfold freeWafer setWafer
          dsimp only
          rw [show (freeList _ _ (updateLot _ _ c)).wafers = (updateLot _ _ c).wafers from rfl, updateLot_rest]
        have lt := wafer?_lt c u w' hw
        simp [Part.wafer?, this, List.getD_eq_getElem?_getD, lt]
      · exact id
  · rwa [freeIfDone_other c t u e] at h

theorem freeIfDone_open (c : Part) (t : Nat) (h : ∀ w, c.wafer? t = some w → w.phase ≠ .home) : freeIfDone c t = c := by
  unfold freeIfDone
  split
  · rfl
  · rename_i w hw
    rw [if_neg]
    simp [Part.waferDone, h w hw]

theorem freeIfDone_lock (c : Part) (t : Nat) (k : LockId) : (freeIfDone c t).lock k = c.lock k := by
  unfold freeIfDone
  split
  · rfl
  · split
    · unfold freeWafer setWafer freeList
      rw [updateLot_rest]
      cases k <;> rfl
    · rfl

/-! ### Completion (R18) -/

theorem skipPending_lot (i j : LoadPort) (slot : Nat) (why : Reason) (c : Part) : ∃ k, (skipPending i slot why c).lot? j =
    (c.lot? j).map (fun l => if i = j then { l with
      selection := l.selection.map (fun e =>
        if e.slot == slot then { e with counts := { e.counts with skipped := e.counts.skipped + k } } else e)
      counters := { l.counters with skipped := l.counters.skipped + k } } else l) :=
  ⟨_, updateLot_lot i j _ _⟩

theorem skipPending_wafers (i : LoadPort) (slot : Nat) (why : Reason) (c : Part) :
    (skipPending i slot why c).wafers = c.wafers ∧ (skipPending i slot why c).notices = c.notices := by
  unfold skipPending countSkips
  dsimp only
  rw [updateLot_rest]
  exact ⟨rfl, rfl⟩

/-- What ruling out one slot's entry at completion does to the lot: that slot's entries RULED_OUT, the others as they were. -/
theorem ruleOutUndispatched_lot (i : LoadPort) (slot : Nat) (c : Part) (l : Lot) (h : c.lot? i = some l) :
    ∃ x g, (ruleOutUndispatched i slot c).lot? i = some x ∧ x.state = l.state ∧ x.selection = l.selection.map g ∧
      (∀ e, (g e).slot = e.slot) ∧ (∀ e, e.slot ≠ slot → g e = e) ∧ ∀ e, e.slot = slot → (g e).status = .ruledOut := by
  unfold ruleOutUndispatched
  dsimp only
  split
  · rw [updateLot_lot, h]
    refine ⟨_, fun e => if e.slot == slot then ruleOutEntry .notDispatched e else e, rfl, ?_, ?_, ?_, ?_, ?_⟩
    · simp [Lot.updateEntry]
    · simp [Lot.updateEntry]
    · intro e
      dsimp only
      split <;> rfl
    · intro e q
      simp [q]
    · intro e q
      simp [q, ruleOutEntry]
  · rename_i r _
    obtain ⟨k, hk⟩ := skipPending_lot i i slot (if r.sealed then .notDispatched else .unsealed) c
    rw [updateLot_lot, hk, h]
    refine ⟨_, fun e => if e.slot == slot then ruleOutEntry .notDispatched
      { e with counts := { e.counts with skipped := e.counts.skipped + k } } else e, rfl, ?_, ?_, ?_, ?_, ?_⟩
    · simp [Lot.updateEntry]
    · simp only [if_true, Lot.updateEntry, List.map_map]
      apply List.map_congr_left
      intro e _
      by_cases q : e.slot = slot <;> simp [q]
    · intro e
      dsimp only
      split <;> rfl
    · intro e q
      simp [q]
    · intro e q
      simp [q, ruleOutEntry]

theorem ruleOutUndispatched_other (i j : LoadPort) (slot : Nat) (c : Part) (h : j ≠ i) :
    (ruleOutUndispatched i slot c).lot? j = c.lot? j := by
  have ne : ¬ i = j := fun e => h e.symm
  unfold ruleOutUndispatched
  dsimp only
  split
  · rw [updateLot_lot]
    simp [ne]
  · rename_i r _
    obtain ⟨k, hk⟩ := skipPending_lot i j slot (if r.sealed then .notDispatched else .unsealed) c
    rw [updateLot_lot, hk]
    simp [ne]

theorem ruleOutUndispatched_wafers (i : LoadPort) (slot : Nat) (c : Part) :
    (ruleOutUndispatched i slot c).wafers = c.wafers ∧ (ruleOutUndispatched i slot c).notices = c.notices := by
  unfold ruleOutUndispatched
  dsimp only
  rw [updateLot_rest]
  split
  · exact ⟨rfl, rfl⟩
  · exact skipPending_wafers _ _ _ _

/-- Ruling out every WAITING entry: no entry of their slots is WAITING, the entries of other slots are as they were. -/
theorem ruleOutWaiting_lot (i : LoadPort) (ls : List Selection) (c : Part) (l : Lot) (h : c.lot? i = some l) :
    ∃ x g, (ruleOutWaiting i ls c).lot? i = some x ∧ x.state = l.state ∧ x.selection = l.selection.map g ∧
      (∀ e, (g e).slot = e.slot) ∧ (∀ e, g e = e ∨ (g e).status = .ruledOut) ∧
      (∀ e, (∀ f ∈ ls, f.status = .waiting → f.slot ≠ e.slot) → g e = e) ∧
      ∀ f ∈ ls, f.status = .waiting → ∀ e, e.slot = f.slot → (g e).status = .ruledOut := by
  induction ls generalizing c l with
  | nil => exact ⟨l, id, h, rfl, by simp, fun _ => rfl, fun _ => .inl rfl, fun _ _ => rfl, by simp⟩
  | cons a rest ih =>
    unfold ruleOutWaiting
    by_cases q : a.status = .waiting
    · rw [if_pos q]
      obtain ⟨y, g, hy, hs, he, g1, g2, g3⟩ := ruleOutUndispatched_lot i a.slot c l h
      obtain ⟨x, g', hx, hs', he', g1', g0', g2', g3'⟩ := ih _ y hy
      have gr (e) (r : (g e).status = .ruledOut) : (g' (g e)).status = .ruledOut := by
        rcases g0' (g e) with z | z
        · rw [z, r]
        · exact z
      refine ⟨x, g' ∘ g, hx, hs'.trans hs, by rw [he', he, List.map_map], fun e => (g1' _).trans (g1 e), fun e => ?_,
        fun e no => ?_, fun f mf wf e ef => ?_⟩
      · by_cases s : e.slot = a.slot
        · exact .inr (gr e (g3 e s))
        · simp only [Function.comp, g2 e s]
          exact g0' e
      · have s := g2 e (fun s => no a List.mem_cons_self q s.symm)
        simp only [Function.comp, s]
        exact g2' e (fun f mf wf => no f (List.mem_cons_of_mem _ mf) wf)
      · rcases List.mem_cons.1 mf with rfl | mf
        · exact gr e (g3 e ef)
        · exact g3' f mf wf (g e) ((g1 e).trans ef)
    · rw [if_neg q]
      obtain ⟨x, g, hx, hs, he, g1, g0, g2, g3⟩ := ih c l h
      refine ⟨x, g, hx, hs, he, g1, g0, fun e no => g2 e (fun f mf wf => no f (List.mem_cons_of_mem _ mf) wf),
        fun f mf wf => ?_⟩
      rcases List.mem_cons.1 mf with rfl | mf
      · exact absurd wf q
      · exact g3 f mf wf

theorem ruleOutWaiting_other (i j : LoadPort) (ls : List Selection) (c : Part) (h : j ≠ i) :
    (ruleOutWaiting i ls c).lot? j = c.lot? j ∧ (ruleOutWaiting i ls c).wafers = c.wafers ∧
      (ruleOutWaiting i ls c).notices = c.notices := by
  induction ls generalizing c with
  | nil => exact ⟨rfl, rfl, rfl⟩
  | cons a rest ih =>
    unfold ruleOutWaiting
    split
    · have u := ruleOutUndispatched_wafers i a.slot c
      obtain ⟨p, q, r⟩ := ih (ruleOutUndispatched i a.slot c)
      exact ⟨p.trans (ruleOutUndispatched_other i j a.slot c h), q.trans u.1, r.trans u.2⟩
    · exact ih c

theorem ruleOutWaiting_wafers (i : LoadPort) (ls : List Selection) (c : Part) :
    (ruleOutWaiting i ls c).wafers = c.wafers ∧ (ruleOutWaiting i ls c).notices = c.notices := by
  cases i
  · exact (ruleOutWaiting_other .p1 .p2 ls c (by decide)).2
  · exact (ruleOutWaiting_other .p2 .p1 ls c (by decide)).2
  · exact (ruleOutWaiting_other .p3 .p1 ls c (by decide)).2
  · exact (ruleOutWaiting_other .p4 .p1 ls c (by decide)).2

/-- A report goes to its lot's own record: CLOSED or REPORT_WAIT. -/
theorem deliverReport_lot (i j : LoadPort) (c : Part) : ∃ st, (st = LotState.closed ∨ st = .reportWait) ∧
    (deliverReport i c).lot? j = (c.lot? j).map (fun l => if i = j then { l with state := st } else l) := by
  unfold deliverReport
  split
  · rename_i q
    refine ⟨.closed, .inl rfl, ?_⟩
    by_cases e : i = j
    · subst e
      rw [q]
      rfl
    · simp [e]
  · split
    · exact ⟨.closed, .inl rfl, updateLot_lot i j _ _⟩
    · exact ⟨.reportWait, .inr rfl, updateLot_lot i j _ _⟩

theorem deliverReport_wafers (i : LoadPort) (c : Part) :
    (deliverReport i c).wafers = c.wafers ∧ (deliverReport i c).notices = c.notices := by
  unfold deliverReport
  split
  · exact ⟨rfl, rfl⟩
  · split
    · rw [enterReport_rest]
      exact ⟨rfl, rfl⟩
    · unfold waitReport
      rw [updateLot_rest]
      exact ⟨rfl, rfl⟩

/-- A completed lot is CLOSED or in REPORT_WAIT; no entry is WAITING, and those that were not stay. -/
theorem completeLot_lot (i : LoadPort) (c : Part) (l : Lot) (h : c.lot? i = some l) :
    ∃ x g, (completeLot i c).lot? i = some x ∧ (x.state = .closed ∨ x.state = .reportWait) ∧ x.selection = l.selection.map g ∧
      (∀ e, (g e).slot = e.slot) ∧ (∀ e, (∀ f ∈ l.selection, f.status = .waiting → f.slot ≠ e.slot) → g e = e) ∧
      ∀ e ∈ x.selection, e.status ≠ .waiting := by
  obtain ⟨y, g, hy, _, he, g1, g0, g2, g3⟩ := ruleOutWaiting_lot i l.selection c l h
  obtain ⟨st, hs, hd⟩ := deliverReport_lot i i (clearSources i (ruleOutWaiting i l.selection c))
  have : (completeLot i c).lot? i = some { y with holdTool := none, holdAuto := none, holdExc := none, state := st } := by
    simp only [completeLot, h]
    change (deliverReport i (clearSources i (ruleOutWaiting i l.selection c))).lot? i = _
    rw [hd, clearSources, updateLot_lot, hy]
    simp
  refine ⟨_, g, this, hs, he, g1, g2, fun e m => ?_⟩
  rw [show ({ y with holdTool := none, holdAuto := none, holdExc := none, state := st } : Lot).selection = y.selection from rfl,
    he, List.mem_map] at m
  obtain ⟨f, mf, rfl⟩ := m
  by_cases w : f.status = .waiting
  · rw [g3 f mf w f rfl]
    decide
  · rcases g0 f with z | z <;> rw [z]
    · exact w
    · decide

theorem completeLot_other (i j : LoadPort) (c : Part) (h : j ≠ i) : (completeLot i c).lot? j = c.lot? j := by
  have ne : ¬ i = j := fun e => h e.symm
  unfold completeLot
  split
  · rfl
  · rename_i l _
    obtain ⟨st, _, hd⟩ := deliverReport_lot i j (clearSources i (ruleOutWaiting i l.selection c))
    change (deliverReport i (clearSources i (ruleOutWaiting i l.selection c))).lot? j = _
    rw [hd, clearSources, updateLot_lot, (ruleOutWaiting_other i j l.selection c h).1]
    simp [ne]

theorem completeLot_wafers (i : LoadPort) (c : Part) : (completeLot i c).wafers = c.wafers := by
  unfold completeLot
  split
  · rfl
  · change (deliverReport i _).wafers = _
    rw [(deliverReport_wafers i _).1, clearSources, updateLot_rest]
    exact (ruleOutWaiting_wafers i _ c).1

/-- The wafer record of a lot is in use. -/
theorem lotHasWafer_iff (c : Part) (i : LoadPort) :
    c.lotHasWafer i = true ↔ ∃ t w, t ∈ allTags ∧ c.wafer? t = some w ∧ w.lot = i := by
  simp only [Part.lotHasWafer, List.any_eq_true]
  refine exists_congr fun t => ?_
  cases c.wafer? t <;> simp

theorem completeIfDone_done (c : Part) (i : LoadPort) (l : Lot) (h : c.lot? i = some l) (hd : l.state = .draining)
    (no : ¬ ∃ t w, t ∈ allTags ∧ c.wafer? t = some w ∧ w.lot = i) : completeIfDone i c = completeLot i c := by
  rw [← lotHasWafer_iff, Bool.not_eq_true] at no
  simp [completeIfDone, h, hd, no]

theorem completeIfDone_stays (c : Part) (i : LoadPort) (h : ∀ l, c.lot? i = some l →
    ¬ (l.state = .draining ∧ ¬ ∃ t w, t ∈ allTags ∧ c.wafer? t = some w ∧ w.lot = i)) : completeIfDone i c = c := by
  unfold completeIfDone
  split
  · rfl
  · rename_i l q
    rw [if_neg]
    rintro ⟨a, b⟩
    refine h l q ⟨a, ?_⟩
    rw [← lotHasWafer_iff, b]
    decide

theorem completeIfDone_other (i j : LoadPort) (c : Part) (h : j ≠ i) : (completeIfDone i c).lot? j = c.lot? j := by
  unfold completeIfDone
  split
  · rfl
  · split
    · exact completeLot_other i j c h
    · rfl

theorem completeIfDone_wafers (i : LoadPort) (c : Part) : (completeIfDone i c).wafers = c.wafers := by
  unfold completeIfDone
  split
  · rfl
  · split
    · exact completeLot_wafers i c
    · rfl

/-! ### What completion leaves of a lock -/

theorem updateLot_lock (i : LoadPort) (f : Lot → Lot) (c : Part) (k : LockId) : (updateLot i f c).lock k = c.lock k := by
  rw [updateLot_rest]
  cases k <;> rfl

theorem ruleOutUndispatched_lock (i : LoadPort) (slot : Nat) (c : Part) (k : LockId) :
    (ruleOutUndispatched i slot c).lock k = c.lock k := by
  unfold ruleOutUndispatched
  dsimp only
  rw [updateLot_lock]
  split
  · rfl
  · unfold skipPending countSkips
    dsimp only
    rw [updateLot_lock]
    cases k <;> rfl

theorem ruleOutWaiting_lock (i : LoadPort) (ls : List Selection) (c : Part) (k : LockId) :
    (ruleOutWaiting i ls c).lock k = c.lock k := by
  induction ls generalizing c with
  | nil => rfl
  | cons a rest ih =>
    unfold ruleOutWaiting
    split
    · rw [ih, ruleOutUndispatched_lock]
    · exact ih c

theorem deliverReport_lock (i : LoadPort) (c : Part) (k : LockId) : (deliverReport i c).lock k = c.lock k := by
  unfold deliverReport
  split
  · rfl
  · split
    · rw [enterReport_rest]
      cases k <;> rfl
    · unfold waitReport
      rw [updateLot_lock]
      cases k <;> rfl

theorem completeIfDone_lock (i : LoadPort) (c : Part) (k : LockId) : (completeIfDone i c).lock k = c.lock k := by
  unfold completeIfDone
  split
  · rfl
  · split
    · unfold completeLot
      split
      · rfl
      · rename_i l _
        have : (raiseLotState (deliverReport i (clearSources i (ruleOutWaiting i l.selection c)))).lock k =
            (deliverReport i (clearSources i (ruleOutWaiting i l.selection c))).lock k := by cases k <;> rfl
        rw [this, deliverReport_lock, clearSources, updateLot_lock, ruleOutWaiting_lock]
    · rfl

/-! ### LOT_STATE stays raised (R12) -/

/-- LOT_STATE stands raised at the tool port and at the automation port. -/
def LotStateUp (c : Part) : Prop :=
  .lotState ∈ (c.notices.get .tool).raised ∧ .lotState ∈ (c.notices.get .automation).raised

theorem raiseLotState_up (c : Part) : LotStateUp (raiseLotState c) := by
  constructor
  · rw [raiseLotState, raiseEvent_other _ _ _ _ (by decide), mem_raiseEvent]
    simp [conditionsOf, Condition.isEvent]
  · rw [raiseLotState, mem_raiseEvent]
    simp [conditionsOf, Condition.isEvent]

theorem LotStateUp.congr {c d : Part} (h : LotStateUp c) (e : d.notices = c.notices) : LotStateUp d := by
  unfold LotStateUp
  rw [e]
  exact h

theorem LotStateUp.raised {c : Part} (h : LotStateUp c) : .lotState ∈ rawSet c .tool ∧ .lotState ∈ rawSet c .automation := by
  constructor <;> simp [rawSet, conditionsOf, conditionRaised, Condition.isEvent, h.1, h.2]

theorem completeLot_up (i : LoadPort) (c : Part) (h : LotStateUp c) : LotStateUp (completeLot i c) := by
  unfold completeLot
  split
  · exact h
  · exact raiseLotState_up _

/-! ### What the orders leave of a lot -/

/-- `d` has the lots and the notices of `c`. -/
def KeepsLots (c d : Part) : Prop := d.lots = c.lots ∧ d.notices = c.notices

theorem KeepsLots.refl (c : Part) : KeepsLots c c := ⟨rfl, rfl⟩

theorem KeepsLots.trans {a b c : Part} (h : KeepsLots a b) (k : KeepsLots b c) : KeepsLots a c :=
  ⟨k.1.trans h.1, k.2.trans h.2⟩

theorem KeepsLots.lot {c d : Part} (h : KeepsLots c d) (i : LoadPort) : d.lot? i = c.lot? i := by
  rw [Part.lot?, h.1]
  rfl

theorem setLock_lots (k : LockId) (l : Lock) (c : Part) : KeepsLots c (setLock k l c) := by cases k <;> exact ⟨rfl, rfl⟩

theorem updateWafer_lots (t : Nat) (f : Wafer → Wafer) (c : Part) : KeepsLots c (updateWafer t f c) := by
  unfold updateWafer
  split <;> exact ⟨rfl, rfl⟩

theorem dropReservation_lots (t : Nat) (p : Purpose) (k : LockId) (c : Part) : KeepsLots c (dropReservation t p k c) := by
  rw [dropReservation_rest]
  exact ⟨rfl, rfl⟩

theorem issueOrder_lots (m : Mover) (k : OrderKind) (t : Option Nat) (c : Part) : KeepsLots c (issueOrder m k t c) := by
  rw [issueOrder_rest]
  exact ⟨rfl, rfl⟩

theorem issuePump_lots (k : LockId) (t : Option Nat) (c : Part) : KeepsLots c (issuePump k t c) := by
  unfold issuePump
  dsimp only
  split
  · exact (setLock_lots _ _ _).trans (issueOrder_lots _ _ _ _)
  · exact ((setLock_lots _ _ _).trans (issueOrder_lots _ _ _ _)).trans
      ((updateWafer_lots _ _ _).trans (dropReservation_lots _ _ _ _))

theorem issueVent_lots (k : LockId) (t : Option Nat) (c : Part) : KeepsLots c (issueVent k t c) :=
  (setLock_lots _ _ _).trans (issueOrder_lots _ _ _ _)

theorem issueMoveSite_lots (c : Part) : KeepsLots c (issueMoveSite c) := by
  unfold issueMoveSite
  repeat' split
  all_goals first
    | exact KeepsLots.refl c
    | exact issueOrder_lots _ _ _ c

theorem lockWork_lots (c : Part) (k : LockId) : KeepsLots c (lockWork c k) := by
  unfold lockWork
  repeat' split
  all_goals first
    | exact KeepsLots.refl c
    | exact issuePump_lots _ _ _
    | exact issueVent_lots _ _ _

theorem alignWork_lots (c : Part) : KeepsLots c (alignWork c) := by
  unfold alignWork
  repeat' split
  all_goals first
    | exact KeepsLots.refl c
    | exact issueOrder_lots _ _ _ _

theorem returnWork_lots (c : Part) (p : Place) : KeepsLots c (returnWork c p) := by
  unfold returnWork reserveReturn
  repeat' split
  all_goals first
    | exact KeepsLots.refl c
    | exact setLock_lots _ _ _
    | exact (setLock_lots _ _ _).trans (issuePump_lots _ _ _)

theorem vrWork_lots (c : Part) : KeepsLots c (vrWork c) := by
  unfold vrWork doVrTask
  repeat' split
  all_goals first
    | exact KeepsLots.refl c
    | exact issueOrder_lots _ _ _ _
    | exact (updateWafer_lots _ _ _).trans (issueOrder_lots _ _ _ _)

theorem ventWork_lots (c : Part) (k : LockId) : KeepsLots c (ventWork c k) := by
  unfold ventWork
  split
  · exact issueVent_lots _ _ _
  · exact KeepsLots.refl c

theorem moveLoadWork_lots (c : Part) : KeepsLots c (moveLoadWork c) := by
  unfold moveLoadWork
  split
  · exact issueOrder_lots _ _ _ _
  · exact KeepsLots.refl c

/-- The best offer is an offer (R53). -/
theorem bestOffer_offer (c : Part) (i : LoadPort) (slot : Nat) (h : c.bestOffer = some (i, slot)) : c.offer i = some slot := by
  let better (best : Option (LoadPort × Nat)) (i : LoadPort) : Option (LoadPort × Nat) :=
    match c.offer i, c.lot? i with
    | some slot, some l =>
      match best with
      | none => some (i, slot)
      | some (j, slot') =>
        match c.lot? j with
        | none => some (i, slot)
        | some m => if lotBefore l m then some (i, slot) else some (j, slot')
    | _, _ => best
  have step (b : Option (LoadPort × Nat)) (k : LoadPort) (hb : ∀ j s, b = some (j, s) → c.offer j = some s) :
      ∀ j s, better b k = some (j, s) → c.offer j = some s := by
    intro j s h
    simp only [better] at h
    split at h
    · rename_i o1 o2
      split at h
      · cases h
        exact o1
      · split at h
        · cases h
          exact o1
        · split at h
          · cases h
            exact o1
          · exact hb _ _ h
    · exact hb _ _ h
  have all (l : List LoadPort) (b : Option (LoadPort × Nat)) (hb : ∀ j s, b = some (j, s) → c.offer j = some s) :
      ∀ j s, l.foldl better b = some (j, s) → c.offer j = some s := by
    induction l generalizing b with
    | nil => exact hb
    | cons k rest ih => exact ih (better b k) (step b k hb)
  exact all allLoadPorts none (by simp) i slot h

/-- An offer is a WAITING entry of a RUNNING lot whose list is sealed with entries (R10). -/
theorem offer_some (c : Part) (i : LoadPort) (slot : Nat) (h : c.offer i = some slot) : ∃ l e, c.lot? i = some l ∧
    l.state = .running ∧ l.aborted = false ∧ e ∈ l.selection ∧ e.slot = slot ∧ e.status = .waiting := by
  unfold Part.offer at h
  split at h
  · cases h
  · rename_i l q
    split at h
    · rename_i z
      obtain ⟨e, he, hs⟩ := Option.map_eq_some_iff.1 h
      have p := List.find?_some he
      simp only [Bool.and_eq_true, beq_iff_eq] at p
      exact ⟨l, e, q, z.1, z.2.1, List.mem_of_find?_eq_some he, hs, p.1⟩
    · cases h

/-- What the AR's work does to a lot: nothing, or the grant of a WAITING entry of a RUNNING lot (R53). -/
theorem arWork_lot (c : Part) (i : LoadPort) (l : Lot) (h : c.lot? i = some l) :
    (arWork c).lot? i = some l ∨ (l.state = .running ∧ ∃ e ∈ l.selection, e.status = .waiting ∧
      ∃ x, (arWork c).lot? i = some x ∧ x.selection =
        l.selection.map (fun q => if q.slot == e.slot then { q with status := .dispatched } else q)) := by
  unfold arWork
  split
  · split
    · exact .inl h
    · rename_i task q
      cases task with
      | order k t =>
        left
        rw [doArTask, (issueOrder_lots _ _ _ _).lot]
        exact h
      | admission k t =>
        left
        rw [doArTask, setPhase, setReservation, (issueOrder_lots _ _ _ _).lot, (updateWafer_lots _ _ _).lot,
          (setLock_lots _ _ _).lot]
        exact h
      | grant j slot t =>
        have hd : c.arDispatch = some (.grant j slot t) := by
          rw [arTask_eq] at q
          rcases arHomeLower_cases c with a | ⟨_, _, a⟩ <;> rw [a] at q
          · rcases arPlaceUpper_cases c with b | ⟨_, _, b⟩ <;> rw [b] at q
            · rcases arPickLocks_cases c .lower with d | ⟨_, _, d⟩ <;> rw [d] at q
              · rcases arPickLocks_cases c .upper with f | ⟨_, _, f⟩ <;> rw [f] at q
                · cases g : c.arPickAligner with
                  | none =>
                    rw [g] at q
                    exact q
                  | some z =>
                    rw [g] at q
                    cases q
                    revert g
                    unfold Part.arPickAligner
                    (repeat' split) <;> simp
                · cases g : c.arPickAligner with
                  | none =>
                    rw [g] at q
                    cases q
                  | some z =>
                    rw [g] at q
                    cases q
                    revert g
                    unfold Part.arPickAligner
                    (repeat' split) <;> simp
              · cases q
            · cases q
          · cases q
        obtain ⟨_, e, a, b, _, d, f, g⟩ :=
          offer_some c j slot (bestOffer_offer c j slot ((arDispatch_grant c j slot t).1 hd).2.2.2.2)
        have put (k : LoadPort) : (issueOrder .ar (.arPick .upper (.slot j slot)) (some t) (updateLot j
            (Lot.updateEntry slot (fun e => { e with status := .dispatched })) (setWafer t (some (grantedWafer j slot)) c))).lot? k
            = (c.lot? k).map (fun l =>
              if j = k then Lot.updateEntry slot (fun e => { e with status := .dispatched }) l else l) := by
          rw [(issueOrder_lots _ _ _ _).lot, updateLot_lot]
          rfl
        by_cases ji : j = i
        · subst ji
          rw [h] at a
          cases a
          refine .inr ⟨b, _, d, g, ?_⟩
          subst f
          rw [doArTask]
          unfold drainLot
          rw [put, h]
          simp only [Option.map_some, if_true]
          split
          · refine ⟨{ Lot.updateEntry e.slot (fun q => { q with status := .dispatched }) l with state := .draining }, ?_, ?_⟩
            · change (setLot j _ _).lot? j = _
              rw [setLot_lot]
              simp
            · simp [Lot.updateEntry]
          · refine ⟨Lot.updateEntry e.slot (fun q => { q with status := .dispatched }) l, ?_, ?_⟩
            · rw [put, h]
              simp
            · simp [Lot.updateEntry]
        · left
          rw [doArTask, drainLot_other _ _ _ (fun q => ji q.symm), put, h]
          simp [ji]
  · exact .inl h

theorem arWork_up (c : Part) (h : LotStateUp c) : LotStateUp (arWork c) := by
  have drain (i : LoadPort) (d : Part) (h : LotStateUp d) : LotStateUp (drainLot i d) := by
    unfold drainLot
    split
    · exact h
    · split
      · exact raiseLotState_up _
      · exact h
  unfold arWork
  split
  · split
    · exact h
    · unfold doArTask
      split
      · exact h.congr (issueOrder_lots _ _ _ _).2
      · exact h.congr ((setLock_lots _ _ _).trans ((updateWafer_lots _ _ _).trans (issueOrder_lots _ _ _ _))).2
      · refine drain _ _ (h.congr ?_)
        rw [(issueOrder_lots _ _ _ _).2, updateLot_rest]
        rfl
  · exact h

/-- What the orders do to a lot: nothing, or the grant of a WAITING entry of a RUNNING lot. -/
theorem issueWork_lot (c : Part) (i : LoadPort) (l : Lot) (h : c.lot? i = some l) :
    ((issueWork c).lot? i = some l ∨ (l.state = .running ∧ ∃ e ∈ l.selection, e.status = .waiting ∧
      ∃ x, (issueWork c).lot? i = some x ∧ x.selection =
        l.selection.map (fun q => if q.slot == e.slot then { q with status := .dispatched } else q))) ∧
    (LotStateUp c → LotStateUp (issueWork c)) := by
  have before : KeepsLots c
      (returnWork (returnWork (alignWork (lockWork (lockWork (issueMoveSite c) .a) .b)) .stage) .transferArm) :=
    (((((issueMoveSite_lots c).trans (lockWork_lots _ _)).trans (lockWork_lots _ _)).trans (alignWork_lots _)).trans
      (returnWork_lots _ _)).trans (returnWork_lots _ _)
  have after (d : Part) : KeepsLots d (moveLoadWork (ventWork (ventWork (vrWork d) .a) .b)) :=
    (((vrWork_lots d).trans (ventWork_lots _ _)).trans (ventWork_lots _ _)).trans (moveLoadWork_lots _)
  unfold issueWork
  dsimp only
  rw [(after _).lot]
  exact ⟨arWork_lot _ i l ((before.lot i).trans h), fun u => (arWork_up _ (u.congr before.2)).congr (after _).2⟩

/-! ### A lot through `settleLots` -/

/-- A wafer record of the lot is in use (R18). -/
def InUse (c : Part) (i : LoadPort) : Prop := ∃ t w, t ∈ allTags ∧ c.wafer? t = some w ∧ w.lot = i

theorem inUse_congr (c d : Part) (i : LoadPort) (h : d.wafers = c.wafers) : InUse d i ↔ InUse c i := by
  simp only [InUse, Part.wafer?, h]

theorem redirect_lots (c : Part) (t : Nat) : KeepsLots c (redirect c t) := by
  rw [redirect_rest]
  exact ⟨rfl, rfl⟩

/-- Turning back keeps the lot and the slot of every record. -/
theorem redirect_owner (c : Part) (t u : Nat) (w : Wafer) (h : (redirect c t).wafer? u = some w) :
    ∃ x, c.wafer? u = some x ∧ x.lot = w.lot ∧ x.slot = w.slot := by
  by_cases e : u = t
  · subst e
    cases hx : c.wafer? u with
    | none =>
      rw [redirect, hx] at h
      dsimp only at h
      rw [hx] at h
      cases h
    | some x =>
      by_cases q : (c.lotAborted x.lot = true ∧ ¬ Named c u) ∧ ∃ p, TurnsBack c x p
      · obtain ⟨a, p, b⟩ := q
        rw [(redirect_eq c u x hx).1 p a b] at h
        rw [wafer?_set c _ u x { x with phase := p } hx rfl] at h
        cases h
        exact ⟨x, rfl, rfl, rfl⟩
      · rw [(redirect_eq c u x hx).2 q, hx] at h
        cases h
        exact ⟨_, rfl, rfl, rfl⟩
  · rw [redirect_other c t u e] at h
    exact ⟨w, h, rfl, rfl⟩

/-- A lot after ruling out (R10). -/
def Lot.afterRuling (l : Lot) (c : Part) (i : LoadPort) : Lot :=
  if l.state = .running ∧ l.aborted = false then l.ruled c i else l

/-- A lot after draining (R11). -/
def Lot.afterDraining (l : Lot) : Lot :=
  if l.state = .running ∧ l.anyWaiting = false then { l with state := .draining } else l

/-- `settleLots` up to the completions. -/
def recordsSettled (c : Part) : Part :=
  allTags.foldl freeIfDone (allTags.foldl redirect
    (allLoadPorts.foldl (fun c i => drainLot i c) (allLoadPorts.foldl (fun c i => ruleOutLot i c) c)))

theorem settleLots_eq (c : Part) : settleLots c = allLoadPorts.foldl (fun c i => completeIfDone i c) (recordsSettled c) := rfl

theorem ruled_congr (c d : Part) (l : Lot) (i : LoadPort) (h : d.lists = c.lists) : l.ruled d i = l.ruled c i := by
  have (e : Selection) : d.barren i e = c.barren i e := by
    unfold Part.barren Part.listStatus Part.list?
    rw [h]
  simp only [Lot.ruled, this]

theorem ruled_all (c : Part) (i : LoadPort) (l : Lot) (h : c.lot? i = some l) :
    (allLoadPorts.foldl (fun c i => ruleOutLot i c) c).lot? i = some (l.afterRuling c i) ∧
      (allLoadPorts.foldl (fun c i => ruleOutLot i c) c).wafers = c.wafers := by
  have other (P : Option Lot) (d : Part) (b : LoadPort) (hb : b ≠ i)
      (hd : d.lot? i = P ∧ d.wafers = c.wafers ∧ d.lists = c.lists) : (ruleOutLot b d).lot? i = P ∧
        (ruleOutLot b d).wafers = c.wafers ∧ (ruleOutLot b d).lists = c.lists :=
    ⟨(ruleOutLot_other b i d hb.symm).trans hd.1, by rw [ruleOutLot_rest]; exact hd.2⟩
  have here (d : Part) (hd : d.lot? i = some l ∧ d.wafers = c.wafers ∧ d.lists = c.lists) :
      (ruleOutLot i d).lot? i = some (l.afterRuling c i) ∧ (ruleOutLot i d).wafers = c.wafers ∧
        (ruleOutLot i d).lists = c.lists := by
    refine ⟨?_, by rw [ruleOutLot_rest]; exact hd.2⟩
    by_cases q : l.state = .running ∧ l.aborted = false
    · rw [ruleOutLot_running d i l hd.1 q.1 q.2, setLot_lot, if_pos rfl, Lot.afterRuling, if_pos q, ruled_congr c d l i hd.2.2]
    · rw [ruleOutLot_stays d i (fun x hx => by rw [hd.1] at hx; cases hx; exact q), hd.1, Lot.afterRuling, if_neg q]
  have := foldl_at (fun c i => ruleOutLot i c) i (fun d => d.lot? i = some l ∧ d.wafers = c.wafers ∧ d.lists = c.lists)
    (fun d => d.lot? i = some (l.afterRuling c i) ∧ d.wafers = c.wafers ∧ d.lists = c.lists) (other _) here (other _)
    allLoadPorts (by decide) (mem_allLoadPorts i) c ⟨h, rfl, rfl⟩
  exact ⟨this.1, this.2.1⟩

theorem drained_all (c : Part) (i : LoadPort) (l : Lot) (h : c.lot? i = some l) :
    (allLoadPorts.foldl (fun c i => drainLot i c) c).lot? i = some l.afterDraining ∧
      (allLoadPorts.foldl (fun c i => drainLot i c) c).wafers = c.wafers := by
  have other (P : Option Lot) (d : Part) (b : LoadPort) (hb : b ≠ i) (hd : d.lot? i = P ∧ d.wafers = c.wafers) :
      (drainLot b d).lot? i = P ∧ (drainLot b d).wafers = c.wafers :=
    ⟨(drainLot_other b i d hb.symm).trans hd.1, by rw [drainLot_rest]; exact hd.2⟩
  have here (d : Part) (hd : d.lot? i = some l ∧ d.wafers = c.wafers) :
      (drainLot i d).lot? i = some l.afterDraining ∧ (drainLot i d).wafers = c.wafers := by
    refine ⟨?_, by rw [drainLot_rest]; exact hd.2⟩
    by_cases q : l.state = .running ∧ l.anyWaiting = false
    · rw [drainLot_running d i l hd.1 q.1 ((anyWaiting_false l).1 q.2)]
      change (setLot i _ d).lot? i = _
      rw [setLot_lot, if_pos rfl, Lot.afterDraining, if_pos q]
    · rw [drainLot_stays d i (fun x hx => by rw [hd.1] at hx; cases hx; rwa [anyWaiting_false] at q), hd.1,
        Lot.afterDraining, if_neg q]
  exact foldl_at (fun c i => drainLot i c) i (fun d => d.lot? i = some l ∧ d.wafers = c.wafers)
    (fun d => d.lot? i = some l.afterDraining ∧ d.wafers = c.wafers) (other _) here (other _) allLoadPorts (by decide)
    (mem_allLoadPorts i) c ⟨h, rfl⟩

/-- A lot before the completions: ruled out, drained, and of its entries' summaries at most those of slots with a record. -/
theorem recordsSettled_lot (c : Part) (i : LoadPort) (l : Lot) (h : c.lot? i = some l) :
    (∃ g, (recordsSettled c).lot? i = some { (l.afterRuling c i).afterDraining with
        selection := (l.afterRuling c i).afterDraining.selection.map g } ∧
      (∀ e, (g e).slot = e.slot ∧ (g e).status = e.status) ∧
      ∀ e, (∀ t w, c.wafer? t = some w → w.lot = i → w.slot ≠ e.slot) → g e = e) ∧
    ∀ t w, (recordsSettled c).wafer? t = some w → ∃ x, c.wafer? t = some x ∧ x.lot = w.lot ∧ x.slot = w.slot := by
  have s1 := ruled_all c i l h
  generalize hc1 : allLoadPorts.foldl (fun c i => ruleOutLot i c) c = c1 at s1
  have s2 := drained_all c1 i _ s1.1
  generalize hc2 : allLoadPorts.foldl (fun c i => drainLot i c) c1 = c2 at s2
  generalize hl2 : (l.afterRuling c i).afterDraining = l2 at s2 ⊢
  let owned (d : Part) : Prop := ∀ t w, d.wafer? t = some w → ∃ x, c.wafer? t = some x ∧ x.lot = w.lot ∧ x.slot = w.slot
  have w2 : owned c2 := by
    intro t w q
    rw [Part.wafer?, s2.2, s1.2] at q
    exact ⟨w, q, rfl, rfl⟩
  have turn (d : Part) (t : Nat) (hd : d.lot? i = some l2 ∧ owned d) : (redirect d t).lot? i = some l2 ∧ owned (redirect d t) := by
    refine ⟨((redirect_lots d t).lot i).trans hd.1, fun u w q => ?_⟩
    obtain ⟨x, a, b, e⟩ := redirect_owner d t u w q
    obtain ⟨y, a', b', e'⟩ := hd.2 u x a
    exact ⟨y, a', b'.trans b, e'.trans e⟩
  have s3 := foldl_inv redirect (fun d => d.lot? i = some l2 ∧ owned d) turn allTags c2 ⟨s2.1, w2⟩
  generalize hc3 : allTags.foldl redirect c2 = c3 at s3
  let summed (d : Part) : Prop := ∃ g, d.lot? i = some { l2 with selection := l2.selection.map g } ∧
    (∀ e, (g e).slot = e.slot ∧ (g e).status = e.status) ∧
    ∀ e, (∀ t w, c.wafer? t = some w → w.lot = i → w.slot ≠ e.slot) → g e = e
  have free (d : Part) (t : Nat) (hd : summed d ∧ owned d) : summed (freeIfDone d t) ∧ owned (freeIfDone d t) := by
    obtain ⟨⟨g, a, b, e⟩, r⟩ := hd
    obtain ⟨g', b', e', a'⟩ := freeIfDone_lot d t i
    refine ⟨⟨g' ∘ g, ?_, ?_, ?_⟩, fun u w q => r u w (freeIfDone_wafer d t u w q)⟩
    · rw [a', a]
      simp [List.map_map]
    · exact fun e => ⟨(b' _).1.trans (b e).1, (b' _).2.trans (b e).2⟩
    · intro x no
      simp only [Function.comp, e x no]
      refine e' x (fun w hw hi => ?_)
      obtain ⟨y, ya, yb, yc⟩ := r t w hw
      rw [← yc]
      exact no t y ya (yb.trans hi)
  have s4 := foldl_inv freeIfDone (fun d => summed d ∧ owned d) free allTags c3
    ⟨⟨id, by simp [s3.1], fun _ => ⟨rfl, rfl⟩, fun _ _ => rfl⟩, s3.2⟩
  have : recordsSettled c = allTags.foldl freeIfDone c3 := by
    rw [← hc3, ← hc2, ← hc1]
    rfl
  rw [this]
  exact s4

theorem completeIfDone_up (j : LoadPort) (d : Part) (h : LotStateUp d) : LotStateUp (completeIfDone j d) := by
  unfold completeIfDone
  split
  · exact h
  · split
    · exact completeLot_up _ _ h
    · exact h

theorem completeLot_raises (i : LoadPort) (d : Part) (x : Lot) (h : d.lot? i = some x) : LotStateUp (completeLot i d) := by
  unfold completeLot
  rw [h]
  exact raiseLotState_up _

/-- The completions, for a lot that completes. -/
theorem completions_done (m : Part) (i : LoadPort) (x : Lot) (h : m.lot? i = some x) (q : x.state = .draining)
    (no : ¬ InUse m i) : (∃ d, d.lot? i = some x ∧
        (allLoadPorts.foldl (fun c i => completeIfDone i c) m).lot? i = (completeLot i d).lot? i) ∧
      LotStateUp (allLoadPorts.foldl (fun c i => completeIfDone i c) m) := by
  let before (d : Part) : Prop := d.lot? i = some x ∧ d.wafers = m.wafers
  let done (d : Part) : Prop := (∃ d', d'.lot? i = some x ∧ d.lot? i = (completeLot i d').lot? i) ∧ LotStateUp d
  have base (d : Part) (b : LoadPort) (hb : b ≠ i) (hd : before d) : before (completeIfDone b d) :=
    ⟨(completeIfDone_other b i d hb.symm).trans hd.1, (completeIfDone_wafers b d).trans hd.2⟩
  have here (d : Part) (hd : before d) : done (completeIfDone i d) := by
    rw [completeIfDone_done d i x hd.1 q (fun u => no ((inUse_congr m d i hd.2).1 u))]
    exact ⟨⟨d, hd.1, rfl⟩, completeLot_raises i d x hd.1⟩
  have last (d : Part) (b : LoadPort) (hb : b ≠ i) (hd : done d) : done (completeIfDone b d) := by
    obtain ⟨⟨d', a, e⟩, u⟩ := hd
    exact ⟨⟨d', a, (completeIfDone_other b i d hb.symm).trans e⟩, completeIfDone_up b d u⟩
  exact foldl_at (fun c i => completeIfDone i c) i before done base here last allLoadPorts (by decide) (mem_allLoadPorts i) m
    ⟨h, rfl⟩

/-- The completions, for a lot that does not complete. -/
theorem completions_stay (m : Part) (i : LoadPort) (x : Lot) (h : m.lot? i = some x)
    (q : ¬ (x.state = .draining ∧ ¬ InUse m i)) :
    (allLoadPorts.foldl (fun c i => completeIfDone i c) m).lot? i = some x := by
  let stays (d : Part) : Prop := d.lot? i = some x ∧ d.wafers = m.wafers
  have step (d : Part) (b : LoadPort) (hd : stays d) : stays (completeIfDone b d) := by
    refine ⟨?_, (completeIfDone_wafers b d).trans hd.2⟩
    by_cases e : b = i
    · subst e
      rw [completeIfDone_stays d b, hd.1]
      intro l hl
      rw [hd.1] at hl
      cases hl
      rintro ⟨a, no⟩
      exact q ⟨a, fun u => no ((inUse_congr m d b hd.2).2 u)⟩
    · exact (completeIfDone_other b i d (Ne.symm e)).trans hd.1
  exact (foldl_inv (fun c i => completeIfDone i c) stays step allLoadPorts m ⟨h, rfl⟩).1

/-- A lot through `settleLots`: completed when it is DRAINING with no record in use, else as the records left it. -/
theorem settleLots_lot (c : Part) (i : LoadPort) (x : Lot) (h : (recordsSettled c).lot? i = some x) :
    (x.state = .draining → ¬ InUse (recordsSettled c) i →
      (∃ d, d.lot? i = some x ∧ (settleLots c).lot? i = (completeLot i d).lot? i) ∧ LotStateUp (settleLots c)) ∧
    (¬ (x.state = .draining ∧ ¬ InUse (recordsSettled c) i) → (settleLots c).lot? i = some x) := by
  rw [settleLots_eq]
  generalize recordsSettled c = m at h ⊢
  exact ⟨completions_done m i x h, completions_stay m i x h⟩

/-- A lot that is not RUNNING comes through the orders as it is. -/
theorem settle_lot (c : Part) (i : LoadPort) (l : Lot) (h : (settleLots c).lot? i = some l) (hr : l.state ≠ .running) :
    (settle c).lot? i = some l :=
  (issueWork_lot (settleLots c) i l h).1.resolve_right (fun a => hr a.1)

end Sys2Proof.Machine
end

