-- ==== Sys2Proof/Laws/Memory.lean ====
section
/-! SUPPORT. The serial memory: every operation keeps the canonical form, and a byte reads as it was last written. -/

namespace Sys2Proof.Machine

theorem memoryWf_cons (a : Nat) (b : Byte) (rest : List Host.Cell) :
    memoryWf ((a, b) :: rest) = true ↔
      a < 512 ∧ b ≠ Config.erasedByte ∧ memoryWf rest = true ∧ ∀ e ∈ rest, a < e.1 := by
  induction rest generalizing a b with
  | nil => simp [memoryWf]
  | cons e rest ih =>
    obtain ⟨a', b'⟩ := e
    have step : memoryWf ((a, b) :: (a', b') :: rest) =
        (decide (a < a') && b != Config.erasedByte && memoryWf ((a', b') :: rest)) := rfl
    rw [step]
    constructor
    · intro h
      simp only [Bool.and_eq_true, decide_eq_true_eq, bne_iff_ne, ne_eq] at h
      obtain ⟨⟨lt, nb⟩, wf⟩ := h
      have k := (ih a' b').mp wf
      refine ⟨by omega, nb, wf, ?_⟩
      intro e he
      rcases List.mem_cons.mp he with rfl | he
      · exact lt
      · have := k.2.2.2 e he
        omega
    · intro ⟨_, nb, wf, above⟩
      have lt := above (a', b') (by simp)
      simp [lt, nb, wf]

/-- A byte below every listed address is not listed. -/
theorem memoryByte_below (m : List Host.Cell) (x : Nat) (h : ∀ e ∈ m, x < e.1) : memoryByte m x = Config.erasedByte := by
  induction m with
  | nil => rfl
  | cons e rest ih =>
    obtain ⟨a, b⟩ := e
    have : ¬ a = x := by have := h (a, b) (by simp); simp at this; omega
    simp only [memoryByte, this, if_false]
    exact ih (fun e he => h e (by simp [he]))

theorem memoryWrite_mem (m : List Host.Cell) (x : Nat) (v : Byte) (e : Host.Cell) (h : e ∈ memoryWrite m x v) :
    e.1 = x ∨ e ∈ m := by
  induction m with
  | nil =>
    simp only [memoryWrite] at h
    split at h <;> simp_all
  | cons c rest ih =>
    obtain ⟨a, b⟩ := c
    simp only [memoryWrite] at h
    split at h
    · split at h <;> simp_all <;> grind
    · split at h
      · split at h <;> simp_all <;> grind
      · rcases List.mem_cons.mp h with rfl | h
        · simp
        · rcases ih h with k | k <;> simp [k]

/-- A write within the memory keeps the canonical form. -/
theorem memoryWrite_wf (m : List Host.Cell) (x : Nat) (v : Byte) (hx : x < 512) (h : memoryWf m = true) :
    memoryWf (memoryWrite m x v) = true := by
  induction m with
  | nil =>
    simp only [memoryWrite]
    split
    · rfl
    · next hv => simp [memoryWf, hx, hv]
  | cons c rest ih =>
    obtain ⟨a, b⟩ := c
    have k := (memoryWf_cons a b rest).mp h
    simp only [memoryWrite]
    split
    · next lt =>
      split
      · exact h
      · next hv =>
        refine (memoryWf_cons _ _ _).mpr ⟨hx, hv, h, ?_⟩
        intro e he
        rcases List.mem_cons.mp he with rfl | he
        · exact lt
        · have := k.2.2.2 e he; omega
    · split
      · next eq =>
        subst eq
        split
        · exact k.2.2.1
        · next hv => exact (memoryWf_cons _ _ _).mpr ⟨hx, hv, k.2.2.1, k.2.2.2⟩
      · refine (memoryWf_cons _ _ _).mpr ⟨k.1, k.2.1, ih k.2.2.1, ?_⟩
        intro e he
        rcases memoryWrite_mem rest x v e he with hh | hh
        · omega
        · exact k.2.2.2 e hh

/-- What a byte reads as after a write: the written value at the written address, the old one elsewhere. -/
theorem memoryByte_write (m : List Host.Cell) (x : Nat) (v : Byte) (y : Nat) (h : memoryWf m = true) :
    memoryByte (memoryWrite m x v) y = if y = x then v else memoryByte m y := by
  induction m with
  | nil =>
    simp only [memoryWrite]
    split
    · next hv => split <;> simp [memoryByte, hv]
    · simp only [memoryByte]
      split <;> split <;> first | rfl | omega
  | cons c rest ih =>
    obtain ⟨a, b⟩ := c
    have k := (memoryWf_cons a b rest).mp h
    simp only [memoryWrite]
    split
    · next lt =>
      split
      · next hv =>
        split
        · next e =>
          subst e
          rw [memoryByte_below _ _ ?_, hv]
          intro e he
          rcases List.mem_cons.mp he with rfl | he
          · exact lt
          · have := k.2.2.2 e he; omega
        · rfl
      · by_cases e : y = x
        · simp [memoryByte, e]
        · have : ¬ x = y := fun q => e q.symm
          simp [memoryByte, e, this]
    · split
      · next eq =>
        subst eq
        split
        · next hv =>
          by_cases e : y = x
          · subst e
            simp only [if_true]
            rw [memoryByte_below _ _ k.2.2.2, hv]
          · have : ¬ x = y := fun q => e q.symm
            simp [memoryByte, e, this]
        · by_cases e : y = x
          · simp [memoryByte, e]
          · have : ¬ x = y := fun q => e q.symm
            simp [memoryByte, e, this]
      · next ne =>
        simp only [memoryByte]
        rw [ih k.2.2.1]
        by_cases e : a = y
        · have : ¬ y = x := by omega
          simp [e, this]
        · simp [e]

theorem memoryWriteFrom_wf (m : List Host.Cell) (x : Nat) (bytes : List Byte) (hx : x + bytes.length ≤ 512)
    (h : memoryWf m = true) : memoryWf (memoryWriteFrom m x bytes) = true := by
  induction bytes generalizing m x with
  | nil => exact h
  | cons v rest ih =>
    simp only [List.length_cons] at hx
    exact ih _ _ (by omega) (memoryWrite_wf m x v (by omega) h)

/-- A byte outside a run of writes reads as before. -/
theorem memoryByte_writeFrom_other (m : List Host.Cell) (x : Nat) (bytes : List Byte) (y : Nat)
    (hx : x + bytes.length ≤ 512) (h : memoryWf m = true) (hy : y < x ∨ x + bytes.length ≤ y) :
    memoryByte (memoryWriteFrom m x bytes) y = memoryByte m y := by
  induction bytes generalizing m x with
  | nil => rfl
  | cons v rest ih =>
    simp only [List.length_cons] at hx hy
    have w := memoryWrite_wf m x v (by omega) h
    simp only [memoryWriteFrom]
    rw [ih _ _ (by omega) w (by omega), memoryByte_write m x v y h, if_neg (by omega)]

/-- A byte of a run of writes reads as written. -/
theorem memoryByte_writeFrom (m : List Host.Cell) (x : Nat) (bytes : List Byte) (k : Nat)
    (hx : x + bytes.length ≤ 512) (h : memoryWf m = true) (hk : k < bytes.length) :
    memoryByte (memoryWriteFrom m x bytes) (x + k) = bytes[k] := by
  induction bytes generalizing m x k with
  | nil => simp at hk
  | cons v rest ih =>
    simp only [List.length_cons] at hx hk
    have w := memoryWrite_wf m x v (by omega) h
    simp only [memoryWriteFrom]
    match k with
    | 0 =>
      rw [memoryByte_writeFrom_other _ _ _ _ (by omega) w (by omega), memoryByte_write m x v _ h]
      simp
    | k + 1 =>
      have := ih (memoryWrite m x v) (x + 1) k (by omega) w (by omega)
      rw [show x + (k + 1) = x + 1 + k by omega]
      simpa using this

/-- What is written from an address on is read back from it. -/
theorem memoryReadFrom_writeFrom (m : List Host.Cell) (x : Nat) (bytes : List Byte) (hx : x + bytes.length ≤ 512)
    (h : memoryWf m = true) : memoryReadFrom (memoryWriteFrom m x bytes) x bytes.length = bytes := by
  apply List.ext_getElem
  · simp [memoryReadFrom]
  · intro k h1 h2
    simp only [memoryReadFrom, List.getElem_map, List.getElem_range]
    exact memoryByte_writeFrom m x bytes k hx h h2

end Sys2Proof.Machine
end

