-- ==== Sys2Proof/Laws/Ports.lean ====
section
/-! SUPPORT. The port operations, each said once: what a take at a free port answers, what a queued request leaves, what the
operations on a port leave unchanged. -/

namespace Sys2Proof.Machine

/-- `answerTake` is the `answered` of the statements. -/
theorem answerTake_eq (p : PortId) (code : Byte) (tag : Half) (r : Reply) (s : State) :
    answerTake p code tag r s = answered s p code tag r.part r.status r.body := rfl

/-- An open port takes a request that arrives in its own event (R163). -/
theorem free_of_open (s : State) (p : PortId) (h : PortOpen s p) : (s.port p).free = true := by
  obtain ⟨_, empty, none⟩ := h
  simp only [Port.free, Port.busy, empty, List.isEmpty_nil, Bool.true_and, Bool.not_eq_true']
  rw [List.any_eq_false]
  intro r hr
  simp [none r hr]

/-- A request at an open port: the judgement's reply is answered. -/
theorem takeRow_open (p : PortId) (tag : Half) (r : Request) (s : State) (h : PortOpen s p) :
    takeRow p tag r s =
      answered s p r.kind.code tag (judgeRequest p r s.part).part (judgeRequest p r s.part).status
        (judgeRequest p r s.part).body := by
  simp only [takeRow, h.1, free_of_open s p h, if_true]
  rfl

/-- A permitted request after the load is executed by its owning block (R164). -/
theorem judgeRequest_permitted (p : PortId) (r : Request) (c : Part) (hl : c.loading = false)
    (hp : permitted r.kind p c.mode = true) : judgeRequest p r c = execute p r c := by
  simp [judgeRequest, judgeKind, hl, hp]

/-- What a take answers at once: the owning block's reply. -/
theorem takeRow_now (p : PortId) (tag : Half) (r : Request) (s : State) (h : TakesNow s p r.kind) :
    takeRow p tag r s =
      answered s p r.kind.code tag (execute p r s.part).part (execute p r s.part).status (execute p r s.part).body := by
  rw [takeRow_open p tag r s h.1, judgeRequest_permitted p r s.part h.2.1 h.2.2]

/-- A take row is the arrival of its request. -/
theorem exec_row (r : Request) (p : PortId) (tag : Half) (s : State) :
    exec (r.row p tag) s = .next (takeRow p tag r s) := by
  cases r <;> rfl

/-- What a take row answers at a port that takes it now. -/
theorem exec_row_now (r : Request) (p : PortId) (tag : Half) (s : State) (h : TakesNow s p r.kind) :
    exec (r.row p tag) s = .next
      (answered s p r.kind.code tag (execute p r s.part).part (execute p r s.part).status (execute p r s.part).body) := by
  rw [exec_row, takeRow_now _ _ _ _ h]

/-- A DOWN link receives nothing (R158). -/
theorem takeRow_down (p : PortId) (tag : Half) (r : Request) (s : State) (h : (s.port p).link = .down) :
    takeRow p tag r s = s := by
  simp [takeRow, h]

/-- A request that joins a queue with room changes nothing else (R161). -/
theorem enqueue_room (p : PortId) (r : QueuedRequest) (s : State) (h : (s.port p).queue.length < queueCapacity) :
    enqueue p r s = State.setPort p { s.port p with queue := (s.port p).queue ++ [r] } s := by
  simp [enqueue, h]

@[simp] theorem enqueue_pending (p : PortId) (r : QueuedRequest) (s : State) : (enqueue p r s).pending = s.pending := by
  simp only [enqueue]
  split
  · rfl
  · split <;> rfl

@[simp] theorem takeRow_pending (p : PortId) (tag : Half) (r : Request) (s : State) :
    (takeRow p tag r s).pending = s.pending := by
  simp only [takeRow]
  split
  · rfl
  · split
    · rfl
    · simp

@[simp] theorem arrival_pending (p : PortId) (r : QueuedRequest) (s : State) : (arrival p r s).pending = s.pending := by
  simp only [arrival]
  split
  · rfl
  · split
    · rfl
    · simp

/-- The same request in the port's queue and in its own arrival event: one judgement (R163, R164). -/
theorem judgeBytes_encode (p : PortId) (r : Request) (c : Part) (hk : Kind.ofCode r.kind.code = some r.kind)
    (hd : decodeBody r.kind r.encode = some r) : judgeBytes p r.kind.code r.encode c = judgeRequest p r c := by
  simp [judgeBytes, judgeRequest, hk, hd]

/-- Every kind code names its kind (R168). -/
theorem ofCode_code (k : Kind) : Kind.ofCode k.code = some k := by
  cases k <;> decide

/-- A port other than the one written stays as it is. -/
theorem answered_other (s : State) (p q : PortId) (code : Byte) (tag : Half) (c : Part) (st : Status) (b : Body)
    (h : p ≠ q) : (answered s p code tag c st b).port q = s.port q := by
  simp only [answered, State.port]
  exact PerPort.get_set_other _ _ _ _ h

end Sys2Proof.Machine
end

