-- ==== Sys2Proof/Laws/Resolved.lean ====
section
/-! SUPPORT. What counting a resolution and firing an excursion entry leave alone: an entry that is resolved, and the
capture log; what a pause of the session leaves alone: the lots. -/

namespace Sys2Proof.Machine

/-- A pause of the session writes no lot record (R84). -/
@[simp] theorem pauseSession_lots (c : Part) : (pauseSession c).lots = c.lots := by
  unfold pauseSession
  split
  · split <;> simp [setSessionState, returnToPending, abandonFocus, withdrawWaiting]
    all_goals (simp only [updateSite]; repeat' split)
    all_goals try rfl
  · rfl

/-- `d` reads site (t,n) as `c` does, and has the same wafers, capture log. -/
structure SiteKept (t n : Nat) (c d : Part) : Prop where
  site : d.site? t n = c.site? t n
  log : d.captureLog = c.captureLog

theorem SiteKept.trans {t n} {a b c : Part} (h : SiteKept t n a b) (k : SiteKept t n b c) : SiteKept t n a c :=
  ⟨k.site.trans h.site, k.log.trans h.log⟩

/-- A change outside the wafers, the lists and the capture log keeps every site. -/
theorem SiteKept.of_same {t n} {c d : Part} (hw : d.wafers = c.wafers) (hl : d.lists = c.lists) (hc : d.captureLog = c.captureLog) : SiteKept t n c d :=
  ⟨site?_congr _ _ hw hl _ _, hc⟩

/-- Returning another, unresolved, site to PENDING keeps a resolved one. -/
theorem returnToPending_resolved (c : Part) (t n t' n' i slot e) (h : c.site? t n = some (i, slot, e)) (hr : e.state.isResolved = true)
    (hs : ∀ i' slot' e', c.site? t' n' = some (i', slot', e') → e'.state.isResolved = false) :
    SiteKept t n c (returnToPending t' n' c) := by
  refine ⟨?_, ?_⟩
  · have : (returnToPending t' n' c).site? t n = (updateSite t' n' (fun e => { e with state := .pending, acceptedZ := none }) c).site? t n :=
      site?_congr _ _ rfl rfl _ _
    rw [this]
    obtain ⟨w, h1, h2, h3, h4, h5⟩ := site?_some c t n i slot e h
    unfold updateSite
    cases hw : c.wafer? t' with
    | none => rfl
    | some w' =>
      dsimp only
      by_cases q : i = w'.lot ∧ slot = w'.slot
      · -- same list
        have hn : n' ≠ n := by
          rintro rfl
          have : c.site? t' n' = some (i, slot, e) := by
            simp [Part.site?, hw, ← q.1, ← q.2, h4]
          have := hs _ _ _ this
          simp [hr] at this
        have u := updateEntry_entries c w'.lot w'.slot n' (fun e => { e with state := .pending, acceptedZ := none })
        have hwf : (updateEntry w'.lot w'.slot n' (fun e => { e with state := .pending, acceptedZ := none }) c).wafer? t = some w := h1
        simp only [Part.site?, hwf, h1, h2, h3, q.1, q.2]
        rw [← q.1, ← q.2] at u ⊢
        rw [u, h4]
        have : ((c.entries i slot).map (fun e => if e.number == n' then { e with state := .pending, acceptedZ := none } else e)).find? (fun x => x.number == n) = some e := by
          revert h4
          generalize c.entries i slot = l
          induction l with
          | nil => simp
          | cons a r ih =>
            intro h4
            by_cases x : a.number = n
            · have : ¬ a.number = n' := fun z => hn (z.symm.trans x)
              have h4 : a = e := by simpa [x] using h4
              subst h4
              simp [x, Ne.symm hn]
            · by_cases y : a.number = n'
              · have h4 : r.find? (fun x => x.number == n) = some e := by simpa [x] using h4
                simpa [y, hn] using ih h4
              · have h4 : r.find? (fun x => x.number == n) = some e := by simpa [x] using h4
                simpa [x, y] using ih h4
        rw [this]
      · have hl : (updateEntry w'.lot w'.slot n' (fun e => { e with state := .pending, acceptedZ := none }) c).entries i slot = c.entries i slot := by
          simp only [Part.entries, updateEntry]
          have u := updateList_list c w'.lot i w'.slot slot (fun l => { l with entries := l.entries.map (fun e => if e.number == n' then { e with state := .pending, acceptedZ := none } else e) }) (fun _ => ⟨rfl, rfl⟩)
          rw [u]
          simp only [if_neg q]
          cases c.list? i slot <;> rfl
        have hwf : (updateEntry w'.lot w'.slot n' (fun e => { e with state := .pending, acceptedZ := none }) c).wafer? t = some w := h1
        simp only [Part.site?, hwf, h1, h2, h3, hl]
  · unfold returnToPending updateSite; dsimp only; split <;> rfl

/-- A pause of the session keeps a resolved site. -/
theorem pauseSession_resolved (c : Part) (t n i slot e) (h : c.site? t n = some (i, slot, e)) (hr : e.state.isResolved = true) :
    SiteKept t n c (pauseSession c) := by
  unfold pauseSession
  split
  · split
    · exact SiteKept.of_same rfl rfl rfl
    · rename_i t' n' ht hn hf
      have q : SiteKept t n c (abandonFocus c) := SiteKept.of_same rfl rfl rfl
      have hs : ∀ i' slot' e', (abandonFocus c).site? t' n' = some (i', slot', e') → e'.state.isResolved = false := by
        intro i' s' e' x
        have x : c.site? t' n' = some (i', s', e') := x
        simp [Part.inFlightState, ht, hn, x] at hf
        rw [hf]; rfl
      have r := returnToPending_resolved (abandonFocus c) t n t' n' i slot e (q.site.trans h) hr hs
      exact (q.trans r).trans (SiteKept.of_same rfl rfl rfl)
    · rename_i t' n' ht hn hf
      have q : SiteKept t n c (withdrawWaiting c) := SiteKept.of_same rfl rfl rfl
      have hs : ∀ i' slot' e', (withdrawWaiting c).site? t' n' = some (i', slot', e') → e'.state.isResolved = false := by
        intro i' s' e' x
        have x : c.site? t' n' = some (i', s', e') := x
        simp [Part.inFlightState, ht, hn, x] at hf
        rw [hf]; rfl
      have r := returnToPending_resolved (withdrawWaiting c) t n t' n' i slot e (q.site.trans h) hr hs
      exact (q.trans r).trans (SiteKept.of_same rfl rfl rfl)
    · exact SiteKept.of_same rfl rfl rfl
    · exact SiteKept.of_same rfl rfl rfl
  · exact SiteKept.of_same rfl rfl rfl

/-- A tightened hold, with the pause it may bring, keeps a resolved site. -/
theorem tightenHold_resolved (i' : LoadPort) (old new : Lot) (c : Part) (t n i slot e) (h : c.site? t n = some (i, slot, e)) (hr : e.state.isResolved = true) :
    SiteKept t n c (tightenHold i' old new c) := by
  unfold tightenHold
  dsimp only
  split
  · exact SiteKept.of_same rfl rfl rfl
  · split
    · have k1 : SiteKept t n c (raiseLotState (setLot i' (some new) c)) := SiteKept.of_same rfl rfl rfl
      exact k1.trans (pauseSession_resolved _ t n i slot e (k1.site.trans h) hr)
    · exact SiteKept.of_same rfl rfl rfl

/-- An excursion's hold keeps a resolved site. -/
theorem recordExcursionHold_resolved (i' : LoadPort) (sc : Scope) (c : Part) (t n i slot e) (h : c.site? t n = some (i, slot, e)) (hr : e.state.isResolved = true) :
    SiteKept t n c (recordExcursionHold i' sc c) := by
  unfold recordExcursionHold
  split
  · exact SiteKept.of_same rfl rfl rfl
  · split
    · exact (tightenHold_resolved _ _ _ c t n i slot e h hr).trans (SiteKept.of_same rfl rfl rfl)
    · exact SiteKept.of_same rfl rfl rfl

/-- An excursion's action keeps a resolved site. -/
theorem excursionAction_resolved (i' : LoadPort) (f x) (c : Part) (t n i slot e) (h : c.site? t n = some (i, slot, e)) (hr : e.state.isResolved = true) :
    SiteKept t n c (raiseEvent .automation .excursion (excursionAction i' x (updateLot i' f c))) := by
  have q : SiteKept t n c (updateLot i' f c) := by
    unfold updateLot; split <;> exact SiteKept.of_same rfl rfl rfl
  refine SiteKept.trans q ?_
  unfold excursionAction
  split
  · exact SiteKept.of_same rfl rfl rfl
  · exact SiteKept.of_same rfl rfl rfl
  · exact (recordExcursionHold_resolved _ _ _ _ _ _ _ _ (q.site.trans h) hr).trans (SiteKept.of_same rfl rfl rfl)
  · exact (recordExcursionHold_resolved _ _ _ _ _ _ _ _ (q.site.trans h) hr).trans (SiteKept.of_same rfl rfl rfl)

/-- A fired excursion entry keeps a resolved site. -/
theorem fireEntry_resolved (i' : LoadPort) (s' pos x) (c : Part) (t n i slot e) (h : c.site? t n = some (i, slot, e)) (hr : e.state.isResolved = true) :
    SiteKept t n c (fireEntry i' s' pos x c) := excursionAction_resolved i' _ x.action c t n i slot e h hr

/-- Comparing the excursion entries keeps a resolved site. -/
theorem compareEntries_resolved (i' : LoadPort) (s' cls count : Nat) (xs) : ∀ (pos) (c : Part) (t n i slot e) (h : c.site? t n = some (i, slot, e)) (hr : e.state.isResolved = true),
    SiteKept t n c (compareEntries i' s' cls count pos xs c) := by
  induction xs with
  | nil => intros; exact SiteKept.of_same rfl rfl rfl
  | cons x r ih =>
    intro pos c t n i slot e h hr
    unfold compareEntries
    split
    · have k := fireEntry_resolved i' s' pos x c t n i slot e h hr
      exact k.trans (ih _ _ _ _ _ _ _ (k.site.trans h) hr)
    · exact ih _ _ _ _ _ _ _ h hr

/-- Counting a resolution (R136 to R139) keeps a resolved site and the capture log. -/
theorem countResolution_resolved (i' : LoadPort) (s' r) (c : Part) (t n i slot e) (h : c.site? t n = some (i, slot, e)) (hr : e.state.isResolved = true) :
    SiteKept t n c (countResolution i' s' r c) := by
  unfold countResolution
  have q : ∀ f k, SiteKept t n c (updateLot i' f (countStat k c)) := by
    intro f k; unfold updateLot; split <;> exact SiteKept.of_same rfl rfl rfl
  dsimp only
  split
  · split
    · exact q _ _
    · exact (q _ _).trans (compareEntries_resolved _ _ _ _ _ _ _ _ _ _ _ _ ((q _ _).site.trans h) hr)
  · exact q _ _

/-! ### The oldest unfetched record (R122) -/

/-- With no UNFETCHED record there is nothing to fetch. -/
theorem fetchOldest_none (l : List CaptureRecord) (h : ∀ r ∈ l, r.state ≠ .unfetched) : fetchOldest l = none := by
  induction l with
  | nil => rfl
  | cons a rest ih =>
    rw [fetchOldest, if_neg (h a List.mem_cons_self), ih (fun r m => h r (List.mem_cons_of_mem _ m))]
    rfl

/-- The first UNFETCHED record is fetched, in its place; the others stay as they are. -/
theorem fetchOldest_some (older newer : List CaptureRecord) (r : CaptureRecord)
    (h : ∀ x ∈ older, x.state ≠ .unfetched) (hr : r.state = .unfetched) :
    fetchOldest (older ++ r :: newer) =
      some ({ r with state := .fetched }, older ++ { r with state := .fetched } :: newer) := by
  induction older with
  | nil => rw [List.nil_append, fetchOldest, if_pos hr, List.nil_append]
  | cons a rest ih =>
    rw [List.cons_append, fetchOldest, if_neg (h a List.mem_cons_self),
      ih (fun x m => h x (List.mem_cons_of_mem _ m))]
    rfl

end Sys2Proof.Machine
end

