-- ==== Sys2Proof/Laws/Walk.lean ====
section
/-! SUPPORT. The walk's search (R70, R71): what the runs of a row, the rows to enter and the candidates hold; the entries the
sampling floor skips (R72); the session's end (R82). -/

namespace Sys2Proof.Machine

/-- A row's run holds the PENDING entries of that row, each at its position, in the direction asked for. -/
theorem mem_pendingInRow (l : List SiteEntry) (r : Int) (d : Direction) (k : Candidate) :
    k ∈ pendingInRow l r d ↔ k.row = r ∧ k.direction = d ∧ k.entry.row = r ∧ k.entry.state = .pending ∧
      1 ≤ k.position ∧ l[k.position - 1]? = some k.entry := by
  have run : k ∈ pendingInRow l r d ↔ k ∈ ((l.zipIdx 1).filter (fun p => p.1.row == r && p.1.state == .pending)).map
      (fun p => (⟨r, d, p.2, p.1⟩ : Candidate)) := by
    unfold pendingInRow
    cases d <;> simp
  have place : ∀ e n, (e, n) ∈ l.zipIdx 1 ↔ 1 ≤ n ∧ l[n - 1]? = some e := fun e n => by
    rw [List.mem_zipIdx_iff_le_and_getElem?_sub]
  rw [run]
  simp only [List.mem_map, List.mem_filter, Bool.and_eq_true, beq_iff_eq, Prod.exists, place]
  constructor
  · rintro ⟨e, n, ⟨⟨h1, h2⟩, h3, h4⟩, rfl⟩
    exact ⟨rfl, rfl, h3, h4, h1, h2⟩
  · rintro ⟨h1, h2, h3, h4, h5, h6⟩
    refine ⟨k.entry, k.position, ⟨⟨h5, h6⟩, h3, h4⟩, ?_⟩
    cases k
    simp_all

theorem mem_insertRow (r x : Int) (l : List Int) : x ∈ insertRow r l ↔ x = r ∨ x ∈ l := by
  induction l with
  | nil => simp [insertRow]
  | cons q t ih =>
    unfold insertRow
    split <;> [skip; split] <;> simp_all <;> tauto

/-- The rows to enter are those with a PENDING entry, above the current row where there is one. -/
theorem mem_rowsToEnter (l : List SiteEntry) (current : Option Int) (x : Int) :
    x ∈ rowsToEnter l current ↔ ∃ e ∈ l, e.state = .pending ∧ e.row = x ∧ ∀ r, current = some r → r < e.row := by
  have same : ∀ q : List Int, x ∈ q.foldr insertRow [] ↔ x ∈ q := fun q => by
    induction q with
    | nil => simp
    | cons a t ih => simp [mem_insertRow, ih]
  unfold rowsToEnter
  rw [same]
  cases current <;> simp <;> constructor <;> rintro ⟨e, h⟩ <;> refine ⟨e, ?_⟩ <;> tauto

theorem mem_candidatesOf (l : List SiteEntry) (rows : List Int) :
    ∀ (d : Direction) (k : Candidate), k ∈ candidatesOf l d rows → k.row ∈ rows ∧ k.entry.row = k.row := by
  induction rows with
  | nil => simp [candidatesOf]
  | cons r t ih =>
    intro d k h
    simp only [candidatesOf, List.mem_append, mem_pendingInRow] at h
    rcases h with h | h
    · simp [h.1, h.2.2.1]
    · simp [ih _ _ h]

/-- A row that holds a PENDING entry is not empty. -/
theorem pendingInRow_ne_nil (l : List SiteEntry) (r : Int) (d : Direction)
    (h : ∃ e ∈ l, e.state = .pending ∧ e.row = r) : pendingInRow l r d ≠ [] := by
  obtain ⟨e, h1, h2, h3⟩ := h
  obtain ⟨n, hn⟩ := List.getElem?_of_mem h1
  have here : (⟨r, d, n + 1, e⟩ : Candidate) ∈ pendingInRow l r d := by
    rw [mem_pendingInRow]
    simp [h3, h2, hn]
  exact List.ne_nil_of_mem here

/-- The first candidate of the rows to enter lies in the first of them, in the direction that row is entered in. -/
theorem candidatesOf_head (l : List SiteEntry) (d : Direction) (r : Int) (rows : List Int)
    (h : ∃ e ∈ l, SiteEntry.state e = .pending ∧ e.row = r) :
    ∃ k rest, candidatesOf l d (r :: rows) = k :: rest ∧ k.row = r ∧ k.direction = d := by
  cases q : pendingInRow l r d with
  | nil => exact absurd q (pendingInRow_ne_nil l r d h)
  | cons k rest =>
    have here := (mem_pendingInRow l r d k).1 (q ▸ List.mem_cons_self)
    exact ⟨k, rest ++ candidatesOf l d.opposite rows, by simp [candidatesOf, q], here.1, here.2.1⟩

/-- Candidates of two rows that follow one another are walked in opposite directions (R70). -/
theorem candidatesOf_alternate (l : List SiteEntry) (rows : List Int)
    (h : ∀ r ∈ rows, ∃ e ∈ l, e.state = .pending ∧ e.row = r) :
    ∀ d, (candidatesOf l d rows).IsChain (fun a b => a.row < b.row → a.direction ≠ b.direction) := by
  induction rows with
  | nil => exact fun _ => List.IsChain.nil
  | cons r t ih =>
    intro d
    simp only [candidatesOf]
    rw [List.isChain_append]
    refine ⟨?_, ih (fun x hx => h x (by simp [hx])) _, ?_⟩
    · apply List.Pairwise.isChain
      apply List.pairwise_of_forall_mem_list
      intro a ha b hb hlt
      have := (mem_pendingInRow _ _ _ _).1 ha
      have := (mem_pendingInRow _ _ _ _).1 hb
      omega
    · intro x hx y hy _
      have hx := (mem_pendingInRow _ _ _ _).1 (List.mem_of_getLast? hx)
      cases t with
      | nil => simp [candidatesOf] at hy
      | cons r2 t2 =>
        obtain ⟨k, rest, e1, _, e3⟩ := candidatesOf_head l d.opposite r2 t2 (h r2 (by simp))
        rw [e1] at hy
        simp only [List.head?_cons, Option.mem_def, Option.some.injEq] at hy
        subst hy
        rw [hx.2.1, e3]
        cases d <;> simp [Direction.opposite]

/-! ### The sampling floor (R72) and the session's end (R82, R83) -/

/-- Every candidate of a list is skipped, in its order. -/
def skipAll (t : Nat) (ks : List Candidate) (c : Part) : Part :=
  ks.foldl (fun c k => resolveSite t k.entry.number (.skipped .sampledDown) c) c

/-- Candidates below the floor at the head of the search are skipped, and the search goes on behind them. -/
theorem takeFirst_skips (t f : Nat) (rest : List Candidate) (ks : List Candidate) : ∀ c : Part,
    (∀ k ∈ ks, k.entry.priority < f) →
      takeFirst t (some f) (ks ++ rest) c = takeFirst t (some f) rest (skipAll t ks c) := by
  induction ks with
  | nil => intro c _; rfl
  | cons k r ih =>
    intro c h
    simp only [List.cons_append, takeFirst, h k List.mem_cons_self, if_true]
    rw [ih _ (fun x m => h x (List.mem_cons_of_mem _ m))]
    rfl

/-- What skipping candidates does, whose entries are read and differ in their numbers. -/
theorem skipAll_spec (t : Nat) (w : Wafer) (ks : List Candidate) : ∀ c : Part, c.wafer? t = some w →
    (∀ k ∈ ks, c.site? t k.entry.number = some (w.lot, w.slot, k.entry)) → (ks.map (·.entry.number)).Nodup →
    let d := skipAll t ks c
    d = { c with lists := d.lists, lots := d.lots, stats := c.stats.set .sitesSkipped (c.stats.get .sitesSkipped + BitVec.ofNat 32 ks.length) } ∧
    (∀ k ∈ ks, d.site? t k.entry.number = some (w.lot, w.slot, resolveEntry (.skipped .sampledDown) k.entry)) ∧
    OnlySites w.lot w.slot (ks.map (·.entry.number)) c d ∧ (∀ i, d.lotAborted i = c.lotAborted i) := by
  induction ks with
  | nil =>
    intro c hw _ _
    refine ⟨?_, by simp, onlySites_refl _ _ _ _ _ rfl, fun _ => rfl⟩
    simp only [skipAll, List.foldl_nil, List.length_nil]
    have : c.stats = c.stats.set .sitesSkipped (c.stats.get .sitesSkipped + BitVec.ofNat 32 0) := by
      cases c with | _ => simp [Stats.set, Stats.get]
    rw [← this]
  | cons k r ih =>
    intro c hw hs hn
    obtain ⟨a1, a2, a3, a4⟩ := resolveSite_skipped c t k.entry.number w k.entry .sampledDown hw (hs k List.mem_cons_self)
    have hn' : k.entry.number ∉ r.map (·.entry.number) ∧ (r.map (·.entry.number)).Nodup := by simpa using hn
    generalize hc : resolveSite t k.entry.number (.skipped .sampledDown) c = c' at *
    have hw' : c'.wafer? t = some w := by rw [a1]; exact hw
    have keep : ∀ m, m ≠ k.entry.number → c'.site? t m = c.site? t m := by
      intro m hm
      rw [site?_entryAt _ _ _ _ hw', site?_entryAt _ _ _ _ hw, a3.2 m (by simpa using hm)]
    obtain ⟨b1, b2, b3, b4⟩ := ih c' hw' (fun x hx => by
      rw [keep _ (fun h => hn'.1 (h ▸ List.mem_map_of_mem (f := fun k : Candidate => k.entry.number) hx))]
      exact hs x (List.mem_cons_of_mem _ hx)) hn'.2
    have hd : skipAll t (k :: r) c = skipAll t r c' := by simp only [skipAll, List.foldl_cons, hc]
    simp only [hd]
    generalize skipAll t r c' = d at *
    refine ⟨?_, ?_, ?_, ?_⟩
    · rw [b1, a1]
      simp only [Part.mk.injEq, true_and, and_true]
      generalize c.stats = st
      have : ∀ (a b : Full), (st.set .sitesSkipped a).set .sitesSkipped b = st.set .sitesSkipped b := by intros; rfl
      rw [this]
      simp only [Stats.get_set_same]
      congr 1
      rw [List.length_cons, BitVec.ofNat_add]
      ac_rfl
    · intro x hx
      rcases List.mem_cons.1 hx with rfl | hx
      · have hwd : d.wafer? t = some w := by rw [b1]; exact hw'
        rw [site?_entryAt _ _ _ _ hwd, b3.2 _ hn'.1, ← site?_entryAt _ _ _ _ hw', a2]
      · exact b2 x hx
    · exact (a3.mono (by simp)).trans (b3.mono (by simp; tauto))
    · intro i; rw [b4, a4]

/-- The session's end (R82), its outcome by R83. -/
theorem sessionEnd_spec (c : Part) (t : Nat) (w : Wafer) (hs : c.session.wafer = some t) (hw : c.wafer? t = some w) :
    sessionEnd c = { c with
      wafers := c.wafers.set t (some { w with phase := .reviewed, outcome := some (if c.lotAborted w.lot = true then .aborted
        else if ∃ e ∈ c.entries w.lot w.slot, e.state = .skipped ∨ e.state = .failed then .partialReview else .reviewed) })
      focusMap := [], focusReference := none, drive := c.settings.parkZ
      notices := (raiseEvent .image .session c).notices
      session := ⟨.idle, none, none, .forward, none, none⟩ } := by
  simp only [sessionEnd, hs, hw, sessionOutcome]
  have : (c.entries w.lot w.slot).any (fun e => e.state == .skipped || e.state == .failed) = decide (∃ e ∈ c.entries w.lot w.slot, e.state = .skipped ∨ e.state = .failed) := by
    rw [Bool.eq_iff_iff]; simp
  simp only [this, decide_eq_true_eq]
  rfl

end Sys2Proof.Machine
end

