-- ==== Sys2Proof/Laws/Wire.lean ====
section
/-! SUPPORT. Bytes on the wire: one step of the CRC, a field of known length inside a run of bytes, the numbers that little-endian
fields hold, the lengths of the parts of a report; what each reader of a body's field takes from the front of the bytes. -/

namespace Sys2Proof

/-! ### Readers (R164, R168) -/

/-- Whatever the reader takes from the front of the bytes is the encoding of what it answers (R168). -/
def Reads {α : Type} (rd : Reader α) (enc : α → List Byte) : Prop :=
  ∀ bytes a rest, rd bytes = some (a, rest) → bytes = enc a ++ rest

theorem encodeHalf_join (a b : Byte) : encodeHalf (joinHalf a b) = [a, b] := by
  have e1 : (joinHalf a b).extractLsb' 0 8 = a := by
    apply BitVec.eq_of_getLsbD_eq; intro i hi
    simp only [joinHalf, BitVec.getLsbD_extractLsb', BitVec.getLsbD_append, hi, Nat.zero_add]
    simp
  have e2 : (joinHalf a b).extractLsb' 8 8 = b := by
    apply BitVec.eq_of_getLsbD_eq; intro i hi
    simp only [joinHalf, BitVec.getLsbD_extractLsb', BitVec.getLsbD_append, hi, show ¬ 8 + i < 8 by omega,
      Nat.add_sub_cancel_left]
    simp
  rw [encodeHalf, e1, e2]

theorem encodeFull_join (a b c d : Byte) : encodeFull (joinFull a b c d) = [a, b, c, d] := by
  have e1 : (joinFull a b c d).extractLsb' 0 8 = a := by
    apply BitVec.eq_of_getLsbD_eq; intro i hi
    simp only [joinFull, BitVec.getLsbD_extractLsb', BitVec.getLsbD_append, hi, Nat.zero_add]
    simp
  have e2 : (joinFull a b c d).extractLsb' 8 8 = b := by
    apply BitVec.eq_of_getLsbD_eq; intro i hi
    simp only [joinFull, BitVec.getLsbD_extractLsb', BitVec.getLsbD_append, hi, show ¬ 8 + i < 8 by omega,
      Nat.add_sub_cancel_left]
    simp
  have e3 : (joinFull a b c d).extractLsb' 16 8 = c := by
    apply BitVec.eq_of_getLsbD_eq; intro i hi
    simp only [joinFull, BitVec.getLsbD_extractLsb', BitVec.getLsbD_append, hi, show ¬ 16 + i < 8 by omega,
      show 16 + i - 8 = 8 + i by omega, show ¬ 8 + i < 8 by omega, Nat.add_sub_cancel_left]
    simp
  have e4 : (joinFull a b c d).extractLsb' 24 8 = d := by
    apply BitVec.eq_of_getLsbD_eq; intro i hi
    simp only [joinFull, BitVec.getLsbD_extractLsb', BitVec.getLsbD_append, hi, show ¬ 24 + i < 8 by omega,
      show 24 + i - 8 = 16 + i by omega, show ¬ 16 + i < 8 by omega, show 16 + i - 8 = 8 + i by omega, show ¬ 8 + i < 8 by omega,
      Nat.add_sub_cancel_left]
    simp
  rw [encodeFull, e1, e2, e3, e4]

theorem readByte_reads : Reads readByte encodeByte := by
  intro bytes a rest h
  match bytes, h with
  | b :: r, h => simp [readByte] at h; simp [encodeByte, h]

theorem readHalf_reads : Reads readHalf encodeHalf := by
  intro bytes a rest h
  match bytes, h with
  | b :: c :: r, h => simp [readHalf] at h; obtain ⟨rfl, rfl⟩ := h; simp [encodeHalf_join]

theorem readFull_reads : Reads readFull encodeFull := by
  intro bytes a rest h
  match bytes, h with
  | b :: c :: d :: e :: r, h => simp [readFull] at h; obtain ⟨rfl, rfl⟩ := h; simp [encodeFull_join]

theorem readText_reads : Reads readText encodeText := by
  intro bytes a rest h
  match bytes, h with
  | n :: r, h =>
    simp only [readText] at h
    split at h
    · cases h
    · cases h
      rename_i hn
      have hn : n.toNat ≤ r.length := by omega
      simp [encodeText, List.length_take, Nat.min_eq_left hn]

theorem readMany_reads {α : Type} (rd : Reader α) (enc : α → List Byte) (h : Reads rd enc) :
    ∀ n bytes l rest, readMany rd n bytes = some (l, rest) → bytes = l.flatMap enc ++ rest ∧ l.length = n
  | 0, bytes, l, rest, e => by simp [readMany] at e; obtain ⟨rfl, rfl⟩ := e; simp
  | n + 1, bytes, l, rest, e => by
    simp only [readMany] at e
    cases h1 : rd bytes with
    | none => rw [h1] at e; cases e
    | some p =>
      rw [h1] at e; dsimp only at e
      cases h2 : readMany rd n p.2 with
      | none => rw [h2] at e; cases e
      | some q =>
        rw [h2] at e; cases e
        have a := h _ _ _ h1
        have b := readMany_reads rd enc h n _ _ _ h2
        rw [a, b.1]; simp [b.2]

theorem readList_reads {α : Type} (rd : Reader α) (enc : α → List Byte) (h : Reads rd enc) :
    Reads (readList rd) (encodeList enc) := by
  intro bytes a rest e
  match bytes, e with
  | n :: r, e =>
    have := readMany_reads rd enc h _ _ _ _ e
    rw [this.1]; simp [encodeList, this.2]

theorem readOption_reads {α : Type} (rd : Reader α) (enc : α → List Byte) (h : Reads rd enc) :
    Reads (readOption rd) (encodeOption enc) := by
  intro bytes a rest e
  match bytes, e with
  | n :: r, e =>
    simp only [readOption] at e
    split at e
    · cases e; rename_i hn; simp [encodeOption, hn]
    · split at e
      · rename_i hn
        cases h1 : rd r with
        | none => rw [h1] at e; cases e
        | some p => rw [h1] at e; cases e; have := h _ _ _ h1; simp [encodeOption, hn, this]
      · cases e

/-- A field read first, and what is read after it. -/
theorem Reads.bind {α β : Type} {rd : Reader α} {enc : α → List Byte} (h : Reads rd enc)
    {bytes : List Byte} {f : α × List Byte → Option β} {x : β}
    (e : (rd bytes >>= f) = some x) : ∃ a rest, bytes = enc a ++ rest ∧ f (a, rest) = some x := by
  cases h1 : rd bytes with
  | none => rw [h1] at e; cases e
  | some p => rw [h1] at e; exact ⟨p.1, p.2, h _ _ _ h1, e⟩

theorem readSlotField_reads : Reads readSlotField encodeSlotField := by
  intro bytes a rest e
  obtain ⟨x0, b0, h0, e⟩ := Reads.bind readByte_reads e
  obtain ⟨x1, b1, h1, e⟩ := Reads.bind (readOption_reads _ _ readText_reads) e
  cases e
  simp only [h0, h1, encodeSlotField, encodeByte, List.append_assoc]; rfl

theorem readSiteField_reads : Reads readSiteField encodeSiteField := by
  intro bytes a rest e
  obtain ⟨x0, b0, h0, e⟩ := Reads.bind readHalf_reads e
  obtain ⟨x1, b1, h1, e⟩ := Reads.bind readByte_reads e
  obtain ⟨x2, b2, h2, e⟩ := Reads.bind readByte_reads e
  obtain ⟨x3, b3, h3, e⟩ := Reads.bind readFull_reads e
  obtain ⟨x4, b4, h4, e⟩ := Reads.bind readFull_reads e
  obtain ⟨x5, b5, h5, e⟩ := Reads.bind readByte_reads e
  obtain ⟨x6, b6, h6, e⟩ := Reads.bind readHalf_reads e
  obtain ⟨x7, b7, h7, e⟩ := Reads.bind readByte_reads e
  cases e
  simp only [h0, h1, h2, h3, h4, h5, h6, h7, encodeSiteField, encodeByte, List.append_assoc]; rfl

theorem readExcursionField_reads : Reads readExcursionField encodeExcursionField := by
  intro bytes a rest e
  obtain ⟨x0, b0, h0, e⟩ := Reads.bind readByte_reads e
  obtain ⟨x1, b1, h1, e⟩ := Reads.bind readHalf_reads e
  obtain ⟨x2, b2, h2, e⟩ := Reads.bind readByte_reads e
  cases e
  simp only [h0, h1, h2, encodeExcursionField, encodeByte, List.append_assoc]

theorem readReportingField_reads : Reads readReportingField encodeReportingField := by
  intro bytes a rest e
  obtain ⟨x0, b0, h0, e⟩ := Reads.bind readByte_reads e
  obtain ⟨x1, b1, h1, e⟩ := Reads.bind readByte_reads e
  cases e
  simp only [h0, h1, encodeReportingField, encodeByte, List.append_assoc]; rfl

theorem readRecipeFields_reads : Reads readRecipeFields encodeRecipeFields := by
  intro bytes a rest e
  obtain ⟨x0, b0, h0, e⟩ := Reads.bind (readOption_reads _ _ readByte_reads) e
  obtain ⟨x1, b1, h1, e⟩ := Reads.bind (readOption_reads _ _ readByte_reads) e
  obtain ⟨x2, b2, h2, e⟩ := Reads.bind (readOption_reads _ _ readByte_reads) e
  obtain ⟨x3, b3, h3, e⟩ := Reads.bind (readOption_reads _ _ readByte_reads) e
  obtain ⟨x4, b4, h4, e⟩ := Reads.bind (readOption_reads _ _ readHalf_reads) e
  obtain ⟨x5, b5, h5, e⟩ := Reads.bind (readOption_reads _ _ readByte_reads) e
  obtain ⟨x6, b6, h6, e⟩ := Reads.bind (readOption_reads _ _ readHalf_reads) e
  obtain ⟨x7, b7, h7, e⟩ := Reads.bind (readOption_reads _ _ readByte_reads) e
  obtain ⟨x8, b8, h8, e⟩ := Reads.bind (readOption_reads _ _ readHalf_reads) e
  obtain ⟨x9, b9, h9, e⟩ := Reads.bind (readOption_reads _ _ readByte_reads) e
  obtain ⟨x10, b10, h10, e⟩ := Reads.bind (readOption_reads _ _ (readList_reads _ _ readExcursionField_reads)) e
  obtain ⟨x11, b11, h11, e⟩ := Reads.bind (readOption_reads _ _ readByte_reads) e
  cases e
  simp only [h0, h1, h2, h3, h4, h5, h6, h7, h8, h9, h10, h11, encodeRecipeFields, List.append_assoc]

end Sys2Proof

namespace Sys2Proof.Machine

/-! ### The CRC (R160) -/

/-- One shift of the register with a message XORed in: the register takes the message's first bit, the rest moves up. -/
theorem crcShift_xor (r m : BitVec 16) : crcShift (r ^^^ m) =
    ((r <<< 1) ^^^ (if r.msb = m.msb then 0#16 else 4129#16)) ^^^ (m <<< 1) := by
  have shifted : (r ^^^ m) <<< 1 = (r <<< 1) ^^^ (m <<< 1) := by
    ext i hi
    simp
    by_cases hh : i = 0 <;> simp [hh]
  simp only [crcShift, BitVec.msb_xor, shifted]
  cases r.msb <;> cases m.msb <;> simp <;> ac_rfl

/-! ### Fields -/

/-- The bytes at an offset are the field that stands there. -/
theorem field_at (b pre mid post : List Byte) (o n : Nat) (h : b = pre ++ (mid ++ post)) (ho : pre.length = o)
    (hn : mid.length = n) : (b.drop o).take n = mid := by
  subst h ho hn
  rw [List.drop_left, List.take_left]

/-- Records of one size laid end to end: where the record of an index stands. -/
theorem flatMap_at {α : Type} (f : α → List Byte) (size : Nat) : ∀ (l : List α), (∀ x ∈ l, (f x).length = size) →
    ∀ (j : Nat) (v : α), l[j]? = some v → ∃ pre post, l.flatMap f = pre ++ (f v ++ post) ∧ pre.length = size * j
  | [], _, j, v, h => by simp at h
  | a :: l, _, 0, v, h => by
    simp at h
    subst h
    exact ⟨[], l.flatMap f, by simp, by simp⟩
  | a :: l, hf, j + 1, v, h => by
    obtain ⟨pre, post, e, hl⟩ := flatMap_at f size l (fun x hx => hf x (by simp [hx])) j v (by simpa using h)
    exact ⟨f a ++ pre, post, by simp [e], by simp [hl, hf a, Nat.mul_succ]; omega⟩

/-- Records of one size laid end to end: their length together. -/
theorem flatMap_length {α : Type} (f : α → List Byte) (size : Nat) (l : List α) (h : ∀ x ∈ l, (f x).length = size) :
    (l.flatMap f).length = size * l.length := by
  induction l with
  | nil => simp
  | cons a l ih => simp [ih (fun x hx => h x (by simp [hx])), h a, Nat.mul_succ]; omega

/-! ### Numbers and texts (R157) -/

@[simp] theorem natHalf_length (n : Nat) : (natHalf n).length = 2 := rfl

@[simp] theorem natFull_length (n : Nat) : (natFull n).length = 4 := rfl

theorem natHalf_value (n : Nat) : (natHalf n).foldr (fun b k => b.toNat + 256 * k) 0 = n % 256 ^ 2 := by
  simp [natHalf, encodeHalf, BitVec.extractLsb', BitVec.toNat_ofNat, Nat.shiftRight_eq_div_pow]
  omega

theorem natFull_value (n : Nat) : (natFull n).foldr (fun b k => b.toNat + 256 * k) 0 = n % 256 ^ 4 := by
  simp [natFull, encodeFull, BitVec.extractLsb', BitVec.toNat_ofNat, Nat.shiftRight_eq_div_pow]
  omega

theorem fixedText_eq (n : Nat) (t : Text) (h : t.length ≤ n) : fixedText n t = t ++ List.replicate (n - t.length) 0#8 := by
  simp [fixedText, List.take_of_length_le h]

theorem fixedText_length (n : Nat) (t : Text) (h : t.length ≤ n) : (fixedText n t).length = n := by
  simp [fixedText]
  omega

/-! ### The parts of a report (R157) -/

theorem headerBytes_length (r : Report) (h1 : r.lotId.length ≤ 20) (h2 : r.carrierId.length ≤ 16)
    (h3 : r.totals.classes.length = 16) : (headerBytes r).length = 144 := by
  simp only [headerBytes, List.length_append, fixedText_length _ _ h1, fixedText_length _ _ h2, natFull_length,
    flatMap_length natFull 4 _ (fun x _ => natFull_length x), h3]
  rfl

theorem eventBytes_length (v : ExcursionEvent) : (eventBytes v).length = 6 := by
  simp [eventBytes]

theorem summaryBytes_length (x : Summary) (h1 : x.counts.classes.length = 16) (h2 : (x.waferId.getD []).length ≤ 24) :
    (summaryBytes x).length = 70 := by
  simp only [summaryBytes, List.length_append, fixedText_length _ _ h2, natHalf_length,
    flatMap_length natHalf 2 _ (fun x _ => natHalf_length x), h1]
  rfl

end Sys2Proof.Machine
end

