-- ==== Sys2Proof/Tests/Slice0.lean ====
section
/-! SUPPORT. Small tests of the model: ill-formed commands that the check refuses, the spec's worked examples, and for every
statement with hypotheses a concrete state that meets them (`test_hyp_<statement>`), clause by clause. -/

namespace Sys2Proof.Tests

open Sys2Proof Sys2Proof.Machine

set_option Elab.async false

/-! ### States to test on -/

/-- Every link is UP and the settings load has ended. -/
def ready : State where
  pending := []
  ports := ⟨⟨.up, [], [], []⟩, ⟨.up, [], [], []⟩, ⟨.up, [], [], []⟩⟩
  part := { State.reset.part with loading := false }

/-- `ready` with another part behind the ports. -/
def on (f : Part → Part) : State := withPart ready (f ready.part)

/-- `ready` with another tool port. -/
def atTool (q : Port) : State := { ready with ports := ready.ports.set .tool q }

def lotId : Text := [76#8]

/-- A lot with slots 1 and 2 selected, in a state. -/
def aLot (st : LotState) : Lot := { definedLot lotId 0 .normal [1#8, 2#8] with state := st, startOrder := some 1 }

/-- A carrier MAPPED at port 1 with every slot OCCUPIED. -/
def mapped : Part :=
  { ready.part with
    carriers := ready.part.carriers.set .p1 ⟨.mapped, some [67#8], some (List.replicate 25 ⟨.occupied, none⟩)⟩
    recipes := ready.part.recipes.set 0 (some Recipe.default) }

/-- The same carrier with a lot bound to it. -/
def bound (l : Lot) : State := withPart ready { mapped with lots := mapped.lots.set .p1 (some l) }

/-- Site 5 of the list of slot 1. -/
def aSite (st : SiteState) : SiteEntry := ⟨5, 0, 0, 100, 200, 1, 10, 3, st, 0, none, none, none, none⟩

/-- The lot's wafer 0 of slot 1 on the STAGE under review, with site 5 in flight in a state, in an ACTIVE session. -/
def review (st : SiteState) : Part :=
  { (bound (aLot .draining)).part with
    wafers := ready.part.wafers.set 0 (some ⟨.p1, 1, none, some .stage, .reviewing, true, false, none⟩)
    places := ready.part.places.set .stage ⟨some 0, none⟩
    lists := [⟨.p1, 1, true, [aSite st]⟩]
    freeCount := 12287
    session := ⟨.active, some 0, some 0, .forward, some 1, some 5⟩ }

/-- The capture of site 5, in a state. -/
def aCapture (st : CaptureState) : CaptureRecord := ⟨7#16, 0, 5, 100, 200, 1, 10, 32768, 1, 2000, 1, st, 10000⟩

/-- `review` with the capture of its site in the log. -/
def shot (st : CaptureState) (site : SiteState) : Part := { review site with captureLog := [aCapture st] }

/-- A lot with wafer 0 of slot 1 in a phase at a place, vacuum-exposed or not, and nothing else in the cell. -/
def cell (l : Lot) (ph : Phase) (place : Option Place) (exposed : Bool) : Part :=
  { (bound l).part with
    wafers := ready.part.wafers.set 0 (some ⟨.p1, 1, none, place, ph, exposed, false, none⟩)
    places := match place with
      | none => ready.part.places
      | some p => ready.part.places.set p ⟨some 0, none⟩
    atLoad := true }

/-- The same of a DRAINING lot that is not aborted. -/
def lone (ph : Phase) (place : Place) (exposed : Bool) : Part := cell (aLot .draining) ph (some place) exposed

/-- The state a step leaves, and its part. -/
def stepped (s : State) : State :=
  match step s with
  | .next t => t
  | _ => s

def after (s : State) : Part := (stepped s).part

/-- A request of the load: BUFFER_GRANT of 1. -/
def aRequest : QueuedRequest := ⟨36#8, 9#16, [1#8]⟩

def taken : Response := ⟨36#8, 8#16, .ok, .empty, true⟩

def turnedAway : Response := ⟨36#8, 8#16, .queueFull, .empty, false⟩

/-! ### Ill-formed commands -/

theorem test_ill_text : (Instr.lotStart .tool 0#16 (List.replicate 256 65#8)).wellFormed = false := by decide +kernel

theorem test_ill_list : (Instr.noticeMaskSet .tool 0#16 (List.replicate 256 0#8)).wellFormed = false := by decide +kernel

theorem test_ill_slot_text :
    (Instr.slotMap .tool 0#16 1#8 [⟨1#8, some (List.replicate 256 65#8)⟩]).wellFormed = false := by decide +kernel

theorem test_ill_excursions : RecipeFields.fits
    ⟨none, none, none, none, none, none, none, none, none, none, some (List.replicate 256 ⟨1#8, 1#16, 0#8⟩), none⟩ = false := by
  decide +kernel

theorem test_ill_changes : (Instr.errorClear .tool 0#16 [] (some (List.replicate 256 ⟨0#8, 0#8⟩))).wellFormed = false := by
  decide +kernel

theorem test_ill_body_too_long :
    (Instr.siteLoad .tool 0#16 lotId 1#8 (List.replicate 70 ⟨1#16, 0#8, 0#8, 0#32, 0#32, 0#8, 0#16, 0#8⟩)).wellFormed
      = false := by decide +kernel

theorem test_ill_unknown_kind : (Instr.unknownKind .tool 0#16 1#8 []).wellFormed = false := by decide +kernel

theorem test_ill_unknown_body : (Instr.unknownKind .tool 0#16 0#8 (List.replicate 1025 0#8)).wellFormed = false := by decide +kernel

theorem test_ill_image : (Instr.saveEnd (.readBack [0#8])).wellFormed = false
    ∧ (Instr.saveEnd (.noResponse [])).wellFormed = false := by decide +kernel

theorem test_ill_wafer_id : (Instr.complete .ar 0#16 (some [65#8])).wellFormed = false := by decide +kernel

theorem test_ill_overlong : (Instr.overlongLengthField .tool 1024#16).wellFormed = false := by decide +kernel

theorem test_well_formed : (Instr.complete .al 0#16 (some [65#8])).wellFormed = true
    ∧ (Instr.overlongLengthField .tool 1025#16).wellFormed = true
    ∧ (Instr.unknownKind .tool 0#16 0#8 []).wellFormed = true
    ∧ (Instr.lotStart .tool 0#16 (List.replicate 255 65#8)).wellFormed = true := by decide +kernel

/-! ### Frames and bodies, byte by byte (R160, R168) -/

/-- The usual check value of this CRC, over the characters 1 to 9. -/
theorem test_crc : crc16 [49#8, 50#8, 51#8, 52#8, 53#8, 54#8, 55#8, 56#8, 57#8] = 0x29B1#16 := by decide +kernel

theorem test_frame : requestFrame 36#8 9#16 [1#8] =
    [165#8, 90#8, 1#8, 0#8, 36#8, 9#8, 0#8, 1#8] ++ encodeHalf (crc16 [1#8, 0#8, 36#8, 9#8, 0#8, 1#8]) := by decide +kernel

/-- NOT_PERMITTED with an empty body on the wire: length 0, kind 36, tag 9, status 1 (R160, R165). -/
theorem test_response_frame : (⟨36#8, 9#16, .notPermitted, .empty, true⟩ : Response).frame =
    [165#8, 90#8, 0#8, 0#8, 36#8, 9#8, 0#8, 1#8] ++ encodeHalf (crc16 [0#8, 0#8, 36#8, 9#8, 0#8, 1#8]) := by decide +kernel

theorem test_body_stats_take : decodeBody .statsTake [0#8, 4#8, 3#8, 2#8, 1#8] = some (.statsTake 0#8 0x01020304#32) := by
  decide +kernel

theorem test_body_site_load :
    decodeBody .siteLoad
      [1#8, 76#8, 2#8, 1#8, 7#8, 0#8, 255#8, 1#8, 0x10#8, 0x27#8, 0#8, 0#8, 0xF0#8, 0xD8#8, 0xFF#8, 0xFF#8, 3#8, 4#8, 0#8, 2#8]
      = some (.siteLoad [76#8] 2#8 [⟨7#16, 255#8, 1#8, 10000#32, (-10000 : Full), 3#8, 4#16, 2#8⟩]) := by decide +kernel

theorem test_body_too_long : decodeBody .modeSet [1#8, 0#8] = none := by decide +kernel

theorem test_body_too_short : decodeBody .settingSet [1#8, 0#8] = none := by decide +kernel

/-! ### The spec's worked numbers (05, 04) -/

/-- The sweep of 05's example: nine counts around 32,832, threshold 1,536. -/
theorem test_sweep_example :
    (List.range 9).map (fun k => stepDrive 32832 9 16 (k + 1)) =
      [32768, 32784, 32800, 32816, 32832, 32848, 32864, 32880, 32896]
    ∧ threshold 1 .q1 = 1536
    ∧ evaluateSweep 1536 9 16 [1515, 1770, 1975, 2160, 2305, 2390, 2420, 2350, 2200]
      [32768, 32784, 32800, 32816, 32832, 32848, 32864, 32880, 32896] = .accept 32861 2420 := by decide +kernel

def die (n : Nat) (row col : Int) : SiteEntry := ⟨n, row, col, 0, 0, 0, 0, 0, .pending, 0, none, none, none, none⟩

/-- 04's example: three rows, walked forward, backward, forward. -/
theorem test_walk_order :
    (walkOrder ⟨.active, some 4, none, .forward, none, none⟩
      [die 21 4 0, die 22 4 2, die 23 5 1, die 24 5 3, die 25 5 6, die 26 7 2, die 27 7 5]).map (·.entry.number)
      = [21, 22, 25, 24, 23, 26, 27] := by decide +kernel

theorem test_reset_line : noticeLine State.reset.part .image = false ∧ rawSet State.reset.part .image = [.creditLow] := by
  decide +kernel

theorem test_power_on_order : (powerOnState State.reset).part.slotOf .st =
    .issued ⟨.moveLoad, 0#16, none, some 5000⟩ := by decide +kernel

theorem test_image_read_back : loadImage (settingsImage defaultSettings) = (defaultSettings, .loaded) := by decide +kernel

theorem test_memory_write : memoryWriteFrom [] 0 [1#8, 255#8, 2#8] = [(0, 1#8), (2, 2#8)] := by decide +kernel

/-! ### States that meet the hypotheses of the statements -/

theorem test_hyp_EveryCommandCompletes : State.reset.pending = [] := rfl

theorem test_hyp_LinkChanges : (ready.port .tool).link = .up ∧ (State.reset.port .tool).link = .down := by decide +kernel

/-- A body of no byte, one of 1,024; a frame with a CRC of zeros; a length of 1,025. -/
theorem test_hyp_FramesAreScanned :
    ([] : List Byte).length ≤ 1024 ∧ (List.replicate 1024 0#8).length ≤ 1024 ∧
      joinHalf 1#8 0#8 = BitVec.ofNat 16 [0#8].length ∧
      joinHalf 0#8 0#8 ≠ crc16 ([1#8, 0#8, 36#8, 9#8, 0#8] ++ [0#8]) ∧ 1024 < (joinHalf 1#8 4#8).toNat ∧
      (List.replicate 2048 0#8).length ≤ 2048 ∧ (⟨.up, [], [], [taken]⟩ : Port).sendOrder = taken :: [] := by decide +kernel

/-- Bytes before the sync, then each of the four finds; an over-long length of 1,025. -/
theorem test_hyp_BytesArrive :
    (ready.port .tool).link = .up ∧
    scanFrame (dropToSync ((ready.port .tool).partialFrame ++ (1#8 :: requestFrame 36#8 9#16 [1#8] ++ [7#8]))) =
      .frame aRequest [7#8] ∧
    scanFrame (dropToSync ((ready.port .tool).partialFrame ++ [165#8, 90#8, 1#8, 0#8, 36#8, 9#8, 0#8, 0#8, 0#8, 0#8])) =
      .badCrc 1#16 36#8 9#16 [] ∧
    scanFrame (dropToSync ((ready.port .tool).partialFrame ++ [165#8, 90#8, 1#8, 4#8])) = .overlong 1025#16 [] ∧
    scanFrame (dropToSync ((ready.port .tool).partialFrame ++ [165#8])) = .incomplete ∧ 1024 < (1025#16).toNat := by
  decide +kernel

/-- A good frame at a port that takes it at once; behind a taken response with three queued; at a full queue with five and with
six responses to send. -/
theorem test_hyp_BytesArrive_frame :
    let found (s : State) : Prop := (s.port .tool).link = .up ∧
      scanFrame (dropToSync ((s.port .tool).partialFrame ++ requestFrame 36#8 9#16 [1#8])) = .frame aRequest []
    (found ready ∧ PortOpen ready .tool) ∧
    (let s := atTool ⟨.up, [], List.replicate 3 aRequest, [taken]⟩
     found s ∧ ¬ PortOpen s .tool ∧ (s.port .tool).queue.length < 4) ∧
    (let s := atTool ⟨.up, [], List.replicate 4 aRequest, taken :: List.replicate 4 turnedAway⟩
     found s ∧ 4 ≤ (s.port .tool).queue.length ∧ (s.port .tool).sendOrder.length < 6) ∧
    (let s := atTool ⟨.up, [], List.replicate 4 aRequest, taken :: List.replicate 5 turnedAway⟩
     found s ∧ 4 ≤ (s.port .tool).queue.length ∧ 6 ≤ (s.port .tool).sendOrder.length) := by
  unfold PortOpen
  decide +kernel

theorem test_hyp_RequestBodiesReadBack :
    (Request.lotStart (List.replicate 255 65#8)).fits = true ∧ Request.fits .toolClear = true ∧
    decodeBody .classPost [7#8, 1#8, 3#8, 90#8] = some (.classPost 263#16 3#8 90#8) ∧
    decodeBody .classPost [7#8, 1#8, 3#8] = none ∧ decodeBody .classPost [7#8, 1#8, 3#8, 90#8, 0#8] = none := by decide +kernel

/-- A DOWN link; a queue of three behind a taken response; a full queue with five and with six responses to send. -/
theorem test_hyp_ArrivalsWaitOrAreLost :
    (State.reset.port .tool).link = .down ∧
    (let q := (atTool ⟨.up, [], List.replicate 3 aRequest, [taken]⟩).port .tool
     q.link = .up ∧ q.queue.length < 4 ∧ q.queue ≠ []) ∧
    (let q := (atTool ⟨.up, [], [], [taken]⟩).port .tool
     q.link = .up ∧ q.queue.length < 4 ∧ ∃ x ∈ q.sendOrder, x.taken = true) ∧
    (let q := (atTool ⟨.up, [], List.replicate 4 aRequest, taken :: List.replicate 4 turnedAway⟩).port .tool
     q.link = .up ∧ 4 ≤ q.queue.length ∧ q.sendOrder.length < 6) ∧
    (let q := (atTool ⟨.up, [], List.replicate 4 aRequest, taken :: List.replicate 5 turnedAway⟩).port .tool
     q.link = .up ∧ 4 ≤ q.queue.length ∧ 6 ≤ q.sendOrder.length) := by decide +kernel

theorem test_hyp_ChecksAtTheTake :
    (PortOpen (on fun c => { c with loading := true }) .tool ∧ (on fun c => { c with loading := true }).part.loading = true) ∧
    (PortOpen ready .tool ∧ ready.part.loading = false) ∧ (∀ k ∈ allKinds, k.code ≠ 0#8) ∧ (∀ k : Kind, k ∈ allKinds) ∧
    permitted .lotDefine .image ready.part.mode = false := by
  refine ⟨by decide +kernel, by decide +kernel, by decide +kernel, fun k => ?_, by decide +kernel⟩
  cases k <;> decide +kernel

/-- A response sent: with nothing queued; with a taken response behind it; with a request queued that is then taken, whose
code is unknown, not permitted, malformed, or good. -/
theorem test_hyp_QueuedRequestsAreTaken :
    (let q := (atTool ⟨.up, [], [], [taken]⟩).port .tool
     q.sendOrder = [taken] ∧ q.queue = []) ∧
    (let q := (atTool ⟨.up, [], [aRequest], [turnedAway, taken]⟩).port .tool
     q.sendOrder = [turnedAway, taken] ∧ ∃ y ∈ [taken], y.taken = true) ∧
    (let q := (atTool ⟨.up, [], [aRequest], [taken, turnedAway]⟩).port .tool
     q.sendOrder = [taken, turnedAway] ∧ q.queue = [aRequest] ∧ ∀ y ∈ [turnedAway], y.taken = false) ∧
    State.reset.part.loading = true ∧ ready.part.loading = false ∧ (∀ k ∈ allKinds, k.code ≠ 0#8) ∧
    permitted .modeSet .image ready.part.mode = false ∧ TakesNow ready .tool (Request.modeSet 1#8).kind ∧
    (permitted .modeSet .tool ready.part.mode = true ∧ decodeBody .modeSet [] = none) ∧
    (permitted .modeSet .tool ready.part.mode = true ∧ decodeBody .modeSet [1#8] = some (.modeSet 1#8)) := by decide +kernel

theorem test_hyp_ModeSetTakesEffect : TakesNow ready .tool .modeSet ∧ 1 < (2#8).toNat := by decide +kernel

/-- An event condition of each port. -/
theorem test_hyp_NoticesFollowTheStates :
    let events := [Condition.lotState, .settingsDone, .session, .excursion, .holdSet]
    (Condition.settingsDone ∈ conditionsOf .tool ∧ Condition.settingsDone ∈ events) ∧
    (Condition.session ∈ conditionsOf .image ∧ Condition.session ∈ events) ∧
    (Condition.holdSet ∈ conditionsOf .automation ∧ Condition.holdSet ∈ events) := by decide +kernel

/-- Of CREDIT_LOW and SESSION, both raised and enabled, the first is the cause (R172). -/
theorem test_notice_cause :
    let s := enableMasks .image [.creditLow, .session] (raiseEvent .image .session ready.part)
    noticeCause s .image = some .creditLow ∧ maskedSet s .image = [.creditLow, .session] := by decide +kernel

/-- Every condition of the tool port is named; a condition of another port is a bad name. -/
theorem test_hyp_NoticeRequests :
    TakesNow ready .tool .noticeRead ∧ TakesNow ready .tool .noticeMaskSet ∧ TakesNow ready .tool .noticeMaskClear ∧
    (∀ b ∈ [0#8, 4#8], ∃ x ∈ conditionsOf .tool, conditionOf b = some x) ∧
    (∃ b ∈ [4#8, 5#8], ∀ x ∈ conditionsOf .tool, conditionOf b ≠ some x) := by decide +kernel

theorem test_hyp_ErrorOccurrence :
    (State.reset.part.errors.get .idMismatch).flag = false ∧
    ((recordError .settingsDefaulted (.settingsLoad .crc) State.reset.part).errors.get .settingsDefaulted).flag = true := by
  decide +kernel

/-- Kinds at both ends of the table, classes at both ends, and the names beyond them. -/
theorem test_hyp_ErrorRequests :
    TakesNow ready .automation .errorRead ∧ errorClassOf 12#8 = some .note ∧ errorClassOf 14#8 = some .wafer ∧
    (∀ b ∈ [0#8, 11#8], b.toNat < 12) ∧ errorClassOf 15#8 = none ∧ (∃ b ∈ [12#8], 12 ≤ b.toNat) ∧
    TakesNow ready .tool .errorClear ∧
    ((∀ b ∈ [0#8, 14#8], b.toNat < 15) ∧
      ∀ f ∈ (some [(⟨11#8, 1#8⟩ : ReportingField)]).getD [], f.kind.toNat < 12 ∧ f.value.toNat < 2) ∧
    ¬ (∀ b ∈ [15#8], b.toNat < 15) := by decide +kernel

/-- Amounts equal to the statistic and one above it, at the last statistic; the first name past the table. -/
theorem test_hyp_StatisticsAreReadAndTaken :
    let s := on fun c => { c with stats := c.stats.set .latePosts 5#32 }
    TakesNow s .tool .statsRead ∧ TakesNow s .automation .statsTake ∧ allStatistics[(11#8).toNat]? = some .latePosts ∧
    (5#32).toNat ≤ (s.part.stats.get .latePosts).toNat ∧ (s.part.stats.get .latePosts).toNat < (6#32).toNat ∧
    12 ≤ (12#8).toNat := by decide +kernel

theorem test_hyp_SettingSetClampsAndApplies :
    TakesNow ready .tool .settingSet ∧ 13 ≤ (13#8).toNat ∧ allSettings[(12#8).toNat]? = some .settleTime ∧
    (bound (aLot .defined)).part.lot? .p1 = some (aLot .defined) ∧ (∀ i ∈ allLoadPorts, ready.part.lot? i = none) ∧
    (on fun c => { c with saving := some c.settings }).part.saving ≠ none ∧ ready.part.saving = none := by decide +kernel

theorem test_hyp_SettingsSaveAndItsEnd :
    let s := on fun c => { c with saving := some c.settings }
    (settingsImage defaultSettings).length = 56 ∧ TakesNow ready .tool .settingsSave ∧ ready.part.saving = none ∧
    TakesNow s .tool .settingsSave ∧ s.part.saving = some defaultSettings ∧
    (List.replicate 56 0#8).length = 56 ∧ List.replicate 56 0#8 ≠ settingsImage defaultSettings := by decide +kernel

/-- An erased memory; an image of version 2; a good image; one with a park z over the range. -/
theorem test_hyp_SettingsLoadEnds :
    (allSettings[0]? = some .portsFitted ∧ allSettings[12]? = some .settleTime) ∧
    (State.reset.part.loading = true ∧
      ¬ imageHalf (memoryReadFrom State.reset.part.memory 0 56) 54 =
        crc16 ((memoryReadFrom State.reset.part.memory 0 56).take 54)) ∧
    (Part.powerOn [] true).imagePartial = true ∧
    (let covered := 2#8 :: (imageCovered defaultSettings).drop 1
     let bytes := memoryReadFrom (memoryWriteFrom [] 0 (covered ++ encodeHalf (crc16 covered))) 0 56
     State.reset.part.imagePartial = false ∧ imageHalf bytes 54 = crc16 (bytes.take 54) ∧ imageHalf bytes 0 ≠ 1#16) ∧
    (let bytes := memoryReadFrom (memoryWriteFrom [] 0 (settingsImage defaultSettings)) 0 56
     imageHalf bytes 54 = crc16 (bytes.take 54) ∧ imageHalf bytes 0 = 1#16 ∧
      ∀ k ∈ allSettings, clampSetting k (storedSetting bytes k) = storedSetting bytes k) ∧
    (let bytes := memoryReadFrom (memoryWriteFrom [] 0 (settingsImage { defaultSettings with parkZ := 65536 })) 0 56
     imageHalf bytes 54 = crc16 (bytes.take 54) ∧ imageHalf bytes 0 = 1#16 ∧
      clampSetting .parkZ (storedSetting bytes .parkZ) ≠ storedSetting bytes .parkZ) := by decide +kernel

theorem test_hyp_SavedSettingsComeBack :
    let s := on fun c => { c with saving := some { c.settings with portsFitted := 1, parkZ := 65535 } }
    s.part.saving = some { defaultSettings with portsFitted := 1, parkZ := 65535 } ∧ memoryWf s.part.memory = true ∧
    ∀ k ∈ allSettings, (settingRange k).1 ≤ ({ defaultSettings with portsFitted := 1, parkZ := 65535 } : Settings).get k ∧
      ({ defaultSettings with portsFitted := 1, parkZ := 65535 } : Settings).get k ≤ (settingRange k).2 := by decide +kernel

/-- Each of the three that block TOOL_CLEAR; none of them. -/
theorem test_hyp_ToolClearEmptiesTheRecords :
    TakesNow ready .tool .toolClear ∧ (∃ t ∈ allTags, (review .moving).wafer? t ≠ none) ∧
    (issueOrder .st .moveLoad none ready.part).slotOf .st = .issued ⟨.moveLoad, 0#16, none, some 5000⟩ ∧
    (completeLot .p1 (bound (aLot .draining)).part).reportQueue ≠ [] ∧
    (∀ t ∈ allTags, ready.part.wafer? t = none) ∧ (∀ m ∈ allMovers, ready.part.slotOf m = .idle) ∧
    ready.part.reportQueue = [] := by decide +kernel

/-- Port 5, and port 4 of a tool with three ports; IDs of no, one and sixteen characters, and seventeen; an ID in use; a
carrier that is docked already. -/
theorem test_hyp_CarrierDocks :
    TakesNow ready .tool .carrierDocked ∧ LoadPort.ofNum (5#8).toNat = none ∧
    (LoadPort.p4.num = (4#8).toNat ∧ (on fun c => { c with settings := { c.settings with portsFitted := 3 } }).part.settings.portsFitted
      < (4#8).toNat) ∧
    (LoadPort.p4.num = (4#8).toNat ∧ (4#8).toNat ≤ ready.part.settings.portsFitted) ∧
    (1 ≤ (List.replicate 16 65#8).length ∧ (List.replicate 16 65#8).length ≤ 16) ∧ ¬ (List.replicate 17 65#8).length ≤ 16 ∧
    ¬ 1 ≤ ([] : Text).length ∧
    (LoadPort.p1 ≠ .p4 ∧ (mapped.carrier .p1).state ≠ .empty ∧ (mapped.carrier .p1).id = some [67#8]) ∧
    (∀ j ∈ allLoadPorts, ¬ (j ≠ .p1 ∧ (mapped.carrier j).state ≠ .empty ∧ (mapped.carrier j).id = some [68#8])) ∧
    (ready.part.carrier .p4).state = .empty := by decide +kernel

theorem test_hyp_SlotMapIsStored :
    let s := on fun c => setCarrier .p1 ⟨.docked, some [67#8], none⟩ c
    TakesNow s .tool .slotMap ∧ (s.part.carrier .p2).state ≠ .docked ∧ (s.part.carrier .p1).state = .docked ∧
    (LoadPort.p1.num = (1#8).toNat ∧ (1#8).toNat ≤ s.part.settings.portsFitted) ∧
    ((List.replicate 24 (⟨3#8, none⟩ : SlotField) ++ [(⟨1#8, some (List.replicate 24 65#8)⟩ : SlotField)]).length = 25 ∧
      ∀ e ∈ List.replicate 24 (⟨3#8, none⟩ : SlotField) ++ [(⟨1#8, some (List.replicate 24 65#8)⟩ : SlotField)],
        e.state.toNat < 4 ∧ slotEntryOf e ≠ none) ∧
    (List.replicate 24 (⟨3#8, none⟩ : SlotField)).length ≠ 25 := by decide +kernel

theorem test_hyp_CarrierLeaves :
    TakesNow ready .tool .carrierRelease ∧ TakesNow ready .tool .carrierUndocked ∧
    (LoadPort.p1.num = (1#8).toNat ∧ (1#8).toNat ≤ ready.part.settings.portsFitted) ∧ (ready.part.carrier .p1).state = .empty ∧
    ((mapped.carrier .p1).state = .mapped ∧ mapped.lot? .p1 = none) ∧
    (((bound (aLot .running)).part.carrier .p1).state ≠ .releasable ∧ (bound (aLot .running)).part.lot? .p1 ≠ none) ∧
    (let c := completeLot .p1 (bound (aLot .draining)).part
     (c.carrier .p1).state = .releasable ∧ c.lot? .p1 ≠ none) ∧ LoadPort.ofNum (0#8).toNat = none := by decide +kernel

/-- A definition with 25 slots that is accepted; an unset recipe; a carrier not MAPPED; an entry that is not OCCUPIED. -/
theorem test_hyp_LotIsDefined :
    let s := withPart ready mapped
    let sel : List Byte := (List.range 25).map (fun k => BitVec.ofNat 8 (k + 1))
    TakesNow s .tool .lotDefine ∧ (∀ i ∈ allLoadPorts, s.part.lot? i = none) ∧
    s.part.recipes.getD (0#8).toNat none = some Recipe.default ∧
    (1 ≤ sel.length ∧ sel.length ≤ 25 ∧ (∀ b ∈ sel, 1 ≤ b.toNat ∧ b.toNat ≤ 25) ∧ sel.Nodup) ∧
    s.part.recipes.getD (1#8).toNat none = none ∧ (ready.part.carrier .p1).state ≠ .mapped ∧
    ((s.part.carrier .p1).state = .mapped ∧ s.part.lot? .p1 = none) ∧ allOccupied (s.part.carrier .p1).map sel = true ∧
    allOccupied (some (List.replicate 25 ⟨.crossed, none⟩)) sel = false := by decide +kernel

theorem test_hyp_LotStarts :
    TakesNow ready .tool .lotStart ∧ ready.part.lotNamed lotId = none ∧
    (bound (aLot .running)).part.lotNamed lotId = some (.p1, aLot .running) ∧
    (bound (aLot .defined)).part.lotNamed lotId = some (.p1, aLot .defined) := by decide +kernel

/-- Lists sealed and empty for both slots of the lot of `bound`. -/
def barrenLists : List RevisitList := [⟨.p1, 1, true, []⟩, ⟨.p1, 2, true, []⟩]

/-- No lot; a lot with both entries barren and one with one barren, RUNNING and in other states; a DRAINING lot with a record in
use and without. -/
theorem test_hyp_LotStarts_settling :
    ready.part.lot? .p1 = none ∧ (bound (aLot .running)).part.lot? .p1 = some (aLot .running) ∧
    (aLot .running).state = .running ∧ (aLot .running).aborted = false ∧ (aLot .draining).state ≠ .running ∧
    (let c := { (bound (aLot .running)).part with lists := barrenLists }
     (∀ e ∈ (aLot .running).selection, e.status = .waiting ∧ ∃ r, c.list? .p1 e.slot = some r ∧ r.sealed = true ∧ r.entries = []) ∧
       (∀ t ∈ allTags, c.wafer? t = none) ∧ (drainLot .p1 (ruleOutLot .p1 c)).lotHasWafer .p1 = false) ∧
    (let c := { (bound (aLot .running)).part with lists := [⟨.p1, 1, true, []⟩] }
     (aLot .running).selection[1]? = some ⟨2, .waiting, none, WaferCounts.empty⟩ ∧ c.list? .p1 2 = none) ∧
    ((lone .aligning .aligner false).lot? .p1 = some (aLot .draining) ∧
      ((lone .aligning .aligner false).wafer? 0).map (·.lot) = some .p1) := by
  refine ⟨by decide +kernel, by decide +kernel, rfl, rfl, by decide, ⟨?_, by decide +kernel, by decide +kernel⟩,
    by decide +kernel, by decide +kernel⟩
  intro e m
  have : e ∈ [(⟨1, .waiting, none, WaferCounts.empty⟩ : Selection), ⟨2, .waiting, none, WaferCounts.empty⟩] := m
  simp only [List.mem_cons, List.not_mem_nil, or_false] at this
  rcases this with rfl | rfl
  · exact ⟨rfl, ⟨.p1, 1, true, []⟩, by decide +kernel⟩
  · exact ⟨rfl, ⟨.p1, 2, true, []⟩, by decide +kernel⟩

/-- LOT_START of a lot whose entries are all barren takes it to CLOSED in the one event, with its report (R10, R11, R18). -/
theorem test_start_closes :
    let c := settle { (bound (aLot .running)).part with lists := barrenLists }
    (c.lot? .p1).map (fun l => (l.state, l.selection.map (·.status))) = some (.closed, [.ruledOut, .ruledOut]) ∧
    c.reportQueue.map (fun r => (r.outcome, r.summaries.map (·.outcome))) = [(.complete, [.noSites, .noSites])] ∧
    .lotState ∈ rawSet c .tool := by decide +kernel

/-- A lot with a TOOL source of scope N. -/
def heldLot : Lot := { aLot .draining with holdTool := some .n }

/-- The hold that stays (a second W source), that becomes HOLD.W, that becomes HOLD.N with the session's wafer, that leaves
HOLD.N. -/
theorem test_hyp_LotHoldIsRecorded :
    TakesNow (bound (aLot .running)) .tool .lotHold ∧ 1 < (2#8).toNat ∧ (1#8).toNat ≤ 1 ∧ ready.part.lotNamed lotId = none ∧
    (bound (aLot .running)).part.lotNamed lotId = some (.p1, aLot .running) ∧
    ¬ ((aLot .closed).state = .running ∨ (aLot .closed).state = .draining) ∧
    ({ aLot .running with holdAuto := some .w } : Lot).hold =
      ({ aLot .running with holdAuto := some .w, holdTool := some .w } : Lot).hold ∧
    ((aLot .running).hold ≠ ({ aLot .running with holdTool := some .w } : Lot).hold ∧ (aLot .running).hold ≠ .holdN ∧
      ({ aLot .running with holdTool := some .w } : Lot).hold ≠ .holdN) ∧
    ((review .moving).lotNamed lotId = some (.p1, aLot .draining) ∧ (aLot .draining).hold ≠ heldLot.hold ∧
      heldLot.hold = .holdN ∧ (review .moving).sessionLot = some .p1) ∧
    (heldLot.hold ≠ ({ heldLot with holdTool := some .w } : Lot).hold ∧ heldLot.hold = .holdN) := by decide +kernel

theorem test_hyp_LotReleaseRemovesASource :
    let held := { review .moving with lots := (review .moving).lots.set .p1 (some heldLot) }
    TakesNow (withPart ready held) .tool .lotRelease ∧ 1 < (2#8).toNat ∧ (1#8).toNat ≤ 1 ∧
    permitted .lotRelease .automation .remoteMode = true ∧ ready.part.lotNamed lotId = none ∧
    held.lotNamed lotId = some (.p1, heldLot) ∧ (aLot .running).holdTool = none ∧
    (heldLot.holdTool ≠ none ∧ heldLot.hold ≠ ({ heldLot with holdTool := none } : Lot).hold ∧ heldLot.hold = .holdN ∧
      held.sessionLot = some .p1) ∧
    (({ heldLot with holdExc := some .w } : Lot).holdExc ≠ none ∧
      ({ heldLot with holdExc := some .w } : Lot).hold = ({ heldLot with holdExc := none } : Lot).hold) ∧
    (bound heldLot).part.sessionLot ≠ some .p1 := by decide +kernel

/-- A session PAUSED, PAUSING and in another state. -/
theorem test_hyp_LotReleaseRemovesASource_resumed :
    (setSessionState .paused (review .pending)).session.state = .paused ∧
    (setSessionState .pausing (review .moving)).session.state = .pausing ∧
    (review .moving).session.state ≠ .paused ∧ (review .moving).session.state ≠ .pausing := by decide +kernel

theorem test_hyp_LotAborts :
    TakesNow (bound (aLot .running)) .tool .lotAbort ∧ ready.part.lotNamed lotId = none ∧
    (bound (aLot .defined)).part.lotNamed lotId = some (.p1, aLot .defined) ∧
    (bound (aLot .running)).part.lotNamed lotId = some (.p1, aLot .running) ∧
    (bound (aLot .draining)).part.lotNamed lotId = some (.p1, aLot .draining) ∧ (aLot .draining).aborted = false ∧
    (bound { aLot .draining with aborted := true }).part.lotNamed lotId = some (.p1, { aLot .draining with aborted := true }) ∧
    (bound (aLot .reportWait)).part.lotNamed lotId = some (.p1, aLot .reportWait) := by decide +kernel

/-- `review` with the lot aborted, and wafer 0 in a phase. -/
def aborting (st : SiteState) (ph : Phase) : Part :=
  { review st with
    lots := ready.part.lots.set .p1 (some { aLot .draining with aborted := true })
    wafers := ready.part.wafers.set 0 (some ⟨.p1, 1, none, some .stage, ph, true, false, none⟩) }

/-- The first and the last phase before REVIEWING, and REVIEWING; a PLACE into a lock; a wafer of another lot; no session, and a
session with each state of its site in flight. -/
theorem test_hyp_LotAborts_wafers :
    let c := aborting .moving .reviewing
    let w (ph : Phase) : Wafer := ⟨.p1, 1, none, some .stage, ph, true, false, none⟩
    let inbound := [Phase.outboundFromSlot, .aligning, .waitLock, .pumping, .ready, .toStage]
    (c.lot? .p1 = some { aLot .draining with aborted := true } ∧ c.wafer? 0 = some (w .reviewing) ∧ 0 ∈ allTags) ∧
    ((aborting .moving .toStage).wafer? 0 = some (w .toStage) ∧ (w .toStage).outcome = none ∧ Phase.toStage ∈ inbound ∧
      Phase.outboundFromSlot ∈ inbound ∧ Phase.reviewing ∉ inbound) ∧
    (setSlot .ar (.issued ⟨.arPlace .upper (.place (LockId.place .b)), 1#16, some 0, none⟩) c).slotOf .ar =
      .issued ⟨.arPlace .upper (.place (LockId.place .b)), 1#16, some 0, none⟩ ∧
    (c.slotOf .ar = .idle ∧ (w .reviewing).lot ≠ .p2 ∧ ready.part.session.state = .idle) ∧
    (c.session.wafer = some 0 ∧ c.session.state ≠ .idle ∧ c.session.inFlight = some 5 ∧
      ({ c with session := { c.session with inFlight := none } } : Part).session.inFlight = none) ∧
    ∀ st ∈ [SiteState.moving, .focusing, .captureWait, .capturing],
      (aborting st .reviewing).site? 0 5 = some (.p1, 1, aSite st) := by decide +kernel

def abortedLot : Lot := { aLot .draining with aborted := true }

/-- The rows of R65's table: home, on UPPER_BLADE and on the ALIGNER in each phase, on the arm, on the STAGE, in a lock at
ATMOSPHERE and at VACUUM; a wafer that an order names, and one of a lot that is not aborted. -/
theorem test_hyp_LotAborts_turned :
    let at' (ph : Phase) (place : Option Place) := cell abortedLot ph place true
    let turns (c : Part) := (c.wafer? 0).map (fun w => (c.lotAborted w.lot && !c.orderNames 0, redirectPhase c w))
    turns (at' .outboundFromSlot none) = some (true, some .home) ∧
    (∀ ph ∈ [Phase.outboundFromSlot, .aligning, .waitLock, .pumping],
      turns (at' ph (some .upperBlade)) = some (true, some .returning)) ∧
    (∀ ph ∈ [Phase.aligning, .waitLock, .pumping], turns (at' ph (some .aligner)) = some (true, some .returning)) ∧
    turns (at' .toStage (some .transferArm)) = some (true, some .toLock) ∧
    turns (at' .toStage (some .stage)) = some (true, some .reviewed) ∧
    turns (at' .pumping (some .lockB)) = some (true, some .returning) ∧
    (∀ ph ∈ [Phase.pumping, .ready, .toStage],
      turns (setLockState .a .vacuum (at' ph (some .lockA))) = some (true, some .venting)) ∧
    turns (at' .reviewing (some .stage)) = some (true, none) ∧
    turns (issueOrder .al (.align false) (some 0) (at' .aligning (some .aligner))) = some (false, some .returning) ∧
    turns (lone .aligning .aligner false) = some (false, some .returning) := by decide +kernel

/-- An aborted wafer in PUMPING on the blade loses its INBOUND reservation and goes home (R65). -/
theorem test_aborted_goes_home :
    let c := settle (setReservation .a (some ⟨0, .inbound⟩) (cell abortedLot .pumping (some .upperBlade) false))
    (c.wafer? 0).map (·.phase) = some .returning ∧ c.lockA.reservation = none ∧
    (c.slotOf .ar).order?.map (·.kind) = some (.arPlace .upper (.slot .p1 1)) := by decide +kernel

/-- Wafer 0 home, its site in a state, with an outcome. -/
def homecoming (st : SiteState) : Part :=
  { review st with
    session := ready.part.session
    wafers := ready.part.wafers.set 0 (some ⟨.p1, 1, none, none, .home, true, false, some .reviewed⟩) }

/-- The report queue with five reports and with six; an aborted lot with both entries WAITING, one list there and one not; a
wafer home with its site resolved, and with it open. -/
theorem test_hyp_LotCompletes :
    let five := List.replicate 5 (assembleReport .p1 (aLot .draining) ready.part)
    (bound (aLot .draining)).part.lot? .p1 = some (aLot .draining) ∧ five.length < 6 ∧ 6 ≤ (five ++ five).length ∧
    (∀ slot ∈ [1, 2], slot ∈ ((aLot .draining).selection.filter (fun e => e.status == .waiting)).map (·.slot)) ∧
    (review .pending).list? .p1 1 = some ⟨.p1, 1, true, [aSite .pending]⟩ ∧ (review .pending).list? .p1 2 = none ∧
    LoadPort.p2 ≠ .p1 ∧
    (let w : Wafer := ⟨.p1, 1, none, none, .home, true, false, some .reviewed⟩
     (homecoming .unclassified).wafer? 0 = some w ∧ w.phase = .home ∧ w.place = none ∧ 0 ∈ allTags ∧
       (homecoming .unclassified).entries .p1 1 = [aSite .unclassified] ∧
       (homecoming .unclassified).lot? .p1 = some (aLot .draining) ∧ w.outcome = some .reviewed ∧
       (homecoming .captured).wafer? 0 = some w ∧ (homecoming .captured).entries .p1 1 = [aSite .captured]) := by
  decide +kernel

/-- Completion with a sealed list, and with a list that is not sealed: its sites' reason, the slot's summary, the outcome. -/
theorem test_completion_rules_out :
    let c := completeLot .p1 { (bound { aLot .draining with aborted := true }).part with
      lists := [⟨.p1, 1, true, [aSite .pending]⟩, ⟨.p1, 2, false, [aSite .pending]⟩] }
    (c.entries .p1 1).map (·.reason) = [some .notDispatched] ∧ (c.entries .p1 2).map (·.reason) = [some .unsealed] ∧
    c.reportQueue.map (fun r => (r.outcome, r.totals.skipped)) = [(.aborted, 2)] ∧
    c.reportQueue.map (fun r => r.summaries.map (fun x => (x.slot, x.outcome, x.counts.skipped))) =
      [[(1, .notDispatched, 1), (2, .notDispatched, 1)]] := by decide +kernel

def allFields : RecipeFields :=
  ⟨some 3#8, some 15#8, some 255#8, some 3#8, some 50000#16, some 255#8, some 5000#16, some 4#8, some 600#16, some 1#8,
    some [⟨15#8, 4095#16, 3#8⟩], some 3#8⟩

theorem test_hyp_RecipeIsSet :
    TakesNow ready .tool .recipeSet ∧ 7 < (8#8).toNat ∧ (7#8).toNat ≤ 7 ∧
    ((bound (aLot .running)).part.lot? .p1 = some (aLot .running) ∧ (aLot .running).state ≠ .closed ∧
      (aLot .running).recipe = (0#8).toNat) ∧
    (∀ i ∈ allLoadPorts, ready.part.lot? i = none) ∧ recipeOfFields allFields ≠ none ∧
    recipeOfFields { allFields with sweepSteps := some 14#8 } = none := by decide +kernel

def aField : SiteField := ⟨4095#16, 128#8, 127#8, 150000#32, BitVec.ofInt 32 (-150000), 255#8, 65535#16, 3#8⟩

/-- A slot not in the selection; an aborted lot; a sealed list; a bad site; a wafer's cap reached; a load that is accepted. -/
theorem test_hyp_SitesAreLoaded :
    let s := bound (aLot .running)
    TakesNow s .tool .siteLoad ∧ ready.part.lotNamed lotId = none ∧ s.part.lotNamed lotId = some (.p1, aLot .running) ∧
    (aLot .running).entry? (3#8).toNat = none ∧
    (aLot .running).entry? (1#8).toNat = some ⟨1, .waiting, none, WaferCounts.empty⟩ ∧ (aLot .running).aborted = false ∧
    s.part.list? .p1 1 = none ∧ (review .moving).list? .p1 1 = some ⟨.p1, 1, true, [aSite .moving]⟩ ∧
    (1 ≤ [aField].length ∧ [aField].length ≤ 16) ∧
    ((1 ≤ aField.number.toNat ∧ aField.number.toNat ≤ 4095) ∧ aField.priority.toNat ≤ 3 ∧
      (-150000 ≤ aField.x.toInt ∧ aField.x.toInt ≤ 150000) ∧ (-150000 ≤ aField.y.toInt ∧ aField.y.toInt ≤ 150000)) ∧
    ([aField].map (·.number)).Nodup ∧ s.part.entries .p1 1 = [] ∧ ¬ ([aField, aField].map (·.number)).Nodup ∧
    s.part.freeCount = 12288 ∧ s.part.settings.waferCap = 2000 ∧
    ((on fun c => { c with freeCount := 0 }).part.freeCount < [aField].length) ∧
    (aLot .closed).state = .closed := by decide +kernel

/-- A list with one site present and a per-wafer cap of 2 and of 1: one more site makes them equal, and exceeds it by one. -/
theorem test_hyp_SitesAreLoaded_cap :
    let s (cap : Nat) : State := withPart ready { (bound (aLot .running)).part with
      lists := [⟨.p1, 1, false, [aSite .pending]⟩], freeCount := 12287
      settings := (bound (aLot .running)).part.settings.set .waferCap cap }
    (∀ cap ∈ [1, 2], TakesNow (s cap) .tool .siteLoad ∧ (s cap).part.lotNamed lotId = some (.p1, aLot .running) ∧
      (s cap).part.settings.waferCap = cap ∧ (s cap).part.entries .p1 1 = [aSite .pending] ∧
      (s cap).part.list? .p1 1 = some ⟨.p1, 1, false, [aSite .pending]⟩ ∧ [aField].length ≤ (s cap).part.freeCount) ∧
    (aSite .pending).number ≠ aField.number.toNat ∧ [aSite .pending].length + [aField].length = 2 ∧
    let t (cap : Nat) : State := stepped { s cap with pending := [.siteLoad .tool 0#16 lotId 1#8 [aField]] }
    (t 1 = answered (s 1) .tool 16#8 0#16 (s 1).part .noSpace (.noSpace 1 1 12287)) ∧
    ((t 2).part.entries .p1 1).length = 2 ∧ (t 2).part.freeCount = 12286 ∧
      ((t 2).port .tool).sendOrder = [⟨16#8, 0#16, .ok, .siteLoaded 2 12286, true⟩] := by decide +kernel

/-- A RUNNING lot and a DEFINED one, no list for slot 2, no wafer record, slot 2 the last WAITING entry; what the seal makes of
the entry and of the lot. -/
theorem test_hyp_ListIsSealed_settling :
    let last : Lot := { aLot .running with
      selection := [⟨1, .ruledOut, none, WaferCounts.empty⟩, ⟨2, .waiting, none, WaferCounts.empty⟩] }
    (bound last).part.lotNamed lotId = some (.p1, last) ∧ last.state = .running ∧ (bound last).part.entries .p1 2 = [] ∧
    (∀ t ∈ allTags, (bound last).part.wafer? t = none) ∧ (∀ f ∈ last.selection, f.status = .waiting → f.slot = 2) ∧
    (bound (aLot .defined)).part.lotNamed lotId = some (.p1, aLot .defined) ∧
    ((after { bound last with pending := [.siteSeal .tool 0#16 lotId 2#8] }).lot? .p1).map (fun l =>
        (l.state, (l.entry? 2).map (fun e => (e.status, e.summary)))) =
      some (.closed, some (.ruledOut, some ⟨2, none, .noSites, WaferCounts.empty⟩)) := by decide +kernel

theorem test_hyp_ListIsSealed :
    let s := bound (aLot .running)
    TakesNow s .tool .siteSeal ∧ s.part.lotNamed lotId = some (.p1, aLot .running) ∧ (aLot .running).entry? (3#8).toNat = none ∧
    (aLot .running).entry? (2#8).toNat = some ⟨2, .waiting, none, WaferCounts.empty⟩ ∧ s.part.list? .p1 2 = none ∧
    (review .moving).list? .p1 1 = some ⟨.p1, 1, true, [aSite .moving]⟩ := by decide +kernel

theorem test_hyp_LotAndRecipeQueries :
    TakesNow ready .tool .lotQuery ∧ TakesNow ready .tool .recipeQuery ∧ ready.part.lotNamed lotId = none ∧
    (bound (aLot .running)).part.lotNamed lotId = some (.p1, aLot .running) ∧ LoadPort.p4.num = (4#8).toNat ∧
    (∀ i ∈ allLoadPorts, i.num ≠ (5#8).toNat) ∧ (7#8).toNat ≤ 7 ∧ 7 < (8#8).toNat := by decide +kernel

theorem test_hyp_PartQueries :
    TakesNow ready .tool .siteQuery ∧ TakesNow ready .automation .cellQuery ∧ TakesNow ready .image .captureStatus ∧
    TakesNow ready .tool .settingRead ∧ ready.part.lotNamed lotId = none ∧
    (bound (aLot .running)).part.lotNamed lotId = some (.p1, aLot .running) ∧ (aLot .running).entry? (3#8).toNat = none ∧
    (aLot .running).entry? (1#8).toNat = some ⟨1, .waiting, none, WaferCounts.empty⟩ ∧ (1#16 : Half) ≠ 0#16 := by
  decide +kernel

/-- An IDLE, an ISSUED and a FAULTED slot; a record in use at the first and at the last tag, its lot bound. -/
theorem test_hyp_PartQueries_cell :
    let o : Order := ⟨.moveLoad, 0#16, none, some 5000⟩
    let w : Wafer := ⟨.p1, 1, none, some .stage, .reviewing, true, false, none⟩
    let c := { review .moving with
      orders := ((review .moving).orders.set .st (.issued o)).set .vr (.faulted o .timeout)
      wafers := (review .moving).wafers.set 9 (some w) }
    c.slotOf .ar = .idle ∧ c.slotOf .st = .issued o ∧ c.slotOf .vr = .faulted o .timeout ∧ c.wafer? 0 = some w ∧
      c.wafer? 9 = some w ∧ c.lot? w.lot = some (aLot .draining) ∧
      shownOrders c.orders = (c.orders.set .st (.issued { o with timer := none })).set .vr
        (.faulted { o with timer := none } .timeout) ∧
      waferViews c = [⟨0, lotId, w⟩, ⟨9, lotId, w⟩] := by decide +kernel

theorem test_hyp_AccessDecision :
    ready.part.loading = false ∧ permitted .reportAck .tool .localMode = false ∧
    permitted (Request.reportAck 0#16).kind .tool ready.part.mode = false ∧
    permitted (Request.cellQuery).kind .tool ready.part.mode = true := by decide +kernel

/-- A blade pick for wafer 0 on the STAGE, claimed at the arm. -/
def anOrder : Order := ⟨.vrPick .stage, 3#16, some 0, some 15000⟩

def ordered (o : Order) : Part := { review .moving with orders := (review .moving).orders.set .vr (.issued o) }

theorem test_hyp_OrderGoesOut : Mover.st ≠ .vr ∧ (OrderKind.vrPick .stage).target? = some .transferArm := by decide +kernel

/-- A MOVING site; a wafer that is ALIGNING; one TO_STAGE and one TO_LOCK on the arm; a REVIEWED one with its return lock; a READY
one in each lock, and one whose pick was recovered; the stage not at load, empty, and under a REVIEWED wafer. -/
theorem test_hyp_OrderGoesOut_when :
    ((review .moving).slotOf .st = .idle ∧ (review .moving).session.state = .active ∧
      (review .moving).site? 0 5 = some (.p1, 1, aSite .moving)) ∧
    (lone .aligning .aligner false).alignerWaits = false ∧
    (Lies (lone .aligning .aligner false) .aligner 0 ⟨.p1, 1, none, some .aligner, .aligning, false, false, none⟩ ∧
      ¬ Named (lone .aligning .aligner false) 0) ∧
    (lone .toStage .transferArm true).vrTask = some (.vrPlace .stage, 0) ∧
    (setLock .b ⟨.vacuum, some ⟨0, .returning⟩⟩ (lone .toLock .transferArm true)).vrTask = some (.vrPlace .lockB, 0) ∧
    (setLock .a ⟨.vacuum, some ⟨0, .returning⟩⟩ (lone .reviewed .stage true)).vrTask = some (.vrPick .stage, 0) ∧
    (setLockState .a .vacuum (lone .ready .lockA true)).vrTask = some (.vrPick .lockA, 0) ∧
    (setLockState .b .vacuum (lone .toStage .lockB true)).vrTask = some (.vrPick .lockB, 0) ∧
    ready.part.vrTask = none ∧
    (let away (c : Part) : Part := { c with atLoad := false }
     (moveLoadWork (away ready.part)).slotOf .st = .issued ⟨.moveLoad, 0#16, none, some 5000⟩ ∧
       (moveLoadWork (away (setLock .a ⟨.vacuum, some ⟨0, .returning⟩⟩ (lone .reviewed .stage true)))).slotOf .st ≠ .idle ∧
       (moveLoadWork (away (lone .reviewed .stage true))).slotOf .st = .idle) := by
  refine ⟨by decide +kernel, by decide +kernel, ⟨⟨by decide +kernel, by decide +kernel⟩, ?_⟩, by decide +kernel⟩
  rw [← orderNames_false]
  decide +kernel

/-- An IDLE slot and another tag are late; the order's own tag is not. -/
theorem test_hyp_LateAndFailedAnswers :
    ready.part.slotOf .vr = .idle ∧ (ordered anOrder).slotOf .vr = .issued anOrder ∧ anOrder.tag ≠ 4#16 ∧
    (ordered anOrder).wafer? 0 ≠ none := by decide +kernel

/-- Moves between places, from a slot and to a slot; a lock's pump and vent; MOVE_LOAD. -/
theorem test_hyp_CompletionIsApplied :
    (ordered anOrder).slotOf .vr = .issued anOrder ∧ (review .moving).wafer? 0 ≠ none ∧
    ((OrderKind.vrPick .stage).target? = some .transferArm ∧ (OrderKind.vrPick .stage).source? = some .stage) ∧
    ((OrderKind.arPick .upper (.slot .p1 1)).target? = some .upperBlade ∧
      (OrderKind.arPick .upper (.slot .p1 1)).source? = none) ∧
    Mover.la = LockId.mover .a := by decide +kernel

/-- Wafer 0 on the ALIGNER, whose slot expects the ID A, under a recipe that reads IDs. -/
def aligning : Part :=
  { review .pending with
    session := ready.part.session
    recipes := ready.part.recipes.set 0 (some { Recipe.default with readId := true })
    carriers := ready.part.carriers.set .p1 ⟨.mapped, some [67#8], some (List.replicate 25 ⟨.occupied, some [65#8]⟩)⟩ }

/-- The longest text that is a read and one character more; an expected ID, a read that matches it and one that does not, none
expected; an aborted lot; a MOVE_SITE with its site MOVING, ACTIVE and PAUSING, with the site in another state, and with none. -/
theorem test_hyp_CompletionIsApplied_align_move :
    let c := aligning
    let other (readId : Bool) := (some (List.replicate 24 66#8) : Option Text).filter
      (fun x => readId && decide (1 ≤ x.length ∧ x.length ≤ 24))
    (c.wafer? 0).map (·.lot) = some .p1 ∧ c.lotAborted .p1 = false ∧ (c.recipeOf .p1).readId = true ∧
    (c.carrier .p1).map = some (List.replicate 25 ⟨.occupied, some [65#8]⟩) ∧
    (List.replicate 25 (⟨.occupied, some [65#8]⟩ : SlotEntry))[1 - 1]? = some ⟨.occupied, some [65#8]⟩ ∧
    other true = some (List.replicate 24 66#8) ∧ other true ≠ some [65#8] ∧ other false = none ∧
    (some (List.replicate 25 66#8) : Option Text).filter (fun x => true && decide (1 ≤ x.length ∧ x.length ≤ 24)) = none ∧
    c.lot? .p1 = some (aLot .draining) ∧ (mapped.carrier .p1).map = some (List.replicate 25 ⟨.occupied, none⟩) ∧
    (aborting .moving .aligning).lotAborted .p1 = true ∧ ready.part.session.wafer = none ∧
    (review .moving).session.inFlight = some 5 ∧ (review .moving).site? 0 5 = some (.p1, 1, aSite .moving) ∧
    (review .moving).site? 0 6 = none ∧ (review .focusing).site? 0 5 = some (.p1, 1, aSite .focusing) ∧
    (setSessionState .pausing (review .moving)).session.state = .pausing := by decide +kernel

/-- The places by kind of order; a PLACE onto the STAGE for a lot that is not held, one with HOLD.N, and one aborted. -/
theorem test_hyp_CompletionIsApplied_places :
    let held : Lot := { aLot .draining with holdTool := some .n }
    LockId.place .b = .lockB ∧ (Place.stage = .stage ∧ Place.lockA ≠ .stage) ∧ (review .pending).wafer? 0 ≠ none ∧
    (review .pending).lot? .p1 = some (aLot .draining) ∧ (aLot .draining).aborted = false ∧
    (aLot .draining).hold ≠ .holdN ∧ held.hold = .holdN ∧ held.aborted = false ∧
    (aborting .moving .toStage).lot? .p1 = some { aLot .draining with aborted := true } := by decide +kernel

/-- A VR PLACE into the wafer's return lock: VENTING, the RETURN reservation gone. -/
theorem test_place_into_lock :
    let c := applyCompletion .vr ⟨.vrPlace (LockId.place .b), 3#16, some 0, none⟩ none
      { review .pending with lockB := ⟨.vacuum, some ⟨0, .returning⟩⟩ }
    (c.wafer? 0).map (fun w => (w.place, w.phase)) = some (some .lockB, .venting) ∧ c.lockB = ⟨.vacuum, none⟩ := by
  decide +kernel

/-- A lock that is PUMPING with its RETURN reservation, one that is VENTING, an ALIGN and a PLACE home: what AT_SOURCE leaves. -/
theorem test_hyp_MoverIsRecovered_at_source :
    let o (k : OrderKind) : Order := ⟨k, 3#16, none, none⟩
    let c := setLock .a ⟨.pumping, some ⟨0, .returning⟩⟩ (lone .reviewed .stage true)
    (Mover.la = LockId.mover .a ∧ Mover.lb = LockId.mover .b) ∧
    applyDisposition .atSource .la (o .pump) c = setLock .a ⟨.atmosphere, some ⟨0, .returning⟩⟩ c ∧
    (applyDisposition .atSource .lb (o .vent) (setLockState .b .venting c)).lockB = ⟨.vacuum, none⟩ ∧
    applyDisposition .atSource .al (o (.align true)) c = c ∧
    applyDisposition .atSource .ar (o (.arPlace .lower (.slot .p1 1))) c = c := by decide +kernel

theorem test_hyp_MoverIsRecovered :
    let faulted := { ordered anOrder with orders := (ordered anOrder).orders.set .vr (.faulted anOrder .timeout) }
    TakesNow (withPart ready faulted) .tool .moverRecover ∧ 5 < (6#8).toNat ∧ 2 < (3#8).toNat ∧
    allMovers[(1#8).toNat]? = some .vr ∧ (2#8).toNat ≤ 2 ∧ ready.part.slotOf .vr = .idle ∧
    faulted.slotOf .vr = .faulted anOrder .timeout ∧ ¬ (Mover.vr = .st ∨ anOrder.wafer = none) ∧
    allMovers[(5#8).toNat]? = some .st ∧ faulted.wafer? 0 ≠ none ∧ anOrder.kind.target? = some .transferArm ∧
    (faulted.wafer? 0).map (·.place) = some (some .stage) ∧ Mover.la = LockId.mover .a ∧
    Disposition.atSource ∈ [Disposition.atSource, .atTarget] ∧ (review .moving).session.wafer = some 0 ∧
    (review .moving).session.inFlight = some 5 ∧ (review .moving).site? 0 5 = some (.p1, 1, aSite .moving) ∧
    (review .capturing).site? 0 5 = some (.p1, 1, aSite .capturing) ∧ ready.part.session.wafer = none ∧
    (setSessionState .pausing (review .moving)).session.state = .pausing := by decide +kernel

/-- Both locks at VACUUM; one; both at ATMOSPHERE; one of them; neither empty. -/
theorem test_hyp_ReturnLockIsReserved :
    let at' (a b : LockState) : Part := { ready.part with lockA := ⟨a, none⟩, lockB := ⟨b, none⟩ }
    ((at' .vacuum .vacuum).lock .a).state = .vacuum ∧ (at' .vacuum .vacuum).lockEmpty .a = true ∧
    ((at' .pumping .vacuum).lock .a).state ≠ .vacuum ∧ ((at' .pumping .vacuum).lock .b).state = .vacuum ∧
    ((at' .atmosphere .pumping).lock .a).state = .atmosphere ∧ (at' .atmosphere .pumping).slotOf .la = .idle ∧
    ((at' .pumping .atmosphere).lock .b).state = .atmosphere ∧ (at' .pumping .atmosphere).slotOf .lb = .idle ∧
    ((at' .pumping .venting).lock .a).state ≠ .atmosphere ∧ ((at' .pumping .venting).lock .b).state ≠ .vacuum := by
  decide +kernel

/-- Wafers that need a return lock and that do not; a wafer in PUMPING and one in VENTING in a lock, a lock whose return-lock pump
was recovered; a lock at VACUUM that is vented for the wafer in WAIT_LOCK, and one that a return lock's want keeps. -/
theorem test_hyp_ReturnLockIsReserved_work :
    let waits := setLockState .b .vacuum (setLockState .a .pumping (lone .waitLock .aligner false))
    NeedsReturnLock (lone .reviewed .stage true) .stage 0 ∧ NeedsReturnLock (lone .toLock .transferArm true) .transferArm 0 ∧
    (∀ t, ¬ NeedsReturnLock (lone .reviewing .stage true) .stage t) ∧
    ((lone .pumping .lockA false).slotOf .la = .idle ∧ (lone .pumping .lockA false).lockA.state = .atmosphere ∧
      (lockWork (lone .pumping .lockA false) .a).lockA.state = .pumping) ∧
    ((lockWork (setLock .b ⟨.atmosphere, some ⟨0, .returning⟩⟩ (lone .reviewed .stage true)) .b).lockB =
      ⟨.pumping, some ⟨0, .returning⟩⟩) ∧
    (lockWork (setLockState .a .vacuum (lone .venting .lockA true)) .a).lockA.state = .venting ∧
    ((EmptyLock waits .vacuum .b ∧ waits.slotOf .lb = .idle) ∧ (∃ t w, Lies waits .aligner t w ∧ w.phase = .waitLock) ∧
      (∀ j, ¬ EmptyLock waits .atmosphere j) ∧ WouldAdmit waits .b ∧ ∀ q t, ¬ NeedsReturnLock waits q t) ∧
    ventWork ready.part .a = ready.part := by
  refine ⟨(needsReturn_some _ _ _).1 (by decide +kernel), (needsReturn_some _ _ _).1 (by decide +kernel),
    (needsReturn_none _ _).1 (by decide +kernel), by decide +kernel, by decide +kernel, by decide +kernel,
    ⟨⟨(emptyAt_iff _ _ _).1 (by decide +kernel), by decide +kernel⟩, (alignerWaits_iff _).1 (by decide +kernel), ?_,
      (wouldAdmit_iff _ _).1 (by decide +kernel), ?_⟩, by decide +kernel⟩
  · intro j
    rw [← emptyAt_iff]
    cases j <;> decide +kernel
  · intro q
    refine (needsReturn_none _ q).1 ?_
    cases q <;> decide +kernel

/-- A wafer for each preference of the AR's work: 1; the three of 2; 3 from each lock; the three of 4; 5; a slot pick recovered;
none; and an admission with its lock. -/
theorem test_hyp_DispatchChoosesTheBestOffer_work :
    (∃ w, ArReady (lone .returning .lowerBlade true) 1 (.arPlace .lower (.slot .p1 1)) 0 w) ∧
    (∃ w, ArReady (lone .aligning .upperBlade false) 2 (.arPlace .upper (.place .aligner)) 0 w) ∧
    (∃ w, ArReady (setReservation .b (some ⟨0, .inbound⟩) (lone .pumping .upperBlade false)) 2
      (.arPlace .upper (.place .lockB)) 0 w) ∧
    (∃ w, ArReady (lone .returning .upperBlade false) 2 (.arPlace .upper (.slot .p1 1)) 0 w) ∧
    (∃ w, ArReady (lone .returning .lockA true) 3 (.arPick .lower (.place .lockA)) 0 w) ∧
    (∃ w, ArReady (lone .returning .lockB true) 3 (.arPick .lower (.place .lockB)) 0 w) ∧
    (lone .returning .aligner false).arPickAligner = some (.order (.arPick .upper (.place .aligner)) 0) ∧
    (setReservation .a (some ⟨0, .inbound⟩) (lone .pumping .aligner false)).arPickAligner =
      some (.order (.arPick .upper (.place .aligner)) 0) ∧
    ((lone .waitLock .aligner false).arPickAligner = some (.admission .a 0) ∧ Admits (lone .waitLock .aligner false) .a) ∧
    (∃ w, ArReady (lone .returning .lockB false) 5 (.arPick .upper (.place .lockB)) 0 w) ∧
    (∃ w, ArReady (cell (aLot .draining) .outboundFromSlot none false) 6 (.arPick .upper (.slot .p1 1)) 0 w) ∧
    ready.part.arTask = none ∧ (issueOrder .ar (.arPick .upper (.slot .p1 1)) (some 0) ready.part).slotOf .ar ≠ .idle :=
  ⟨(arHomeLower_order _ _ _).1 (by decide +kernel), (arPlaceUpper_order _ _ _).1 (by decide +kernel),
    (arPlaceUpper_order _ _ _).1 (by decide +kernel), (arPlaceUpper_order _ _ _).1 (by decide +kernel),
    (arPickLower_order _ _ _).1 (by decide +kernel), (arPickLower_order _ _ _).1 (by decide +kernel), by decide +kernel,
    by decide +kernel, ⟨by decide +kernel, (admittingLock_some _ _).1 (by decide +kernel)⟩,
    (arPickUpper_order _ _ _).1 (by decide +kernel), (arDispatch_order _ _ _).1 (by decide +kernel), by decide +kernel,
    by decide +kernel⟩

/-- The grant of a lot's last WAITING entry, and of one of two: the record, the entry, the lot's state, the order (R53). -/
theorem test_hyp_DispatchChoosesTheBestOffer_grant :
    let c (l : Lot) : Part := { (bound l).part with lists := [⟨.p1, 1, true, [aSite .pending]⟩], freeCount := 12287 }
    let one : Lot := { definedLot lotId 0 .normal [1#8] with state := .running }
    (∀ l ∈ [one, aLot .running], (c l).arTask = some (.grant .p1 1 0) ∧ (c l).bestOffer = some (.p1, 1) ∧
      (c l).lot? .p1 = some l ∧ (arWork (c l)).wafer? 0 = some (grantedWafer .p1 1)) ∧
    ((arWork (c one)).lot? .p1).map (fun l => (l.state, l.selection.map (·.status))) = some (.draining, [.dispatched]) ∧
    ((arWork (c (aLot .running))).lot? .p1).map (fun l => (l.state, l.selection.map (·.status))) =
      some (.running, [.dispatched, .waiting]) := by decide +kernel

/-- Two lots offer: the one at port 2 is HOT, and passes over its first slot, which has no list. -/
theorem test_hyp_DispatchChoosesTheBestOffer :
    let hot : Lot := { aLot .running with priority := .hot }
    let c := { mapped with
      lots := (mapped.lots.set .p1 (some (aLot .running))).set .p2 (some hot)
      lists := [⟨.p1, 1, true, [aSite .pending]⟩, ⟨.p2, 2, true, [aSite .pending]⟩] }
    ready.part.bestOffer = none ∧ c.offer .p1 = some 1 ∧ c.bestOffer = some (.p2, 2) ∧
    c.lot? .p1 = some (aLot .running) ∧ LoadPort.p1 ≠ .p2 ∧
    (c.lot? .p2 = some hot ∧ hot.state = .running ∧ hot.aborted = false ∧ hot.hold = .none ∧
      hot.selection = [⟨1, .waiting, none, WaferCounts.empty⟩] ++ ⟨2, .waiting, none, WaferCounts.empty⟩ :: [] ∧
      c.list? .p2 1 = none ∧ c.list? .p2 2 = some ⟨.p2, 2, true, [aSite .pending]⟩) := by decide +kernel

theorem test_hyp_HoldsAreDerivedAndPause :
    ready.part.session.state ≠ .active ∧ (review .moving).session.state = .active ∧
    (review .moving).session.wafer = some 0 ∧ (review .moving).session.inFlight = some 5 ∧
    (review .moving).site? 0 5 = some (.p1, 1, aSite .moving) ∧
    (review .capturing).site? 0 5 = some (.p1, 1, aSite .capturing) ∧
    (review .focusing).site? 0 5 = some (.p1, 1, aSite .focusing) ∧
    (review .captureWait).site? 0 5 = some (.p1, 1, aSite .captureWait) := by decide +kernel

/-- The last PENDING entry of the current row, and a list with nothing left to take; a later row with a PENDING entry. -/
theorem test_hyp_WalkTakesTheNextSite :
    let c := review .pending
    c.session.wafer = some 0 ∧ c.wafer? 0 ≠ none ∧
    walkOrder c.session (c.entries .p1 1) = [⟨0, .forward, 1, aSite .pending⟩] ∧ c.sampled .p1 1 = false ∧
    c.site? 0 5 = some (.p1, 1, aSite .pending) ∧
    walkOrder (review .moving).session ((review .moving).entries .p1 1) = [] ∧
    ([aSite .pending][0]? = some (aSite .pending) ∧ (aSite .pending).state = .pending ∧ (-1 : Int) < (aSite .pending).row) := by
  decide +kernel

/-- `review` of three sites in two rows, sampled with floor 2: sites 21 and 22 of row 4 below the floor, site 23 of row 5 at
it; and with site 23 below it too. -/
def sampling (last : Nat) : Part :=
  { review .pending with
    session := ⟨.active, some 0, some 4, .forward, some 1, none⟩
    recipes := ready.part.recipes.set 0 (some { Recipe.default with excursions := [⟨1, 1, .sample⟩], samplingFloor := 2 })
    lots := ready.part.lots.set .p1 (some (Lot.updateEntry 1 (fun e => { e with counts := setFlag 1 e.counts }) (aLot .draining)))
    lists := [⟨.p1, 1, true, [die 21 4 0, { die 22 4 2 with priority := 1 }, { die 23 5 1 with priority := last }]⟩] }

/-- The floor in force with entries below it before the first that is not, and with none at it; the first row a session enters
and a later one; the cursor at an entry of the current row. -/
theorem test_hyp_WalkTakesTheNextSite_sampled :
    let found (last : Nat) := walkOrder (sampling last).session ((sampling last).entries .p1 1)
    (sampling 2).sampled .p1 1 = true ∧ ((sampling 2).entries .p1 1).map (·.number) = [21, 22, 23] ∧
    ([21, 22, 23] : List Nat).Nodup ∧ (sampling 2).sessionRecipe.samplingFloor = 2 ∧
    (found 2).map (fun k => (k.entry.number, k.entry.priority, k.direction)) =
      [(21, 0, .forward), (22, 1, .forward), (23, 2, .backward)] ∧
    (found 1).map (·.entry.priority) = [0, 1, 1] ∧
    ((sampling 2).entries .p1 1)[0]? = some (die 21 4 0) ∧ (sampling 2).session.cursor = some 1 ∧
    (sampling 2).session.row = some (die 21 4 0).row ∧
    (walk (sampling 2)).session = ⟨.active, some 0, some 5, .backward, some 3, some 23⟩ ∧
    (walk (sampling 2)).stats.sitesSkipped = 2#32 ∧ (walk (sampling 1)).session.state = .idle := by decide +kernel

theorem test_hyp_ConverterPhasesFollow :
    (on fun c => { c with converter := .settling 1 5 }).part.converter = .settling 1 5 ∧
    (on fun c => { c with converter := .zero 1 }).part.converter = .zero 1 ∧
    (on fun c => { c with converter := .integrate 1 }).part.converter = .integrate 1 ∧
    ready.part.converter = .idle := by decide +kernel

/-- A sweep's request at a step, with counts and drives so far. -/
def sweeping (step : Nat) : FocusRequest :=
  { newFocusRequest .nominal 100 200 with centre := some 32768, step := step, counts := List.replicate (step - 1) 2000
                                          drives := List.replicate step 32768 }

/-- A conversion that no request waits for; one of the step before a sweep's last. -/
theorem test_hyp_ConversionEnds :
    let c := { review .focusing with converter := .deintegrate 1, focusRequest := some (sweeping 8) }
    (on fun c => { c with converter := .deintegrate 3 }).part.converter = .deintegrate 3 ∧ ready.part.focusRequest = none ∧
    c.converter = .deintegrate 1 ∧ (sweeping 8).stage ≠ .check ∧ (sweeping 8).step < c.sessionRecipe.sweepSteps := by
  decide +kernel

/-- A request of each kind: a map with a point at the radius, with one beyond it, and with none. -/
theorem test_hyp_ConversionEnds_start :
    let c := { review .focusing with focusMap := [⟨5100, 200, 30000, 2000, 20000⟩] }
    nearestPoint 100 200 c.focusMap = some ⟨5100, 200, 30000, 2000, 20000⟩ ∧ (review .focusing).focusMap = [] ∧
    ((100 : Int) - 5100) ^ 2 + (200 - 200) ^ 2 ≤ (c.sessionRecipe.mapRadius : Int) ^ 2 ∧
    ¬ ((99 : Int) - 5100) ^ 2 + (200 - 200) ^ 2 ≤ (c.sessionRecipe.mapRadius : Int) ^ 2 ∧
    (takeFocusRequest .predicted 100 200 0 c).focusRequest.map (fun r => (r.stage, r.checkRef)) = some (.check, some 2000) ∧
    (takeFocusRequest .predicted 99 200 0 c).focusRequest.map (fun r => (r.stage, r.centre)) = some (.sweep, some 30000) ∧
    (takeFocusRequest .forced 100 200 70000 c).focusRequest.map (·.centre) = some (some 65535) := by decide +kernel

/-- Checks: a count at the threshold and at 7/8 of the reference, one below each. The last step: too low, an edge in a sweep and
in a re-sweep, a peak. -/
theorem test_hyp_ConversionEnds_taken :
    let r := { sweeping 9 with stage := .check, checkZ := some 30000, checkRef := some 1755 }
    let c := { review .focusing with focusRequest := some r }
    (r.stage = .check ∧ r.checkZ = some 30000 ∧ r.checkRef = some 1755 ∧
      threshold c.sessionRecipe.resolution c.sessionRecipe.quality = 1536 ∧ 1536 ≤ 1536 ∧ 7 * 1755 ≤ 8 * 1536 ∧
      1535 < 1536 ∧ 8 * 1536 < 7 * 1756) ∧
    (takeCount 1536 c).drive = 30000 ∧ (takeCount 1535 c).focusRequest.map (·.centre) = some (some 30000) ∧
    ((sweeping 9).stage = .sweep ∧ c.sessionRecipe.sweepSteps ≤ (sweeping 9).step) ∧
    (let verdict (counts : List Nat) := evaluateSweep 1536 9 16 counts (sweeping 9).drives
     verdict (List.replicate 8 1000 ++ [1535]) = .low ∧ verdict (List.replicate 8 1000 ++ [1536]) = .edge 32768 ∧
       verdict ((sweeping 9).counts ++ [2000]) = .accept 32768 2000) := by decide +kernel

/-- An answer to the site in flight: a credit and a free record, no credit, a full log; a failure below the attempt limit of 2
and at it. -/
theorem test_hyp_ConversionEnds_answered :
    let c := review .focusing
    c.session.wafer = some 0 ∧ c.session.inFlight = some 5 ∧ c.site? 0 5 = some (.p1, 1, aSite .focusing) ∧ c.credits = 0 ∧
    ({ c with credits := 1 } : Part).captureLog.length < 32 ∧ 32 ≤ (List.replicate 32 (aCapture .doneGood)).length ∧
    c.sessionRecipe.attemptLimit = 2 ∧ (aSite .focusing).attempts + 1 < 2 ∧
    2 ≤ ({ aSite .focusing with attempts := 1 } : SiteEntry).attempts + 1 ∧
    (focusAccepted 30000 2000 c).waitingSite = some ⟨0, 5, 2000, some 1000⟩ ∧
    (focusAccepted 30000 2000 { c with credits := 1 }).captureLog.map (·.z) = [30000] ∧
    (focusFailed .focusLow c).focusRequest.map (·.kind) = some .nominal := by decide +kernel

/-- Three steps, the fewest a peak can stand in; a peak of two equal counts; an edge; a greatest count at the limit and one
below it. -/
theorem test_hyp_SweepIsEvaluated :
    9 % 2 = 1 ∧ 3 ≤ 3 ∧ ([10, 30, 20] : List Nat).length = 3 ∧ 30 ∈ [10, 30, 20] ∧ (∀ x ∈ [10, 30, 20], x ≤ 30) ∧ 30 < 31 ∧
    30 ≤ 30 ∧ peakStep [10, 30, 20] 3 = 2 ∧ peakStep [10, 30, 20, 30, 10] 5 = 2 ∧ peakStep [30, 20, 10] 3 = 1 := by
  decide +kernel

/-- A full map that keeps all its points, and one that keeps 47: a point at a quarter of the radius stays, a nearer one goes; of
two nearest points the newer. -/
theorem test_hyp_FocusMapIsKept :
    let at' (x z : Nat) : MapPoint := ⟨x, 0, z, 0, 0⟩
    let kept (m : List MapPoint) := m.filter (fun q => (5000 : Int) ^ 2 ≤ 16 * ((0 - q.x) ^ 2 + (0 - q.y) ^ 2))
    let full := at' 1250 7 :: List.replicate 47 (at' 2000 8)
    full.length ≤ 48 ∧ (kept full).length = 48 ∧ (kept (at' 1249 7 :: List.replicate 47 (at' 2000 8))).length < 48 ∧
    (addMapPoint 5000 (at' 0 9) full).map (·.z) = List.replicate 47 8 ++ [9] ∧
    nearestPoint 0 0 [at' 3 1, at' 2 2, at' 2 3, at' 4 4] = some (at' 2 3) := by decide +kernel

theorem test_hyp_StageDisturbance :
    let c := { review .focusing with converter := .zero 1, focusRequest := some { sweeping 1 with restarts := 2 } }
    ready.part.converter = .idle ∧ c.focusRequest = some { sweeping 1 with restarts := 2 } ∧ c.converter = .zero 1 ∧
    ({ sweeping 1 with restarts := 2 } : FocusRequest).restarts < 3 ∧
    3 ≤ ({ sweeping 1 with restarts := 3 } : FocusRequest).restarts := by decide +kernel

theorem test_hyp_CaptureIsFetched :
    let s := withPart ready (shot .unfetched .capturing)
    TakesNow s .image .captureFetch ∧ (∀ r ∈ (shot .fetched .capturing).captureLog, r.state ≠ .unfetched) ∧
    s.part.captureLog = [] ++ aCapture .unfetched :: [] ∧ (aCapture .unfetched).state = .unfetched := by decide +kernel

/-- A REJECT below the attempt limit of 2 and at it; its lot aborted; the session ACTIVE, PAUSING, and neither. -/
theorem test_hyp_CaptureDoneIsTaken :
    let c := shot .fetched .capturing
    TakesNow (withPart ready c) .image .captureDone ∧ 1 < (2#8).toNat ∧ (1#8).toNat ≤ 1 ∧
    (∀ r ∈ ready.part.captureLog, r.number ≠ 7#16) ∧ c.capture? 7#16 = some (aCapture .fetched) ∧
    (shot .unfetched .capturing).capture? 7#16 = some (aCapture .unfetched) ∧ (aCapture .unfetched).state ≠ .fetched ∧
    c.site? 0 5 = some (.p1, 1, aSite .capturing) ∧ c.waitingSite = none ∧
    (let freed := tryIssue { c with captureLog := [] }
     freed.site? 0 5 = some (.p1, 1, aSite .capturing) ∧ freed.lot? .p1 = some (aLot .draining) ∧
       (freed.recipeOf .p1).attemptLimit = 2) ∧
    (aSite .capturing).attempts + 1 < 2 ∧ ¬ ({ aSite .capturing with attempts := 1 } : SiteEntry).attempts + 1 < 2 ∧
    (aLot .draining).aborted = false ∧ ({ aLot .draining with aborted := true } : Lot).aborted = true ∧
    c.session.state = .active ∧ (setSessionState .pausing c).session.state = .pausing ∧
    (setSessionState .paused c).session.state ≠ .active ∧ (setSessionState .paused c).session.state ≠ .pausing := by
  decide +kernel

/-- A GOOD takes the only site out of flight, and the session ends with its wafer REVIEWED (R80, R82, R83); a REJECT while
PAUSING returns the site to PENDING (R85), and in an aborted lot it is SKIPPED (R87). -/
theorem test_done_by_session :
    let c := shot .fetched .capturing
    let entry (d : Part) := (d.site? 0 5).map (fun x => (x.2.2.state, x.2.2.attempts))
    entry (doneGood (aCapture .fetched) c) = some (.captured, 0) ∧
    ((doneGood (aCapture .fetched) c).wafer? 0).map (fun w => (w.phase, w.outcome)) = some (.reviewed, some .reviewed) ∧
    entry (doneReject (aCapture .fetched) (setSessionState .pausing c)) = some (.pending, 1) ∧
    entry (doneReject (aCapture .fetched)
      { c with lots := c.lots.set .p1 (some { aLot .draining with aborted := true }) }) = some (.skipped, 1) := by
  decide +kernel

theorem test_hyp_ClassIsPosted :
    TakesNow (withPart ready (shot .doneGood .captured)) .image .classPost ∧ ((15#8).toNat ≤ 15 ∧ (100#8).toNat ≤ 100) ∧
    ¬ ((16#8).toNat ≤ 15) ∧ ¬ ((101#8).toNat ≤ 100) ∧ (∀ r ∈ ready.part.captureLog, r.number ≠ 7#16) ∧
    (shot .doneGood .captured).capture? 7#16 = some (aCapture .doneGood) ∧
    (shot .doneGood .captured).site? 0 5 = some (.p1, 1, aSite .captured) ∧
    (shot .doneGood .captured).waitingSite = none ∧
    (shot .fetched .capturing).capture? 7#16 = some (aCapture .fetched) ∧ (aCapture .fetched).state ≠ .doneGood := by
  decide +kernel

/-- `review` with its site waiting for a capture. -/
def waiting (credits : Nat) (timer : Option Nat) : Part :=
  { review .captureWait with waitingSite := some ⟨0, 5, 2000, timer⟩, credits := credits }

/-- Grants to 255 and past it; a site that waits with one credit and with none; a full log. -/
theorem test_hyp_GrantAndIssue :
    TakesNow ready .image .bufferGrant ∧ (1#8 : Byte) ≠ 0#8 ∧ ready.part.credits + (255#8).toNat ≤ 255 ∧
    255 < (waiting 1 none).credits + (255#8).toNat ∧ ready.part.waitingSite = none ∧ (waiting 0 none).credits = 0 ∧
    32 ≤ (List.replicate 32 (aCapture .fetched)).length ∧ (waiting 1 none).waitingSite = some ⟨0, 5, 2000, none⟩ ∧
    1 ≤ (waiting 1 none).credits ∧ (waiting 1 none).captureLog.length < 32 ∧
    (waiting 1 none).site? 0 5 = some (.p1, 1, aSite .captureWait) ∧ (waiting 1 none).lot? .p1 = some (aLot .draining) := by
  decide +kernel

theorem test_hyp_CaptureTimersExpire :
    (waiting 0 (some 1000)).waitingSite = some ⟨0, 5, 2000, some 1000⟩ ∧
    (waiting 0 (some 1000)).site? 0 5 = some (.p1, 1, aSite .captureWait) ∧ ready.part.waitingSite = none ∧
    (∀ r ∈ ready.part.captureLog, r.number ≠ 7#16) ∧
    (shot .fetched .capturing).capture? 7#16 = some (aCapture .fetched) ∧ (aCapture .fetched).state ≠ .doneGood ∧
    (shot .doneGood .captured).capture? 7#16 = some (aCapture .doneGood) ∧
    (waiting 0 (some 1000)).focusRequest = none ∧ (waiting 0 (some 1000)).converter = .idle ∧
    (shot .fetched .capturing).site? 0 5 = some (.p1, 1, aSite .capturing) ∧
    ((shot .fetched .capturing).session.wafer = some (aCapture .fetched).wafer ∧
      (shot .fetched .capturing).session.inFlight = some (aCapture .fetched).site) ∧
    (shot .fetched .capturing).session.state = .active ∧ ready.part.session.wafer = none ∧
    (setSessionState .pausing (shot .fetched .capturing)).session.state = .pausing ∧
    (setSessionState .paused (shot .fetched .capturing)).session.state = .paused := by decide +kernel

/-- The first and the last excursion position; class 0 and the last class; a lot that is running, and one aborted. -/
theorem test_hyp_ResolutionsAreCounted :
    (bound (aLot .running)).part.lot? .p1 = some (aLot .running) ∧
    (review .captured).site? 0 5 = some (.p1, 1, aSite .captured) ∧ 15 ≠ 0 ∧ 15 < WaferCounts.empty.classes.length ∧
    (aLot .running).entry? 1 = some ⟨1, .waiting, none, WaferCounts.empty⟩ ∧ 1 ≤ 1 ∧ 4 ≤ WaferCounts.empty.flags.length ∧
    entryFires (bound (aLot .running)).part .p1 1 3 2 4 ⟨3, 2, .holdN⟩ = true ∧
    (aLot .running).aborted = false ∧ ({ aLot .draining with aborted := true } : Lot).aborted = true := by decide +kernel

/-- A firing that takes no hold: NOTE, and HOLD.N in an aborted lot. One that does, RUNNING and DRAINING: the derived hold as it
was; HOLD.W from none; HOLD.N in another lot than the session's; HOLD.N in the session's lot. -/
theorem test_hyp_ResolutionsAreCounted_hold :
    let holds (l : Lot) (a : ExcursionAction) : Prop :=
      (l.state = .running ∨ l.state = .draining) ∧ l.aborted = false ∧ (a = .holdW ∨ a = .holdN)
    let held (l : Lot) (sc : Scope) : Hold := ({ l with holdExc := some sc } : Lot).hold
    ¬ holds (aLot .running) .note ∧ ¬ holds { aLot .draining with aborted := true } .holdN ∧
    (holds { aLot .running with holdTool := some .n } .holdW ∧
      held { aLot .running with holdTool := some .n } .w = ({ aLot .running with holdTool := some .n } : Lot).hold) ∧
    (holds (aLot .running) .holdW ∧ held (aLot .running) .w ≠ (aLot .running).hold ∧ held (aLot .running) .w ≠ .holdN) ∧
    (holds (aLot .running) .holdN ∧ held (aLot .running) .n = .holdN ∧
      (bound (aLot .running)).part.sessionLot ≠ some .p1) ∧
    (holds (aLot .draining) .holdN ∧ held (aLot .draining) .n ≠ (aLot .draining).hold ∧
      (review .moving).sessionLot = some .p1 ∧ (review .moving).lot? .p1 = some (aLot .draining)) := by decide +kernel

/-- HOLD.N fires while the lot's wafer is under review, its site MOVING (R84, R140): the session pauses at the site's end. -/
theorem test_fire_pauses :
    let c := fireEntry .p1 1 2 ⟨3, 1, .holdN⟩ (review .moving)
    c.session.state = .pausing ∧ (c.lot? .p1).map (fun l => (l.holdExc, l.hold)) = some (some .n, .holdN) ∧
      (c.lot? .p1).map (·.counters.events) = some [⟨1, 3, 1, .holdN, 2⟩] ∧ rawSet c .tool = [.lotState] ∧
      rawSet c .automation = [.lotState, .excursion, .holdSet] := by decide +kernel

def aReport (n : Half) : Report := { assembleReport .p1 (aLot .closed) mapped with number := some n }

theorem test_hyp_ReportsAreFetchedAndAcknowledged :
    let s := on fun c => { c with reportQueue := [aReport 1#16, aReport 2#16, aReport 3#16] }
    TakesNow s .tool .reportFetch ∧
    TakesNow (withPart s { s.part with mode := .remoteMode }) .automation .reportAck ∧
    s.part.reportQueue = [aReport 1#16] ++ aReport 2#16 :: [aReport 3#16] ∧ (aReport 2#16).number = some 2#16 ∧
    (∀ x ∈ [aReport 1#16], x.number ≠ some 2#16) ∧ (∀ x ∈ s.part.reportQueue, x.number ≠ some 9#16) ∧
    ready.part.reportQueue = [] ∧ ready.part.waitingReports = [] ∧
    ([⟨.p1, aReport 4#16⟩] : List WaitingReport) ≠ [] ∧
    (fillQueue [⟨.p1, aReport 4#16⟩] s.part).reportQueue.length = 4 ∧
    ((aReport 1#16).lotId.length ≤ 20 ∧ (aReport 1#16).carrierId.length ≤ 16 ∧
      (aReport 1#16).totals.classes.length = 16 ∧
      ∀ x ∈ (aReport 1#16).summaries, x.counts.classes.length = 16 ∧ (x.waferId.getD []).length ≤ 24) := by decide +kernel

/-- A report with an event and two summaries, the second with a wafer ID and a flag: both ends of each part of the wire form. -/
def wiredReport : Report :=
  let counts := { WaferCounts.empty with loaded := 258, flags := [false, false, false, true] }
  { aReport 515#16 with
    summaries := [⟨1, none, .noSites, WaferCounts.empty⟩, ⟨25, some [65#8, 66#8], .handlingFault, counts⟩]
    totals := { LotCounters.empty with rejections := 66051, events := [⟨1, 3, 258, .holdN, 2⟩] } }

theorem test_hyp_ReportsAreFetchedAndAcknowledged_wire :
    wiredReport.number = some 515#16 ∧ wiredReport.lotId.length ≤ 20 ∧ wiredReport.carrierId.length ≤ 16 ∧
    wiredReport.totals.classes.length = 16 ∧ wiredReport.totals.events[0]? = some ⟨1, 3, 258, .holdN, 2⟩ ∧
    (∀ x ∈ wiredReport.summaries, x.counts.classes.length = 16 ∧ (x.waferId.getD []).length ≤ 24) ∧
    (wiredReport.summaries[0]?.isSome ∧ wiredReport.summaries[1]?.isSome) ∧
    ∀ x ∈ wiredReport.summaries, x.counts.flags.length = 4 := by decide +kernel

/-- The bytes of that report at R157's offsets, written out. -/
theorem test_report_bytes :
    let b := reportBytes wiredReport
    b.length = 290 ∧ b.take 10 = [3#8, 2#8, 0#8, 0#8, 2#8, 1#8, 1#8, 1#8, 76#8, 0#8] ∧
      (b.drop 28).take 2 = [67#8, 0#8] ∧ (b.drop 140).take 4 = [3#8, 2#8, 1#8, 0#8] ∧
      (b.drop 144).take 6 = [1#8, 3#8, 2#8, 1#8, 3#8, 2#8] ∧ (b.drop 150).take 3 = [1#8, 4#8, 0#8] ∧
      (b.drop 220).take 6 = [25#8, 6#8, 2#8, 8#8, 65#8, 66#8] ∧ (b.drop 248).take 2 = [2#8, 1#8] := by decide +kernel

/-- Reset meets every premise, and its step on an empty queue gives a next state. -/
theorem test_hyp_EveryStepKeeps :
    step State.reset = .next State.reset ∧
    (∀ p : PortId, PortKept (State.reset.port p)) ∧ PoolKept State.reset ∧ BoundsKept State.reset ∧
    (∀ k ∈ allErrorKinds, (State.reset.part.errors.get k).count = 0 ∧ (State.reset.part.errors.get k).first = none) ∧
    (∀ i ∈ allLoadPorts, State.reset.part.lot? i = none) ∧ MemoryKept State.reset := by
  refine ⟨rfl, fun p => ?_, ?_, ?_, by decide +kernel, by decide +kernel, by unfold MemoryKept; decide +kernel⟩
  · unfold PortKept
    cases p <;> decide +kernel
  · unfold PoolKept
    decide +kernel
  · refine ⟨by decide +kernel, by decide +kernel, by decide +kernel, by decide +kernel, fun k => ?_⟩
    cases k <;> decide +kernel

/-! ### One step each, of what the rules describe -/

/-- A lot that starts with a sealed list is granted a wafer: the AR picks it from its slot (R9, R10, R53). -/
theorem test_start_grants :
    let l : Lot := { definedLot lotId 0 .normal [1#8] with state := .defined }
    let c := after { bound l with
      pending := [.lotStart .tool 1#16 lotId]
      part := { (bound l).part with lists := [⟨.p1, 1, true, [aSite .pending]⟩], freeCount := 12287, atLoad := true } }
    c.slotOf .ar = .issued ⟨.arPick .upper (.slot .p1 1), 0#16, some 0, some 20000⟩ ∧
      c.wafer? 0 = some (grantedWafer .p1 1) ∧ (c.lot? .p1).map (·.state) = some .draining ∧
      c.places.upperBlade = ⟨none, some 0⟩ := by decide +kernel

/-- A wafer placed on the STAGE begins its session: site 5 is taken and MOVE_SITE goes out (R60, R69, R71). -/
theorem test_stage_place_begins_session :
    let o : Order := ⟨.vrPlace .stage, 3#16, some 0, some 15000⟩
    let c := after { ready with
      pending := [.complete .vr 3#16 none]
      part := { review .pending with
        session := ready.part.session, atLoad := true
        wafers := ready.part.wafers.set 0 (some ⟨.p1, 1, none, some .transferArm, .toStage, true, false, none⟩)
        places := (ready.part.places.set .transferArm ⟨some 0, none⟩).set .stage ⟨none, some 0⟩
        orders := ready.part.orders.set .vr (.issued o), orderCounter := 4#16 } }
    c.session = ⟨.active, some 0, some 0, .forward, some 1, some 5⟩ ∧ c.slotOf .vr = .idle ∧
      c.slotOf .st = .issued ⟨.moveSite 100 200, 4#16, none, some 5000⟩ ∧ c.atLoad = false ∧
      (c.wafer? 0).map (·.phase) = some .reviewing ∧ c.stats.movesCompleted = 1#32 := by decide +kernel

/-- The class of the last open site: the capture record goes, the site is CLASSIFIED and counted, and the wafer that is home is
freed with its list, which completes its lot (R128, R43, R18). -/
theorem test_last_class_completes :
    let c := after { ready with
      pending := [.classPost .image 1#16 7#16 3#8 90#8]
      part := { shot .doneGood .captured with
        session := ready.part.session, atLoad := true, places := ready.part.places
        wafers := ready.part.wafers.set 0 (some ⟨.p1, 1, none, none, .home, true, false, some .reviewed⟩) } }
    c.captureLog = [] ∧ c.wafer? 0 = none ∧ c.lists = [] ∧ c.freeCount = 12288 ∧
      (c.lot? .p1).map (·.state) = some .closed ∧ (c.carrier .p1).state = .releasable ∧
      c.reportQueue.map (·.totals.classes) = [[0, 0, 0, 1, 0, 0, 0, 0, 0, 0, 0, 0, 0, 0, 0, 0]] ∧
      c.stats.sitesClassified = 1#32 := by decide +kernel

/-- A REJECT below the attempt limit asks the FU again around the rejected z (R81, R100). -/
theorem test_reject_forces_a_sweep :
    let c := after { ready with
      pending := [.captureDone .image 1#16 7#16 1#8]
      part := shot .fetched .capturing }
    c.captureLog = [] ∧ c.focusRequest.map (·.kind) = some .forced ∧ c.drive = 32768 - 64 ∧
      c.converter = .settling 1 5 ∧ (c.site? 0 5).map (·.2.2.attempts) = some 1 ∧
      c.stats.capturesRejected = 1#32 := by decide +kernel

/-- HOLD.N from the automation computer in REMOTE pauses the session of a site in FOCUSING (R84). -/
theorem test_hold_pauses :
    let c := after { ready with
      pending := [.lotHold .automation 1#16 lotId 1#8]
      part := { review .focusing with mode := .remoteMode } }
    c.session.state = .paused ∧ c.session.inFlight = none ∧ (c.lot? .p1).map Lot.hold = some .holdN ∧
      rawSet c .automation = [.lotState, .holdSet] := by decide +kernel

/-- LOT_ABORT of a lot whose wafer is under review, its site MOVING: the site is SKIPPED(ABORTED), the session ends, and the
wafer is REVIEWED with outcome ABORTED (R17, R87). -/
theorem test_abort_ends_the_session :
    let c := after { ready with pending := [.lotAbort .tool 1#16 lotId], part := review .moving }
    c.session.state = .idle ∧ (c.site? 0 5).map (·.2.2.reason) = some (some .aborted) ∧
      (c.wafer? 0).map (fun w => (w.phase, w.outcome)) = some (.reviewed, some .aborted) ∧
      c.stats.sitesSkipped = 1#32 := by decide +kernel

/-- An ALIGN that reads another ID than the slot map expects (R55): the wafer goes home from the aligner. -/
theorem test_align_mismatch :
    let c := after { ready with
      pending := [.complete .al 3#16 (some [66#8])]
      part := { aligning with
        atLoad := true
        wafers := ready.part.wafers.set 0 (some ⟨.p1, 1, none, some .aligner, .aligning, false, false, none⟩)
        places := ready.part.places.set .aligner ⟨some 0, none⟩
        orders := ready.part.orders.set .al (.issued ⟨.align true, 3#16, some 0, some 10000⟩), orderCounter := 4#16 } }
    (c.wafer? 0).map (fun w => (w.phase, w.outcome, w.readId)) = some (.returning, some .idMismatch, some [66#8]) ∧
      (c.errors.get .idMismatch).first = some (.idMismatch lotId 1 [65#8] (some [66#8])) ∧
      (c.site? 0 5).map (·.2.2.reason) = some (some .idMismatch) ∧
      c.slotOf .ar = .issued ⟨.arPick .upper (.place .aligner), 4#16, some 0, some 20000⟩ := by decide +kernel

/-- LOT_QUERY by lot ID answers the lot's carrier port with its record (R20). -/
theorem test_lot_query_port :
    (judgeRequest .tool (.lotQuery (.lot lotId)) (bound (aLot .running)).part).body =
      .lotQuery (mapped.carrier .p1) (some (.p1, aLot .running)) .none := by decide +kernel

/-- Grants past 255 (R117). -/
theorem test_grant_overflow :
    let c := after { ready with
      pending := [.bufferGrant .image 1#16 9#8], part := { ready.part with credits := 250 } }
    c.credits = 255 ∧ (c.errors.get .creditOverflow).first = some (.creditOverflow 250 9 4) := by decide +kernel

end Sys2Proof.Tests
end

section
/-! The oldest UNFETCHED capture record is fetched (R122): what the Capture Exchange replies, and when CAPTURE_PENDING
stands (R114, R169). -/

namespace Sys2Proof.Machine

/-- With no UNFETCHED record in the log the reply is OK, holds no record, and leaves the part as it is. -/
theorem doCaptureFetch_none (c : Part) (h : ∀ r ∈ c.captureLog, r.state ≠ .unfetched) :
    doCaptureFetch c = answerOk (.capture none) c := by
  simp only [doCaptureFetch, fetchOldest_none c.captureLog h]

/-- The first UNFETCHED record of the log is answered, and its state is the one field of the part that changes. -/
theorem doCaptureFetch_some (c : Part) (older newer : List CaptureRecord) (r : CaptureRecord)
    (hlog : c.captureLog = older ++ r :: newer) (hold : ∀ x ∈ older, x.state ≠ .unfetched)
    (hr : r.state = .unfetched) :
    doCaptureFetch c =
      answerOk (.capture (some { r with state := .fetched : CaptureRecord }.fields))
        { c with captureLog := older ++ { r with state := .fetched } :: newer } := by
  simp only [doCaptureFetch, hlog, fetchOldest_some older newer r hold hr]

/-- CAPTURE_PENDING is a level condition of the image port: it stands while the log holds an UNFETCHED record. -/
theorem capturePending_mem_rawSet (c : Part) :
    .capturePending ∈ rawSet c .image ↔ ∃ x ∈ c.captureLog, x.state = .unfetched := by
  simp [rawSet, conditionsOf, conditionRaised, Condition.isEvent, levelStands]

/-- Once the oldest UNFETCHED record is FETCHED, an UNFETCHED record can only be a newer one. -/
theorem unfetched_after_fetch (older newer : List CaptureRecord) (r : CaptureRecord)
    (hold : ∀ x ∈ older, x.state ≠ .unfetched) :
    (∃ x ∈ older ++ { r with state := .fetched } :: newer, x.state = .unfetched) ↔
      ∃ x ∈ newer, x.state = .unfetched := by
  constructor
  · rintro ⟨x, hmem, hx⟩
    obtain hmem | rfl | hmem := by simpa only [List.mem_append, List.mem_cons] using hmem
    · exact absurd hx (hold x hmem)
    · cases hx
    · exact ⟨x, hmem, hx⟩
  · rintro ⟨x, hmem, hx⟩
    exact ⟨x, List.mem_append_right _ (List.mem_cons_of_mem _ hmem), hx⟩

/-- Settles O51: the take row answers what `doCaptureFetch` replies, and CAPTURE_PENDING follows the new log. -/
theorem captureIsFetched : Obligations.CaptureIsFetched := by
  intro s p tag h
  have taken : exec (.captureFetch p tag) s = .next (answered s p 32#8 tag (doCaptureFetch s.part).part
      (doCaptureFetch s.part).status (doCaptureFetch s.part).body) := exec_row_now .captureFetch p tag s h
  refine ⟨fun none_left => ?_, fun older r newer hlog hold hr => ⟨?_, ?_⟩⟩
  · rw [taken, doCaptureFetch_none s.part none_left]
    rfl
  · rw [taken, doCaptureFetch_some s.part older newer r hlog hold hr]
    rfl
  · rw [capturePending_mem_rawSet]
    exact unfetched_after_fetch older newer r hold

end Sys2Proof.Machine
end

section
/-! The access decision (R166): one lemma for each row of its table, and what check 3 of R164 makes of it. -/

namespace Sys2Proof.Machine

/-! ### A refused request -/

/-- Check 3 comes before check 4 (R164): the refusal does not depend on whether the body is well formed. -/
theorem judgeKind_refused (p : PortId) (k : Kind) (body : Option Request) (c : Part)
    (hp : permitted k p c.mode = false) : judgeKind p k body c = refuse .notPermitted c := by
  simp only [judgeKind, hp, if_true]

/-- After the load a request as its bytes with a kind's code goes to check 3 with that kind. -/
theorem judgeBytes_code (p : PortId) (k : Kind) (body : List Byte) (c : Part) (hl : c.loading = false) :
    judgeBytes p k.code body c = judgeKind p k (decodeBody k body) c := by
  simp [judgeBytes, hl, ofCode_code]

/-- After the load a well-formed request goes to check 3 with its kind. -/
theorem judgeRequest_loaded (p : PortId) (r : Request) (c : Part) (hl : c.loading = false) :
    judgeRequest p r c = judgeKind p r.kind (some r) c := by
  simp [judgeRequest, hl]

/-! ### The rows of R166's table -/

/-- The row of LOT_HOLD, LOT_RELEASE and LOT_ABORT. -/
def lotControlKinds : List Kind := [.lotHold, .lotRelease, .lotAbort]

/-- The row of the kinds that the tool port alone may send. -/
def toolKinds : List Kind :=
  [.lotDefine, .carrierDocked, .carrierRelease, .carrierUndocked, .slotMap, .recipeSet, .recipeQuery, .siteLoad, .siteSeal,
    .siteQuery, .moverRecover, .errorClear, .settingSet, .settingRead, .settingsSave, .modeSet, .toolClear]

/-- The row of the kinds that the image port alone may send. -/
def imageKinds : List Kind := [.captureFetch, .captureDone, .captureStatus, .classPost, .bufferGrant]

/-- The row of the NOTICE_* kinds. -/
def noticeKinds : List Kind := [.noticeRead, .noticeMaskSet, .noticeMaskClear]

/-- The rows that read "always, refused, always": REPORT_FETCH, the queries, and STATS_TAKE. -/
def sharedKinds : List Kind := [.reportFetch, .lotQuery, .cellQuery, .statsRead, .errorRead, .statsTake]

/-- Every kind stands in a row of the table. -/
theorem kind_mem_row (k : Kind) :
    k ∈ [Kind.lotStart] ∨ k ∈ lotControlKinds ∨ k ∈ toolKinds ∨ k ∈ imageKinds ∨ k ∈ [Kind.reportAck] ∨
      k ∈ noticeKinds ∨ k ∈ sharedKinds := by
  cases k <;> decide

section Rows
variable {k : Kind} (p : PortId) (m : Mode)

theorem permitted_lotStart :
    permitted .lotStart p m = decide ((p = .tool ∧ m = .localMode) ∨ (p = .automation ∧ m = .remoteMode)) := by
  cases p <;> simp [permitted, beq_eq_decide]

theorem permitted_lotControlKinds (hk : k ∈ lotControlKinds) :
    permitted k p m = decide (p = .tool ∨ (p = .automation ∧ m = .remoteMode)) := by
  have same : permitted k p m = permitted .lotHold p m := by fin_cases hk <;> rfl
  rw [same]
  cases p <;> simp [permitted, beq_eq_decide]

theorem permitted_toolKinds (hk : k ∈ toolKinds) : permitted k p m = decide (p = .tool) := by
  fin_cases hk <;> rfl

theorem permitted_imageKinds (hk : k ∈ imageKinds) : permitted k p m = decide (p = .image) := by
  fin_cases hk <;> rfl

theorem permitted_reportAck : permitted .reportAck p m = decide (p = .automation) := rfl

theorem permitted_noticeKinds (hk : k ∈ noticeKinds) : permitted k p m = true := by
  fin_cases hk <;> rfl

theorem permitted_sharedKinds (hk : k ∈ sharedKinds) :
    permitted k p m = decide (p = .tool ∨ p = .automation) := by
  have same : permitted k p m = (p != .image) := by fin_cases hk <;> rfl
  rw [same]
  cases p <;> rfl

end Rows

/-- Settles O11: check 3 decides what is refused and what its owning block executes, and the table is read row by row, the
kinds of its last branch being those that stand in no earlier row. -/
theorem accessDecision : Obligations.AccessDecision := by
  refine ⟨fun k p body r c loaded => ⟨fun hp => ?_, fun hp => ?_, judgeRequest_permitted p r c loaded⟩, fun k p m => ?_⟩
  · rw [judgeBytes_code p k body c loaded, judgeKind_refused p k _ c hp]
    rfl
  · rw [judgeRequest_loaded p r c loaded, judgeKind_refused p r.kind _ c hp]
    rfl
  · split_ifs with start control tool image ack notice
    · rw [List.mem_singleton.mp start, permitted_lotStart]
    · exact permitted_lotControlKinds p m control
    · exact permitted_toolKinds p m tool
    · exact permitted_imageKinds p m image
    · rw [List.mem_singleton.mp ack, permitted_reportAck]
    · exact permitted_noticeKinds p m notice
    · have shared : k ∈ sharedKinds := by
        simpa only [start, control, tool, image, ack, notice, lotControlKinds, toolKinds, imageKinds, noticeKinds,
          false_or] using kind_mem_row k
      exact permitted_sharedKinds p m shared

end Sys2Proof.Machine
end

section
/-! What a command can do, said once: every arm of `exec` is the arrival of a request, an event on the part alone, or one
of the events of a port; and a step does what its command does. -/

namespace Sys2Proof.Machine

/-- The events that touch the part alone. -/
inductive PartEvent : (Part → Part) → Prop
  | endLoad (bus : BusRead) : PartEvent (endLoad bus)
  | endSave (bus : SaveBus) : PartEvent (endSave bus)
  | complete (m : Mover) (tag : Half) (text : Option Text) : PartEvent (takeComplete m tag text)
  | fault (m : Mover) (tag : Half) (code : Byte) : PartEvent (takeFault m tag code)
  | timeout (m : Mover) : PartEvent (takeTimeout m)
  | disturb : PartEvent disturb
  | endSettling : PartEvent endSettling
  | endZero : PartEvent endZero
  | endIntegrate : PartEvent endIntegrate
  | endConversion (count : Nat) : PartEvent (endConversion count)
  | expirePoint (index : Nat) : PartEvent (expirePoint index)
  | expireFocusHold : PartEvent expireFocusHold
  | expireCapture (number : Half) : PartEvent (expireCapture number)
  | expireClassWait (number : Half) : PartEvent (expireClassWait number)

/-- What a command can do to the machine. -/
inductive Effect : (State → State) → Prop
  | take (p : PortId) (tag : Half) (r : Request) : Effect (takeRow p tag r)
  | part (f : Part → Part) (h : PartEvent f) : Effect (onPart f)
  | powerOn : Effect powerOnState
  | linkUp (p : PortId) : Effect (linkUp p)
  | resetPort (p : PortId) : Effect (resetPort p)
  | receive (p : PortId) (bytes : List Byte) : Effect (receive p bytes)
  | endSending (p : PortId) : Effect (endSending p)
  | arrival (p : PortId) (r : QueuedRequest) : Effect (arrival p r)
  | receiveOverlong (p : PortId) (length : Half) : Effect (receiveOverlong p length)

/-- A command with a request to take is that request's take row. -/
theorem row_of_take {i : Instr} {p : PortId} {tag : Half} {r : Request} (h : i.take? = some (p, tag, r)) :
    r.row p tag = i := by
  cases i <;> cases h <;> rfl

theorem exec_effect (i : Instr) : ∃ f, Effect f ∧ ∀ s, exec i s = .next (f s) := by
  cases h : i.take? with
  | some x =>
    obtain ⟨p, tag, r⟩ := x
    exact ⟨_, .take p tag r, fun s => by rw [← row_of_take h, exec_row]⟩
  | none =>
    cases i with
    | powerOn => exact ⟨_, .powerOn, fun _ => rfl⟩
    | settingsLoadEnd bus => exact ⟨_, .part _ (.endLoad bus), fun _ => rfl⟩
    | linkUp p => exact ⟨_, .linkUp p, fun _ => rfl⟩
    | portReset p => exact ⟨_, .resetPort p, fun _ => rfl⟩
    | requestArrival p bytes => exact ⟨_, .receive p bytes, fun _ => rfl⟩
    | responseSent p => exact ⟨_, .endSending p, fun _ => rfl⟩
    | unknownKind p tag code body => exact ⟨_, .arrival p ⟨code, tag, body⟩, fun _ => rfl⟩
    | saveEnd bus => exact ⟨_, .part _ (.endSave bus), fun _ => rfl⟩
    | complete m tag text => exact ⟨_, .part _ (.complete m tag text), fun _ => rfl⟩
    | fault m tag code => exact ⟨_, .part _ (.fault m tag code), fun _ => rfl⟩
    | orderTimeout m => exact ⟨_, .part _ (.timeout m), fun _ => rfl⟩
    | stageDisturb => exact ⟨_, .part _ .disturb, fun _ => rfl⟩
    | settlingEnd => exact ⟨_, .part _ .endSettling, fun _ => rfl⟩
    | zeroEnd => exact ⟨_, .part _ .endZero, fun _ => rfl⟩
    | integrateEnd => exact ⟨_, .part _ .endIntegrate, fun _ => rfl⟩
    | conversionEnd count => exact ⟨_, .part _ (.endConversion count), fun _ => rfl⟩
    | mapPointExpiry index => exact ⟨_, .part _ (.expirePoint index), fun _ => rfl⟩
    | focusHoldExpiry => exact ⟨_, .part _ .expireFocusHold, fun _ => rfl⟩
    | captureDoneTimeout number => exact ⟨_, .part _ (.expireCapture number), fun _ => rfl⟩
    | classWaitExpiry number => exact ⟨_, .part _ (.expireClassWait number), fun _ => rfl⟩
    | overlongLengthField p length => exact ⟨_, .receiveOverlong p length, fun _ => rfl⟩
    | _ => cases h

/-- A step idles, or does what its command does to the state without that command. -/
theorem step_effect {s t : State} (h : step s = .next t) :
    t = s ∨ ∃ f rest, Effect f ∧ t = f { s with pending := rest } := by
  cases hp : s.pending with
  | nil =>
    simp only [step, hp] at h
    cases h
    exact .inl rfl
  | cons i rest =>
    obtain ⟨f, effect, does⟩ := exec_effect i
    simp only [step, hp, does] at h
    cases h
    exact .inr ⟨f, rest, effect, rfl⟩

/-- What holds of a state whatever waits in its queue, and every command keeps, every step keeps. -/
theorem step_keeps {P : State → Prop} (blind : ∀ s rest, P s → P { s with pending := rest })
    (keeps : ∀ f, Effect f → ∀ s, P s → P (f s)) {s t : State} (hs : P s) (h : step s = .next t) : P t := by
  obtain rfl | ⟨f, rest, effect, rfl⟩ := step_effect h
  · exact hs
  · exact keeps f effect _ (blind s rest hs)

end Sys2Proof.Machine
end

section
/-! Every command completes (O2): an effect leaves the waiting commands alone. -/

namespace Sys2Proof.Machine

@[simp] theorem takeNext_pending (p : PortId) (s : State) : (takeNext p s).pending = s.pending := by
  simp only [takeNext]
  split
  · rfl
  · split <;> rfl

@[simp] theorem endSending_pending (p : PortId) (s : State) : (endSending p s).pending = s.pending := by
  simp only [endSending]
  split
  · rfl
  · simp

@[simp] theorem setPartial_pending (p : PortId) (bytes : List Byte) (s : State) :
    (setPartial p bytes s).pending = s.pending := rfl

@[simp] theorem recordLinkCrc_pending (p : PortId) (d : ErrorDetail) (s : State) :
    (recordLinkCrc p d s).pending = s.pending := rfl

@[simp] theorem receive_pending (p : PortId) (bytes : List Byte) (s : State) :
    (receive p bytes s).pending = s.pending := by
  simp only [receive]
  split
  · rfl
  · split <;> simp

theorem Effect.pending {f : State → State} (h : Effect f) (s : State) : (f s).pending = s.pending := by
  cases h with
  | take p tag r => simp
  | part f => rfl
  | powerOn => rfl
  | linkUp p => rfl
  | resetPort p =>
    simp only [Machine.resetPort]
    split <;> rfl
  | receive p bytes => simp
  | endSending p => simp
  | arrival p r => simp
  | receiveOverlong p length =>
    simp only [Machine.receiveOverlong]
    split
    · rfl
    · split <;> rfl

/-- Settles O2: every arm of `exec` is an effect, and no effect touches the waiting commands. -/
theorem everyCommandCompletes : Obligations.EveryCommandCompletes := by
  refine ⟨fun i s => ?_, fun s empty => by simp only [step, empty]⟩
  obtain ⟨f, effect, does⟩ := exec_effect i
  exact ⟨f s, does s, effect.pending s⟩

/-- Settles O1: the command at the front is the one carried out. -/
theorem stepTakesFrontCommand : Obligations.StepTakesFrontCommand := fun _ _ => rfl

end Sys2Proof.Machine
end

section
/-! The ports are kept (O58): what a port's own operations do to the capacities, the taken response and the queue. -/

namespace Sys2Proof.Machine

/-- A part does not matter to the ports. -/
theorem portsKept_part (s : State) (c : Part) (h : PortsKept s) : PortsKept { s with part := c } := h

theorem portsKept_setPort (s : State) (p : PortId) (q : Port) (h : PortsKept s) (hq : PortKept q) :
    PortsKept (State.setPort p q s) := by
  intro p'
  by_cases same : p = p'
  · subst same
    rwa [State.port_setPort_same]
  · rw [State.port_setPort_other _ _ _ _ same]
    exact h p'

theorem portKept_powerOn : PortKept Port.powerOn := by
  refine ⟨?_, ?_, ?_, ?_, ?_, ?_⟩ <;> simp [Port.powerOn, queueCapacity, sendCapacity]

theorem portKept_partialFrame (q : Port) (bytes : List Byte) (h : PortKept q) (up : q.link = .up) :
    PortKept { q with partialFrame := bytes } := by
  obtain ⟨queue, send, one, behind, room, -⟩ := h
  exact ⟨queue, send, one, behind, room, fun down => by simp [up] at down⟩

theorem not_busy_iff (q : Port) : q.busy = false ↔ q.sendOrder.countP (·.taken) = 0 := by
  simp [Port.busy, List.countP_eq_zero, List.any_eq_false]

/-- A port that takes a request: no taken response stood, and the new one is the only one. -/
theorem portKept_taken (q : Port) (x : Response) (taken : x.taken = true) (up : q.link = .up)
    (queue : q.queue.length ≤ queueCapacity) (room : q.sendOrder.length < sendCapacity) (idle : q.busy = false) :
    PortKept { q with sendOrder := q.sendOrder ++ [x] } := by
  have busy : Port.busy { q with sendOrder := q.sendOrder ++ [x] } = true := by simp [Port.busy, taken]
  refine ⟨queue, ?_, ?_, fun _ => busy, fun idle' => ?_, fun down => by simp [up] at down⟩
  · simpa using room
  · simp [List.countP_append, (not_busy_iff q).mp idle, taken]
  · simp [busy] at idle'

/-- A port whose queue takes one more request: the queue stands behind a taken response. -/
theorem portKept_queued (q : Port) (r : QueuedRequest) (h : PortKept q) (up : q.link = .up)
    (room : q.queue.length < queueCapacity) (busy : q.busy = true) :
    PortKept { q with queue := q.queue ++ [r] } := by
  obtain ⟨-, send, one, -, free, -⟩ := h
  refine ⟨by simpa using room, send, one, fun _ => busy, free, fun down => by simp [up] at down⟩

/-- A port that turns a request away: the response is no taken one. -/
theorem portKept_turnedAway (q : Port) (x : Response) (h : PortKept q) (up : q.link = .up) (not_taken : x.taken = false)
    (room : q.sendOrder.length < sendCapacity) (busy : q.busy = true) :
    PortKept { q with sendOrder := q.sendOrder ++ [x] } := by
  obtain ⟨queue, -, one, -, -, -⟩ := h
  have busy' : Port.busy { q with sendOrder := q.sendOrder ++ [x] } = true := by
    simpa [Port.busy, not_taken] using busy
  refine ⟨queue, by simpa using room, ?_, fun _ => busy', fun idle => ?_, fun down => by simp [up] at down⟩
  · simpa [List.countP_append, not_taken] using one
  · simp [busy'] at idle

theorem up_of_not_down {q : Port} (h : q.link ≠ .down) : q.link = .up := by
  cases hq : q.link <;> simp_all

/-- A port that is not free is busy: its queue stands only behind a taken response. -/
theorem PortKept.busy_of_not_free {q : Port} (h : PortKept q) (not_free : q.free = false) : q.busy = true := by
  obtain ⟨-, -, -, behind, -, -⟩ := h
  by_cases empty : q.queue = []
  · simpa [Port.free, empty] using not_free
  · exact behind empty

theorem answerTake_portsKept (p : PortId) (code : Byte) (tag : Half) (r : Reply) (s : State) (h : PortsKept s)
    (up : (s.port p).link = .up) (free : (s.port p).free = true) : PortsKept (answerTake p code tag r s) := by
  obtain ⟨queue, -, -, -, room, -⟩ := h p
  have idle : (s.port p).busy = false := by
    simp only [Port.free, Bool.and_eq_true, Bool.not_eq_true'] at free
    exact free.2
  exact portsKept_setPort _ _ _ (portsKept_part s _ h) (portKept_taken _ _ rfl up queue (room idle) idle)

theorem enqueue_portsKept (p : PortId) (r : QueuedRequest) (s : State) (h : PortsKept s)
    (up : (s.port p).link = .up) (not_free : (s.port p).free = false) : PortsKept (enqueue p r s) := by
  have busy := (h p).busy_of_not_free not_free
  simp only [enqueue]
  split
  case isTrue room => exact portsKept_setPort _ _ _ h (portKept_queued _ _ (h p) up room busy)
  case isFalse =>
    split
    case isTrue formed =>
      exact portsKept_setPort _ _ _ (portsKept_part s _ h)
        (portKept_turnedAway _ _ (h p) up rfl (of_decide_eq_true formed) busy)
    case isFalse => exact portsKept_part s _ h

theorem takeRow_portsKept (p : PortId) (tag : Half) (r : Request) (s : State) (h : PortsKept s) :
    PortsKept (takeRow p tag r s) := by
  simp only [takeRow]
  split
  case h_1 => exact h
  case h_2 up =>
    split
    case isTrue free => exact answerTake_portsKept _ _ _ _ _ h up free
    case isFalse not_free => exact enqueue_portsKept _ _ _ h up (by simpa using not_free)

theorem arrival_portsKept (p : PortId) (r : QueuedRequest) (s : State) (h : PortsKept s) :
    PortsKept (arrival p r s) := by
  simp only [arrival]
  split
  case h_1 => exact h
  case h_2 up =>
    split
    case isTrue free => exact answerTake_portsKept _ _ _ _ _ h up free
    case isFalse not_free => exact enqueue_portsKept _ _ _ h up (by simpa using not_free)

theorem setPartial_portsKept (p : PortId) (bytes : List Byte) (s : State) (h : PortsKept s)
    (up : (s.port p).link = .up) : PortsKept (setPartial p bytes s) :=
  portsKept_setPort _ _ _ h (portKept_partialFrame _ _ (h p) up)

theorem receive_portsKept (p : PortId) (bytes : List Byte) (s : State) (h : PortsKept s) :
    PortsKept (receive p bytes s) := by
  simp only [receive]
  split
  case h_1 => exact h
  case h_2 up =>
    split
    case h_1 => exact setPartial_portsKept _ _ _ h up
    case h_2 => exact portsKept_part _ _ (setPartial_portsKept _ _ _ h up)
    case h_3 => exact portsKept_part _ _ (setPartial_portsKept _ _ _ h up)
    case h_4 => exact arrival_portsKept _ _ _ (setPartial_portsKept _ _ _ h up)

theorem receiveOverlong_portsKept (p : PortId) (length : Half) (s : State) (h : PortsKept s) :
    PortsKept (receiveOverlong p length s) := by
  simp only [receiveOverlong]
  split
  case h_1 => exact h
  case h_2 up =>
    split
    · exact portsKept_part _ _ (setPartial_portsKept _ _ _ h up)
    · exact h

/-- With the oldest response sent, a port that is still busy, or has nothing queued, is kept. -/
theorem portKept_sent (q : Port) (x : Response) (rest : List Response) (h : PortKept q) (order : q.sendOrder = x :: rest)
    (waits : q.queue = [] ∨ Port.busy { q with sendOrder := rest } = true) : PortKept { q with sendOrder := rest } := by
  obtain ⟨queue, send, one, -, -, down⟩ := h
  simp only [order, List.length_cons, List.countP_cons] at send one
  refine ⟨queue, by simp; omega, by simp; omega, fun some_queued => waits.resolve_left some_queued,
    fun _ => by simp; omega, fun is_down => ?_⟩
  simp [down is_down, Port.powerOn] at order

theorem endSending_portsKept (p : PortId) (s : State) (h : PortsKept s) : PortsKept (endSending p s) := by
  simp only [endSending]
  split
  case h_1 => exact h
  case h_2 x rest order =>
    have sent := portKept_sent _ x rest (h p) order
    simp only [takeNext, State.port_setPort_same]
    split
    case h_1 empty => exact portsKept_setPort _ _ _ h (sent (.inl empty))
    case h_2 r queued hq =>
      split
      case isTrue busy => exact portsKept_setPort _ _ _ h (sent (.inr busy))
      case isFalse idle =>
        obtain ⟨queue, send, -, -, -, down⟩ := h p
        have up : (s.port p).link = .up := up_of_not_down (fun is_down => by simp [down is_down, Port.powerOn] at order)
        simp only [order, hq, List.length_cons] at send queue
        have taken := portKept_taken { s.port p with queue := queued, sendOrder := rest }
          ⟨r.code, r.tag, (judgeBytes p r.code r.body s.part).status, (judgeBytes p r.code r.body s.part).body, true⟩ rfl up
          (by simp; omega) (by simp; omega) (by simpa [Port.busy] using idle)
        intro p'
        by_cases same : p = p'
        · subst same
          simpa [answerTake] using taken
        · have := h p'
          simpa [answerTake, State.port, State.setPort, PerPort.get_set_other _ _ _ _ same] using this

theorem Effect.portsKept {f : State → State} (effect : Effect f) (s : State) (h : PortsKept s) : PortsKept (f s) := by
  cases effect with
  | take p tag r => exact takeRow_portsKept p tag r s h
  | part f => exact portsKept_part s _ h
  | powerOn => exact fun p => by cases p <;> exact portKept_powerOn
  | linkUp p =>
    refine portsKept_setPort _ _ _ h ?_
    obtain ⟨queue, send, one, behind, room, -⟩ := h p
    exact ⟨queue, send, one, behind, room, fun down => by simp at down⟩
  | resetPort p =>
    simp only [Machine.resetPort]
    split
    · exact h
    · exact portsKept_setPort _ _ _ (portsKept_part s _ h) portKept_powerOn
  | receive p bytes => exact receive_portsKept p bytes s h
  | endSending p => exact endSending_portsKept p s h
  | arrival p r => exact arrival_portsKept p r s h
  | receiveOverlong p length => exact receiveOverlong_portsKept p length s h

/-- Settles O58: every effect keeps every port. -/
theorem everyStepKeepsThePorts : Obligations.EveryStepKeepsThePorts := fun _ _ =>
  step_keeps (fun _ _ h => h) (fun _ effect => effect.portsKept)

end Sys2Proof.Machine
end

section
/-! What every operation on the part keeps (O59, O60): the relation `Preserves`, and the operations on single records. -/

namespace Sys2Proof.Machine

/-! ### The relation -/

/-- `PoolKept` of the part behind the ports. -/
def PoolOk (c : Part) : Prop :=
  c.freeCount + heldEntries c = 12288 ∧ (c.lists.map (fun l => (l.lot, l.slot))).Nodup

/-- `BoundsKept` of the part behind the ports. -/
def BoundsOk (c : Part) : Prop :=
  c.credits ≤ 255 ∧ c.captureLog.length ≤ captureCapacity ∧ c.focusMap.length ≤ 48 ∧
    c.reportQueue.length ≤ reportCapacity ∧
    ∀ k, (settingRange k).1 ≤ c.settings.get k ∧ c.settings.get k ≤ (settingRange k).2

/-- An error kind's flag, count and record stand together. -/
def ErrorRecord.Ok (r : ErrorRecord) : Prop :=
  r.count ≤ 255 ∧ (r.flag = true ↔ 1 ≤ r.count) ∧ (r.flag = true ↔ r.first.isSome = true)

/-- `ErrorsKept` of the part behind the ports. -/
def ErrorsOk (c : Part) : Prop := ∀ k, (c.errors.get k).Ok

/-- An aborted lot has no hold. -/
def Lot.Ok (l : Lot) : Prop := l.aborted = true → l.hold = .none

/-- `AbortsKept` of the part behind the ports. -/
def AbortsOk (c : Part) : Prop := ∀ i l, c.lot? i = some l → l.Ok

/-- What every step keeps of the part holds of `d` where it holds of `c`, invariant by invariant. -/
structure Preserves (c d : Part) : Prop where
  pool   : PoolOk c → PoolOk d
  bounds : BoundsOk c → BoundsOk d
  errors : ErrorsOk c → ErrorsOk d
  aborts : AbortsOk c → AbortsOk d
  memory : memoryWf c.memory = true → memoryWf d.memory = true

namespace Preserves

theorem refl (c : Part) : Preserves c c := ⟨id, id, id, id, id⟩

theorem trans {a b c : Part} (h : Preserves a b) (k : Preserves b c) : Preserves a c :=
  ⟨k.pool ∘ h.pool, k.bounds ∘ h.bounds, k.errors ∘ h.errors, k.aborts ∘ h.aborts, k.memory ∘ h.memory⟩

end Preserves

theorem foldl_preserves {α : Type} (f : Part → α → Part) (h : ∀ c a, Preserves c (f c a)) (l : List α) (c : Part) :
    Preserves c (l.foldl f c) :=
  foldl_inv f (Preserves c) (fun d a k => k.trans (h d a)) l c (.refl c)

/-! ### Records that no invariant speaks of -/

theorem setCarrier_preserves (i k c) : Preserves c (setCarrier i k c) := { Preserves.refl c with }
theorem setWafer_preserves (t w c) : Preserves c (setWafer t w c) := { Preserves.refl c with }
theorem setPlace_preserves (p e c) : Preserves c (setPlace p e c) := { Preserves.refl c with }
theorem setSlot_preserves (m s c) : Preserves c (setSlot m s c) := { Preserves.refl c with }
theorem setSessionState_preserves (s c) : Preserves c (setSessionState s c) := { Preserves.refl c with }
theorem countStat_preserves (k c) : Preserves c (countStat k c) := { Preserves.refl c with }
theorem raiseEvent_preserves (p x c) : Preserves c (raiseEvent p x c) := { Preserves.refl c with }
theorem raiseLotState_preserves (c) : Preserves c (raiseLotState c) := { Preserves.refl c with }

theorem setLock_preserves (k l c) : Preserves c (setLock k l c) := by
  cases k <;> exact { Preserves.refl c with }

theorem updateWafer_preserves (t f c) : Preserves c (updateWafer t f c) := by
  unfold updateWafer
  split
  · exact .refl c
  · exact setWafer_preserves _ _ _

theorem arrive_preserves (t p c) : Preserves c (arrive t p c) :=
  (setPlace_preserves _ _ _).trans (updateWafer_preserves _ _ _)

theorem setPhase_preserves (t p c) : Preserves c (setPhase t p c) := updateWafer_preserves _ _ _

theorem dropReservation_preserves (t p k c) : Preserves c (dropReservation t p k c) := by
  unfold dropReservation
  split
  · exact setLock_preserves _ _ _
  · exact .refl c

theorem dropReservations_preserves (t p c) : Preserves c (dropReservations t p c) :=
  (dropReservation_preserves _ _ _ _).trans (dropReservation_preserves _ _ _ _)

theorem issueOrder_preserves (m k t c) : Preserves c (issueOrder m k t c) := by
  unfold issueOrder
  split
  · exact { Preserves.refl c with }
  · exact { Preserves.refl c with }

/-! ### Lots and errors -/

theorem setLot_preserves (i : LoadPort) (l : Option Lot) (c : Part) (h : AbortsOk c → ∀ x, l = some x → x.Ok) :
    Preserves c (setLot i l c) :=
  { Preserves.refl c with
    aborts := fun ok j x hx => by
      rw [setLot_lot] at hx
      split at hx
      · exact h ok x hx
      · exact ok j x hx }

theorem updateLot_preserves (i : LoadPort) (f : Lot → Lot) (c : Part) (h : ∀ l : Lot, l.Ok → (f l).Ok) :
    Preserves c (updateLot i f c) := by
  unfold updateLot
  split
  · exact .refl c
  next l found =>
    refine setLot_preserves i _ c fun ok x hx => ?_
    cases hx
    exact h l (ok i l found)

theorem noteError_ok (d : ErrorDetail) (r : ErrorRecord) (h : r.Ok) : (noteError d r).Ok := by
  obtain ⟨-, flag, first⟩ := h
  unfold noteError
  split
  next set => exact ⟨by simp, by simp [set], first⟩
  · exact ⟨by simp, by simp, by simp⟩

theorem setError_preserves (k : ErrorKind) (r : ErrorRecord) (c : Part) (h : ErrorsOk c → r.Ok) :
    Preserves c { c with errors := c.errors.set k r } :=
  { Preserves.refl c with
    errors := fun ok j => by
      by_cases same : k = j
      · subst same
        rw [ErrorTable.get_set_same]
        exact h ok
      · rw [ErrorTable.get_set_other _ _ _ _ same]
        exact ok j }

theorem recordError_preserves (k d c) : Preserves c (recordError k d c) :=
  setError_preserves k _ c fun ok => noteError_ok d _ (ok k)

/-! ### Lists -/

/-- Rewriting lists so that each keeps its lot, its slot and its number of entries. -/
theorem mapLists_preserves (g : RevisitList → RevisitList) (c : Part)
    (h : ∀ l, ((g l).lot, (g l).slot) = (l.lot, l.slot) ∧ (g l).entries.length = l.entries.length) :
    Preserves c { c with lists := c.lists.map g } :=
  { Preserves.refl c with
    pool := fun ⟨sum, nodup⟩ => by
      refine ⟨?_, ?_⟩
      · simpa [heldEntries, Function.comp_def, h] using sum
      · simpa [Function.comp_def, h] using nodup }

theorem updateList_preserves (i : LoadPort) (slot : Nat) (f : RevisitList → RevisitList) (c : Part)
    (h : ∀ l, ((f l).lot, (f l).slot) = (l.lot, l.slot) ∧ (f l).entries.length = l.entries.length) :
    Preserves c (updateList i slot f c) :=
  mapLists_preserves _ c fun l => by
    split
    · exact h l
    · exact ⟨rfl, rfl⟩

theorem updateEntry_preserves (i slot n f c) : Preserves c (updateEntry i slot n f c) :=
  updateList_preserves _ _ _ _ fun _ => ⟨rfl, List.length_map _⟩

theorem updateSite_preserves (t n f c) : Preserves c (updateSite t n f c) := by
  unfold updateSite
  split
  · exact .refl c
  · exact updateEntry_preserves _ _ _ _ _

/-- Lists that go give their entries back to the pool. -/
theorem freeLists_preserves (gone : RevisitList → Bool) (c : Part) :
    Preserves c { c with
      freeCount := c.freeCount + ((c.lists.filter gone).map (·.entries.length)).sum
      lists := c.lists.filter (fun l => !gone l) } :=
  { Preserves.refl c with
    pool := fun ⟨sum, nodup⟩ => by
      refine ⟨?_, nodup.sublist (List.Sublist.map _ List.filter_sublist)⟩
      have parts : ((c.lists.filter gone).map (·.entries.length)).sum
          + ((c.lists.filter (fun l => !gone l)).map (·.entries.length)).sum = (c.lists.map (·.entries.length)).sum := by
        rw [← List.sum_append, ← List.map_append]
        exact ((List.filter_append_perm gone c.lists).map _).sum_eq
      simp only [heldEntries] at sum ⊢
      omega }

theorem freeList_preserves (i slot c) : Preserves c (freeList i slot c) := freeLists_preserves _ c

theorem freeListsOf_preserves (i c) : Preserves c (freeListsOf i c) := freeLists_preserves _ c

end Sys2Proof.Machine
end

section
/-! What the blocks' operations keep (O59, O60): focus, captures, counts, sessions. -/

namespace Sys2Proof.Machine

/-! ### Focus -/

theorem countFor_preserves (k f c) : Preserves c (countFor k f c) := by
  have counted := countStat_preserves k c
  unfold countFor
  split
  · exact counted
  next i _ =>
    split
    · exact counted
    next l found =>
      exact counted.trans (setLot_preserves i (some { l with counters := f l.counters }) _ fun ok x hx => by
        cases hx
        exact ok i l found)

theorem startConversion_preserves (z c) : Preserves c (startConversion z c) := by
  rw [startConversion_eq]
  exact { Preserves.refl c with }

theorem startStep_preserves (r centre k c) : Preserves c (startStep r centre k c) :=
  (startConversion_preserves _ c).trans { Preserves.refl _ with }

theorem beginSweep_preserves (stage centre r c) : Preserves c (beginSweep stage centre r c) := by
  unfold beginSweep
  rw [countSweep_eq]
  exact (countFor_preserves _ _ c).trans (startStep_preserves _ _ _ _)

theorem beginCheck_preserves (z ref r c) : Preserves c (beginCheck z ref r c) :=
  (startConversion_preserves _ c).trans { Preserves.refl _ with }

theorem abandonFocus_preserves (c) : Preserves c (abandonFocus c) := { Preserves.refl c with }

theorem takeFocusRequest_preserves (kind x y z c) : Preserves c (takeFocusRequest kind x y z c) := by
  have ready : Preserves c (if c.focusRequest.isSome then abandonFocus c else c) := by
    split
    · exact abandonFocus_preserves c
    · exact .refl c
  refine ready.trans ?_
  dsimp only [takeFocusRequest]
  generalize (if c.focusRequest.isSome then abandonFocus c else c) = d
  cases kind with
  | predicted =>
    dsimp only
    split
    · exact beginSweep_preserves _ _ _ _
    · split
      · exact beginCheck_preserves _ _ _ _
      · exact beginSweep_preserves _ _ _ _
  | recheck => exact beginCheck_preserves _ _ _ _
  | nominal => exact beginSweep_preserves _ _ _ _
  | forced => exact beginSweep_preserves _ _ _ _

/-- A map that is no longer than 48 points keeps the bounds. -/
theorem setMap_preserves (m : List MapPoint) (c : Part) (h : BoundsOk c → m.length ≤ 48) :
    Preserves c { c with focusMap := m } :=
  { Preserves.refl c with
    bounds := fun ok => by
      have short := h ok
      obtain ⟨credits, log, -, queue, settings⟩ := ok
      exact ⟨credits, log, short, queue, settings⟩ }

theorem clearMap_preserves (c) : Preserves c (clearMap c) := setMap_preserves [] c fun _ => by simp

theorem focusSessionBegin_preserves (c) : Preserves c (focusSessionBegin c) :=
  (clearMap_preserves c).trans { Preserves.refl _ with }

theorem focusSessionEnd_preserves (c) : Preserves c (focusSessionEnd c) :=
  (clearMap_preserves c).trans { Preserves.refl _ with }

/-! ### Captures -/

/-- A log that is no longer than its capacity keeps the bounds. -/
theorem setLog_preserves (l : List CaptureRecord) (c : Part) (h : BoundsOk c → l.length ≤ captureCapacity) :
    Preserves c { c with captureLog := l } :=
  { Preserves.refl c with
    bounds := fun ok => by
      have short := h ok
      obtain ⟨credits, -, map, queue, settings⟩ := ok
      exact ⟨credits, short, map, queue, settings⟩ }

theorem issueCapture_preserves (w i slot e c) (room : c.captureLog.length < captureCapacity) :
    Preserves c (issueCapture w i slot e c) := by
  unfold issueCapture
  refine .trans ?_ (updateLot_preserves _ _ _ fun _ ok => ok)
  refine .trans ?_ (countStat_preserves _ _)
  refine .trans ?_ (updateEntry_preserves _ _ _ _ _)
  exact { Preserves.refl c with
    bounds := fun ⟨credits, _, rest⟩ => ⟨le_trans (Nat.sub_le _ _) credits, by simpa using room, rest⟩ }

theorem tryIssue_preserves (c) : Preserves c (tryIssue c) := by
  unfold tryIssue
  split
  · exact .refl c
  · split
    next room =>
      split
      · exact .refl c
      · exact issueCapture_preserves _ _ _ _ _ room.2
    · exact .refl c

theorem handOver_preserves (t n sharpness c) : Preserves c (handOver t n sharpness c) := by
  have waits : Preserves c { c with waitingSite := some ⟨t, n, sharpness, none⟩ } := { Preserves.refl c with }
  dsimp only [handOver]
  refine (waits.trans (tryIssue_preserves _)).trans ?_
  split
  · exact .refl _
  · exact { Preserves.refl _ with }

theorem withdrawWaiting_preserves (c) : Preserves c (withdrawWaiting c) := { Preserves.refl c with }

theorem updateCapture_preserves (n f c) : Preserves c (updateCapture n f c) :=
  setLog_preserves _ c fun ok => by simpa using ok.2.1

theorem freeRecord_preserves (n c) : Preserves c (freeRecord n c) :=
  .trans (setLog_preserves _ c fun ok => le_trans (List.length_filter_le _ _) ok.2.1) (tryIssue_preserves _)

theorem countRejection_preserves (i c) : Preserves c (countRejection i c) :=
  (countStat_preserves _ c).trans (updateLot_preserves _ _ _ fun _ ok => ok)

/-! ### Counts -/

theorem returnToPending_preserves (t n c) : Preserves c (returnToPending t n c) :=
  (updateSite_preserves t n _ c).trans { Preserves.refl _ with }

theorem pauseSession_preserves (c) : Preserves c (pauseSession c) := by
  unfold pauseSession
  split
  · split
    · exact setSessionState_preserves _ c
    · exact (abandonFocus_preserves c).trans ((returnToPending_preserves _ _ _).trans (setSessionState_preserves _ _))
    · exact (withdrawWaiting_preserves c).trans ((returnToPending_preserves _ _ _).trans (setSessionState_preserves _ _))
    · exact setSessionState_preserves _ c
    · exact setSessionState_preserves _ c
  · exact .refl c

theorem tightenHold_preserves (i old new c) (h : AbortsOk c → new.Ok) : Preserves c (tightenHold i old new c) := by
  unfold tightenHold
  refine .trans (setLot_preserves i (some new) c fun ok x hx => by cases hx; exact h ok) ?_
  dsimp only
  split
  · exact .refl _
  · refine .trans (raiseLotState_preserves _) ?_
    split
    · exact pauseSession_preserves _
    · exact .refl _

theorem recordExcursionHold_preserves (i scope c) : Preserves c (recordExcursionHold i scope c) := by
  unfold recordExcursionHold
  split
  · exact .refl c
  · split
    next l _ lives =>
      exact .trans (tightenHold_preserves _ _ _ c fun _ aborted => by simp [lives.2] at aborted)
        (raiseEvent_preserves _ _ _)
    · exact .refl c

theorem excursionAction_preserves (i x c) : Preserves c (excursionAction i x c) := by
  cases x with
  | note => exact .refl c
  | sample => exact .refl c
  | holdW => exact recordExcursionHold_preserves i .w c
  | holdN => exact recordExcursionHold_preserves i .n c

theorem fireEntry_preserves (i slot pos x c) : Preserves c (fireEntry i slot pos x c) := by
  dsimp only [fireEntry]
  refine .trans ?_ (raiseEvent_preserves _ _ _)
  refine .trans ?_ (excursionAction_preserves _ _ _)
  exact updateLot_preserves i _ c fun _ ok => ok

theorem compareEntries_preserves (i slot cls count) (xs : List ExcursionEntry) :
    ∀ pos c, Preserves c (compareEntries i slot cls count pos xs c) := by
  induction xs with
  | nil => exact fun _ c => .refl c
  | cons x rest ih =>
    intro pos c
    unfold compareEntries
    refine .trans ?_ (ih _ _)
    split
    · exact fireEntry_preserves _ _ _ _ c
    · exact .refl c

theorem countResolution_preserves (i slot r c) : Preserves c (countResolution i slot r c) := by
  have counted (f : Lot → Lot) (h : ∀ l : Lot, l.Ok → (f l).Ok) :
      Preserves c (updateLot i f (countStat r.statistic c)) :=
    (countStat_preserves _ c).trans (updateLot_preserves i f _ h)
  dsimp only [countResolution]
  split
  · split
    · exact counted _ fun _ ok => ok
    · refine .trans ?_ (compareEntries_preserves _ _ _ _ _ _ _)
      exact counted _ fun _ ok => ok
  · exact counted _ fun _ ok => ok

theorem resolveSite_preserves (t n r c) : Preserves c (resolveSite t n r c) := by
  unfold resolveSite
  split
  · exact .refl c
  · exact (updateEntry_preserves _ _ _ _ c).trans (countResolution_preserves _ _ _ _)

theorem countSkips_preserves (i slot k c) : Preserves c (countSkips i slot k c) :=
  .trans (b := { c with stats := { c.stats with sitesSkipped := c.stats.sitesSkipped + BitVec.ofNat 32 k } })
    { Preserves.refl c with } (updateLot_preserves i _ _ fun _ ok => ok)

theorem skipPending_preserves (i slot why c) : Preserves c (skipPending i slot why c) :=
  .trans (updateList_preserves i slot (fun l => { l with entries := l.entries.map _ }) c
    fun _ => ⟨rfl, List.length_map _⟩) (countSkips_preserves _ _ _ _)

/-! ### Sessions -/

theorem sessionEnd_preserves (c) : Preserves c (sessionEnd c) := by
  unfold sessionEnd
  split
  · exact .refl c
  · dsimp only
    have told (d : Part) : Preserves d { raiseEvent .image .session (focusSessionEnd d) with
        session := ⟨.idle, none, none, .forward, none, none⟩ } :=
      ((focusSessionEnd_preserves d).trans (raiseEvent_preserves .image .session _)).trans { Preserves.refl _ with }
    split
    · exact told c
    · exact (setWafer_preserves _ _ c).trans (told _)

theorem takeSite_preserves (t k c) : Preserves c (takeSite t k c) :=
  (updateSite_preserves _ _ _ c).trans { Preserves.refl _ with }

theorem takeFirst_preserves (t floor) (ks : List Candidate) : ∀ c, Preserves c (takeFirst t floor ks c) := by
  induction ks with
  | nil => exact sessionEnd_preserves
  | cons k rest ih =>
    intro c
    unfold takeFirst
    split
    · exact takeSite_preserves _ _ c
    · split
      · exact (resolveSite_preserves _ _ _ c).trans (ih _)
      · exact takeSite_preserves _ _ c

theorem walk_preserves (c) : Preserves c (walk c) := by
  unfold walk
  split
  · exact .refl c
  · split
    · exact .refl c
    · exact takeFirst_preserves _ _ _ c

theorem leaveFlight_preserves (c) : Preserves c (leaveFlight c) := by
  unfold leaveFlight
  refine .trans (b := { c with session := { c.session with inFlight := none } }) { Preserves.refl c with } ?_
  dsimp only
  split
  · exact walk_preserves _
  · exact setSessionState_preserves _ _
  · exact .refl _

theorem siteLeft_preserves (t n c) : Preserves c (siteLeft t n c) := by
  unfold siteLeft
  split
  · exact leaveFlight_preserves c
  · exact .refl c

theorem sessionBegin_preserves (t c) : Preserves c (sessionBegin t c) := by
  have active : Preserves c { c with session := ⟨.active, some t, none, .forward, none, none⟩ } :=
    { Preserves.refl c with }
  dsimp only [sessionBegin]
  refine ((active.trans (focusSessionBegin_preserves _)).trans (raiseEvent_preserves .image .session _)).trans ?_
  split
  · exact walk_preserves _
  · split
    · exact walk_preserves _
    · split
      · exact setSessionState_preserves _ _
      · exact walk_preserves _

theorem siteArrived_preserves (c) : Preserves c (siteArrived c) := by
  unfold siteArrived
  split
  · split
    · exact .refl c
    · split
      · split
        · exact (updateSite_preserves _ _ _ c).trans (takeFocusRequest_preserves _ _ _ _ _)
        · exact (returnToPending_preserves _ _ c).trans (leaveFlight_preserves _)
        · exact .refl c
      · exact .refl c
  · exact .refl c

theorem siteRecovered_preserves (c) : Preserves c (siteRecovered c) := by
  unfold siteRecovered
  split
  · exact (returnToPending_preserves _ _ c).trans (leaveFlight_preserves _)
  · exact .refl c

theorem focusAccepted_preserves (z sharpness c) : Preserves c (focusAccepted z sharpness c) := by
  unfold focusAccepted
  split
  · exact (updateSite_preserves _ _ _ c).trans (handOver_preserves _ _ _ _)
  · exact .refl c

theorem focusFailed_preserves (why c) : Preserves c (focusFailed why c) := by
  unfold focusFailed
  split
  · dsimp only
    split
    · exact updateSite_preserves _ _ _ c
    · split
      · exact (updateSite_preserves _ _ _ c).trans (takeFocusRequest_preserves _ _ _ _ _)
      · exact (updateSite_preserves _ _ _ c).trans
          ((resolveSite_preserves _ _ _ _).trans (leaveFlight_preserves _))
  · exact .refl c

theorem resumeSession_preserves (c) : Preserves c (resumeSession c) := by
  unfold resumeSession
  split
  · exact (setSessionState_preserves _ c).trans (walk_preserves _)
  · exact setSessionState_preserves _ c
  · exact .refl c

theorem changeHold_preserves (i old new c) (h : AbortsOk c → new.Ok) : Preserves c (changeHold i old new c) := by
  unfold changeHold
  refine .trans (tightenHold_preserves i old new c h) ?_
  dsimp only
  split
  · exact resumeSession_preserves _
  · exact .refl _

theorem abortSession_preserves (c) : Preserves c (abortSession c) := by
  unfold abortSession
  refine .trans (setSessionState_preserves .active c) ?_
  dsimp only
  split
  · split
    · exact (resolveSite_preserves _ _ _ _).trans (leaveFlight_preserves _)
    · exact (abandonFocus_preserves _).trans ((resolveSite_preserves _ _ _ _).trans (leaveFlight_preserves _))
    · exact (withdrawWaiting_preserves _).trans ((resolveSite_preserves _ _ _ _).trans (leaveFlight_preserves _))
    · exact .refl _
  · exact walk_preserves _

end Sys2Proof.Machine
end

section
/-! What the blocks' operations keep (O59, O60): lots in motion, settling, the motion link, the focus counts. -/

namespace Sys2Proof.Machine

/-! ### Lots -/

theorem ruleOutLot_preserves (i c) : Preserves c (ruleOutLot i c) := by
  unfold ruleOutLot
  split
  · exact .refl c
  next l found =>
    split
    · exact setLot_preserves i _ c fun ok x hx => by cases hx; exact ok i l found
    · exact .refl c

theorem drainLot_preserves (i c) : Preserves c (drainLot i c) := by
  unfold drainLot
  split
  · exact .refl c
  next l found =>
    split
    · exact .trans (setLot_preserves i (some { l with state := .draining }) c fun ok x hx => by
        cases hx; exact ok i l found) (raiseLotState_preserves _)
    · exact .refl c

theorem closeLot_preserves (i c) : Preserves c (closeLot i c) :=
  (updateLot_preserves i (fun l => { l with state := .closed }) c fun _ ok => ok).trans (setCarrier_preserves _ _ _)

/-- A report queue that is no longer than its capacity keeps the bounds. -/
theorem setQueue_preserves (q : List Report) (c : Part) (h : BoundsOk c → q.length ≤ reportCapacity) :
    Preserves c { c with reportQueue := q } :=
  { Preserves.refl c with
    bounds := fun ok => by
      have short := h ok
      obtain ⟨credits, log, map, -, settings⟩ := ok
      exact ⟨credits, log, map, short, settings⟩ }

theorem enterReport_preserves (i r c) (room : c.reportQueue.length < reportCapacity) :
    Preserves c (enterReport i r c) := by
  unfold enterReport
  refine .trans ?_ (closeLot_preserves i _)
  exact .trans (setQueue_preserves (c.reportQueue ++ [{ r with number := some c.nextReport }]) c
    fun _ => by simpa using room) { Preserves.refl _ with }

theorem fillQueue_preserves (ws : List WaitingReport) : ∀ c, Preserves c (fillQueue ws c) := by
  induction ws with
  | nil => exact fun c => { Preserves.refl c with }
  | cons w rest ih =>
    intro c
    unfold fillQueue
    split
    next room => exact (enterReport_preserves _ _ c room).trans (ih _)
    · exact { Preserves.refl c with }

theorem ruleOutUndispatched_preserves (i slot c) : Preserves c (ruleOutUndispatched i slot c) := by
  dsimp only [ruleOutUndispatched]
  refine .trans ?_ (updateLot_preserves i (Lot.updateEntry slot (ruleOutEntry .notDispatched)) _ fun _ ok => ok)
  split
  · exact .refl c
  · exact skipPending_preserves _ _ _ c

theorem ruleOutWaiting_preserves (i) (es : List Selection) : ∀ c, Preserves c (ruleOutWaiting i es c) := by
  induction es with
  | nil => exact .refl
  | cons e rest ih =>
    intro c
    unfold ruleOutWaiting
    refine .trans ?_ (ih _)
    split
    · exact ruleOutUndispatched_preserves _ _ c
    · exact .refl c

theorem clearSources_preserves (i c) : Preserves c (clearSources i c) :=
  updateLot_preserves i _ c fun _ _ _ => rfl

theorem waitReport_preserves (i r c) : Preserves c (waitReport i r c) := by
  refine .trans (b := { c with waitingReports := c.waitingReports ++ [⟨i, r⟩] }) { Preserves.refl c with } ?_
  exact updateLot_preserves i _ _ fun _ ok => ok

theorem deliverReport_preserves (i c) : Preserves c (deliverReport i c) := by
  unfold deliverReport
  split
  · exact .refl c
  · split
    next room => exact enterReport_preserves _ _ c room
    · exact waitReport_preserves _ _ c

theorem completeLot_preserves (i c) : Preserves c (completeLot i c) := by
  unfold completeLot
  split
  · exact .refl c
  · exact (ruleOutWaiting_preserves i _ c).trans ((clearSources_preserves i _).trans
      ((deliverReport_preserves i _).trans (raiseLotState_preserves _)))

theorem completeIfDone_preserves (i c) : Preserves c (completeIfDone i c) := by
  unfold completeIfDone
  split
  · exact .refl c
  · split
    · exact completeLot_preserves i c
    · exact .refl c

theorem freeWafer_preserves (t w c) : Preserves c (freeWafer t w c) := by
  dsimp only [freeWafer]
  refine .trans ?_ (setWafer_preserves t none _)
  refine .trans ?_ (freeList_preserves _ _ _)
  exact updateLot_preserves w.lot _ c fun _ ok => ok

theorem freeIfDone_preserves (c t) : Preserves c (freeIfDone c t) := by
  unfold freeIfDone
  split
  · exact .refl c
  · split
    · exact freeWafer_preserves _ _ c
    · exact .refl c

/-! ### Settling -/

theorem issuePump_preserves (k t c) : Preserves c (issuePump k t c) := by
  have issued : Preserves c (issueOrder k.mover .pump t (setLockState k .pumping c)) :=
    (setLock_preserves k _ c).trans (issueOrder_preserves _ _ _ _)
  unfold issuePump
  cases t with
  | none => exact issued
  | some w => exact issued.trans ((updateWafer_preserves _ _ _).trans (dropReservation_preserves _ _ _ _))

theorem issueVent_preserves (k t c) : Preserves c (issueVent k t c) :=
  (setLock_preserves k _ c).trans (issueOrder_preserves _ _ _ _)

theorem issueMoveSite_preserves (c) : Preserves c (issueMoveSite c) := by
  unfold issueMoveSite
  split
  · split
    · split
      · exact .refl c
      next x y e _ =>
        split
        · exact (issueOrder_preserves .st (.moveSite e.x e.y) none c).trans { Preserves.refl _ with }
        · exact .refl c
    · exact .refl c
  · exact .refl c

theorem redirect_preserves (c t) : Preserves c (redirect c t) := by
  unfold redirect
  split
  · exact .refl c
  · split
    · split
      · exact .refl c
      · exact (setPhase_preserves _ _ c).trans (dropReservations_preserves _ _ _)
    · exact .refl c

theorem lockWork_preserves (c k) : Preserves c (lockWork c k) := by
  unfold lockWork
  split
  · split
    · split
      · exact .refl c
      · split
        · exact issuePump_preserves _ _ c
        · exact .refl c
    · split
      · exact issuePump_preserves _ _ c
      · exact .refl c
    · split
      · exact .refl c
      · split
        · exact issueVent_preserves _ _ c
        · exact .refl c
    · exact .refl c
  · exact .refl c

theorem alignWork_preserves (c) : Preserves c (alignWork c) := by
  unfold alignWork
  split
  · split
    · exact .refl c
    · split
      · exact .refl c
      · split
        · exact issueOrder_preserves _ _ _ c
        · exact .refl c
  · exact .refl c

theorem reserveReturn_preserves (t c) : Preserves c (reserveReturn t c) := by
  unfold reserveReturn
  split
  · exact setLock_preserves _ _ c
  · split
    · exact (setLock_preserves _ _ c).trans (issuePump_preserves _ _ _)
    · exact .refl c

theorem returnWork_preserves (c p) : Preserves c (returnWork c p) := by
  unfold returnWork
  split
  · exact .refl c
  · exact reserveReturn_preserves _ c

theorem doArTask_preserves (task c) : Preserves c (doArTask task c) := by
  cases task with
  | order k t => exact issueOrder_preserves _ _ _ c
  | admission k t =>
    dsimp only [doArTask]
    refine .trans ?_ (issueOrder_preserves _ _ _ _)
    exact (setLock_preserves _ _ c).trans (setPhase_preserves _ _ _)
  | grant i slot t =>
    dsimp only [doArTask]
    refine .trans ?_ (drainLot_preserves i _)
    refine .trans ?_ (issueOrder_preserves _ _ _ _)
    refine .trans (setWafer_preserves t _ c) (updateLot_preserves i _ _ fun _ ok => ok)

theorem arWork_preserves (c) : Preserves c (arWork c) := by
  unfold arWork
  split
  · split
    · exact .refl c
    · exact doArTask_preserves _ c
  · exact .refl c

theorem doVrTask_preserves (k t c) : Preserves c (doVrTask k t c) := by
  unfold doVrTask
  split
  · exact issueOrder_preserves _ _ _ c
  · exact (setPhase_preserves _ _ c).trans (issueOrder_preserves _ _ _ _)
  · exact issueOrder_preserves _ _ _ c

theorem vrWork_preserves (c) : Preserves c (vrWork c) := by
  unfold vrWork
  split
  · split
    · exact .refl c
    · exact doVrTask_preserves _ _ c
  · exact .refl c

theorem ventWork_preserves (c k) : Preserves c (ventWork c k) := by
  unfold ventWork
  split
  · exact issueVent_preserves _ _ c
  · exact .refl c

theorem moveLoadWork_preserves (c) : Preserves c (moveLoadWork c) := by
  unfold moveLoadWork
  split
  · exact issueOrder_preserves _ _ _ c
  · exact .refl c

theorem settleLots_preserves (c) : Preserves c (settleLots c) := by
  have ruled := foldl_preserves (fun c i => ruleOutLot i c) (fun c i => ruleOutLot_preserves i c) allLoadPorts c
  have drained := ruled.trans
    (foldl_preserves (fun c i => drainLot i c) (fun c i => drainLot_preserves i c) allLoadPorts _)
  have turned := drained.trans (foldl_preserves redirect redirect_preserves allTags _)
  have freed := turned.trans (foldl_preserves freeIfDone freeIfDone_preserves allTags _)
  exact freed.trans
    (foldl_preserves (fun c i => completeIfDone i c) (fun c i => completeIfDone_preserves i c) allLoadPorts _)

theorem issueWork_preserves (c) : Preserves c (issueWork c) := by
  have moved := issueMoveSite_preserves c
  have locks := moved.trans ((lockWork_preserves _ .a).trans (lockWork_preserves _ .b))
  have aligned := locks.trans (alignWork_preserves _)
  have returned := aligned.trans ((returnWork_preserves _ .stage).trans (returnWork_preserves _ .transferArm))
  have robots := returned.trans ((arWork_preserves _).trans (vrWork_preserves _))
  exact robots.trans ((ventWork_preserves _ .a).trans ((ventWork_preserves _ .b).trans (moveLoadWork_preserves _)))

theorem settle_preserves (c) : Preserves c (settle c) := (settleLots_preserves c).trans (issueWork_preserves _)

/-! ### The motion link -/

theorem idMismatch_preserves (t w expected read c) : Preserves c (idMismatch t w expected read c) :=
  (recordError_preserves _ _ c).trans ((updateWafer_preserves _ _ _).trans (skipPending_preserves _ _ _ _))

theorem alignDone_preserves (t readId text c) : Preserves c (alignDone t readId text c) := by
  unfold alignDone
  split
  · exact .refl c
  · have kept : Preserves c (if (successfulRead readId text).isSome then
        updateWafer t (fun w => { w with readId := successfulRead readId text }) c else c) := by
      split
      · exact updateWafer_preserves _ _ c
      · exact .refl c
    refine kept.trans ?_
    dsimp only
    generalize (if (successfulRead readId text).isSome then
      updateWafer t (fun w => { w with readId := successfulRead readId text }) c else c) = d
    split
    · exact .refl d
    · split
      · split
        · exact setPhase_preserves _ _ d
        · exact idMismatch_preserves _ _ _ _ d
      · exact setPhase_preserves _ _ d

theorem pumpDone_preserves (k t c) : Preserves c (pumpDone k t c) := by
  unfold pumpDone
  cases t with
  | none => exact setLock_preserves _ _ c
  | some w => exact (setLock_preserves _ _ c).trans (setPhase_preserves _ _ _)

theorem ventDone_preserves (k t c) : Preserves c (ventDone k t c) := by
  unfold ventDone
  cases t with
  | none => exact setLock_preserves _ _ c
  | some w => exact (setLock_preserves _ _ c).trans (setPhase_preserves _ _ _)

theorem stageReached_preserves (t c) : Preserves c (stageReached t c) := by
  unfold stageReached
  split
  · exact .refl c
  · split
    · exact setPhase_preserves _ _ c
    · exact (setPhase_preserves _ _ c).trans (sessionBegin_preserves _ _)

theorem vrPlaced_preserves (p t c) : Preserves c (vrPlaced p t c) := by
  unfold vrPlaced
  split
  · exact stageReached_preserves _ c
  · exact (dropReservation_preserves _ _ _ c).trans (setPhase_preserves _ _ _)

theorem clearOccupant_preserves (p c) : Preserves c (clearOccupant p c) := setPlace_preserves _ _ c

theorem applyCompletion_preserves (m o text c) : Preserves c (applyCompletion m o text c) := by
  unfold applyCompletion
  split
  · exact (arrive_preserves _ _ c).trans (setPhase_preserves _ _ _)
  · exact (clearOccupant_preserves _ c).trans (arrive_preserves _ _ _)
  · exact (clearOccupant_preserves _ c).trans (arrive_preserves _ _ _)
  · exact (clearOccupant_preserves _ c).trans (updateWafer_preserves _ _ _)
  · dsimp only
    split
    · exact (clearOccupant_preserves _ c).trans ((arrive_preserves _ _ _).trans (setPhase_preserves _ _ _))
    · exact (clearOccupant_preserves _ c).trans (arrive_preserves _ _ _)
  · exact (clearOccupant_preserves _ c).trans ((arrive_preserves _ _ _).trans (vrPlaced_preserves _ _ _))
  · exact alignDone_preserves _ _ _ c
  · split
    · exact .refl c
    · exact pumpDone_preserves _ _ c
  · split
    · exact .refl c
    · exact ventDone_preserves _ _ c
  · exact { Preserves.refl c with }
  · exact siteArrived_preserves c
  · exact .refl c

theorem lateAnswer_preserves (d c) : Preserves c (lateAnswer d c) :=
  (recordError_preserves _ _ c).trans (countStat_preserves _ _)

theorem faultSlot_preserves (m o cause c) : Preserves c (faultSlot m o cause c) := by
  have faulted : Preserves c (countStat .moveFaults (setSlot m (.faulted { o with timer := none } cause) c)) :=
    (setSlot_preserves _ _ c).trans (countStat_preserves _ _)
  dsimp only [faultSlot]
  split
  · exact faulted
  · exact faulted.trans (updateWafer_preserves _ _ _)

theorem clearTargetClaim_preserves (o c) : Preserves c (clearTargetClaim o c) := by
  unfold clearTargetClaim
  split
  · exact .refl c
  · exact setPlace_preserves _ _ c

theorem recoverSlot_preserves (m o c) : Preserves c (recoverSlot m o c) := by
  dsimp only [recoverSlot]
  split
  · exact setSlot_preserves _ _ c
  · exact (setSlot_preserves _ _ c).trans (updateWafer_preserves _ _ _)

theorem leaveLoad_preserves (x : Bool) (c : Part) : Preserves c { c with atLoad := x } := { Preserves.refl c with }

theorem recoverAtSource_preserves (m o c) : Preserves c (recoverAtSource m o c) := by
  dsimp only [recoverAtSource]
  refine .trans (clearTargetClaim_preserves o c) ?_
  split
  · exact setLock_preserves _ _ _
  · exact setLock_preserves _ _ _
  · exact (leaveLoad_preserves false _).trans (siteRecovered_preserves _)
  · exact leaveLoad_preserves false _
  · exact .refl _

theorem recoverAtTarget_preserves (m o c) : Preserves c (recoverAtTarget m o c) := by
  unfold recoverAtTarget
  split
  · exact (leaveLoad_preserves false c).trans (siteRecovered_preserves _)
  · exact applyCompletion_preserves _ _ _ c

theorem recoverRemoved_preserves (m o c) : Preserves c (recoverRemoved m o c) := by
  dsimp only [recoverRemoved]
  split
  · exact .refl c
  · split
    · exact .refl c
    next t _ _ w _ =>
      refine .trans ?_ (skipPending_preserves _ _ _ _)
      refine .trans ?_ (updateWafer_preserves _ _ _)
      have left : Preserves c (match w.place with | none => c | some p => clearOccupant p c) := by
        split
        · exact .refl c
        · exact clearOccupant_preserves _ c
      have dropped := left.trans ((clearTargetClaim_preserves o _).trans
        ((dropReservations_preserves t .inbound _).trans (dropReservations_preserves t .returning _)))
      split
      · exact dropped.trans (setLock_preserves _ _ _)
      · exact dropped.trans (setLock_preserves _ _ _)
      · exact dropped

theorem applyDisposition_preserves (d m o c) : Preserves c (applyDisposition d m o c) := by
  cases d with
  | atSource => exact recoverAtSource_preserves m o c
  | atTarget => exact recoverAtTarget_preserves m o c
  | removed => exact recoverRemoved_preserves m o c

theorem abortWafer_preserves (i c t) : Preserves c (abortWafer i c t) := by
  dsimp only [abortWafer]
  split
  · exact .refl c
  · split
    · refine .trans ?_ (skipPending_preserves _ _ _ _)
      split
      · split
        · exact updateWafer_preserves _ _ c
        · exact (updateWafer_preserves _ _ c).trans (dropReservations_preserves _ _ _)
      · exact .refl c
    · exact .refl c

theorem abortWafers_preserves (i c) : Preserves c (abortWafers i c) := by
  have reached := foldl_preserves (abortWafer i) (abortWafer_preserves i) allTags c
  dsimp only [abortWafers]
  split
  · exact reached.trans (abortSession_preserves _)
  · exact reached

/-! ### The focus counts -/

/-- Of 49 points the oldest goes, so a map of at most 48 keeps at most 48 (R106). -/
theorem addMapPoint_length (radius : Nat) (p : MapPoint) (m : List MapPoint) (h : m.length ≤ 48) :
    (addMapPoint radius p m).length ≤ 48 := by
  dsimp only [addMapPoint]
  have kept := List.length_filter_le
    (fun q : MapPoint => !decide (16 * distance2 q.x q.y p.x p.y < (radius : Int) * (radius : Int))) m
  split
  next full => simp only [List.length_drop]; omega
  next short => simp only [List.length_append, List.length_singleton] at short ⊢; omega

theorem acceptFocus_preserves (z sharpness point r c) : Preserves c (acceptFocus z sharpness point r c) := by
  dsimp only [acceptFocus]
  refine .trans ?_ (focusAccepted_preserves _ _ _)
  refine .trans (setMap_preserves _ c fun ok => ?_) { Preserves.refl _ with }
  split
  · exact addMapPoint_length _ _ _ ok.2.2.1
  · exact ok.2.2.1

theorem failFocus_preserves (why c) : Preserves c (failFocus why c) :=
  .trans (b := { c with focusRequest := none }) { Preserves.refl c with } (focusFailed_preserves _ _)

theorem takeCheck_preserves (count r c) : Preserves c (takeCheck count r c) := by
  dsimp only [takeCheck]
  split
  · refine .trans ?_ (acceptFocus_preserves _ _ _ _ _)
    split
    · rw [countMapHit_eq]
      exact countFor_preserves _ _ c
    · exact .refl c
  · exact (countStat_preserves _ c).trans (beginSweep_preserves _ _ _ _)

theorem concludeSweep_preserves (v r c) : Preserves c (concludeSweep v r c) := by
  cases v with
  | low => exact failFocus_preserves _ c
  | edge z =>
    dsimp only [concludeSweep]
    split
    · exact beginSweep_preserves _ _ _ c
    · exact failFocus_preserves _ c
  | accept z sharpness => exact acceptFocus_preserves _ _ _ _ c

theorem takeStep_preserves (count r c) : Preserves c (takeStep count r c) := by
  dsimp only [takeStep]
  split
  · exact startStep_preserves _ _ _ c
  · exact concludeSweep_preserves _ _ c

theorem takeCount_preserves (count c) : Preserves c (takeCount count c) := by
  dsimp only [takeCount]
  split
  · exact .refl c
  · split
    · exact takeCheck_preserves _ _ c
    · exact takeStep_preserves _ _ c
    · exact takeStep_preserves _ _ c

end Sys2Proof.Machine
end

section
/-! The settings of an image: what a stored setting is read as, and that clamped settings lie in their ranges (R178). -/

namespace Sys2Proof.Machine

theorem storedSettings_get (f : SettingName → Nat → Nat) (bytes : List Byte) (k : SettingName) :
    (storedSettings f bytes).get k = f k (storedSetting bytes k) := by
  cases k <;> rfl

/-- The lower end of a setting's range does not lie above the upper end. -/
theorem settingRange_le (k : SettingName) : (settingRange k).1 ≤ (settingRange k).2 := by
  cases k <;> decide

theorem clampSetting_in_range (k : SettingName) (v : Nat) :
    (settingRange k).1 ≤ clampSetting k v ∧ clampSetting k v ≤ (settingRange k).2 := by
  have := settingRange_le k
  simp only [clampSetting]
  omega

theorem defaultSettings_in_range (k : SettingName) :
    (settingRange k).1 ≤ defaultSettings.get k ∧ defaultSettings.get k ≤ (settingRange k).2 := by
  cases k <;> decide

/-- What the power-on read gives lies in the ranges, whatever the memory holds. -/
theorem readImage_in_range (bus : BusRead) (c : Part) (k : SettingName) :
    (settingRange k).1 ≤ (readImage bus c).1.get k ∧ (readImage bus c).1.get k ≤ (settingRange k).2 := by
  have stored (bytes : List Byte) : (settingRange k).1 ≤ (storedSettings clampSetting bytes).get k ∧
      (storedSettings clampSetting bytes).get k ≤ (settingRange k).2 := by
    rw [storedSettings_get]
    exact clampSetting_in_range k _
  cases bus with
  | noResponse => exact defaultSettings_in_range k
  | answered =>
    dsimp only [readImage, loadImage]
    split
    · exact defaultSettings_in_range k
    · split
      · exact defaultSettings_in_range k
      · split
        · exact defaultSettings_in_range k
        · split
          · exact stored _
          · exact stored _

end Sys2Proof.Machine
end

section
/-! What every command keeps of the part (O59, O60): the events, the requests, and the steps. -/

namespace Sys2Proof.Machine

/-! ### Events -/

/-- Settings that lie in their ranges keep the bounds. -/
theorem setSettings_preserves (ws : Settings) (c : Part)
    (h : BoundsOk c → ∀ k, (settingRange k).1 ≤ ws.get k ∧ ws.get k ≤ (settingRange k).2) :
    Preserves c { c with settings := ws } :=
  { Preserves.refl c with
    bounds := fun ok => by
      have ranges := h ok
      obtain ⟨credits, log, map, queue, -⟩ := ok
      exact ⟨credits, log, map, queue, ranges⟩ }

theorem endLoad_preserves (bus c) : Preserves c (endLoad bus c) := by
  have loaded (r : LoadResult) : Preserves c { c with
      settings := (readImage bus c).1, loading := false, loadResult := some r, drive := (readImage bus c).1.parkZ
      unsaved := decide (r ≠ .loaded) } :=
    (setSettings_preserves _ c fun _ => readImage_in_range bus c).trans { Preserves.refl _ with }
  dsimp only [endLoad]
  split
  · split
    · exact (loaded _).trans (recordError_preserves _ _ _)
    · exact loaded _
  · exact .refl c

theorem failSave_preserves (why c) : Preserves c (failSave why c) :=
  .trans (b := { c with lastSave := .failed why }) { Preserves.refl c with } (recordError_preserves _ _ _)

theorem concludeSave_preserves (s bus c) : Preserves c (concludeSave s bus c) := by
  cases bus with
  | readBack bytes =>
    dsimp only [concludeSave]
    split
    · exact { Preserves.refl c with }
    · exact failSave_preserves _ c
  | noResponse => exact failSave_preserves _ c

theorem endSave_preserves (bus c) : Preserves c (endSave bus c) := by
  dsimp only [endSave]
  split
  · exact .refl c
  · refine .trans ?_ (raiseEvent_preserves _ _ _)
    refine .trans ?_ (concludeSave_preserves _ _ _)
    exact { Preserves.refl c with
      memory := memoryWriteFrom_wf _ 0 _ (by have := List.length_take_le 56 (saveBytes bus); omega) }

theorem takeComplete_preserves (m tag text c) : Preserves c (takeComplete m tag text c) := by
  unfold takeComplete
  split
  · exact lateAnswer_preserves _ c
  · exact (setSlot_preserves _ _ c).trans ((countStat_preserves _ _).trans
      ((applyCompletion_preserves _ _ _ _).trans (settle_preserves _)))

theorem takeFault_preserves (m tag code c) : Preserves c (takeFault m tag code c) := by
  unfold takeFault
  split
  · exact lateAnswer_preserves _ c
  · exact (faultSlot_preserves _ _ _ c).trans (recordError_preserves _ _ _)

theorem takeTimeout_preserves (m c) : Preserves c (takeTimeout m c) := by
  unfold takeTimeout
  split
  · exact (faultSlot_preserves _ _ _ c).trans (recordError_preserves _ _ _)
  · exact .refl c

theorem setConverter_preserves (x : Converter) (c : Part) : Preserves c { c with converter := x } :=
  { Preserves.refl c with }

theorem disturbConversion_preserves (r c) : Preserves c (disturbConversion r c) := by
  dsimp only [disturbConversion]
  split
  · exact { Preserves.refl c with }
  · refine .trans ?_ (settle_preserves _)
    refine .trans ?_ (failFocus_preserves _ _)
    exact (setConverter_preserves .idle c).trans (recordError_preserves _ _ _)

theorem disturb_preserves (c) : Preserves c (disturb c) := by
  have cleared : Preserves c (if c.session.state = .idle then c else clearMap c) := by
    split
    · exact .refl c
    · exact clearMap_preserves c
  dsimp only [disturb]
  refine cleared.trans ?_
  generalize (if c.session.state = .idle then c else clearMap c) = d
  split
  · exact .refl d
  · split
    · exact disturbConversion_preserves _ d
    · exact .refl d

theorem endSettling_preserves (c) : Preserves c (endSettling c) := by
  unfold endSettling
  split
  · exact setConverter_preserves _ c
  · exact .refl c

theorem endZero_preserves (c) : Preserves c (endZero c) := by
  unfold endZero
  split
  · exact setConverter_preserves _ c
  · exact .refl c

theorem endIntegrate_preserves (c) : Preserves c (endIntegrate c) := by
  unfold endIntegrate
  split
  · exact setConverter_preserves _ c
  · exact .refl c

theorem endConversion_preserves (count c) : Preserves c (endConversion count c) := by
  unfold endConversion
  split
  · refine .trans ?_ (settle_preserves _)
    refine .trans ?_ (takeCount_preserves _ _)
    exact { Preserves.refl c with }
  · exact .refl c

theorem expirePoint_preserves (index c) : Preserves c (expirePoint index c) :=
  setMap_preserves _ c fun ok => le_trans (List.length_eraseIdx_le _ _) ok.2.2.1

theorem expireFocusHold_preserves (c) : Preserves c (expireFocusHold c) := by
  dsimp only [expireFocusHold]
  split
  · exact .refl c
  · split
    · exact .refl c
    · split
      · exact withdrawWaiting_preserves c
      · exact (withdrawWaiting_preserves c).trans
          ((updateSite_preserves _ _ _ _).trans (takeFocusRequest_preserves _ _ _ _ _))

theorem expireCapture_preserves (number c) : Preserves c (expireCapture number c) := by
  dsimp only [expireCapture]
  split
  · exact .refl c
  · split
    · exact .refl c
    · exact (freeRecord_preserves _ c).trans ((resolveSite_preserves _ _ _ _).trans
        ((recordError_preserves _ _ _).trans ((siteLeft_preserves _ _ _).trans (settle_preserves _))))

theorem expireClassWait_preserves (number c) : Preserves c (expireClassWait number c) := by
  unfold expireClassWait
  split
  · exact .refl c
  · split
    · exact (freeRecord_preserves _ c).trans ((resolveSite_preserves _ _ _ _).trans (settle_preserves _))
    · exact .refl c

theorem PartEvent.preserves {f : Part → Part} (h : PartEvent f) (c : Part) : Preserves c (f c) := by
  cases h with
  | endLoad bus => exact endLoad_preserves bus c
  | endSave bus => exact endSave_preserves bus c
  | complete m tag text => exact takeComplete_preserves m tag text c
  | fault m tag code => exact takeFault_preserves m tag code c
  | timeout m => exact takeTimeout_preserves m c
  | disturb => exact disturb_preserves c
  | endSettling => exact endSettling_preserves c
  | endZero => exact endZero_preserves c
  | endIntegrate => exact endIntegrate_preserves c
  | endConversion count => exact endConversion_preserves count c
  | expirePoint index => exact expirePoint_preserves index c
  | expireFocusHold => exact expireFocusHold_preserves c
  | expireCapture number => exact expireCapture_preserves number c
  | expireClassWait number => exact expireClassWait_preserves number c

/-! ### Requests -/

theorem doCarrierDocked_preserves (port id c) : Preserves c (doCarrierDocked port id c).part := by
  unfold doCarrierDocked
  split
  · exact .refl c
  · split_ifs
    · exact .refl c
    · exact .refl c
    · exact .refl c
    · exact setCarrier_preserves _ _ c

theorem doSlotMap_preserves (port entries c) : Preserves c (doSlotMap port entries c).part := by
  unfold doSlotMap
  split
  · exact .refl c
  · split_ifs
    · exact .refl c
    · split
      · exact .refl c
      · exact setCarrier_preserves _ _ c

theorem doCarrierRelease_preserves (port c) : Preserves c (doCarrierRelease port c).part := by
  unfold doCarrierRelease
  split
  · exact .refl c
  · split
    · exact .refl c
    · exact .refl c
    · split_ifs
      · exact .refl c
      · exact setCarrier_preserves _ _ c

theorem freeLot_preserves (i c) : Preserves c (freeLot i c) := by
  dsimp only [freeLot]
  refine .trans ?_ (raiseLotState_preserves _)
  refine .trans (b := freeListsOf i (setLot i none c)) ?_ { Preserves.refl _ with }
  exact (setLot_preserves i none c fun _ _ h => by cases h).trans (freeListsOf_preserves i _)

theorem doCarrierUndocked_preserves (port c) : Preserves c (doCarrierUndocked port c).part := by
  dsimp only [doCarrierUndocked]
  split
  · exact .refl c
  · split
    · exact .refl c
    · exact (setCarrier_preserves _ _ c).trans (freeLot_preserves _ _)
    · exact setCarrier_preserves _ _ c
    · exact .refl c
    · exact setCarrier_preserves _ _ c

theorem doLotDefine_preserves (id port recipe priority selection c) :
    Preserves c (doLotDefine id port recipe priority selection c).part := by
  unfold doLotDefine
  split
  · exact .refl c
  · split
    · exact .refl c
    · split
      · exact .refl c
      · split
        · exact .refl c
        · split_ifs
          · exact .refl c
          · exact .refl c
          · exact .refl c
          · exact .trans (setLot_preserves _ _ c fun _ x hx => by cases hx; exact fun _ => rfl)
              (raiseLotState_preserves _)

/-- The lot an ID names stands in its record. -/
theorem lotNamed_lot {c : Part} {id : Text} {i : LoadPort} {l : Lot} (h : c.lotNamed id = some (i, l)) :
    c.lot? i = some l := by
  unfold Part.lotNamed at h
  split at h
  · cases h
  · split at h
    · cases h
    next found =>
      cases h
      exact found

theorem doLotStart_preserves (id c) : Preserves c (doLotStart id c).part := by
  dsimp only [doLotStart]
  split
  · exact .refl c
  next i l named =>
    split
    · exact .refl c
    · dsimp only [answerOk]
      refine .trans ?_ (settle_preserves _)
      refine .trans ?_ (raiseLotState_preserves _)
      refine .trans (b := { c with startCounter := saturate32 (c.startCounter + 1) }) { Preserves.refl c with } ?_
      exact setLot_preserves i _ _ fun ok x hx => by cases hx; exact ok i l (lotNamed_lot named)

theorem doLotHold_preserves (p id scope c) : Preserves c (doLotHold p id scope c).part := by
  dsimp only [doLotHold]
  split
  · exact .refl c
  next s _ =>
    split
    · exact .refl c
    next i l _ =>
      split
      next lives =>
        have held := (changeHold_preserves i l (setOwnSource p (some s) l) c fun _ aborted => by
          cases p <;> simp [setOwnSource, lives.2] at aborted).trans (raiseEvent_preserves .automation .holdSet _)
        dsimp only [answerOk]
        split
        · exact held.trans (settle_preserves _)
        · exact held
      · exact .refl c

/-- A hold with no source is none. -/
theorem hold_none_iff (l : Lot) : l.hold = .none ↔ l.holdTool = none ∧ l.holdAuto = none ∧ l.holdExc = none := by
  rcases l with ⟨_, _, _, _, _, tool, auto, exc, _, _, _⟩
  rcases tool with _ | _ | _ <;> rcases auto with _ | _ | _ <;> rcases exc with _ | _ | _ <;> simp [Lot.hold]

/-- A lot that may not be held is still so with one source fewer. -/
theorem freed_ok (l : Lot) (p : PortId) (h : l.Ok) :
    ({ l with holdExc := none } : Lot).Ok ∧ (setOwnSource p none l).Ok := by
  refine ⟨fun aborted => ?_, fun aborted => ?_⟩
  · obtain ⟨tool, auto, -⟩ := (hold_none_iff l).mp (h aborted)
    exact (hold_none_iff _).mpr ⟨tool, auto, rfl⟩
  · obtain ⟨tool, auto, exc⟩ := (hold_none_iff l).mp (h (by cases p <;> exact aborted))
    rw [hold_none_iff]
    cases p <;> simp [setOwnSource, tool, auto, exc]

theorem doLotRelease_preserves (p id choice c) : Preserves c (doLotRelease p id choice c).part := by
  have released (i : LoadPort) (l x : Lot) (found : c.lot? i = some l) (h : l.Ok → x.Ok) :
      Preserves c (answerOk .empty (settle (changeHold i l x c))).part := by
    dsimp only [answerOk]
    exact (changeHold_preserves i l x c fun ok => h (ok i l found)).trans (settle_preserves _)
  dsimp only [doLotRelease]
  split
  · exact .refl c
  next excursion _ =>
    split
    · exact .refl c
    · split
      · exact .refl c
      next i l named =>
        cases excursion
        · simp only [Bool.false_eq_true, if_false]
          split
          · exact .refl c
          · exact released i l _ (lotNamed_lot named) fun ok => (freed_ok l p ok).2
        · simp only [if_true]
          split
          · exact .refl c
          · exact released i l _ (lotNamed_lot named) fun ok => (freed_ok l p ok).1

theorem doLotAbort_preserves (id c) : Preserves c (doLotAbort id c).part := by
  have ended (i : LoadPort) (x : Lot) (h : x.hold = .none) : Preserves c (setLot i (some x) c) :=
    setLot_preserves i _ c fun _ y hy => by cases hy; exact fun _ => h
  dsimp only [doLotAbort]
  split
  · exact .refl c
  next i l named =>
    split
    · exact (ended i (abortedLot l) rfl).trans (completeLot_preserves i _)
    · dsimp only [answerOk]
      refine .trans ?_ (settle_preserves _)
      refine .trans ?_ (abortWafers_preserves i _)
      exact (ended i _ rfl).trans (raiseLotState_preserves _)
    · split
      · exact .refl c
      · dsimp only [answerOk]
        refine .trans ?_ (settle_preserves _)
        refine .trans ?_ (abortWafers_preserves i _)
        split
        · exact ended i (abortedLot l) rfl
        · exact (ended i (abortedLot l) rfl).trans (raiseLotState_preserves _)
    · exact .refl c

theorem doLotQuery_preserves (sel c) : Preserves c (doLotQuery sel c).part := by
  cases sel with
  | lot id =>
    dsimp only [doLotQuery]
    split <;> exact .refl c
  | port n =>
    dsimp only [doLotQuery]
    split <;> exact .refl c

theorem doRecipeSet_preserves (slot fields c) : Preserves c (doRecipeSet slot fields c).part := by
  unfold doRecipeSet
  split_ifs
  · exact .refl c
  · exact .refl c
  · split
    · exact .refl c
    · exact { Preserves.refl c with }

theorem doRecipeQuery_preserves (slot c) : Preserves c (doRecipeQuery slot c).part := by
  unfold doRecipeQuery
  split <;> exact .refl c

/-- A list that comes into being is empty, and no other has its lot and slot. -/
theorem ensureList_preserves (i slot c) : Preserves c (ensureList i slot c) := by
  unfold ensureList
  split
  next absent =>
    refine { Preserves.refl c with pool := fun ⟨sum, nodup⟩ => ⟨by simpa [heldEntries] using sum, ?_⟩ }
    have fresh : ∀ l ∈ c.lists, l.lot = i → ¬ l.slot = slot := by
      simpa [Part.list?, List.find?_eq_none] using absent
    simp only [List.map_append, List.map_cons, List.map_nil, List.nodup_append]
    refine ⟨nodup, by simp, ?_⟩
    simpa using fun l hl same => fresh l hl same
  · exact .refl c

theorem insertEntry_length (e : SiteEntry) (l : List SiteEntry) : (insertEntry e l).length = l.length + 1 := by
  induction l with
  | nil => rfl
  | cons f rest ih =>
    unfold insertEntry
    split
    · rfl
    · simp [ih]

theorem insertEntries_length (es : List SiteEntry) :
    ∀ l : List SiteEntry, (es.foldl (fun acc e => insertEntry e acc) l).length = l.length + es.length := by
  induction es with
  | nil => exact fun _ => rfl
  | cons e rest ih =>
    intro l
    simp only [List.foldl_cons, ih, insertEntry_length, List.length_cons]
    omega

/-- Of lists with one name each, rewriting the one of a name adds what that one gains. -/
theorem heldEntries_grown (i : LoadPort) (slot n : Nat) (g : RevisitList → RevisitList) (ls : List RevisitList)
    (nodup : (ls.map (fun l => (l.lot, l.slot))).Nodup) (found : (i, slot) ∈ ls.map (fun l => (l.lot, l.slot)))
    (grows : ∀ l, (g l).entries.length = l.entries.length + n) :
    ((ls.map (fun l => if l.lot == i && l.slot == slot then g l else l)).map (·.entries.length)).sum =
      (ls.map (·.entries.length)).sum + n := by
  induction ls with
  | nil => simp at found
  | cons l rest ih =>
    simp only [List.map_cons, List.nodup_cons, List.mem_cons] at nodup found
    obtain ⟨fresh, nodup⟩ := nodup
    by_cases here : l.lot = i ∧ l.slot = slot
    · obtain ⟨rfl, rfl⟩ := here
      have others : rest.map (fun x => if x.lot == l.lot && x.slot == l.slot then g x else x) = rest := by
        refine (List.map_congr_left fun x hx => ?_).trans (List.map_id' rest)
        have other : ¬ (x.lot = l.lot ∧ x.slot = l.slot) := fun ⟨lot, slot⟩ =>
          fresh (List.mem_map.mpr ⟨x, hx, by rw [lot, slot]⟩)
        rw [if_neg (by simpa using other)]
      simp only [List.map_cons, List.sum_cons, others, beq_self_eq_true, Bool.and_self, if_true, grows]
      omega
    · have there : (i, slot) ∈ rest.map (fun l => (l.lot, l.slot)) :=
        found.resolve_left (fun same => here ⟨(congrArg Prod.fst same).symm, (congrArg Prod.snd same).symm⟩)
      have ih := ih nodup there
      simp only [List.map_cons, List.sum_cons, ih]
      have : (l.lot == i && l.slot == slot) = false := by simpa using here
      simp [this]
      omega

/-- Sites that the pool covers move from it into their list. -/
theorem loadSites_preserves (i slot es c) (room : es.length ≤ c.freeCount) : Preserves c (loadSites i slot es c) := by
  have ensured := ensureList_preserves i slot c
  have listed : (i, slot) ∈ (ensureList i slot c).lists.map (fun l => (l.lot, l.slot)) := by
    unfold ensureList
    split
    · simp
    next l found =>
      have here : l.lot = i ∧ l.slot = slot := by simpa using List.find?_some found
      exact List.mem_map.mpr ⟨l, List.mem_of_find?_eq_some found, by rw [here.1, here.2]⟩
  have free : (ensureList i slot c).freeCount = c.freeCount := by
    unfold ensureList
    split <;> rfl
  dsimp only [loadSites]
  refine .trans ?_ (updateLot_preserves i _ _ fun _ ok => ok)
  refine ensured.trans { Preserves.refl (ensureList i slot c) with pool := fun ⟨sum, nodup⟩ => ⟨?_, ?_⟩ }
  · have grown := heldEntries_grown i slot es.length
      (fun l => { l with entries := es.foldl (fun acc e => insertEntry e acc) l.entries }) _ nodup listed
      (fun l => insertEntries_length es l.entries)
    simp only [heldEntries, updateList] at grown sum ⊢
    omega
  · refine (List.map_map ..).symm ▸ ?_
    convert nodup using 2
    funext l
    dsimp only [Function.comp]
    split <;> rfl

theorem doSiteLoad_preserves (id slot sites c) : Preserves c (doSiteLoad id slot sites c).part := by
  dsimp only [doSiteLoad]
  split
  · exact .refl c
  · split
    · exact .refl c
    · split
      · exact .refl c
      next fits => exact loadSites_preserves _ _ _ c (by omega)

theorem doSiteSeal_preserves (id slot c) : Preserves c (doSiteSeal id slot c).part := by
  dsimp only [doSiteSeal]
  split
  · exact .refl c
  next i _ =>
    dsimp only [answerOk]
    refine .trans ?_ (settle_preserves _)
    exact (ensureList_preserves i slot.toNat c).trans
      (updateList_preserves i slot.toNat (fun l => { l with sealed := true }) _ fun _ => ⟨rfl, rfl⟩)

theorem doSiteQuery_preserves (sel c) : Preserves c (doSiteQuery sel c).part := by
  cases sel with
  | pool => exact .refl c
  | list id slot start =>
    dsimp only [doSiteQuery]
    split
    · exact .refl c
    · split <;> exact .refl c

theorem doMoverRecover_preserves (mover disposition c) : Preserves c (doMoverRecover mover disposition c).part := by
  dsimp only [doMoverRecover]
  split
  · split
    · split
      · exact .refl c
      · dsimp only [answerOk]
        exact (recoverSlot_preserves _ _ c).trans ((applyDisposition_preserves _ _ _ _).trans (settle_preserves _))
    · exact .refl c
  · exact .refl c

theorem fetchOldest_length (l : List CaptureRecord) (r : CaptureRecord) (log : List CaptureRecord)
    (h : fetchOldest l = some (r, log)) : log.length = l.length := by
  induction l generalizing log with
  | nil => cases h
  | cons x rest ih =>
    unfold fetchOldest at h
    split at h
    · cases h
      rfl
    · obtain ⟨⟨y, log'⟩, found, same⟩ := Option.map_eq_some_iff.mp h
      cases same
      simp [ih log' found]

theorem doCaptureFetch_preserves (c) : Preserves c (doCaptureFetch c).part := by
  dsimp only [doCaptureFetch]
  split
  · exact .refl c
  next found => exact setLog_preserves _ c fun ok => by rw [fetchOldest_length _ _ _ found]; exact ok.2.1

theorem doneGood_preserves (r c) : Preserves c (doneGood r c) :=
  (updateCapture_preserves _ _ c).trans ((updateSite_preserves _ _ _ _).trans (siteLeft_preserves _ _ _))

/-- Whether the lot of a wafer tag is aborted. -/
def Part.waferAborted (c : Part) (t : Nat) : Bool :=
  match c.lotOfWafer t with
  | none => false
  | some i => c.lotAborted i

/-- The site of a rejected capture whose lot lives, by the session's state (R81, R85). -/
def retryLive (r : CaptureRecord) (e : SiteEntry) (c : Part) : Part :=
  match c.session.state with
  | .active => takeFocusRequest .forced e.x e.y r.z c
  | .pausing => leaveFlight (returnToPending r.wafer r.site c)
  | _ => c

theorem retryRejected_eq (r : CaptureRecord) (e : SiteEntry) (c : Part) :
    retryRejected r e c =
      let d := updateSite r.wafer r.site (fun e => { e with state := .focusing }) c
      if d.waferAborted r.wafer then siteLeft r.wafer r.site (resolveSite r.wafer r.site (.skipped .aborted) d)
      else retryLive r e d := rfl

/-- A rejection is counted, in the lot totals where the wafer has a lot (R125, R138). -/
def countReject (t : Nat) (c : Part) : Part :=
  match c.lotOfWafer t with
  | none => countStat .capturesRejected c
  | some i => countRejection i c

/-- The record leaves the log, the rejection is counted, and the site has one attempt more (R125). -/
def rejectRecord (r : CaptureRecord) (c : Part) : Part :=
  updateSite r.wafer r.site (fun e => { e with attempts := e.attempts + 1, acceptedZ := none, captureNo := none })
    (countReject r.wafer (freeRecord r.number c))

theorem doneReject_eq (r : CaptureRecord) (c : Part) :
    doneReject r c =
      let d := rejectRecord r c
      match d.site? r.wafer r.site with
      | none => d
      | some (_, _, e) =>
        if e.attempts < (d.waferRecipe r.wafer).attemptLimit then retryRejected r e d
        else siteLeft r.wafer r.site (resolveSite r.wafer r.site (.failed .captureRejected) d) := rfl

theorem retryLive_preserves (r e c) : Preserves c (retryLive r e c) := by
  unfold retryLive
  split
  · exact takeFocusRequest_preserves _ _ _ _ c
  · exact (returnToPending_preserves _ _ c).trans (leaveFlight_preserves _)
  · exact .refl c

theorem retryRejected_preserves (r e c) : Preserves c (retryRejected r e c) := by
  rw [retryRejected_eq]
  have focusing := updateSite_preserves r.wafer r.site (fun e => { e with state := .focusing }) c
  dsimp only
  split
  · exact focusing.trans ((resolveSite_preserves _ _ _ _).trans (siteLeft_preserves _ _ _))
  · exact focusing.trans (retryLive_preserves _ _ _)

theorem countReject_preserves (t c) : Preserves c (countReject t c) := by
  unfold countReject
  split
  · exact countStat_preserves _ c
  · exact countRejection_preserves _ c

theorem rejectRecord_preserves (r c) : Preserves c (rejectRecord r c) :=
  (freeRecord_preserves _ c).trans ((countReject_preserves _ _).trans (updateSite_preserves _ _ _ _))

theorem doneReject_preserves (r c) : Preserves c (doneReject r c) := by
  rw [doneReject_eq]
  have rejected := rejectRecord_preserves r c
  dsimp only
  split
  · exact rejected
  · split
    · exact rejected.trans (retryRejected_preserves _ _ _)
    · exact rejected.trans ((resolveSite_preserves _ _ _ _).trans (siteLeft_preserves _ _ _))

theorem doCaptureDone_preserves (number result c) : Preserves c (doCaptureDone number result c).part := by
  dsimp only [doCaptureDone]
  split
  · exact .refl c
  · split
    · exact countStat_preserves _ c
    · split
      · dsimp only [answerOk]
        refine .trans ?_ (settle_preserves _)
        split
        · exact doneGood_preserves _ c
        · exact doneReject_preserves _ c
      · exact .refl c

theorem doClassPost_preserves (number cls confidence c) : Preserves c (doClassPost number cls confidence c).part := by
  dsimp only [doClassPost]
  split
  · split
    · exact countStat_preserves _ c
    · split
      · dsimp only [answerOk]
        exact (freeRecord_preserves _ c).trans ((resolveSite_preserves _ _ _ _).trans (settle_preserves _))
      · exact .refl c
  · exact .refl c

theorem setCredits_preserves (n : Nat) (c : Part) (h : n ≤ 255) : Preserves c { c with credits := n } :=
  { Preserves.refl c with bounds := fun ⟨_, rest⟩ => ⟨h, rest⟩ }

theorem doBufferGrant_preserves (n c) : Preserves c (doBufferGrant n c).part := by
  dsimp only [doBufferGrant]
  split
  · exact .refl c
  · dsimp only [answerOk]
    refine .trans ?_ (tryIssue_preserves _)
    refine .trans ?_ (setCredits_preserves _ _ (Nat.min_le_right _ _))
    split
    · exact .refl c
    · exact recordError_preserves _ _ c

theorem doReportFetch_preserves (sel c) : Preserves c (doReportFetch sel c).part := by
  unfold doReportFetch
  split <;> exact .refl c

theorem acknowledge_preserves (k c) : Preserves c (acknowledge k c) := by
  have entered : Preserves c (fillQueue c.waitingReports { c with reportQueue := c.reportQueue.drop k }) :=
    (setQueue_preserves _ c fun ok => by
      have := ok.2.2.2.1
      simp only [List.length_drop]
      omega).trans (fillQueue_preserves _ _)
  dsimp only [acknowledge]
  split
  · exact entered
  · exact entered.trans (raiseLotState_preserves _)

theorem doReportAck_preserves (number c) : Preserves c (doReportAck number c).part := by
  dsimp only [doReportAck]
  split
  · exact .refl c
  · exact acknowledge_preserves _ c

theorem doStatsTake_preserves (statistic amount c) : Preserves c (doStatsTake statistic amount c).part := by
  dsimp only [doStatsTake]
  split
  · exact .refl c
  · split
    · exact .refl c
    · exact { Preserves.refl c with }

theorem doNoticeRead_preserves (p c) : Preserves c (doNoticeRead p c).part := { Preserves.refl c with }

theorem doNoticeMaskSet_preserves (p conds c) : Preserves c (doNoticeMaskSet p conds c).part := by
  dsimp only [doNoticeMaskSet]
  split
  · exact .refl c
  · exact { Preserves.refl c with }

theorem doNoticeMaskClear_preserves (p conds c) : Preserves c (doNoticeMaskClear p conds c).part := by
  dsimp only [doNoticeMaskClear]
  split
  · exact .refl c
  · exact { Preserves.refl c with }

theorem doErrorRead_preserves (sel c) : Preserves c (doErrorRead sel c).part := by
  unfold doErrorRead
  split <;> exact .refl c

theorem clearError_preserves (c k) : Preserves c (clearError c k) :=
  setError_preserves k _ c fun _ => ⟨by simp, by simp, by simp⟩

theorem setReporting_preserves (c change) : Preserves c (setReporting c change) :=
  setError_preserves change.1 _ c fun ok => ok change.1

theorem doErrorClear_preserves (names changes c) : Preserves c (doErrorClear names changes c).part := by
  dsimp only [doErrorClear]
  split
  · exact (foldl_preserves clearError clearError_preserves _ c).trans
      (foldl_preserves setReporting setReporting_preserves _ _)
  · exact .refl c

theorem doModeSet_preserves (mode c) : Preserves c (doModeSet mode c).part := by
  unfold doModeSet
  split
  · exact .refl c
  · exact { Preserves.refl c with }

theorem applySetting_preserves (k v c) (h : (settingRange k).1 ≤ v ∧ v ≤ (settingRange k).2) :
    Preserves c (applySetting k v c) := by
  dsimp only [applySetting]
  split
  · exact .refl c
  · refine (setSettings_preserves (c.settings.set k v) c fun ok j => ?_).trans { Preserves.refl _ with }
    obtain ⟨-, -, -, -, ranges⟩ := ok
    by_cases same : k = j
    · subst same
      rwa [Settings.get_set_same]
    · rw [Settings.get_set_other _ _ _ _ same]
      exact ranges j

theorem doSettingSet_preserves (name value c) : Preserves c (doSettingSet name value c).part := by
  dsimp only [doSettingSet]
  split
  · exact .refl c
  · split
    · exact .refl c
    · split
      · exact .refl c
      · exact applySetting_preserves _ _ c (clampSetting_in_range _ _)

theorem doSettingsSave_preserves (c) : Preserves c (doSettingsSave c).part := by
  unfold doSettingsSave
  split
  · exact .refl c
  · exact { Preserves.refl c with }

theorem clearTool_preserves (c) : Preserves c (clearTool c) := by
  dsimp only [clearTool]
  refine .trans (b := { c with
    lots := ⟨none, none, none, none⟩
    carriers := ⟨⟨.empty, none, none⟩, ⟨.empty, none, none⟩, ⟨.empty, none, none⟩, ⟨.empty, none, none⟩⟩
    startCounter := 0, waitingReports := [], lists := [], freeCount := 12288, credits := 0, focusMap := [] }) ?_ ?_
  · exact { Preserves.refl c with
      pool := fun _ => ⟨rfl, by simp⟩
      bounds := fun ⟨_, log, _, rest⟩ => ⟨by simp, log, by simp, rest⟩
      aborts := fun _ i _ h => by cases i <;> cases h }
  · split
    · exact raiseLotState_preserves _
    · exact .refl _

theorem doToolClear_preserves (c) : Preserves c (doToolClear c).part := by
  unfold doToolClear
  split_ifs
  · exact .refl c
  · exact .refl c
  · exact .refl c
  · exact clearTool_preserves c

theorem execute_preserves (p : PortId) (r : Request) (c : Part) : Preserves c (execute p r c).part := by
  cases r with
  | carrierDocked port id => exact doCarrierDocked_preserves port id c
  | slotMap port entries => exact doSlotMap_preserves port entries c
  | carrierRelease port => exact doCarrierRelease_preserves port c
  | carrierUndocked port => exact doCarrierUndocked_preserves port c
  | lotDefine id port recipe priority selection => exact doLotDefine_preserves id port recipe priority selection c
  | lotStart id => exact doLotStart_preserves id c
  | lotHold id scope => exact doLotHold_preserves p id scope c
  | lotRelease id choice => exact doLotRelease_preserves p id choice c
  | lotAbort id => exact doLotAbort_preserves id c
  | lotQuery sel => exact doLotQuery_preserves sel c
  | recipeSet slot fields => exact doRecipeSet_preserves slot fields c
  | recipeQuery slot => exact doRecipeQuery_preserves slot c
  | siteLoad id slot sites => exact doSiteLoad_preserves id slot sites c
  | siteSeal id slot => exact doSiteSeal_preserves id slot c
  | siteQuery sel => exact doSiteQuery_preserves sel c
  | moverRecover mover disposition => exact doMoverRecover_preserves mover disposition c
  | cellQuery => exact .refl c
  | captureFetch => exact doCaptureFetch_preserves c
  | captureDone number result => exact doCaptureDone_preserves number result c
  | captureStatus => exact .refl c
  | classPost number cls confidence => exact doClassPost_preserves number cls confidence c
  | bufferGrant n => exact doBufferGrant_preserves n c
  | reportFetch sel => exact doReportFetch_preserves sel c
  | reportAck number => exact doReportAck_preserves number c
  | statsRead => exact .refl c
  | statsTake statistic amount => exact doStatsTake_preserves statistic amount c
  | noticeRead => exact doNoticeRead_preserves p c
  | noticeMaskSet conds => exact doNoticeMaskSet_preserves p conds c
  | noticeMaskClear conds => exact doNoticeMaskClear_preserves p conds c
  | errorRead sel => exact doErrorRead_preserves sel c
  | errorClear names changes => exact doErrorClear_preserves names changes c
  | modeSet mode => exact doModeSet_preserves mode c
  | settingSet name value => exact doSettingSet_preserves name value c
  | settingRead => exact .refl c
  | settingsSave => exact doSettingsSave_preserves c
  | toolClear => exact doToolClear_preserves c

/-! ### Ports and steps -/

theorem judgeKind_preserves (p k body c) : Preserves c (judgeKind p k body c).part := by
  unfold judgeKind
  split
  · exact .refl c
  · split
    · exact .refl c
    · exact execute_preserves _ _ c

theorem judgeRequest_preserves (p r c) : Preserves c (judgeRequest p r c).part := by
  unfold judgeRequest
  split
  · exact .refl c
  · exact judgeKind_preserves _ _ _ c

theorem judgeBytes_preserves (p code body c) : Preserves c (judgeBytes p code body c).part := by
  unfold judgeBytes
  split
  · exact .refl c
  · split
    · exact .refl c
    · exact judgeKind_preserves _ _ _ c

theorem enqueue_preserves (p r) (s : State) : Preserves s.part (enqueue p r s).part := by
  dsimp only [enqueue]
  split
  · exact .refl _
  · split <;> exact recordError_preserves _ _ s.part

theorem takeRow_preserves (p tag r) (s : State) : Preserves s.part (takeRow p tag r s).part := by
  unfold takeRow
  split
  · exact .refl _
  · split
    · exact judgeRequest_preserves _ _ s.part
    · exact enqueue_preserves _ _ s

theorem arrival_preserves (p r) (s : State) : Preserves s.part (arrival p r s).part := by
  unfold arrival
  split
  · exact .refl _
  · split
    · exact judgeBytes_preserves _ _ _ s.part
    · exact enqueue_preserves _ _ s

theorem endSending_preserves (p) (s : State) : Preserves s.part (endSending p s).part := by
  dsimp only [endSending]
  split
  · exact .refl _
  · dsimp only [takeNext]
    split
    · exact .refl _
    · split
      · exact .refl _
      · exact judgeBytes_preserves _ _ _ s.part

theorem receive_preserves (p bytes) (s : State) : Preserves s.part (receive p bytes s).part := by
  dsimp only [receive]
  split
  · exact .refl _
  · split
    · exact .refl _
    · exact recordError_preserves _ _ s.part
    · exact recordError_preserves _ _ s.part
    · exact arrival_preserves p _ (setPartial p _ s)

/-- The power-on values meet every invariant; the serial memory is kept as it was. -/
theorem powerOn_preserves (c : Part) (b : Bool) : Preserves c (Part.powerOn c.memory b) where
  pool _ := ⟨rfl, by simp [Part.powerOn]⟩
  bounds _ := ⟨by simp [Part.powerOn], by simp [Part.powerOn], by simp [Part.powerOn], by simp [Part.powerOn],
    defaultSettings_in_range⟩
  errors _ k := by
    have clear : (Part.powerOn c.memory b).errors.get k = ⟨false, 0, none, true⟩ := by cases k <;> rfl
    rw [clear]
    exact ⟨by simp, by simp, by simp⟩
  aborts _ i _ h := by cases i <;> cases h
  memory h := h

theorem Effect.preserves {f : State → State} (effect : Effect f) (s : State) : Preserves s.part (f s).part := by
  cases effect with
  | take p tag r => exact takeRow_preserves p tag r s
  | part f event => exact event.preserves s.part
  | powerOn =>
    dsimp only [powerOnState]
    exact (powerOn_preserves s.part _).trans (settle_preserves _)
  | linkUp p => exact .refl _
  | resetPort p =>
    dsimp only [Machine.resetPort]
    split
    · exact .refl _
    · exact { Preserves.refl s.part with }
  | receive p bytes => exact receive_preserves p bytes s
  | endSending p => exact endSending_preserves p s
  | arrival p r => exact arrival_preserves p r s
  | receiveOverlong p length =>
    dsimp only [Machine.receiveOverlong]
    split
    · exact .refl _
    · split
      · exact recordError_preserves _ _ s.part
      · exact .refl _

theorem step_preserves {s t : State} (h : step s = .next t) : Preserves s.part t.part := by
  obtain rfl | ⟨f, rest, effect, rfl⟩ := step_effect h
  · exact .refl _
  · exact effect.preserves { s with pending := rest }

/-- Settles O59: every operation on the part gives the pool what it takes from the lists. -/
theorem everyStepKeepsThePool : Obligations.EveryStepKeepsThePool := fun _ _ kept h => (step_preserves h).pool kept

/-- Settles O60: every operation on the part keeps each of the four invariants by itself. -/
theorem everyStepKeepsTheRecords : Obligations.EveryStepKeepsTheRecords := fun _ _ h =>
  ⟨(step_preserves h).bounds, (step_preserves h).errors, (step_preserves h).aborts, (step_preserves h).memory⟩

end Sys2Proof.Machine
end

section
/-! Arrivals, takes and sending (O5, O7, O9, O10, O12): when a port takes a request, and what it does with one that it
does not take. -/

namespace Sys2Proof.Machine

/-! ### A port that takes, and one that does not -/

theorem free_iff (q : Port) : q.free = true ↔ q.queue = [] ∧ ∀ r ∈ q.sendOrder, r.taken = false := by
  simp [Port.free, Port.busy, List.any_eq_false]

theorem not_free_of_queue {q : Port} (h : q.queue ≠ []) : q.free = false := by
  rw [Bool.eq_false_iff, ne_eq, free_iff]
  exact fun ⟨empty, _⟩ => h empty

theorem not_free_of_taken {q : Port} (h : ∃ x ∈ q.sendOrder, x.taken = true) : q.free = false := by
  rw [Bool.eq_false_iff, ne_eq, free_iff]
  obtain ⟨x, hx, taken⟩ := h
  exact fun ⟨_, untaken⟩ => by simp [untaken x hx] at taken

theorem not_free_of_long {q : Port} {n : Nat} (h : n + 1 ≤ q.queue.length) : q.free = false :=
  not_free_of_queue fun empty => by simp [empty] at h

/-- A full queue whose request is answered QUEUE_FULL (R162). -/
theorem enqueue_formed (p : PortId) (r : QueuedRequest) (s : State) (full : 4 ≤ (s.port p).queue.length)
    (room : (s.port p).sendOrder.length < 6) :
    enqueue p r s =
      { s with
        ports := s.ports.set p { s.port p with
          sendOrder := (s.port p).sendOrder ++ [⟨r.code, r.tag, .queueFull, .empty, false⟩] }
        part := recordError .queueOverrun (.queueOverrun p r.code r.tag true) s.part } := by
  simp [enqueue, queueCapacity, sendCapacity, Nat.not_lt.mpr full, room, State.setPort]

/-- A full queue whose request is lost (R162). -/
theorem enqueue_lost (p : PortId) (r : QueuedRequest) (s : State) (full : 4 ≤ (s.port p).queue.length)
    (no_room : 6 ≤ (s.port p).sendOrder.length) :
    enqueue p r s =
      { s with part := recordError .queueOverrun (.queueOverrun p r.code r.tag false) s.part } := by
  simp [enqueue, queueCapacity, sendCapacity, Nat.not_lt.mpr full, Nat.not_lt.mpr no_room]

/-- A request that its port does not take joins the queue or is turned away. -/
theorem takeRow_waits (p : PortId) (tag : Half) (r : Request) (s : State) (up : (s.port p).link = .up)
    (not_free : (s.port p).free = false) : takeRow p tag r s = enqueue p ⟨r.kind.code, tag, r.encode⟩ s := by
  simp [takeRow, up, not_free]

theorem arrival_waits (p : PortId) (r : QueuedRequest) (s : State) (up : (s.port p).link = .up)
    (not_free : (s.port p).free = false) : arrival p r s = enqueue p r s := by
  simp [arrival, up, not_free]

/-- A request that arrives as its bytes at an open port is judged as its bytes. -/
theorem arrival_open (p : PortId) (r : QueuedRequest) (s : State) (h : PortOpen s p) :
    arrival p r s =
      answered s p r.code r.tag (judgeBytes p r.code r.body s.part).part (judgeBytes p r.code r.body s.part).status
        (judgeBytes p r.code r.body s.part).body := by
  simp only [arrival, h.1, free_of_open s p h, if_true]
  rfl

theorem arrival_down (p : PortId) (r : QueuedRequest) (s : State) (h : (s.port p).link = .down) :
    arrival p r s = s := by
  simp [arrival, h]

/-! ### Links (R158, R159) -/

/-- Settles O5, by the port's link. -/
theorem linkChanges : Obligations.LinkChanges := by
  refine fun s p => ⟨rfl, fun up => ?_, fun down => ?_⟩
  · have reset : resetPort p s = State.setPort p Port.powerOn { s with part := resetNotices p s.part } := by
      simp [resetPort, up]
    exact congrArg Host.Outcome.next reset
  · have stays : resetPort p s = s := by simp [resetPort, down]
    exact congrArg Host.Outcome.next stays

/-! ### The checks at the take (R164) -/

theorem ofCode_none {code : Byte} (h : ∀ k : Kind, k.code ≠ code) : Kind.ofCode code = none := by
  simp [Kind.ofCode, List.find?_eq_none, h]

theorem judgeBytes_loading (p : PortId) (code : Byte) (body : List Byte) (c : Part) (h : c.loading = true) :
    judgeBytes p code body c = refuse .busy c := by
  simp [judgeBytes, h]

theorem judgeRequest_loading (p : PortId) (r : Request) (c : Part) (h : c.loading = true) :
    judgeRequest p r c = refuse .busy c := by
  simp [judgeRequest, h]

theorem judgeBytes_unknown (p : PortId) (code : Byte) (body : List Byte) (c : Part) (h : c.loading = false)
    (unknown : ∀ k : Kind, k.code ≠ code) : judgeBytes p code body c = refuse .unknownKind c := by
  simp [judgeBytes, h, ofCode_none unknown]

theorem exec_unknownKind (p : PortId) (tag : Half) (code : Byte) (body : List Byte) (s : State) :
    exec (.unknownKind p tag code body) s = .next (arrival p ⟨code, tag, body⟩ s) := rfl

/-- Settles O10: the port is open, so the judgement's reply is the answer, and each check refuses. -/
theorem checksAtTheTake : Obligations.ChecksAtTheTake := by
  intro s p tag r code body opens
  simp only [exec_row, exec_unknownKind, takeRow_open p tag r s opens, arrival_open p ⟨code, tag, body⟩ s opens]
  refine ⟨fun loading => ⟨?_, ?_⟩, fun loaded unknown => ?_, fun loaded not_permitted => ?_⟩
  · rw [judgeRequest_loading _ _ _ loading]
    rfl
  · rw [judgeBytes_loading _ _ _ _ loading]
    rfl
  · rw [judgeBytes_unknown _ _ _ _ loaded unknown]
    rfl
  · rw [judgeRequest_loaded _ _ _ loaded, judgeKind_refused _ _ _ _ not_permitted]
    rfl

/-! ### Arrivals that wait or are lost (R158, R161, R162) -/

/-- Settles O9: a DOWN link receives nothing, and a port that is not free queues the request or turns it away. -/
theorem arrivalsWaitOrAreLost : Obligations.ArrivalsWaitOrAreLost := by
  intro s p tag length r code body bytes joined c turnedAway
  simp only [exec_row, exec_unknownKind]
  refine ⟨fun down => ⟨?_, ?_, ?_, ?_⟩, fun up => ⟨fun room waits => ?_, fun full room => ?_, fun full no_room => ?_⟩⟩
  · rw [takeRow_down _ _ _ _ down]
  · rw [arrival_down _ _ _ down]
  · simp [exec, execRequestArrival, receive, down]
  · simp [exec, execOverlongLengthField, receiveOverlong, down]
  · have not_free := waits.elim not_free_of_queue not_free_of_taken
    rw [takeRow_waits _ _ _ _ up not_free, arrival_waits _ _ _ up not_free, enqueue_room _ _ _ room,
      enqueue_room _ _ _ room]
    exact ⟨rfl, rfl⟩
  · have not_free := not_free_of_long full
    rw [takeRow_waits _ _ _ _ up not_free, arrival_waits _ _ _ up not_free, enqueue_formed _ _ _ full room,
      enqueue_formed _ _ _ full room]
    exact ⟨rfl, rfl⟩
  · have not_free := not_free_of_long full
    rw [takeRow_waits _ _ _ _ up not_free, arrival_waits _ _ _ up not_free, enqueue_lost _ _ _ full no_room,
      enqueue_lost _ _ _ full no_room]
    exact ⟨rfl, rfl⟩

/-! ### Bytes (R160) -/

theorem PerPort.set_set {α : Type} (t : PerPort α) (i : PortId) (a b : α) : (t.set i a).set i b = t.set i b := by
  cases i <;> rfl

section Receives
variable {p : PortId} {bytes rest : List Byte} {s : State} (up : (s.port p).link = .up)
include up

theorem receive_frame {r : QueuedRequest}
    (found : scanFrame (dropToSync ((s.port p).partialFrame ++ bytes)) = .frame r rest) :
    receive p bytes s = arrival p r (setPartial p (dropToSync rest) s) := by
  simp only [receive, up, found]

theorem receive_badCrc {length tag : Half} {code : Byte}
    (found : scanFrame (dropToSync ((s.port p).partialFrame ++ bytes)) = .badCrc length code tag rest) :
    receive p bytes s = recordLinkCrc p (.linkCrc length code tag) (setPartial p (dropToSync rest) s) := by
  simp only [receive, up, found]

theorem receive_overlong {length : Half}
    (found : scanFrame (dropToSync ((s.port p).partialFrame ++ bytes)) = .overlong length rest) :
    receive p bytes s = recordLinkCrc p (.linkLength length) (setPartial p (dropToSync rest) s) := by
  simp only [receive, up, found]

theorem receive_incomplete (found : scanFrame (dropToSync ((s.port p).partialFrame ++ bytes)) = .incomplete) :
    receive p bytes s = setPartial p (dropToSync ((s.port p).partialFrame ++ bytes)) s := by
  simp only [receive, up, found]

theorem receiveOverlong_long {length : Half} (long : 1024 < length.toNat) :
    receiveOverlong p length s = recordLinkCrc p (.linkLength length) (setPartial p [] s) := by
  simp [receiveOverlong, up, maxBody, long]

end Receives

theorem setPartial_port (p : PortId) (bytes : List Byte) (s : State) :
    (setPartial p bytes s).port p = { s.port p with partialFrame := bytes } := State.port_setPort_same _ _ _

/-- A port's readiness does not depend on a frame partly received. -/
theorem open_setPartial (p : PortId) (bytes : List Byte) (s : State) (h : PortOpen s p) :
    PortOpen (setPartial p bytes s) p := by
  simpa only [PortOpen, setPartial_port] using h

/-- Settles O7, by what the receiver finds at the front of the bytes held. -/
theorem bytesArrive : Obligations.BytesArrive := by
  intro s p bytes rest length tag code r up held kept crcKind recorded
  have same (rest : List Byte) : setPartial p rest s = kept rest := rfl
  have crc : linkCrcKind p = crcKind := by cases p <;> rfl
  have noted (rest : List Byte) (d : ErrorDetail) : recordLinkCrc p d (setPartial p rest s) = recorded rest d := by
    rw [same, recordLinkCrc, crc]
    rfl
  refine ⟨fun found => ?_, fun found => ?_, fun found => ?_, fun found => ?_, fun long => ?_⟩
  · intro after port reply overrun out
    have arrives : out = .next (arrival p r after) := congrArg Host.Outcome.next (receive_frame up found)
    have port_eq : after.port p = { s.port p with partialFrame := dropToSync rest } := setPartial_port p _ s
    have after_up : (after.port p).link = .up := by rw [port_eq]; exact up
    rw [arrives]
    refine ⟨fun opens => ?_, fun closed room => ?_, fun full room => ?_, fun full no_room => ?_⟩
    · rw [arrival_open p r after (open_setPartial p _ s opens)]
    · have not_free : (after.port p).free = false := by
        rw [Bool.eq_false_iff, ne_eq, free_iff, port_eq]
        exact fun opens => closed ⟨up, opens⟩
      rw [arrival_waits _ _ _ after_up not_free, enqueue_room _ _ _ room]
      simp only [State.setPort, after, kept, PerPort.set_set]
      rfl
    · rw [arrival_waits _ _ _ after_up (not_free_of_long full), enqueue_formed _ _ _ full room]
      simp only [after, kept, PerPort.set_set]
      rfl
    · rw [arrival_waits _ _ _ after_up (not_free_of_long full), enqueue_lost _ _ _ full no_room]
      rfl
  · exact congrArg Host.Outcome.next ((receive_badCrc up found).trans (noted _ _))
  · exact congrArg Host.Outcome.next ((receive_overlong up found).trans (noted _ _))
  · exact congrArg Host.Outcome.next (receive_incomplete up found)
  · exact congrArg Host.Outcome.next ((receiveOverlong_long up long).trans (noted _ _))

/-! ### Sending, and the next take (R162, R163) -/

/-- The oldest response is sent with an empty queue: it leaves the send order, and nothing is taken. -/
theorem endSending_empty {p : PortId} {s : State} {x : Response} {rest : List Response}
    (order : (s.port p).sendOrder = x :: rest) (empty : (s.port p).queue = []) :
    endSending p s = State.setPort p { s.port p with sendOrder := rest } s := by
  simp only [endSending, order, takeNext, State.port_setPort_same, empty]

/-- While a taken response is left in the send order nothing is taken (R163). -/
theorem endSending_busy {p : PortId} {s : State} {x : Response} {rest : List Response}
    (order : (s.port p).sendOrder = x :: rest) (busy : ∃ y ∈ rest, y.taken = true) :
    endSending p s = State.setPort p { s.port p with sendOrder := rest } s := by
  have stands : Port.busy { s.port p with sendOrder := rest } = true := by simpa [Port.busy] using busy
  simp only [endSending, order, takeNext, State.port_setPort_same, stands, if_true]
  split <;> rfl

/-- With no taken response left the oldest request is taken, judged as its bytes (R163). -/
theorem endSending_takes {p : PortId} {s : State} {x : Response} {rest : List Response} {r : QueuedRequest}
    {queued : List QueuedRequest} (order : (s.port p).sendOrder = x :: rest) (waits : (s.port p).queue = r :: queued)
    (idle : ∀ y ∈ rest, y.taken = false) :
    endSending p s = answerTake p r.code r.tag (judgeBytes p r.code r.body s.part)
      (State.setPort p { s.port p with queue := queued, sendOrder := rest } s) := by
  have free : Port.busy { s.port p with sendOrder := rest } = false := by simpa [Port.busy, List.any_eq_false] using idle
  simp only [endSending, order, takeNext, State.port_setPort_same, waits]
  simp only [waits] at free
  simp only [free, Bool.false_eq_true, if_false, State.setPort, PerPort.set_set]

/-- Settles O12: the oldest response leaves, the port takes its oldest request, and the judgement's checks are in order. -/
theorem queuedRequestsAreTaken : Obligations.QueuedRequestsAreTaken := by
  refine ⟨?_, fun s p tag r now => exec_row_now r p tag s now, ?_⟩
  · intro s p x rest order sent
    refine ⟨fun empty => ?_, fun busy => ?_, fun r queued waits idle => ?_⟩
    · have ends : endSending p s = sent [] rest s.part := by
        simp only [endSending_empty order empty, State.setPort, empty, sent]
      exact congrArg Host.Outcome.next ends
    · exact congrArg Host.Outcome.next (endSending_busy order busy)
    · intro reply
      have ends : endSending p s = sent queued (rest ++ [⟨r.code, r.tag, reply.status, reply.body, true⟩]) reply.part := by
        rw [endSending_takes order waits idle]
        simp only [answerTake, State.port_setPort_same]
        simp only [State.setPort, PerPort.set_set]
        rfl
      exact congrArg Host.Outcome.next ends
  · intro p code k body r c
    refine ⟨judgeBytes_loading p code body c,
      fun loaded => ⟨judgeBytes_unknown p code body c loaded, fun refused => ?_, fun permits bad => ?_, fun permits good => ?_⟩⟩
    · rw [judgeBytes_code p k body c loaded, judgeKind_refused _ _ _ _ refused]
      rfl
    · rw [judgeBytes_code p k body c loaded, bad]
      simp [judgeKind, permits, refuse]
    · rw [judgeBytes_code p k body c loaded, good]
      simp [judgeKind, permits]

end Sys2Proof.Machine
end

section
/-! Requests in general: what a take row answers, and lists whose items each name a value (`mapAll`). -/

namespace Sys2Proof.Machine

/-- What a take row answers at a port that takes it now, from what its owning block replies. -/
theorem exec_answers {r : Request} {p : PortId} {tag : Half} {s : State} (now : TakesNow s p r.kind) {c : Part}
    {st : Status} {b : Body} (h : execute p r s.part = ⟨c, st, b⟩) :
    exec (r.row p tag) s = .next (answered s p r.kind.code tag c st b) := by
  rw [exec_row_now r p tag s now, h]

theorem mapAll_some {α β : Type} {f : α → Option β} {l : List α} (h : ∀ a ∈ l, (f a).isSome = true) :
    mapAll f l = some (l.filterMap f) := by
  induction l with
  | nil => rfl
  | cons a rest ih =>
    obtain ⟨b, hb⟩ := Option.isSome_iff_exists.mp (h a List.mem_cons_self)
    simp [mapAll, hb, ih fun x hx => h x (List.mem_cons_of_mem a hx)]

theorem mapAll_none {α β : Type} {f : α → Option β} {l : List α} (h : ∃ a ∈ l, f a = none) : mapAll f l = none := by
  induction l with
  | nil => simp at h
  | cons a rest ih =>
    obtain ⟨x, hx, none⟩ := h
    cases ha : f a with
    | none => simp [mapAll, ha]
    | some b =>
      obtain rfl | hx := List.mem_cons.mp hx
      · simp [ha] at none
      · simp [mapAll, ha, ih ⟨x, hx, none⟩]

end Sys2Proof.Machine
end

section
/-! The mode (O13) and the notices (O14, O15): conditions, masks, causes. -/

namespace Sys2Proof.Machine

/-! ### MODE_SET (R167) -/

theorem modeOf_eq : ∀ b : Byte, modeOf b = [Mode.localMode, .remoteMode][b.toNat]? := by decide

/-- Settles O13, by the mode that the byte names. -/
theorem modeSetTakesEffect : Obligations.ModeSetTakesEffect := by
  intro s p tag b now set
  have answers {c : Part} {st : Status} {x : Body} (h : doModeSet b s.part = ⟨c, st, x⟩) :
      exec (.modeSet p tag b) s = .next (answered s p 64#8 tag c st x) := exec_answers (r := .modeSet b) now h
  refine ⟨fun is_local => ?_, fun is_remote => ?_, fun other => ?_⟩
  · subst is_local
    exact answers rfl
  · subst is_remote
    exact answers rfl
  · have names_none : modeOf b = none := by
      rw [modeOf_eq, List.getElem?_eq_none]
      exact other
    exact answers (by simp [doModeSet, names_none, refuse])

/-! ### Conditions (R169, R170) -/

/-- What a level condition follows is no notice. -/
theorem levelStands_notices (c : Part) (n : PerPort PortNotice) (x : Condition) :
    levelStands { c with notices := n } x = levelStands c x := by
  cases x <;> rfl

theorem mem_rawSet (c : Part) (p : PortId) (x : Condition) :
    x ∈ rawSet c p ↔ x ∈ conditionsOf p ∧
      if x.isEvent then x ∈ (c.notices.get p).raised else levelStands c x = true := by
  simp only [rawSet, List.mem_filter, conditionRaised]
  split <;> simp

theorem isEvent_iff (x : Condition) :
    x.isEvent = true ↔ x ∈ [Condition.lotState, .settingsDone, .session, .excursion, .holdSet] := by
  cases x <;> decide

/-- Raising an event condition adds it to what is raised at its port (R169). -/
theorem mem_rawSet_raiseEvent (p : PortId) (x y : Condition) (c : Part) (hx : x ∈ conditionsOf p)
    (event : x.isEvent = true) : y ∈ rawSet (raiseEvent p x c) p ↔ y = x ∨ y ∈ rawSet c p := by
  have level : levelStands (raiseEvent p x c) y = levelStands c y := levelStands_notices c _ y
  rw [mem_rawSet, mem_rawSet, mem_raiseEvent, level]
  by_cases same : y = x
  · subst same
    simp [event, hx]
  · cases hy : y.isEvent <;> simp [same]

theorem statsHalf_iff (t : Stats) : statsHalf t = true ↔ ∃ k, 2147483648 ≤ (t.get k).toNat := by
  have all (k : Statistic) : k ∈ allStatistics := by cases k <;> decide
  simp [statsHalf, List.any_eq_true, all, BitVec.msb_eq_decide]

/-- What a level condition follows, and that an event condition follows what was raised (R169). -/
theorem mem_rawSet_follows (c : Part) (p : PortId) (x : Condition) : x ∈ rawSet c p ↔ x ∈ conditionsOf p ∧
    match x with
    | .carrierReleasable => ∃ i, (c.carrier i).state = .releasable
    | .moverFaulted => ∃ m o cause, c.slotOf m = .faulted o cause
    | .error => ∃ k, (c.errors.get k).flag = true ∧ (c.errors.get k).reporting = true
    | .capturePending => ∃ r ∈ c.captureLog, r.state = .unfetched
    | .creditLow => c.credits < c.settings.creditLow
    | .reportReady => c.reportQueue ≠ []
    | .statsHalf => ∃ k, 2147483648 ≤ (c.stats.get k).toNat
    | .lotState | .settingsDone | .session | .excursion | .holdSet => x ∈ (c.notices.get p).raised := by
  rw [mem_rawSet]
  refine and_congr_right fun _ => ?_
  cases x with
  | carrierReleasable => simp [Condition.isEvent, levelStands, mem_allLoadPorts]
  | moverFaulted =>
    have all (m : Mover) : m ∈ allMovers := by cases m <;> decide
    have faulted (x : OrderSlot) : x.isFaulted = true ↔ ∃ o cause, x = .faulted o cause := by
      cases x <;> simp [OrderSlot.isFaulted]
    simp [Condition.isEvent, levelStands, all, faulted]
  | error =>
    have all (k : ErrorKind) : k ∈ allErrorKinds := by cases k <;> decide
    simp [Condition.isEvent, levelStands, errorStands, all]
  | capturePending => simp [Condition.isEvent, levelStands]
  | creditLow => simp [Condition.isEvent, levelStands]
  | reportReady => simp [Condition.isEvent, levelStands]
  | statsHalf => simp [Condition.isEvent, levelStands, statsHalf_iff]
  | lotState | settingsDone | session | excursion | holdSet => rfl

theorem noticeLine_iff (c : Part) (p : PortId) :
    noticeLine c p = true ↔ ∃ x ∈ rawSet c p, x ∈ (c.notices.get p).enabled := by
  simp [noticeLine, maskedSet]

/-- Settles O14: what stands in the raw set, and what raising an event condition adds to it. -/
theorem noticesFollowTheStates : Obligations.NoticesFollowTheStates := by
  refine ⟨fun c p => ⟨?_, List.filter_sublist, rfl, fun x hx event => ⟨rfl, fun q other => ?_, ?_, fun y => ?_⟩⟩,
    fun c p => ⟨mem_rawSet_follows c p, noticeLine_iff c p⟩⟩
  · cases p <;> rfl
  · exact raiseEvent_other p q x c (Ne.symm other)
  · exact raiseEvent_enabled p p x c
  · exact mem_rawSet_raiseEvent p x y c hx ((isEvent_iff x).mpr event)

/-! ### Notice requests (R171, R172) -/

theorem conditionOf_eq : ∀ b : Byte, conditionOf b = ([some .carrierReleasable, some .moverFaulted, some .error, some .lotState,
    some .settingsDone, some .capturePending, some .creditLow, some .session, some .reportReady, some .statsHalf, none,
    some .excursion, some .holdSet][b.toNat]?).join := by decide

/-- Of the items of a list that pass a test, the first stands before every other one. -/
theorem idxOf_head_lt {α : Type} [DecidableEq α] (f : α → Bool) (l : List α) {x y : α} (hx : (l.filter f).head? = some x)
    (hy : y ∈ l.filter f) (other : y ≠ x) : l.idxOf x < l.idxOf y := by
  induction l with
  | nil => cases hy
  | cons a rest ih =>
    by_cases ha : f a = true
    · rw [List.filter_cons_of_pos ha, List.head?_cons, Option.some.injEq] at hx
      subst hx
      rw [List.idxOf_cons_self, List.idxOf_cons_ne _ (Ne.symm other)]
      exact Nat.succ_pos _
    · rw [List.filter_cons_of_neg ha] at hx hy
      have passes {z : α} (hz : z ∈ rest.filter f) : a ≠ z := by
        rintro rfl
        exact ha (List.mem_filter.mp hz).2
      rw [List.idxOf_cons_ne _ (passes (List.mem_of_mem_head? hx)), List.idxOf_cons_ne _ (passes hy)]
      exact Nat.succ_lt_succ (ih hx hy)

/-- The condition of a port that a name names. -/
def nameOn (p : PortId) (b : Byte) : Option Condition :=
  match conditionOf b with
  | none => none
  | some x => if (conditionsOf p).contains x then some x else none

theorem namedConditions_eq (p : PortId) (names : List Byte) : namedConditions p names = mapAll (nameOn p) names := rfl

theorem nameOn_some (p : PortId) (b : Byte) (x : Condition) :
    nameOn p b = some x ↔ conditionOf b = some x ∧ x ∈ conditionsOf p := by
  unfold nameOn
  split
  next none => simp [none]
  next y named =>
    rw [named, Option.some.injEq]
    split
    next on =>
      rw [Option.some.injEq]
      exact ⟨fun same => ⟨same, same ▸ List.contains_iff_mem.mp on⟩, fun h => h.1⟩
    next off => exact ⟨fun h => (by cases h), fun ⟨same, on⟩ => absurd (List.contains_iff_mem.mpr (same ▸ on)) off⟩

/-- Names that are all conditions of the port name those conditions. -/
theorem namedConditions_some (p : PortId) (names : List Byte) (h : ∀ b ∈ names, ∃ x ∈ conditionsOf p, conditionOf b = some x) :
    ∃ xs, namedConditions p names = some xs ∧
      ∀ x ∈ conditionsOf p, xs.contains x = names.any (fun b => conditionOf b == some x) := by
  refine ⟨_, mapAll_some fun b hb => ?_, fun x hx => ?_⟩
  · obtain ⟨x, on, named⟩ := h b hb
    exact Option.isSome_iff_exists.mpr ⟨x, (nameOn_some p b x).mpr ⟨named, on⟩⟩
  · rw [Bool.eq_iff_iff, List.contains_iff_mem, List.mem_filterMap, List.any_eq_true]
    refine exists_congr fun b => and_congr_right fun _ => ?_
    rw [beq_iff_eq]
    exact (nameOn_some p b x).trans (and_iff_left hx)

theorem namedConditions_none (p : PortId) (names : List Byte)
    (h : ∃ b ∈ names, ∀ x ∈ conditionsOf p, conditionOf b ≠ some x) : namedConditions p names = none := by
  obtain ⟨b, hb, other⟩ := h
  refine mapAll_none ⟨b, hb, ?_⟩
  rw [Option.eq_none_iff_forall_ne_some]
  intro x named
  obtain ⟨is, on⟩ := (nameOn_some p b x).mp named
  exact other x on is

/-- Settles O15: the cause is the first of the masked set, and names are conditions of the port or refuse the request. -/
theorem noticeRequests : Obligations.NoticeRequests := by
  refine ⟨conditionOf_eq, fun s p tag names => ?_⟩
  intro n names? change on off
  refine ⟨fun now => ?_, fun now good => ?_, fun now good => ?_, fun now bad => ?_, fun now bad => ?_⟩
  · intro masked
    refine ⟨exec_answers (r := .noticeRead) now rfl, List.head?_eq_none_iff, fun x hx =>
      ⟨List.mem_of_mem_head? hx, fun y hy other => ?_⟩⟩
    have both : masked = (conditionsOf p).filter
        (fun y => conditionRaised s.part p y && n.enabled.contains y) := by
      simp only [masked, rawSet, List.filter_filter]
      exact List.filter_congr fun y _ => Bool.and_comm _ _
    rw [both] at hx hy
    exact idxOf_head_lt _ _ hx hy other
  · obtain ⟨xs, named, same⟩ := namedConditions_some p names good
    have enabled : (conditionsOf p).filter (fun x => xs.contains x || n.enabled.contains x) = on :=
      List.filter_congr fun x hx => by rw [same x hx]
    refine exec_answers (r := .noticeMaskSet names) now ?_
    simp only [execute, doNoticeMaskSet, named, enableMasks, answerOk, PerPort.get_set_same]
    rw [enabled]
  · obtain ⟨xs, named, same⟩ := namedConditions_some p names good
    have enabled : (conditionsOf p).filter (fun x => !xs.contains x && n.enabled.contains x) = off :=
      List.filter_congr fun x hx => by rw [same x hx]
    refine exec_answers (r := .noticeMaskClear names) now ?_
    simp only [execute, doNoticeMaskClear, named, disableMasks, answerOk, PerPort.get_set_same]
    rw [enabled]
  · refine exec_answers (r := .noticeMaskSet names) now ?_
    simp only [execute, doNoticeMaskSet, namedConditions_none p names bad, refuse]
  · refine exec_answers (r := .noticeMaskClear names) now ?_
    simp only [execute, doNoticeMaskClear, namedConditions_none p names bad, refuse]

end Sys2Proof.Machine
end

section
/-! Errors (O16, O17) and statistics (O18). -/

namespace Sys2Proof.Machine

/-! ### Occurrences (R173) -/

/-- Settles O16, by the kind's flag. -/
theorem errorOccurrence : Obligations.ErrorOccurrence := by
  intro k d c before after
  have same : after.get k = noteError d before := ErrorTable.get_set_same _ _ _
  refine ⟨fun clear => ?_, fun set => ?_, fun j other => ?_, rfl⟩
  · rw [same]
    simp [noteError, clear]
  · rw [same]
    simp [noteError, set]
  · exact ErrorTable.get_set_other _ _ _ _ (Ne.symm other)

/-! ### Names of kinds and classes (R176, R177) -/

theorem errorClassOf_eq : ∀ b : Byte,
    errorClassOf b = if b.toNat < 12 then none else [ErrorClass.note, .tool, .wafer][b.toNat - 12]? := by decide

theorem errorKindOf_isSome (b : Byte) : (errorKindOf b).isSome = true ↔ b.toNat < 12 := by
  simp [errorKindOf, allErrorKinds]

theorem errorKindOf_none (b : Byte) : errorKindOf b = none ↔ 12 ≤ b.toNat := by
  simp [errorKindOf, allErrorKinds]

theorem mem_allErrorKinds (k : ErrorKind) : k ∈ allErrorKinds := by cases k <;> decide

/-- The kinds a list of names stands for are those that one of the names names. -/
theorem selectedKinds_kinds (names : List Byte) (h : ∀ b ∈ names, b.toNat < 12) :
    selectedKinds (.kinds names) = some (allErrorKinds.filter (fun k => names.any (fun b => errorKindOf b == some k))) := by
  simp only [selectedKinds, mapAll_some fun b hb => (errorKindOf_isSome b).mpr (h b hb), Option.map_some, inTableOrder]
  congr 1
  refine List.filter_congr fun k _ => ?_
  rw [Bool.eq_iff_iff, List.contains_iff_mem, List.mem_filterMap, List.any_eq_true]
  simp

theorem errorNameOf_isSome : ∀ b : Byte, (errorNameOf b).isSome = true ↔ b.toNat < 15 := by decide

/-- A name of ERROR_CLEAR stands for a kind directly or through its class. -/
theorem mem_errorNameOf {b : Byte} {ks : List ErrorKind} (h : errorNameOf b = some ks) (k : ErrorKind) :
    k ∈ ks ↔ errorKindOf b = some k ∨ errorClassOf b = some k.errorClass := by
  unfold errorNameOf at h
  split at h
  next j named =>
    cases h
    have low : b.toNat < 12 := (errorKindOf_isSome b).mp (by simp [named])
    have no_class : errorClassOf b = none := by simp [errorClassOf_eq, low]
    simp [named, no_class, eq_comm]
  next unnamed =>
    split at h
    next x cls =>
      cases h
      simpa [unnamed, cls, mem_allErrorKinds] using eq_comm
    next => cases h

/-! ### ERROR_CLEAR (R177) -/

/-- A kind that is cleared keeps its reporting enable alone. -/
def ErrorRecord.cleared (r : ErrorRecord) : ErrorRecord := { r with flag := false, count := 0, first := none }

theorem clearErrors_get (ks : List ErrorKind) (k : ErrorKind) : ∀ c : Part,
    (ks.foldl clearError c).errors.get k = if k ∈ ks then (c.errors.get k).cleared else c.errors.get k := by
  induction ks with
  | nil => exact fun c => by simp
  | cons j rest ih =>
    intro c
    rw [List.foldl_cons, ih]
    by_cases same : j = k
    · subst same
      simp [clearError, ErrorRecord.cleared]
    · have other : (clearError c j).errors.get k = c.errors.get k := ErrorTable.get_set_other _ _ _ _ same
      simp [other, Ne.symm same]

/-- Nothing but the error table changes. -/
theorem clearErrors_rest (ks : List ErrorKind) (c : Part) :
    ks.foldl clearError c = { c with errors := (ks.foldl clearError c).errors } :=
  foldl_inv clearError (fun d => d = { c with errors := d.errors })
    (fun d k h => by rw [h, clearError]) ks c rfl

/-- The reporting enable that changes leave a kind: that of the last change that names it (log 29). -/
def lastReporting (k : ErrorKind) (before : Bool) (vs : List (ErrorKind × Bool)) : Bool :=
  match vs.reverse.find? (fun v => v.1 == k) with
  | none => before
  | some v => v.2

theorem setReportings_get (vs : List (ErrorKind × Bool)) (k : ErrorKind) : ∀ c : Part,
    (vs.foldl setReporting c).errors.get k =
      { c.errors.get k with reporting := lastReporting k (c.errors.get k).reporting vs } := by
  induction vs with
  | nil => exact fun c => rfl
  | cons v rest ih =>
    intro c
    rw [List.foldl_cons, ih]
    by_cases same : v.1 = k
    · subst same
      have last : lastReporting v.1 (c.errors.get v.1).reporting (v :: rest) = lastReporting v.1 v.2 rest := by
        simp only [lastReporting, List.reverse_cons, List.find?_append]
        cases rest.reverse.find? (fun x => x.1 == v.1) <;> simp
      simp [setReporting, last]
    · have other : (setReporting c v).errors.get k = c.errors.get k := ErrorTable.get_set_other _ _ _ _ same
      have last (b : Bool) : lastReporting k b (v :: rest) = lastReporting k b rest := by
        simp only [lastReporting, List.reverse_cons, List.find?_append]
        cases rest.reverse.find? (fun x => x.1 == k) <;> simp [same]
      rw [other, last]

theorem setReportings_rest (vs : List (ErrorKind × Bool)) (c : Part) :
    vs.foldl setReporting c = { c with errors := (vs.foldl setReporting c).errors } :=
  foldl_inv setReporting (fun d => d = { c with errors := d.errors })
    (fun d v h => by rw [h, setReporting]) vs c rfl

theorem reportingChange_isSome (f : ReportingField) :
    (reportingChange f).isSome = true ↔ f.kind.toNat < 12 ∧ f.value.toNat < 2 := by
  have value : ∀ b : Byte, (yesNoOf b).isSome = true ↔ b.toNat < 2 := by decide
  rw [← errorKindOf_isSome, ← value, reportingChange]
  cases errorKindOf f.kind <;> cases yesNoOf f.value <;> simp

theorem reportingChange_some {f : ReportingField} {v : ErrorKind × Bool} (h : reportingChange f = some v) :
    errorKindOf f.kind = some v.1 ∧ (f.value == 1#8) = v.2 := by
  have value : ∀ (b : Byte) (x : Bool), yesNoOf b = some x → (b == 1#8) = x := by decide
  unfold reportingChange at h
  split at h
  next k x kind val =>
    cases h
    exact ⟨kind, value _ _ val⟩
  next => cases h

/-- The last change of a kind, read off the fields as they were sent. -/
theorem lastReporting_fields (k : ErrorKind) (before : Bool) (fs : List ReportingField)
    (good : ∀ f ∈ fs, (reportingChange f).isSome = true) :
    lastReporting k before (fs.filterMap reportingChange) =
      match fs.reverse.find? (fun f => errorKindOf f.kind == some k) with
      | none => before
      | some f => f.value == 1#8 := by
  have same : fs.reverse.find? (fun f => (reportingChange f).any (fun v => v.1 == k)) =
      fs.reverse.find? (fun f => errorKindOf f.kind == some k) := by
    refine List.find?_congr fun f hf => ?_
    obtain ⟨v, hv⟩ := Option.isSome_iff_exists.mp (good f (List.mem_reverse.mp hf))
    simp [hv, (reportingChange_some hv).1]
  unfold lastReporting
  rw [← List.filterMap_reverse, List.find?_filterMap, same]
  cases found : fs.reverse.find? (fun f => errorKindOf f.kind == some k) with
  | none => rfl
  | some f =>
    obtain ⟨v, hv⟩ := Option.isSome_iff_exists.mp (good f (List.mem_reverse.mp (List.mem_of_find?_eq_some found)))
    simp [hv, (reportingChange_some hv).2]

/-- Settles O17: the names are read through `mapAll`, and the error table changes kind by kind. -/
theorem errorRequests : Obligations.ErrorRequests := by
  refine ⟨by decide, fun b => ⟨rfl, errorClassOf_eq b⟩, ?_, ?_⟩
  · intro s p tag sel now flagged shown
    have answers {ks : List ErrorKind} (h : selectedKinds sel = some ks) :
        exec (.errorRead p tag sel) s = .next (answered s p 59#8 tag s.part .ok (shown ks)) :=
      exec_answers (r := .errorRead sel) now (by simp only [execute, doErrorRead, h]; rfl)
    refine ⟨fun all => answers (by rw [all]; rfl), fun b x cls named => answers ?_, fun names kinds low => answers ?_,
      fun bad => ?_⟩
    · simp [cls, selectedKinds, named]
    · rw [kinds, selectedKinds_kinds names low]
    · have none_selected : selectedKinds sel = none := by
        obtain ⟨b, rfl, unnamed⟩ | ⟨names, rfl, b, hb, high⟩ := bad
        · simp [selectedKinds, unnamed]
        · simp [selectedKinds, mapAll_none ⟨b, hb, (errorKindOf_none b).mpr high⟩]
      exact exec_answers (r := .errorRead sel) now (by simp only [execute, doErrorRead, none_selected]; rfl)
  · intro s p tag names changes now cleared good
    refine ⟨fun ⟨named, changed⟩ => ?_, fun bad => ?_⟩
    · have hks := mapAll_some fun b hb => (errorNameOf_isSome b).mpr (named b hb)
      have hgood : ∀ f ∈ changes.getD [], (reportingChange f).isSome = true :=
        fun f hf => (reportingChange_isSome f).mpr (changed f hf)
      have hvs := mapAll_some hgood
      generalize hk : names.filterMap errorNameOf = ks at hks
      have mem_ks (k : ErrorKind) : k ∈ ks.flatten ↔ cleared k := by
        subst hk
        simp only [List.mem_flatten, List.mem_filterMap, cleared]
        constructor
        · rintro ⟨l, ⟨b, hb, name⟩, hl⟩
          exact ⟨b, hb, (mem_errorNameOf name k).mp hl⟩
        · rintro ⟨b, hb, h⟩
          obtain ⟨l, name⟩ := Option.isSome_iff_exists.mp ((errorNameOf_isSome b).mpr (named b hb))
          exact ⟨l, ⟨b, hb, name⟩, (mem_errorNameOf name k).mpr h⟩
      let after := ((changes.getD []).filterMap reportingChange).foldl setReporting (ks.flatten.foldl clearError s.part)
      have rest : after = { s.part with errors := after.errors } := by
        simp only [after]
        rw [setReportings_rest, clearErrors_rest]
      refine ⟨after.errors, exec_answers (r := .errorClear names changes) now ?_, fun k => ?_⟩
      · simp only [execute, doErrorClear, hks, hvs, answerOk]
        rw [← rest]
      · intro before
        have table : after.errors.get k = { (if k ∈ ks.flatten then before.cleared else before) with
            reporting := lastReporting k (if k ∈ ks.flatten then before.cleared else before).reporting
              ((changes.getD []).filterMap reportingChange) } := by
          rw [setReportings_get, clearErrors_get]
        have keeps : (if k ∈ ks.flatten then before.cleared else before).reporting = before.reporting := by
          split <;> rfl
        rw [keeps, lastReporting_fields k _ _ hgood] at table
        refine ⟨fun h => ?_, fun h => ?_, congrArg ErrorRecord.reporting table⟩
        · rw [table, if_pos ((mem_ks k).mpr h)]
          exact ⟨rfl, rfl, rfl⟩
        · rw [table, if_neg (fun m => h ((mem_ks k).mp m))]
          exact ⟨rfl, rfl, rfl⟩
    · refine exec_answers (r := .errorClear names changes) now ?_
      have none_read : mapAll errorNameOf names = none ∨ mapAll reportingChange (changes.getD []) = none := by
        by_cases named : ∀ b ∈ names, b.toNat < 15
        · refine .inr (mapAll_none ?_)
          by_contra all
          refine bad ⟨named, fun f hf => (reportingChange_isSome f).mp ?_⟩
          rw [Option.isSome_iff_ne_none]
          exact fun none => all ⟨f, hf, none⟩
        · obtain ⟨b, hb, high⟩ := by simpa only [not_forall] using named
          exact .inl (mapAll_none ⟨b, hb, by
            rw [← Option.not_isSome_iff_eq_none, errorNameOf_isSome]
            exact high⟩)
      simp only [execute, doErrorClear]
      split
      next ks vs names_read changes_read => simp [names_read, changes_read] at none_read
      next => rfl

/-! ### Statistics (R145, R146) -/

/-- Settles O18: an amount is covered or refused, and a name is one of the twelve or refused. -/
theorem statisticsAreReadAndTaken : Obligations.StatisticsAreReadAndTaken := by
  refine ⟨rfl, fun s p tag b amount => ⟨fun now => ⟨statsHalf s.part.stats, statsHalf_iff _, exec_answers (r := .statsRead) now rfl⟩,
    fun now => ⟨fun k named covered => ?_, fun k named short => ?_, fun high => ?_⟩⟩⟩
  · refine exec_answers (r := .statsTake b amount) now ?_
    have enough : ¬ s.part.stats.get k < amount := by rw [BitVec.lt_def]; omega
    simp only [execute, doStatsTake, show statisticOf b = some k from named, enough, if_false, answerOk]
  · refine exec_answers (r := .statsTake b amount) now ?_
    have less : s.part.stats.get k < amount := by rwa [BitVec.lt_def]
    simp only [execute, doStatsTake, show statisticOf b = some k from named, less, if_true, refuse]
  · refine exec_answers (r := .statsTake b amount) now ?_
    have unnamed : statisticOf b = none := List.getElem?_eq_none high
    simp only [execute, doStatsTake, unnamed, refuse]

end Sys2Proof.Machine
end

section
/-! Reset (O3), power-on (O4), the converter's phases (O46), disturbances (O50). -/

namespace Sys2Proof.Machine

/-- Settles O3: every record of the reset state is a literal. -/
theorem resetRecords : Obligations.ResetRecords := by
  unfold Obligations.ResetRecords
  have ports (p : PortId) : PortKept (State.reset.port p) := by
    cases p <;> exact ⟨by decide, by decide, by decide, by decide, by decide, fun _ => rfl⟩
  have table (k : ErrorKind) : State.reset.part.errors.get k = ⟨false, 0, none, true⟩ := by cases k <;> rfl
  refine ⟨fun p => ?_, rfl, rfl, rfl, rfl, rfl, fun i => ?_, rfl, fun p => ?_, rfl, fun m => ?_, rfl, fun k => ?_, rfl, rfl,
    rfl, rfl, rfl, rfl, rfl, rfl, rfl, rfl, rfl, rfl, fun k => ?_, rfl, rfl, rfl, table, rfl, rfl, rfl, by decide, ports,
    ⟨rfl, by decide⟩, ?bounds, ?errors, ?aborts, rfl⟩
  · cases p <;> decide
  · cases i <;> decide
  · cases p <;> rfl
  · cases m <;> rfl
  · cases k <;> rfl
  · cases k <;> rfl
  case bounds =>
    refine ⟨by decide, by decide, by decide, by decide, fun k => ?_⟩
    cases k <;> decide
  case errors =>
    intro k
    rw [table]
    decide
  case aborts =>
    intro i l used
    cases i <;> cases used

/-- Settles O4: nothing is ready at power-on but the order that brings the stage to load. -/
theorem powerOnStartsOver : Obligations.PowerOnStartsOver := by
  intro s
  have runs : exec .powerOn s = .next (powerOnState s) := rfl
  rw [runs, powerOnState, settle_powerOn]
  simp [issueOrder, OrderKind.target?, orderTimeoutMs, Part.powerOn, OrderTable.set, State.reset]

/-! ### The converter (R91, R92, R107) -/

/-- Settles O46, by the phase the converter is in. -/
theorem converterPhasesFollow : Obligations.ConverterPhasesFollow := by
  intro s r ms index at'
  have next {i : Instr} {f : Part → Part} {c : Part} (h : exec i s = .next (onPart f s)) (hf : f s.part = c) :
      exec i s = .next (withPart s c) := by rw [h, ← hf]; rfl
  refine ⟨fun h => next (f := endSettling) rfl ?_, fun h => next (f := endZero) rfl ?_,
    fun h => next (f := endIntegrate) rfl ?_, fun h => next (f := endSettling) rfl ?_,
    fun h => next (f := endZero) rfl ?_, fun h => next (f := endIntegrate) rfl ?_, next (f := expirePoint index) rfl ?_⟩
  · simp [endSettling, h]
  · simp [endZero, h]
  · simp [endIntegrate, h]
  · cases k : s.part.converter <;> simp_all [endSettling]
  · cases k : s.part.converter <;> simp_all [endZero]
  · cases k : s.part.converter <;> simp_all [endIntegrate]
  · simp [expirePoint, List.eraseIdx_eq_take_drop_succ]

theorem converting_iff (x : Converter) : x.converting = true ↔
    ∃ res, x = .zero res ∨ x = .integrate res ∨ x = .deintegrate res := by
  cases x <;> simp [Converter.converting]

/-- The part after a disturbance has cleared the map of a session (R109). -/
def Part.disturbed (c : Part) : Part := { c with focusMap := if c.session.state = .idle then c.focusMap else [] }

theorem clearMap_unless_idle (c : Part) : (if c.session.state = .idle then c else clearMap c) = c.disturbed := by
  unfold Part.disturbed
  split <;> rfl

theorem disturb_resting {c : Part} (h : c.focusRequest = none ∨ c.converter.converting = false) :
    disturb c = c.disturbed := by
  unfold disturb
  rw [clearMap_unless_idle]
  obtain h | h := h <;> simp [Part.disturbed, h]
  split <;> rfl

theorem disturb_converting {c : Part} {r : FocusRequest} (request : c.focusRequest = some r)
    (h : c.converter.converting = true) : disturb c = disturbConversion r c.disturbed := by
  unfold disturb
  rw [clearMap_unless_idle]
  simp [Part.disturbed, request, h]

/-- Settles O50, by the converter's phase and the restarts counted. -/
theorem stageDisturbance : Obligations.StageDisturbance := by
  intro s map quiet
  have leaves {c : Part} (h : disturb s.part = c) : exec .stageDisturb s = .next (withPart s c) := by rw [← h]; rfl
  refine ⟨fun rests => leaves (disturb_resting ?_), fun r res request converts => ?_⟩
  · obtain idle | ⟨_, _, settling⟩ | no_request := rests
    · exact .inr (by rw [idle]; rfl)
    · exact .inr (by rw [settling]; rfl)
    · exact .inl no_request
  · have restarts := disturb_converting request ((converting_iff _).mpr ⟨res, converts⟩)
    refine ⟨fun below => leaves (restarts.trans ?_), fun fourth => leaves (restarts.trans ?_)⟩
    · simp only [disturbConversion, below, if_true]
      rfl
    · simp only [disturbConversion, Nat.not_lt.mpr fourth, if_false]
      rfl

end Sys2Proof.Machine
end

section
/-! SETTING_SET (O19) and TOOL_CLEAR (O23). -/

namespace Sys2Proof.Machine

theorem anyLot_iff (c : Part) : c.anyLot = true ↔ ∃ i l, c.lot? i = some l := by
  simp [Part.anyLot, Option.isSome_iff_exists, mem_allLoadPorts]

theorem anyLot_false {c : Part} (h : ∀ i, c.lot? i = none) : c.anyLot = false := by
  rw [Bool.eq_false_iff, ne_eq, anyLot_iff]
  simp [h]

theorem Settings.set_get (g : Settings) (k : SettingName) : g.set k (g.get k) = g := by
  cases k <;> rfl

theorem applySetting_eq (k : SettingName) (v : Nat) (c : Part) : applySetting k v c = { c with
    settings := c.settings.set k v
    unsaved := c.unsaved || decide (v ≠ c.settings.get k)
    drive := if k = .parkZ ∧ v ≠ c.settings.get k ∧ c.session.state = .idle then v else c.drive } := by
  unfold applySetting
  by_cases same : v = c.settings.get k
  · simp [same, Settings.set_get]
  · simp [same]

/-- Settles O19, check by check of SETTING_SET. -/
theorem settingSetClampsAndApplies : Obligations.SettingSetClampsAndApplies := by
  intro s p tag b value now refused
  have answers {c : Part} {st : Status} {x : Body} (h : doSettingSet b value s.part = ⟨c, st, x⟩) :
      exec (.settingSet p tag b value) s = .next (answered s p 65#8 tag c st x) := exec_answers (r := .settingSet b value) now h
  refine ⟨fun no_name => ?_, fun k name => ⟨fun used => ?_, fun unused runs => ?_, fun unused idle => ?_⟩⟩
  · have none_named : settingNameOf b = none := List.getElem?_eq_none no_name
    exact answers (by simp [doSettingSet, none_named, refuse])
  · exact answers (by simp [doSettingSet, settingNameOf, name, (anyLot_iff _).mpr used, refuse])
  · exact answers (by simp [doSettingSet, settingNameOf, name, anyLot_false unused, Option.isSome_iff_ne_none.mpr runs, refuse])
  · refine answers ?_
    simp only [doSettingSet, settingNameOf, name, anyLot_false unused, idle, applySetting_eq]
    rfl

/-! ### TOOL_CLEAR (R182) -/

theorem anyWafer_iff (c : Part) : c.anyWafer = true ↔ ∃ t ∈ allTags, c.wafer? t ≠ none := by
  simp [Part.anyWafer, Option.isSome_iff_ne_none]

theorem mem_allMovers (m : Mover) : m ∈ allMovers := by cases m <;> decide

theorem anyIssued_iff (c : Part) : allMovers.any (fun m => (c.slotOf m).isIssued) = true ↔ ∃ m o, c.slotOf m = .issued o := by
  have issued (x : OrderSlot) : x.isIssued = true ↔ ∃ o, x = .issued o := by cases x <;> simp [OrderSlot.isIssued]
  simp [mem_allMovers, issued]

theorem lotCount_pos (c : Part) : 0 < c.lotCount ↔ c.anyLot = true := by
  rw [Part.lotCount, List.countP_pos_iff, Part.anyLot, List.any_eq_true]

/-- What a TOOL_CLEAR leaves, and whether it raises LOT_STATE (R182). -/
theorem clearTool_eq (c : Part) :
    let cleared := { c with
      lots := State.reset.part.lots, carriers := State.reset.part.carriers, startCounter := 0, waitingReports := []
      lists := [], freeCount := 12288, credits := 0, focusMap := [] }
    clearTool c = if 0 < c.lotCount then raiseLotState cleared else cleared := by
  simp only [clearTool, lotCount_pos]
  rfl

/-- Settles O23, by what blocks the clear. -/
theorem toolClearEmptiesTheRecords : Obligations.ToolClearEmptiesTheRecords := by
  intro s p tag now blocked cleared lots carriers
  have answers {c : Part} {st : Status} {x : Body} (h : doToolClear s.part = ⟨c, st, x⟩) :
      exec (.toolClear p tag) s = .next (answered s p 68#8 tag c st x) := exec_answers (r := .toolClear) now h
  have blocked_iff : blocked ↔ s.part.anyWafer = true ∨
      allMovers.any (fun m => (s.part.slotOf m).isIssued) = true ∨ s.part.reportQueue.isEmpty = false := by
    simp only [blocked, anyWafer_iff, anyIssued_iff, List.isEmpty_eq_false_iff, ne_eq]
  rw [blocked_iff]
  refine ⟨fun held => answers ?_, fun free => answers ?_⟩
  · obtain wafer | issued | queued := held
    · simp [doToolClear, wafer, refuse]
    · simp [doToolClear, issued, refuse]
    · simp [doToolClear, queued, refuse]
  · simp only [not_or, Bool.not_eq_true, Bool.not_eq_false] at free
    obtain ⟨no_wafer, no_order, empty⟩ := free
    simp only [doToolClear, no_wafer, no_order, empty, clearTool_eq]
    rfl

end Sys2Proof.Machine
end

section
/-! What names a load port, a lot and a slot of a lot (R1, R7, R31). -/

namespace Sys2Proof.Machine

theorem ofNum_some (n : Nat) (i : LoadPort) : LoadPort.ofNum n = some i ↔ i.num = n := by
  constructor
  · unfold LoadPort.ofNum
    split <;> intro h <;> cases h <;> rfl
  · rintro rfl
    cases i <;> rfl

theorem ofNum_none (n : Nat) : LoadPort.ofNum n = none ↔ ∀ i : LoadPort, i.num ≠ n := by
  rw [Option.eq_none_iff_forall_ne_some]
  exact forall_congr' fun i => not_congr (ofNum_some n i)

theorem fitted_some (c : Part) (n : Byte) (i : LoadPort) :
    c.fitted n = some i ↔ i.num = n.toNat ∧ n.toNat ≤ c.settings.portsFitted := by
  unfold Part.fitted
  split
  next fits => simp [ofNum_some, fits]
  next beyond => simp [beyond]

theorem fitted_none (c : Part) (n : Byte) :
    c.fitted n = none ↔ ∀ i : LoadPort, i.num = n.toNat → c.settings.portsFitted < n.toNat := by
  rw [Option.eq_none_iff_forall_ne_some]
  refine forall_congr' fun i => ?_
  rw [ne_eq, fitted_some, not_and, Nat.not_le]

theorem findLot_some {c : Part} {id : Text} {i : LoadPort} (h : c.findLot id = some i) :
    ∃ l, c.lot? i = some l ∧ l.id = id := by
  have named := List.find?_some h
  cases used : c.lot? i with
  | none => simp [used] at named
  | some l => exact ⟨l, rfl, by simpa [used] using named⟩

theorem findLot_none (c : Part) (id : Text) : c.findLot id = none ↔ ∀ i l, c.lot? i = some l → l.id ≠ id := by
  simp only [Part.findLot, List.find?_eq_none, mem_allLoadPorts, true_implies]
  refine forall_congr' fun i => ?_
  cases c.lot? i <;> simp

theorem lotNamed_findLot {c : Part} {id : Text} {i : LoadPort} {l : Lot} (h : c.lotNamed id = some (i, l)) :
    c.findLot id = some i := by
  unfold Part.lotNamed at h
  split at h
  · cases h
  · split at h
    · cases h
    · cases h
      assumption

theorem lotNamed_none {c : Part} {id : Text} (h : c.lotNamed id = none) : c.findLot id = none := by
  cases found : c.findLot id with
  | none => rfl
  | some i =>
    obtain ⟨l, used, -⟩ := findLot_some found
    simp [Part.lotNamed, found, used] at h

theorem entry_slot {l : Lot} {slot : Nat} {e : Selection} (h : l.entry? slot = some e) : e.slot = slot ∧ e ∈ l.selection := by
  have found := List.find?_some h
  exact ⟨by simpa using found, List.mem_of_find?_eq_some h⟩

theorem entries_eq (c : Part) (i : LoadPort) (slot : Nat) :
    c.entries i slot = ((c.list? i slot).map (·.entries)).getD [] := by
  unfold Part.entries
  cases c.list? i slot <;> rfl

end Sys2Proof.Machine
end

section
/-! The queries: LOT_QUERY and RECIPE_QUERY (O36), SITE_QUERY, CELL_QUERY, CAPTURE_STATUS and SETTING_READ (O37). -/

namespace Sys2Proof.Machine

theorem lotView_eq (i : LoadPort) (c : Part) : lotView i c =
    .lotQuery (c.carrier i) ((c.lot? i).map (fun l => (i, l))) (((c.lot? i).map Lot.hold).getD .none) := by
  unfold lotView
  cases c.lot? i <;> rfl

/-- Settles O36, by what the query names. -/
theorem lotAndRecipeQueries : Obligations.LotAndRecipeQueries := by
  intro s p tag id n shown
  have view (i : LoadPort) : lotView i s.part = shown i := lotView_eq i s.part
  refine ⟨fun now => ?_, fun now => ?_⟩
  · have answers {sel : LotSelector} {c : Part} {st : Status} {x : Body} (h : doLotQuery sel s.part = ⟨c, st, x⟩) :
        exec (.lotQuery p tag sel) s = .next (answered s p 10#8 tag c st x) := exec_answers (r := .lotQuery sel) now h
    refine ⟨fun i l named => answers ?_, fun unnamed => answers ?_, fun i number => answers ?_, fun no_port => answers ?_⟩
    · simp [doLotQuery, lotNamed_findLot named, answerOk, view]
    · simp [doLotQuery, lotNamed_none unnamed, refuse]
    · simp [doLotQuery, (ofNum_some _ i).mpr number, answerOk, view]
    · simp [doLotQuery, (ofNum_none _).mpr no_port, refuse]
  · have answers {c : Part} {st : Status} {x : Body} (h : doRecipeQuery n s.part = ⟨c, st, x⟩) :
        exec (.recipeQuery p tag n) s = .next (answered s p 12#8 tag c st x) := exec_answers (r := .recipeQuery n) now h
    refine ⟨fun in_table => answers ?_, fun beyond => answers ?_⟩
    · simp [doRecipeQuery, Nat.not_lt.mpr in_table, answerOk]
    · simp [doRecipeQuery, beyond, refuse]

/-! ### SITE_QUERY and SITE_LOAD find their slot (R31, R39) -/

theorem findSlot_unnamed {c : Part} {id : Text} (slot : Byte) (h : c.lotNamed id = none) :
    findSlot id slot c = .error .notFound := by simp [findSlot, h]

theorem findSlot_unlisted {c : Part} {id : Text} {slot : Byte} {i : LoadPort} {l : Lot} (h : c.lotNamed id = some (i, l))
    (k : l.entry? slot.toNat = none) : findSlot id slot c = .error .badField := by simp [findSlot, h, k]

theorem findSlot_listed {c : Part} {id : Text} {slot : Byte} {i : LoadPort} {l : Lot} {e : Selection}
    (h : c.lotNamed id = some (i, l)) (k : l.entry? slot.toNat = some e) : findSlot id slot c = .ok (i, l, e) := by
  simp [findSlot, h, k]

theorem queryStatus_absent {c : Part} {i : LoadPort} {e : Selection} (h : c.list? i e.slot = none) :
    queryStatus i e c = if e.status = .dispatched then .freed else .absent := by
  simp [queryStatus, Part.listStatus, h]

theorem queryStatus_present {c : Part} {i : LoadPort} {e : Selection} {r : RevisitList} (h : c.list? i e.slot = some r) :
    queryStatus i e c = if r.sealed = false then .open else if r.entries = [] then .sealedEmpty else .sealed := by
  simp [queryStatus, Part.listStatus, h]

/-! ### CELL_QUERY (R67) -/

theorem waferViews_shows {c : Part} {t : Nat} {w : Wafer} (listed : t ∈ allTags) (used : c.wafer? t = some w) :
    ∃ v ∈ waferViews c, v.tag = t :=
  ⟨_, List.mem_filterMap.mpr ⟨t, listed, by rw [used]; rfl⟩, rfl⟩

theorem waferViews_fields {c : Part} {v : WaferView} (h : v ∈ waferViews c) :
    v.tag ∈ allTags ∧ c.wafer? v.tag = some v.wafer ∧ ∀ l, c.lot? v.wafer.lot = some l → v.lotId = l.id := by
  obtain ⟨t, listed, shown⟩ := List.mem_filterMap.mp h
  obtain ⟨w, used, rfl⟩ := Option.map_eq_some_iff.mp shown
  exact ⟨listed, used, fun l owner => by simp [owner]⟩

theorem mem_allTags (t : Nat) : t ∈ allTags ↔ t < 10 := List.mem_range (n := 10)

theorem waferViews_nodup (c : Part) : ((waferViews c).map (·.tag)).Nodup := by
  have tags : (waferViews c).map (·.tag) = allTags.filterMap (fun t => (c.wafer? t).map fun _ => t) := by
    simp [waferViews, List.map_filterMap, Function.comp_def]
  rw [tags]
  refine List.Nodup.filterMap (fun a b t ha hb => ?_) (by decide)
  obtain ⟨_, _, rfl⟩ := Option.map_eq_some_iff.mp ha
  obtain ⟨_, _, rfl⟩ := Option.map_eq_some_iff.mp hb
  rfl

theorem shownOrders_get (t : OrderTable) (m : Mover) : (shownOrders t).get m = (t.get m).shown := by
  cases m <;> rfl

/-- Settles O37, query by query. -/
theorem partQueries : Obligations.PartQueries := by
  intro s p tag
  refine ⟨fun now => ⟨exec_answers (r := .siteQuery .pool) now rfl, fun id b start => ?_⟩, fun now => ?_, fun now => ?_,
    fun now => ?_⟩
  · have answers {c : Part} {st : Status} {x : Body} (h : doSiteQuery (.list id b start) s.part = ⟨c, st, x⟩) :
        exec (.siteQuery p tag (.list id b start)) s = .next (answered s p 18#8 tag c st x) :=
      exec_answers (r := .siteQuery (.list id b start)) now h
    refine ⟨fun unnamed => answers ?_, fun i l named => ⟨fun bad => answers ?_, fun e listed starts => answers ?_⟩⟩
    · simp [doSiteQuery, findSlot_unnamed b unnamed, refuse]
    · cases listed : l.entry? b.toNat with
      | none => simp [doSiteQuery, findSlot_unlisted named listed, refuse]
      | some e =>
        have zero : start = 0#16 := by simpa [listed] using bad
        simp [doSiteQuery, findSlot_listed named listed, zero, refuse]
    · obtain ⟨slot, -⟩ := entry_slot listed
      have found := findSlot_listed named listed
      simp only [doSiteQuery, found, starts, if_false, answerOk, entries_eq, openCount]
      cases list : s.part.list? i b.toNat with
      | none => rw [queryStatus_absent (by rw [slot]; exact list)]
      | some r => rw [queryStatus_present (by rw [slot]; exact list)]
  · refine ⟨_, _, exec_answers (r := .cellQuery) now rfl, fun m => ?_, waferViews_nodup _, fun t w low used =>
      waferViews_shows ((mem_allTags t).mpr low) used, fun v shown => ?_⟩
    · rw [shownOrders_get]
      refine ⟨fun h => ?_, fun o h => ?_, fun o cause h => ?_⟩ <;> exact congrArg OrderSlot.shown h
    · obtain ⟨listed, used, id⟩ := waferViews_fields shown
      exact ⟨(mem_allTags _).mp listed, used, id⟩
  · exact exec_answers (r := .captureStatus) now rfl
  · exact exec_answers (r := .settingRead) now rfl

end Sys2Proof.Machine
end

section
/-! Carriers: CARRIER_DOCKED (O24), SLOT_MAP (O25), CARRIER_RELEASE and CARRIER_UNDOCKED (O26). -/

namespace Sys2Proof.Machine

theorem inRange_iff (lo hi n : Nat) : inRange lo hi n = true ↔ lo ≤ n ∧ n ≤ hi := by simp [inRange]

theorem textWithin_iff (n : Nat) (t : Text) : textWithin n t = true ↔ 1 ≤ t.length ∧ t.length ≤ n := inRange_iff 1 n t.length

theorem carrierIdTaken_iff (c : Part) (i : LoadPort) (id : Text) : c.carrierIdTaken i id = true ↔
    ∃ j, j ≠ i ∧ (c.carrier j).state ≠ .empty ∧ (c.carrier j).id = some id := by
  simp [Part.carrierIdTaken, mem_allLoadPorts, and_assoc]

/-- Settles O24, check by check. -/
theorem carrierDocks : Obligations.CarrierDocks := by
  intro s p tag n id now refused fits
  have answers {c : Part} {st : Status} {x : Body} (h : doCarrierDocked n id s.part = ⟨c, st, x⟩) :
      exec (.carrierDocked p tag n id) s = .next (answered s p 1#8 tag c st x) := exec_answers (r := .carrierDocked n id) now h
  refine ⟨fun unfitted => answers ?_, fun i number fitted => ?_⟩
  · simp [doCarrierDocked, (fitted_none _ n).mpr unfitted, refuse]
  · intro used
    have port : s.part.fitted n = some i := (fitted_some _ n i).mpr ⟨number, fitted⟩
    have fits_iff : textWithin 16 id = true ↔ fits := textWithin_iff 16 id
    have used_iff : s.part.carrierIdTaken i id = true ↔ used := carrierIdTaken_iff _ i id
    refine ⟨fun bad => answers ?_, fun good free busy => answers ?_, fun good free empty => answers ?_⟩
    · obtain long | taken := bad
      · simp [doCarrierDocked, port, Bool.eq_false_iff.mpr (mt fits_iff.mp long), refuse]
      · simp [doCarrierDocked, port, used_iff.mpr taken, refuse]
    · simp [doCarrierDocked, port, fits_iff.mpr good, Bool.eq_false_iff.mpr (mt used_iff.mp free), busy, refuse]
    · simp [doCarrierDocked, port, fits_iff.mpr good, Bool.eq_false_iff.mpr (mt used_iff.mp free), empty, answerOk, setCarrier]

/-! ### SLOT_MAP (R3) -/

theorem slotStateOf_eq : ∀ b : Byte, slotStateOf b = [SlotState.empty, .occupied, .crossed, .double][b.toNat]? := by decide

theorem slotStateOf_occupied : ∀ b : Byte, slotStateOf b = some .occupied ↔ b = 1#8 := by decide

theorem mapAll_map {α β : Type} {f : α → Option β} {g : α → β} {l : List α} (h : ∀ a ∈ l, f a = some (g a)) :
    mapAll f l = some (l.map g) := by
  induction l with
  | nil => rfl
  | cons a rest ih => simp [mapAll, h a List.mem_cons_self, ih fun x hx => h x (List.mem_cons_of_mem a hx)]

/-- A slot map entry as R3 allows it. -/
def GoodSlot (f : SlotField) : Prop :=
  f.state.toNat < 4 ∧ ∀ t, f.expected = some t → 1 ≤ t.length ∧ t.length ≤ 24 ∧ f.state = 1#8

/-- The entry that a good field gives. -/
def slotEntry (f : SlotField) : SlotEntry :=
  ⟨[SlotState.empty, .occupied, .crossed, .double].getD f.state.toNat .empty, f.expected⟩

theorem slotEntryOf_good {f : SlotField} (h : GoodSlot f) : slotEntryOf f = some (slotEntry f) := by
  obtain ⟨low, text⟩ := h
  have state : slotStateOf f.state = some (slotEntry f).state := by
    rw [slotStateOf_eq, slotEntry, List.getD_eq_getElem?_getD, List.getElem?_eq_getElem (by simpa using low)]
    rfl
  cases expected : f.expected with
  | none => simp [slotEntryOf, state, slotEntry, expected]
  | some t =>
    obtain ⟨lo, hi, occupied⟩ := text t expected
    have is_occupied : (slotEntry f).state = .occupied := by
      have := (slotStateOf_occupied f.state).mpr occupied
      rw [state] at this
      exact Option.some.inj this
    simp only [slotEntryOf, state, expected, (textWithin_iff 24 t).mpr ⟨lo, hi⟩, is_occupied, and_self, if_true]
    rw [← is_occupied, ← expected]
    rfl

theorem slotEntryOf_bad {f : SlotField} (h : ¬ GoodSlot f) : slotEntryOf f = none := by
  rw [Option.eq_none_iff_forall_ne_some]
  intro e given
  apply h
  unfold slotEntryOf at given
  split at given
  · cases given
  next state named =>
    have low : f.state.toNat < 4 := by
      by_contra high
      rw [slotStateOf_eq, List.getElem?_eq_none (by simpa using high)] at named
      cases named
    refine ⟨low, fun t expected => ?_⟩
    simp only [expected] at given
    split at given
    next fits =>
      obtain ⟨lo, hi⟩ := (textWithin_iff 24 t).mp fits.1
      exact ⟨lo, hi, (slotStateOf_occupied f.state).mp (by rw [named, fits.2])⟩
    next => cases given

theorem slotMapOf_good {l : List SlotField} (size : l.length = 25) (h : ∀ f ∈ l, GoodSlot f) :
    slotMapOf l = some (l.map slotEntry) := by
  rw [slotMapOf, if_pos size]
  exact mapAll_map fun f member => slotEntryOf_good (h f member)

theorem slotMapOf_bad {l : List SlotField} (h : ¬ (l.length = 25 ∧ ∀ f ∈ l, GoodSlot f)) : slotMapOf l = none := by
  unfold slotMapOf
  split
  next size =>
    obtain ⟨f, member, bad⟩ : ∃ f ∈ l, ¬ GoodSlot f := by simpa [size] using h
    exact mapAll_none ⟨f, member, slotEntryOf_bad bad⟩
  next => rfl

/-- Settles O25, check by check. -/
theorem slotMapIsStored : Obligations.SlotMapIsStored := by
  intro s p tag n entries now refused good
  have answers {c : Part} {st : Status} {x : Body} (h : doSlotMap n entries s.part = ⟨c, st, x⟩) :
      exec (.slotMap p tag n entries) s = .next (answered s p 2#8 tag c st x) := exec_answers (r := .slotMap n entries) now h
  refine ⟨fun unfitted => answers ?_, fun i number fitted => ?_⟩
  · simp [doSlotMap, (fitted_none _ n).mpr unfitted, refuse]
  · have port : s.part.fitted n = some i := (fitted_some _ n i).mpr ⟨number, fitted⟩
    refine ⟨fun other => answers ?_, fun docked bad => answers ?_, fun docked ok => answers ?_⟩
    · simp [doSlotMap, port, other, refuse]
    · have none_given : slotMapOf entries = none := slotMapOf_bad bad
      simp [doSlotMap, port, docked, none_given, refuse]
    · have map_given : slotMapOf entries = some _ := slotMapOf_good ok.1 ok.2
      simp only [doSlotMap, port, docked, map_given]
      rfl

/-! ### CARRIER_RELEASE and CARRIER_UNDOCKED (R4, R6) -/

/-- Settles O26, by the carrier's state and its bound lot. -/
theorem carrierLeaves : Obligations.CarrierLeaves := by
  intro s p tag n
  refine ⟨fun now => ?_, fun now => ?_⟩
  · intro refused
    have answers {c : Part} {st : Status} {x : Body} (h : doCarrierRelease n s.part = ⟨c, st, x⟩) :
        exec (.carrierRelease p tag n) s = .next (answered s p 3#8 tag c st x) := exec_answers (r := .carrierRelease n) now h
    refine ⟨fun unfitted => answers ?_, fun i number fitted => ?_⟩
    · simp [doCarrierRelease, (fitted_none _ n).mpr unfitted, refuse]
    · intro k
      have port : s.part.fitted n = some i := (fitted_some _ n i).mpr ⟨number, fitted⟩
      refine ⟨fun held => answers ?_, fun releasable => answers ?_, fun loaded unbound => answers ?_⟩
      · obtain empty | ⟨other, bound⟩ := held
        · simp [doCarrierRelease, port, show (s.part.carrier i).state = _ from empty, refuse]
        · have in_use : (s.part.lot? i).isSome = true := Option.isSome_iff_ne_none.mpr bound
          simp only [doCarrierRelease, port, in_use, if_true]
          cases state : (s.part.carrier i).state with
          | empty => rfl
          | docked => rfl
          | mapped => rfl
          | releasable => exact absurd state other
      · simp [doCarrierRelease, port, show (s.part.carrier i).state = _ from releasable, answerOk]
      · obtain docked | mapped := loaded
        · simp [doCarrierRelease, port, show (s.part.carrier i).state = _ from docked, unbound, answerOk, setCarrier, k]
        · simp [doCarrierRelease, port, show (s.part.carrier i).state = _ from mapped, unbound, answerOk, setCarrier, k]
  · intro refused
    have answers {c : Part} {st : Status} {x : Body} (h : doCarrierUndocked n s.part = ⟨c, st, x⟩) :
        exec (.carrierUndocked p tag n) s = .next (answered s p 4#8 tag c st x) := exec_answers (r := .carrierUndocked n) now h
    refine ⟨fun no_port => answers ?_, fun i number => ?_⟩
    · simp [doCarrierUndocked, (ofNum_none _).mpr no_port, refuse]
    · intro k emptied
      have port : LoadPort.ofNum n.toNat = some i := (ofNum_some _ i).mpr number
      refine ⟨fun held => answers ?_, fun present unbound => answers ?_, fun releasable bound => answers ?_⟩
      · obtain empty | ⟨other, bound⟩ := held
        · simp [doCarrierUndocked, port, show (s.part.carrier i).state = _ from empty, refuse]
        · obtain ⟨l, used⟩ := Option.ne_none_iff_exists'.mp bound
          simp only [doCarrierUndocked, port, used]
          cases state : (s.part.carrier i).state with
          | empty => rfl
          | docked => rfl
          | mapped => rfl
          | releasable => exact absurd state other
      · simp only [doCarrierUndocked, port, unbound]
        cases state : (s.part.carrier i).state with
        | empty => exact absurd state present
        | docked => rfl
        | mapped => rfl
        | releasable => rfl
      · obtain ⟨l, used⟩ := Option.ne_none_iff_exists'.mp bound
        simp only [doCarrierUndocked, port, show (s.part.carrier i).state = _ from releasable, used]
        rfl

end Sys2Proof.Machine
end

section
/-! LOT_DEFINE (O27). -/

namespace Sys2Proof.Machine

theorem priorityOf_eq : ∀ b : Byte, priorityOf b = [Priority.normal, .hot][b.toNat]? := by decide

theorem priorityOf_good : ∀ b : Byte, b.toNat < 2 → priorityOf b = some (if b = 1#8 then .hot else .normal) := by decide

theorem selectionOk_iff (l : List Byte) : selectionOk l = true ↔
    1 ≤ l.length ∧ l.length ≤ 25 ∧ (∀ b ∈ l, 1 ≤ b.toNat ∧ b.toNat ≤ 25) ∧ l.Nodup := by
  simp [selectionOk, inRange_iff, and_assoc]

/-- Checks 1 to 5 of R8: the lot ID, the load port, the recipe, the priority, the selection. -/
def DefineOk (id : Text) (n recipe priority : Byte) (sel : List Byte) (c : Part) : Prop :=
  (1 ≤ id.length ∧ id.length ≤ 20 ∧ ∀ i l, c.lot? i = some l → l.id ≠ id) ∧
  (∃ i : LoadPort, i.num = n.toNat ∧ n.toNat ≤ c.settings.portsFitted) ∧
  (∃ r, c.recipes.getD recipe.toNat none = some r) ∧ priority.toNat < 2 ∧
  1 ≤ sel.length ∧ sel.length ≤ 25 ∧ (∀ b ∈ sel, 1 ≤ b.toNat ∧ b.toNat ≤ 25) ∧ sel.Nodup

section
variable {id : Text} {n recipe priority : Byte} {sel : List Byte} {c : Part}

theorem doLotDefine_bad (h : ¬ DefineOk id n recipe priority sel c) :
    doLotDefine id n recipe priority sel c = refuse .badField c := by
  unfold doLotDefine
  split
  next => rfl
  next text =>
    obtain ⟨text, unused⟩ := not_or.mp text
    split
    next => rfl
    next i port =>
      split
      next => rfl
      next set =>
        split
        next => rfl
        next q named =>
          split
          next => rfl
          next ok =>
            refine absurd ⟨?_, ⟨i, (fitted_some c n i).mp port⟩, ?_, ?_, (selectionOk_iff sel).mp (by simpa using ok)⟩ h
            · obtain ⟨lo, hi⟩ := (textWithin_iff 20 id).mp (by simpa using text)
              exact ⟨lo, hi, (findLot_none c id).mp (by simpa using unused)⟩
            · exact Option.isSome_iff_exists.mp (Option.isSome_iff_ne_none.mpr (by simpa using set))
            · by_contra high
              rw [priorityOf_eq, List.getElem?_eq_none (Nat.le_of_not_lt high)] at named
              cases named

theorem doLotDefine_good (h : DefineOk id n recipe priority sel c) {i : LoadPort} (number : i.num = n.toNat) :
    doLotDefine id n recipe priority sel c =
      if (c.carrier i).state ≠ .mapped ∨ (c.lot? i).isSome then refuse .refusedState c
      else if allOccupied (c.carrier i).map sel = false then refuse .badField c
      else answerOk .empty (raiseLotState (setLot i
        (some (definedLot id recipe.toNat (if priority = 1#8 then .hot else .normal) sel)) c)) := by
  obtain ⟨⟨lo, hi, unused⟩, ⟨j, jnum, fitted⟩, ⟨r, set⟩, low, selection⟩ := h
  have port : c.fitted n = some i := (fitted_some c n i).mpr ⟨number, fitted⟩
  have fresh : c.findLot id = none := (findLot_none c id).mpr unused
  simp only [doLotDefine, (textWithin_iff 20 id).mpr ⟨lo, hi⟩, fresh, port, set, priorityOf_good priority low,
    (selectionOk_iff sel).mpr selection]
  rfl

end

theorem allOccupied_some {map : Option (List SlotEntry)} {l : List Byte} (h : 1 ≤ l.length) : allOccupied map l = true ↔
    ∀ b ∈ l, ∃ m e, map = some m ∧ m[b.toNat - 1]? = some e ∧ e.state = .occupied := by
  cases map with
  | none =>
    obtain ⟨b, rest, rfl⟩ := List.exists_cons_of_length_pos h
    simpa [allOccupied] using ⟨b, fun h => absurd rfl h⟩
  | some m =>
    simp only [allOccupied, List.all_eq_true]
    refine forall₂_congr fun b _ => ?_
    cases entry : m[b.toNat - 1]? <;> simp [entry]

/-- Settles O27, check by check. -/
theorem lotIsDefined : Obligations.LotIsDefined := by
  intro s p tag id n recipe priority sel now out refused fieldsOk
  have answers {c : Part} {st : Status} {x : Body} (h : doLotDefine id n recipe priority sel s.part = ⟨c, st, x⟩) :
      out = .next (answered s p 5#8 tag c st x) := exec_answers (r := .lotDefine id n recipe priority sel) now h
  refine ⟨fun bad => answers (doLotDefine_bad bad), fun i number ok => ?_⟩
  intro mapped occupied
  have nonempty : 1 ≤ sel.length := ok.2.2.2.2.1
  have checks := doLotDefine_good ok number
  have mapped_iff : (s.part.carrier i).state ≠ .mapped ∨ (s.part.lot? i).isSome = true ↔ ¬ mapped := by
    rw [Option.isSome_iff_ne_none, not_and_or]
  have occupied_iff : allOccupied (s.part.carrier i).map sel = false ↔ ¬ occupied := by
    rw [← Bool.not_eq_true]
    exact not_congr (allOccupied_some nonempty)
  refine ⟨fun other => answers ?_, fun is_mapped vacant => answers ?_, fun is_mapped full => answers ?_⟩
  · rw [checks, if_pos (mapped_iff.mpr other)]; rfl
  · rw [checks, if_neg (mt mapped_iff.mp (not_not.mpr is_mapped)), if_pos (occupied_iff.mpr vacant)]; rfl
  · rw [checks, if_neg (mt mapped_iff.mp (not_not.mpr is_mapped)), if_neg (mt occupied_iff.mp (not_not.mpr full))]; rfl

end Sys2Proof.Machine
end

section
/-! RECIPE_SET (O33). -/

namespace Sys2Proof.Machine

theorem recipeInUse_iff (c : Part) (slot : Nat) : c.recipeInUse slot = true ↔
    ∃ i l, c.lot? i = some l ∧ l.state ≠ .closed ∧ l.recipe = slot := by
  simp only [Part.recipeInUse, List.any_eq_true, mem_allLoadPorts, true_and]
  refine exists_congr fun i => ?_
  cases c.lot? i <;> simp

/-- A number given or its default, wherever the default lies in the range. -/
theorem numberField_some {lo hi d : Nat} (h : lo ≤ d ∧ d ≤ hi) (x : Option Nat) (n : Nat) :
    numberField lo hi d x = some n ↔ (lo ≤ x.getD d ∧ x.getD d ≤ hi) ∧ x.getD d = n := by
  cases x with
  | none => simp [numberField, h]
  | some k =>
    simp only [numberField, inRange_iff, Option.getD_some]
    split
    next fits => simp [fits]
    next misfit => simp [misfit]

theorem qualityOf_eq : ∀ b : Byte, qualityOf b = [Quality.q0, .q1, .q2, .q3][b.toNat]? := by decide

theorem actionOf_eq : ∀ b : Byte, actionOf b = [ExcursionAction.note, .sample, .holdW, .holdN][b.toNat]? := by decide

theorem yesNoOf_eq : ∀ b : Byte, yesNoOf b = if b.toNat ≤ 1 then some (decide (b.toNat = 1)) else none := by decide

theorem getElem?_some_getD {α : Type} (l : List α) (k : Nat) (d x : α) :
    l[k]? = some x ↔ k < l.length ∧ l.getD k d = x := by
  rw [List.getElem?_eq_some_iff]
  constructor
  · rintro ⟨low, rfl⟩
    exact ⟨low, by simp [low]⟩
  · rintro ⟨low, rfl⟩
    exact ⟨low, by simp [low]⟩

theorem qualityField_some (x : Option Byte) (q : Quality) : choiceField qualityOf .q1 x = some q ↔
    (x.map BitVec.toNat).getD 1 ≤ 3 ∧ [Quality.q0, .q1, .q2, .q3].getD ((x.map BitVec.toNat).getD 1) .q1 = q := by
  cases x with
  | none => simp [choiceField]
  | some b =>
    simp only [choiceField, qualityOf_eq, getElem?_some_getD _ _ Quality.q1, Option.map_some, Option.getD_some]
    exact and_congr_left' Nat.lt_succ_iff

theorem readIdField_some (x : Option Byte) (v : Bool) : choiceField yesNoOf false x = some v ↔
    (x.map BitVec.toNat).getD 0 ≤ 1 ∧ decide ((x.map BitVec.toNat).getD 0 = 1) = v := by
  cases x with
  | none => simp [choiceField]
  | some b =>
    simp only [choiceField, yesNoOf_eq, Option.map_some, Option.getD_some]
    split
    next fits => simp [fits]
    next misfit => simp [misfit]

/-- An excursion entry in range (R21). -/
def GoodExcursion (e : ExcursionField) : Prop :=
  (1 ≤ e.cls.toNat ∧ e.cls.toNat ≤ 15) ∧ (1 ≤ e.limit.toNat ∧ e.limit.toNat ≤ 4095) ∧ e.action.toNat ≤ 3

/-- The entry that a good field gives. -/
def excursionEntry (e : ExcursionField) : ExcursionEntry :=
  ⟨e.cls.toNat, e.limit.toNat, [ExcursionAction.note, .sample, .holdW, .holdN].getD e.action.toNat .note⟩

theorem excursionOf_some (e : ExcursionField) (x : ExcursionEntry) :
    excursionOf e = some x ↔ GoodExcursion e ∧ excursionEntry e = x := by
  unfold excursionOf
  rw [actionOf_eq]
  split
  next unnamed =>
    have high : ¬ e.action.toNat ≤ 3 := by
      exact Nat.not_le.mpr (List.getElem?_eq_none_iff.mp unnamed)
    simp [GoodExcursion, high]
  next a named =>
    obtain ⟨low, rfl⟩ := (getElem?_some_getD _ _ ExcursionAction.note _).mp named
    have low : e.action.toNat ≤ 3 := Nat.lt_succ_iff.mp low
    simp only [inRange_iff]
    split
    next fits => simp [GoodExcursion, fits, low, excursionEntry]
    next misfit => simp only [GoodExcursion, low, and_true]; simp [misfit]

theorem mapAll_some_iff {α β : Type} {f : α → Option β} {P : α → Prop} {g : α → β} (h : ∀ a b, f a = some b ↔ P a ∧ g a = b)
    (l : List α) (m : List β) : mapAll f l = some m ↔ (∀ a ∈ l, P a) ∧ l.map g = m := by
  by_cases all : ∀ a ∈ l, P a
  · rw [mapAll_map fun a member => (h a _).mpr ⟨all a member, rfl⟩]
    simp only [Option.some.injEq]
    exact ⟨fun e => ⟨all, e⟩, And.right⟩
  · obtain ⟨a, member, bad⟩ : ∃ a ∈ l, ¬ P a := by simpa using all
    rw [mapAll_none ⟨a, member, Option.eq_none_iff_forall_ne_some.mpr fun b e => bad ((h a b).mp e).1⟩]
    simp only [reduceCtorEq, false_iff]
    exact fun e => all e.1

theorem excursionsOf_some (x : Option (List ExcursionField)) (m : List ExcursionEntry) : excursionsOf x = some m ↔
    ((x.getD []).length ≤ 4 ∧ ∀ e ∈ x.getD [], GoodExcursion e) ∧ (x.getD []).map excursionEntry = m := by
  cases x with
  | none => simp [excursionsOf]
  | some l =>
    simp only [excursionsOf, Option.getD_some]
    split
    next short => simp [mapAll_some_iff excursionOf_some, short]
    next long => simp [long]

/-- A number of a field or its default. -/
def numOr (x : Option Byte) (d : Nat) : Nat := (x.map BitVec.toNat).getD d

/-- A 16-bit number of a field or its default. -/
def wideOr (x : Option Half) (d : Nat) : Nat := (x.map BitVec.toNat).getD d

/-- Every field of a RECIPE_SET in its range, a field left out at its default (R21). -/
def GoodRecipe (f : RecipeFields) : Prop :=
  numOr f.resolution 1 ≤ 3 ∧ (5 ≤ numOr f.sweepSteps 9 ∧ numOr f.sweepSteps 9 ≤ 15 ∧ numOr f.sweepSteps 9 % 2 = 1) ∧
  1 ≤ numOr f.stepSize 16 ∧ numOr f.quality 1 ≤ 3 ∧ (100 ≤ wideOr f.mapRadius 5000 ∧ wideOr f.mapRadius 5000 ≤ 50000) ∧
  1 ≤ numOr f.mapLifetime 20 ∧ (100 ≤ wideOr f.focusHold 1000 ∧ wideOr f.focusHold 1000 ≤ 5000) ∧
  (1 ≤ numOr f.attemptLimit 2 ∧ numOr f.attemptLimit 2 ≤ 4) ∧ (1 ≤ wideOr f.classWait 30 ∧ wideOr f.classWait 30 ≤ 600) ∧
  numOr f.readId 0 ≤ 1 ∧ (f.excursions.getD []).length ≤ 4 ∧ (∀ e ∈ f.excursions.getD [], GoodExcursion e) ∧
  numOr f.samplingFloor 2 ≤ 3

/-- The recipe of good fields. -/
def recipeGiven (f : RecipeFields) : Recipe where
  resolution := numOr f.resolution 1
  sweepSteps := numOr f.sweepSteps 9
  stepSize := numOr f.stepSize 16
  quality := [Quality.q0, .q1, .q2, .q3].getD (numOr f.quality 1) .q1
  mapRadius := wideOr f.mapRadius 5000
  mapLifetime := numOr f.mapLifetime 20
  focusHold := wideOr f.focusHold 1000
  attemptLimit := numOr f.attemptLimit 2
  classWait := wideOr f.classWait 30
  readId := decide (numOr f.readId 0 = 1)
  excursions := (f.excursions.getD []).map excursionEntry
  samplingFloor := numOr f.samplingFloor 2

theorem numOr_byte (x : Option Byte) {d : Nat} (h : d ≤ 255) : numOr x d ≤ 255 := by
  cases x with
  | none => exact h
  | some b => exact Nat.lt_succ_iff.mp b.isLt

theorem numField_some {lo hi d : Nat} (h : lo ≤ d ∧ d ≤ hi) {x : Option Byte} {n : Nat} :
    numberField lo hi d (byteNat x) = some n ↔ (lo ≤ numOr x d ∧ numOr x d ≤ hi) ∧ numOr x d = n :=
  numberField_some h _ n

theorem wideField_some {lo hi d : Nat} (h : lo ≤ d ∧ d ≤ hi) {x : Option Half} {n : Nat} :
    numberField lo hi d (halfNat x) = some n ↔ (lo ≤ wideOr x d ∧ wideOr x d ≤ hi) ∧ wideOr x d = n :=
  numberField_some h _ n

theorem recipeOfFields_some (f : RecipeFields) (r : Recipe) :
    recipeOfFields f = some r ↔ GoodRecipe f ∧ recipeGiven f = r := by
  have parity (n : Nat) : ¬ n % 2 = 0 ↔ n % 2 = 1 := by omega
  have nothing {α β : Type} (g : α → Option β) : none.bind g = none := rfl
  simp only [recipeOfFields, Recipe.default, Option.bind_eq_bind, nothing, Option.ite_none_left_eq_some, parity,
    Option.bind_eq_some_iff, pure, Option.some.injEq]
  constructor
  · rintro ⟨res, hres, steps, hsteps, odd, step, hstep, q, hq, radius, hradius, life, hlife, hold, hhold, limit, hlimit,
      wait, hwait, read, hread, es, hes, floor, hfloor, rfl⟩
    obtain ⟨res, rfl⟩ := (numField_some (by decide)).mp hres
    obtain ⟨steps, rfl⟩ := (numField_some (by decide)).mp hsteps
    obtain ⟨step, rfl⟩ := (numField_some (by decide)).mp hstep
    obtain ⟨q, rfl⟩ := (qualityField_some _ _).mp hq
    obtain ⟨radius, rfl⟩ := (wideField_some (by decide)).mp hradius
    obtain ⟨life, rfl⟩ := (numField_some (by decide)).mp hlife
    obtain ⟨hold, rfl⟩ := (wideField_some (by decide)).mp hhold
    obtain ⟨limit, rfl⟩ := (numField_some (by decide)).mp hlimit
    obtain ⟨wait, rfl⟩ := (wideField_some (by decide)).mp hwait
    obtain ⟨read, rfl⟩ := (readIdField_some _ _).mp hread
    obtain ⟨⟨short, es⟩, rfl⟩ := (excursionsOf_some _ _).mp hes
    obtain ⟨floor, rfl⟩ := (numField_some (by decide)).mp hfloor
    exact ⟨⟨res.2, ⟨steps.1, steps.2, odd⟩, step.1, q, radius, life.1, hold, limit, wait, read, short, es, floor.2⟩, rfl⟩
  · rintro ⟨⟨res, ⟨slo, shi, odd⟩, step, q, radius, life, hold, limit, wait, read, short, es, floor⟩, rfl⟩
    have zero (n : Nat) : 0 ≤ n := Nat.zero_le n
    exact ⟨_, (numField_some (by decide)).mpr ⟨⟨zero _, res⟩, rfl⟩, _, (numField_some (by decide)).mpr ⟨⟨slo, shi⟩, rfl⟩, odd,
      _, (numField_some (by decide)).mpr ⟨⟨step, numOr_byte _ (by decide)⟩, rfl⟩, _, (qualityField_some _ _).mpr ⟨q, rfl⟩,
      _, (wideField_some (by decide)).mpr ⟨radius, rfl⟩,
      _, (numField_some (by decide)).mpr ⟨⟨life, numOr_byte _ (by decide)⟩, rfl⟩,
      _, (wideField_some (by decide)).mpr ⟨hold, rfl⟩, _, (numField_some (by decide)).mpr ⟨limit, rfl⟩,
      _, (wideField_some (by decide)).mpr ⟨wait, rfl⟩, _, (readIdField_some _ _).mpr ⟨read, rfl⟩,
      _, (excursionsOf_some _ _).mpr ⟨⟨short, es⟩, rfl⟩, _, (numField_some (by decide)).mpr ⟨⟨zero _, floor⟩, rfl⟩, rfl⟩

/-- Settles O33, check by check. -/
theorem recipeIsSet : Obligations.RecipeIsSet := by
  intro s p tag slot f now out refused num wide inUse good
  have answers {c : Part} {st : Status} {x : Body} (h : doRecipeSet slot f s.part = ⟨c, st, x⟩) :
      out = .next (answered s p 11#8 tag c st x) := exec_answers (r := .recipeSet slot f) now h
  have used_iff : s.part.recipeInUse slot.toNat = true ↔ inUse := recipeInUse_iff _ _
  refine ⟨fun beyond => answers ?_, fun low used => answers ?_, fun low free bad => answers ?_, fun low free ok => answers ?_⟩
  · simp [doRecipeSet, beyond, refuse]
  · simp [doRecipeSet, Nat.not_lt.mpr low, used_iff.mpr used, refuse]
  · have none_given : recipeOfFields f = none :=
      Option.eq_none_iff_forall_ne_some.mpr fun r given => bad ((recipeOfFields_some f r).mp given).1
    simp [doRecipeSet, Nat.not_lt.mpr low, Bool.eq_false_iff.mpr (mt used_iff.mp free), none_given, refuse]
  · have given : recipeOfFields f = some (recipeGiven f) := (recipeOfFields_some f _).mpr ⟨ok, rfl⟩
    simp only [doRecipeSet, Nat.not_lt.mpr low, Bool.eq_false_iff.mpr (mt used_iff.mp free), given]
    rfl

end Sys2Proof.Machine
end

section
/-! Numbers in bytes, least significant byte first (R168). -/

namespace Sys2Proof

theorem toNat_append_byte {n : Nat} (x : BitVec n) (b : Byte) : (x ++ b).toNat = b.toNat + 256 * x.toNat := by
  have low : b.toNat < 2 ^ 8 := b.isLt
  rw [BitVec.toNat_append, ← Nat.shiftLeft_add_eq_or_of_lt low, Nat.shiftLeft_eq]
  omega

theorem toNat_joinHalf (a b : Byte) : (joinHalf a b).toNat = a.toNat + 256 * b.toNat := toNat_append_byte b a

theorem toNat_joinFull (a b c d : Byte) : (joinFull a b c d).toNat =
    a.toNat + 256 * b.toNat + 65536 * c.toNat + 16777216 * d.toNat := by
  simp only [joinFull, toNat_append_byte]
  omega

theorem joinHalf_extract (v : Half) : joinHalf (v.extractLsb' 0 8) (v.extractLsb' 8 8) = v := by
  apply BitVec.eq_of_toNat_eq
  simp only [toNat_joinHalf, BitVec.extractLsb'_toNat, Nat.shiftRight_eq_div_pow]
  omega

theorem joinFull_extract (v : Full) :
    joinFull (v.extractLsb' 0 8) (v.extractLsb' 8 8) (v.extractLsb' 16 8) (v.extractLsb' 24 8) = v := by
  apply BitVec.eq_of_toNat_eq
  simp only [toNat_joinFull, BitVec.extractLsb'_toNat, Nat.shiftRight_eq_div_pow]
  omega

end Sys2Proof
end

section
/-! The settings image (R178): SETTINGS_SAVE and its end (O20), the end of the load (O21), and both together (O22). -/

namespace Sys2Proof.Machine

/-! ### The image -/

theorem settingsImage_length (ws : Settings) : (settingsImage ws).length = 56 := rfl

theorem take_settingsImage (ws : Settings) : (settingsImage ws).take 54 = imageCovered ws := rfl

theorem imageHalf_version (ws : Settings) : imageHalf (settingsImage ws) 0 = 1#16 := joinHalf_extract imageVersion

theorem imageHalf_crc (ws : Settings) : imageHalf (settingsImage ws) 54 = crc16 ((settingsImage ws).take 54) := by
  rw [take_settingsImage]
  exact joinHalf_extract (crc16 (imageCovered ws))

theorem storedSetting_image (ws : Settings) (k : SettingName) :
    storedSetting (settingsImage ws) k = ws.get k % 4294967296 := by
  have field : storedSetting (settingsImage ws) k =
      (joinFull ((BitVec.ofNat 32 (ws.get k)).extractLsb' 0 8) ((BitVec.ofNat 32 (ws.get k)).extractLsb' 8 8)
        ((BitVec.ofNat 32 (ws.get k)).extractLsb' 16 8) ((BitVec.ofNat 32 (ws.get k)).extractLsb' 24 8)).toNat := by
    cases k <;> rfl
  rw [field, joinFull_extract, BitVec.toNat_ofNat]

/-! ### SETTINGS_SAVE and its end (R181) -/

/-- The part when a save's bytes have reached the memory and before its result is known. -/
def Part.stored (c : Part) (bytes : List Byte) : Part :=
  { c with saving := none, imagePartial := false, memory := memoryWriteFrom c.memory 0 bytes }

theorem endSave_running {bus : SaveBus} {c : Part} {ws : Settings} (runs : c.saving = some ws) :
    endSave bus c = raiseEvent .tool .settingsDone (concludeSave ws bus (c.stored ((saveBytes bus).take 56))) := by
  rw [endSave, runs]
  rfl

theorem exec_saveEnd {bus : SaveBus} {s : State} {ws : Settings} (runs : s.part.saving = some ws) :
    exec (.saveEnd bus) s = .next (withPart s (raiseEvent .tool .settingsDone
      (concludeSave ws bus (s.part.stored ((saveBytes bus).take 56))))) :=
  congrArg (fun c => Host.Outcome.next (withPart s c)) (endSave_running runs)

/-- Settles O20: the image field by field, then by the bus's answer. -/
theorem settingsSaveAndItsEnd : Obligations.SettingsSaveAndItsEnd := by
  refine ⟨fun ws => ⟨settingsImage_length ws, imageHalf_version ws, storedSetting_image ws, imageHalf_crc ws⟩, ?_⟩
  intro s p tag bytes ws size stored ended failed
  have all : bytes.take 56 = bytes := List.take_of_length_le (by omega)
  refine ⟨fun now idle => ?_, fun now runs => ?_, fun runs same => ?_, fun runs differ => ?_, fun runs => ?_⟩
  · exact exec_answers (r := .settingsSave) now (show doSettingsSave s.part = _ by simp [doSettingsSave, idle, answerOk])
  · exact exec_answers (r := .settingsSave) now
      (show doSettingsSave s.part = _ by simp [doSettingsSave, Option.isSome_iff_ne_none.mpr runs, refuse])
  · rw [exec_saveEnd runs, saveBytes, all, concludeSave, if_pos same]
    rfl
  · rw [exec_saveEnd runs, saveBytes, all, concludeSave, if_neg differ]
    rfl
  · rw [exec_saveEnd runs, saveBytes, all, concludeSave]
    rfl

/-! ### The end of the load (R178, R180) -/

theorem idxOf_allSettings {n : Nat} {k : SettingName} (h : allSettings[n]? = some k) : allSettings.idxOf k = n := by
  obtain ⟨low, rfl⟩ := List.getElem?_eq_some_iff.mp h
  exact List.Nodup.idxOf_getElem (by decide) n low

theorem Settings.ext_get {g h : Settings} (same : ∀ k, g.get k = h.get k) : g = h := by
  have fields := fun k => same k
  cases g
  cases h
  simp only [Settings.mk.injEq]
  exact ⟨fields .portsFitted, fields .arTimeout, fields .vrTimeout, fields .alTimeout, fields .pumpTimeout,
    fields .ventTimeout, fields .stTimeout, fields .captureTimeout, fields .creditLow, fields .waferCap, fields .nominalZ,
    fields .parkZ, fields .settleTime⟩

/-- The part when a load has ended with these settings and this result. -/
def Part.loadedWith (c : Part) (ws : Settings) (r : LoadResult) : Part :=
  { c with settings := ws, loading := false, loadResult := some r, drive := ws.parkZ, unsaved := decide (r ≠ .loaded) }

theorem endLoad_defaulted {bus : BusRead} {c : Part} {ws : Settings} {why : LoadReason} (loading : c.loading = true)
    (read : readImage bus c = (ws, .defaulted why)) :
    endLoad bus c = recordError .settingsDefaulted (.settingsLoad why) (c.loadedWith ws (.defaulted why)) := by
  simp only [endLoad, loading, read, if_true]
  rfl

theorem endLoad_kept {bus : BusRead} {c : Part} {ws : Settings} {r : LoadResult} (loading : c.loading = true)
    (read : readImage bus c = (ws, r)) (kept : ∀ why, r ≠ .defaulted why) : endLoad bus c = c.loadedWith ws r := by
  simp only [endLoad, loading, read, if_true]
  cases r with
  | defaulted why => exact absurd rfl (kept why)
  | loaded => rfl
  | loadedClamped => rfl

/-- An image with a good CRC and the present version gives its fields, each clamped into its range. -/
theorem loadImage_good {bytes : List Byte} (crc : imageHalf bytes 54 = crc16 (bytes.take 54))
    (version : imageHalf bytes 0 = 1#16) : ∃ r, loadImage bytes = (storedSettings clampSetting bytes, r) ∧
      ((∀ k, clampSetting k (storedSetting bytes k) = storedSetting bytes k) → r = .loaded) ∧
      ((∃ k, clampSetting k (storedSetting bytes k) ≠ storedSetting bytes k) → r = .loadedClamped) := by
  have same_iff : storedSettings clampSetting bytes = storedSettings (fun _ v => v) bytes ↔
      ∀ k, clampSetting k (storedSetting bytes k) = storedSetting bytes k := by
    refine ⟨fun same k => ?_, fun same => Settings.ext_get fun k => ?_⟩
    · rw [← storedSettings_get clampSetting, same, storedSettings_get]
    · rw [storedSettings_get, storedSettings_get, same]
  rw [loadImage, if_neg (not_not.mpr crc), if_neg (not_not.mpr (show imageHalf bytes 0 = imageVersion from version))]
  by_cases same : ∀ k, clampSetting k (storedSetting bytes k) = storedSetting bytes k
  · exact ⟨.loaded, if_pos (same_iff.mpr same), fun _ => rfl, fun ⟨k, differ⟩ => absurd (same k) differ⟩
  · exact ⟨.loadedClamped, if_neg (mt same_iff.mp same), fun all => absurd all same, fun _ => rfl⟩

/-- Settles O21, by what the read of the memory gave. -/
theorem settingsLoadEnds : Obligations.SettingsLoadEnds := by
  refine ⟨by decide, ?_, ?_⟩
  · intro bytes n k byte
    refine ⟨toNat_joinHalf _ _, fun named => ?_⟩
    rw [storedSetting, idxOf_allSettings named, imageFull, toNat_joinFull]
    simp only [byte, Nat.add_right_comm]
  · intro s loading bytes crcGood loaded defaulted
    have ends {bus : BusRead} {c : Part} (h : endLoad bus s.part = c) :
        exec (.settingsLoadEnd bus) s = .next (withPart s c) := by rw [← h]; rfl
    refine ⟨ends (endLoad_defaulted loading rfl), fun bad => ends (endLoad_defaulted loading ?_), fun whole crc other =>
      ends (endLoad_defaulted loading ?_), fun whole crc version => ?_⟩
    · by_cases torn : s.part.imagePartial = true
      · simp [readImage, torn]
      · have wrong : imageHalf bytes 54 ≠ crc16 (bytes.take 54) := bad.resolve_left torn
        rw [readImage, if_neg torn, loadImage, if_pos wrong]
    · have right : imageHalf bytes 54 = crc16 (bytes.take 54) := crc
      rw [readImage, whole, if_neg Bool.false_ne_true, loadImage, if_neg (not_not.mpr right),
        if_pos (show imageHalf bytes 0 ≠ imageVersion from other)]
    · obtain ⟨r, image, exact_fields, clamped⟩ := loadImage_good crc version
      have read : readImage .answered s.part = (storedSettings clampSetting bytes, r) := by
        rw [readImage, whole, if_neg Bool.false_ne_true]
        exact image
      have kept (why : LoadReason) : r ≠ .defaulted why := by
        by_cases same : ∀ k, clampSetting k (storedSetting bytes k) = storedSetting bytes k
        · simp [exact_fields same]
        · simp [clamped (not_forall.mp same)]
      refine ⟨_, r, ends (endLoad_kept loading read kept), fun k => storedSettings_get _ _ _, fun same => ?_, fun differ => ?_⟩
      · exact exact_fields fun k => by rw [← storedSettings_get clampSetting, same]
      · obtain ⟨k, hk⟩ := differ
        exact clamped ⟨k, by rwa [← storedSettings_get clampSetting]⟩

/-! ### Saved settings come back (R178, R181) -/

theorem clampSetting_of_in_range {k : SettingName} {v : Nat} (h : (settingRange k).1 ≤ v ∧ v ≤ (settingRange k).2) :
    clampSetting k v = v := by
  simp only [clampSetting]
  omega

theorem settingRange_small (k : SettingName) : (settingRange k).2 < 4294967296 := by cases k <;> decide

theorem loadImage_settingsImage {ws : Settings} (h : ∀ k, (settingRange k).1 ≤ ws.get k ∧ ws.get k ≤ (settingRange k).2) :
    loadImage (settingsImage ws) = (ws, .loaded) := by
  have field (k : SettingName) : storedSetting (settingsImage ws) k = ws.get k := by
    rw [storedSetting_image]
    exact Nat.mod_eq_of_lt ((h k).2.trans_lt (settingRange_small k))
  have same (k : SettingName) : clampSetting k (storedSetting (settingsImage ws) k) = storedSetting (settingsImage ws) k := by
    rw [field, clampSetting_of_in_range (h k)]
  obtain ⟨r, image, loaded, -⟩ := loadImage_good (imageHalf_crc ws) (imageHalf_version ws)
  rw [image, loaded same, Prod.mk.injEq]
  exact ⟨Settings.ext_get fun k => by rw [storedSettings_get, same, field], rfl⟩

/-- A save whose bytes read back match leaves them in the memory. -/
theorem exec_saveEnd_done {bytes : List Byte} {s : State} {ws : Settings} (runs : s.part.saving = some ws)
    (same : bytes = settingsImage ws) : ∃ t, exec (.saveEnd (.readBack bytes)) s = .next t ∧
      t.part.memory = memoryWriteFrom s.part.memory 0 bytes ∧ t.part.imagePartial = false ∧ t.part.saving = none := by
  have all : bytes.take 56 = bytes := List.take_of_length_le (by rw [same, settingsImage_length])
  refine ⟨_, exec_saveEnd runs, ?_⟩
  rw [saveBytes, all, concludeSave, if_pos same]
  exact ⟨rfl, rfl, rfl⟩

/-- Settles O22: the memory holds the image through the power-on. -/
theorem savedSettingsComeBack : Obligations.SavedSettingsComeBack := by
  intro s ws runs memory in_range
  obtain ⟨t, saved, t_memory, t_whole, t_idle⟩ : ∃ t, exec (.saveEnd (.readBack (settingsImage ws))) s = .next t ∧
      t.part.memory = memoryWriteFrom s.part.memory 0 (settingsImage ws) ∧ t.part.imagePartial = false ∧
      t.part.saving = none :=
    exec_saveEnd_done runs rfl
  obtain ⟨u, restarted, keeps⟩ : ∃ u, exec .powerOn t = .next u ∧
      SettleKeeps (Part.powerOn t.part.memory (t.part.imagePartial || t.part.saving.isSome)) u.part :=
    ⟨powerOnState t, rfl, by dsimp only [powerOnState]; exact settle_keeps (Part.powerOn _ _)⟩
  have whole : u.part.imagePartial = false := by rw [keeps.imagePartial, t_whole, t_idle]; rfl
  have bytes : memoryReadFrom u.part.memory 0 56 = settingsImage ws := by
    have kept : u.part.memory = t.part.memory := keeps.memory
    rw [kept, t_memory]
    exact memoryReadFrom_writeFrom s.part.memory 0 (settingsImage ws) (by rw [settingsImage_length]; decide) memory
  have read : readImage .answered u.part = (ws, .loaded) := by
    rw [readImage, whole, if_neg Bool.false_ne_true, bytes, loadImage_settingsImage in_range]
  have ended := endLoad_kept keeps.loading read (by simp)
  exact ⟨t, u, _, saved, restarted, congrArg (fun c => Host.Outcome.next (withPart u c)) ended, rfl, rfl, rfl, rfl, rfl⟩

end Sys2Proof.Machine
end

section
/-! Frames (O6): the CRC bit by bit, what the receiver finds, what a port sends. -/

namespace Sys2Proof.Machine

/-! ### The CRC (R160) -/

/-- The CRC register takes one bit. -/
def takeBit (reg : Half) (bit : Bool) : Half := (reg <<< 1) ^^^ (if reg.msb = bit then 0#16 else 4129#16)

/-- One shift with a byte's bits waiting at the top of the register takes the first of them. -/
theorem crcShift_takeBit (reg m : Half) : crcShift (reg ^^^ m) = takeBit reg m.msb ^^^ (m <<< 1) := crcShift_xor reg m

theorem msb_waiting : ∀ (b : Byte), ∀ j < 8, (b.setWidth 16 <<< (8 + j) : Half).msb = b.getLsbD (7 - j) := by
  decide

/-- The register takes the bits of a byte, the most significant first. -/
theorem crcByte_eq (reg : Half) (b : Byte) :
    crcByte reg b = [7, 6, 5, 4, 3, 2, 1, 0].foldl (fun reg k => takeBit reg (b.getLsbD k)) reg := by
  have shift (reg : Half) (j : Nat) (h : j < 8) : crcShift (reg ^^^ (b.setWidth 16 <<< (8 + j))) =
      takeBit reg (b.getLsbD (7 - j)) ^^^ (b.setWidth 16 <<< (8 + (j + 1))) := by
    rw [crcShift_takeBit, msb_waiting b j h, ← BitVec.shiftLeft_add, Nat.add_assoc]
  have start : b.setWidth 16 <<< 8 = (b.setWidth 16 <<< (8 + 0) : Half) := rfl
  have spent : (b.setWidth 16 <<< (8 + 8) : Half) = 0#16 := by simp
  simp only [crcByte]
  rw [start, shift _ 0 (by decide), shift _ 1 (by decide), shift _ 2 (by decide), shift _ 3 (by decide), shift _ 4 (by decide),
    shift _ 5 (by decide), shift _ 6 (by decide), shift _ 7 (by decide), spent, BitVec.xor_zero]
  rfl

theorem crc16_snoc (bytes : List Byte) (b : Byte) : crc16 (bytes ++ [b]) =
    [7, 6, 5, 4, 3, 2, 1, 0].foldl (fun reg k => takeBit reg (b.getLsbD k)) (crc16 bytes) := by
  rw [crc16, List.foldl_append]
  exact crcByte_eq (crc16 bytes) b

/-! ### What the receiver finds (R160) -/

/-- All bytes of a frame have come in: the CRC decides. -/
theorem scanFrame_whole {s0 s1 l0 l1 code t0 t1 c0 c1 : Byte} {body rest : List Byte}
    (length : (joinHalf l0 l1).toNat = body.length) (fits : body.length ≤ 1024) :
    scanFrame (s0 :: s1 :: l0 :: l1 :: code :: t0 :: t1 :: (body ++ c0 :: c1 :: rest)) =
      if joinHalf c0 c1 = crc16 (l0 :: l1 :: code :: t0 :: t1 :: body) then .frame ⟨code, joinHalf t0 t1, body⟩ rest
      else .badCrc (joinHalf l0 l1) code (joinHalf t0 t1) rest := by
  have no_overlong : ¬ maxBody < body.length := Nat.not_lt.mpr fits
  simp [scanFrame, length, no_overlong]

theorem toNat_ofNat_length {body : List Byte} (fits : body.length ≤ 1024) :
    (BitVec.ofNat 16 body.length).toNat = body.length := by
  rw [BitVec.toNat_ofNat]
  omega

theorem scanFrame_requestFrame (code : Byte) (tag : Half) (body rest : List Byte) (fits : body.length ≤ 1024) :
    scanFrame (requestFrame code tag body ++ rest) = .frame ⟨code, tag, body⟩ rest := by
  let crc := crc16 (encodeHalf (BitVec.ofNat 16 body.length) ++ [code] ++ encodeHalf tag ++ body)
  have frame : requestFrame code tag body ++ rest = 165#8 :: 90#8 :: (BitVec.ofNat 16 body.length).extractLsb' 0 8 ::
      (BitVec.ofNat 16 body.length).extractLsb' 8 8 :: code :: tag.extractLsb' 0 8 :: tag.extractLsb' 8 8 ::
      (body ++ crc.extractLsb' 0 8 :: crc.extractLsb' 8 8 :: rest) := by
    simp [requestFrame, syncBytes, encodeHalf, crc]
  rw [frame, scanFrame_whole (by rw [joinHalf_extract, toNat_ofNat_length fits]) fits, joinHalf_extract, joinHalf_extract]
  exact if_pos rfl

/-- Settles O6: the CRC, the scan of each kind of frame, the frame of a response. -/
theorem framesAreScanned : Obligations.FramesAreScanned := by
  refine ⟨rfl, fun bytes b => crc16_snoc bytes b, scanFrame_requestFrame, ?bad, ?long, fun r => ⟨?frame, ?short⟩, rfl, ?report,
    rfl, fun q r rest => ⟨fun none_waits => ?quiet, fun waits => ?sends⟩⟩
  case bad =>
    intro l0 l1 code t0 t1 c0 c1 body rest fits length wrong
    have bytes : [165#8, 90#8, l0, l1, code, t0, t1] ++ body ++ [c0, c1] ++ rest =
        165#8 :: 90#8 :: l0 :: l1 :: code :: t0 :: t1 :: (body ++ c0 :: c1 :: rest) := by simp
    rw [bytes, scanFrame_whole (by rw [length, toNat_ofNat_length fits]) fits]
    exact if_neg wrong
  case long =>
    intro l0 l1 rest long
    exact if_pos long
  case frame => rfl
  case short => exact List.length_take_le _ _
  case report =>
    intro wire n fits
    exact ⟨_, List.take_append.trans (congrArg (· ++ _) (List.take_of_length_le fits))⟩
  case quiet => rw [Port.sending, none_waits]; rfl
  case sends => rw [Port.sending, waits]; rfl

end Sys2Proof.Machine
end

section
/-! Reading a body back (O8): each reader takes exactly what its writer wrote, and nothing else. -/

namespace Sys2Proof

/-! ### A reader takes back what was written (R168) -/

/-- The reader takes the item back from the front of the bytes. -/
def TakesBack {α : Type} (rd : Reader α) (enc : α → List Byte) (a : α) : Prop :=
  ∀ rest, rd (enc a ++ rest) = some (a, rest)

theorem TakesBack.bind {α β : Type} {rd : Reader α} {enc : α → List Byte} {a : α} (h : TakesBack rd enc a) (rest : List Byte)
    (f : α × List Byte → Option β) : (rd (enc a ++ rest) >>= f) = f (a, rest) := by
  rw [h rest]
  rfl

theorem readByte_cons (b : Byte) (rest : List Byte) : readByte (b :: rest) = some (b, rest) := rfl

theorem readByte_back (b : Byte) : TakesBack readByte encodeByte b := fun _ => rfl

theorem readHalf_back (v : Half) : TakesBack readHalf encodeHalf v := fun rest =>
  congrArg (fun v => some (v, rest)) (joinHalf_extract v)

theorem readFull_back (v : Full) : TakesBack readFull encodeFull v := fun rest =>
  congrArg (fun v => some (v, rest)) (joinFull_extract v)

theorem toNat_lengthByte {n : Nat} (h : n < 256) : (BitVec.ofNat 8 n).toNat = n := by
  rw [BitVec.toNat_ofNat]
  exact Nat.mod_eq_of_lt h

theorem readText_back {t : Text} (h : Text.fits t = true) : TakesBack readText encodeText t := by
  intro rest
  have short : t.length < 256 := of_decide_eq_true h
  simp [readText, encodeText, Nat.mod_eq_of_lt short]

theorem readMany_back {α : Type} {rd : Reader α} {enc : α → List Byte} (l : List α) (h : ∀ a ∈ l, TakesBack rd enc a)
    (rest : List Byte) : readMany rd l.length (l.flatMap enc ++ rest) = some (l, rest) := by
  induction l with
  | nil => rfl
  | cons a l ih =>
    rw [List.flatMap_cons, List.append_assoc, List.length_cons, readMany, h a List.mem_cons_self]
    simp only [ih fun x hx => h x (List.mem_cons_of_mem a hx)]

theorem readList_back {α : Type} {rd : Reader α} {enc : α → List Byte} {l : List α} (fits : listFits l = true)
    (h : ∀ a ∈ l, TakesBack rd enc a) : TakesBack (readList rd) (encodeList enc) l := by
  intro rest
  have count : (BitVec.ofNat 8 l.length).toNat = l.length := toNat_lengthByte (of_decide_eq_true fits)
  rw [encodeList, List.cons_append, readList, count]
  exact readMany_back l h rest

theorem readBytes_back {l : List Byte} (fits : listFits l = true) : TakesBack (readList readByte) (encodeList encodeByte) l :=
  readList_back fits fun b _ => readByte_back b

theorem readOption_back {α : Type} {rd : Reader α} {enc : α → List Byte} {o : Option α} (h : ∀ a, o = some a → TakesBack rd enc a) :
    TakesBack (readOption rd) (encodeOption enc) o := by
  intro rest
  cases o with
  | none => rfl
  | some a => simp [encodeOption, readOption, h a rfl rest]

/-! ### The parts of the longer requests -/

theorem readSlotField_back {f : SlotField} (fits : f.fits = true) : TakesBack readSlotField encodeSlotField f := by
  intro rest
  have text : TakesBack (readOption readText) (encodeOption encodeText) f.expected := readOption_back fun t expected =>
    readText_back (by simpa [SlotField.fits, expected] using fits)
  simp [readSlotField, encodeSlotField, readByte_cons, text rest]

theorem readSiteField_back (f : SiteField) : TakesBack readSiteField encodeSiteField f := by
  intro rest
  simp [readSiteField, encodeSiteField, readByte_cons, readHalf_back _ _, readFull_back _ _]

theorem readExcursionField_back (f : ExcursionField) : TakesBack readExcursionField encodeExcursionField f := by
  intro rest
  simp [readExcursionField, encodeExcursionField, readByte_cons, readHalf_back _ _]

theorem readReportingField_back (f : ReportingField) : TakesBack readReportingField encodeReportingField f := fun _ => rfl

theorem readRecipeFields_back {f : RecipeFields} (fits : f.fits = true) : TakesBack readRecipeFields encodeRecipeFields f := by
  intro rest
  have byte (o : Option Byte) : TakesBack (readOption readByte) (encodeOption encodeByte) o :=
    readOption_back fun b _ => readByte_back b
  have half (o : Option Half) : TakesBack (readOption readHalf) (encodeOption encodeHalf) o :=
    readOption_back fun v _ => readHalf_back v
  have entries : TakesBack (readOption (readList readExcursionField)) (encodeOption (encodeList encodeExcursionField))
      f.excursions := readOption_back fun l given =>
    readList_back (by simpa [RecipeFields.fits, given] using fits) fun e _ => readExcursionField_back e
  simp only [readRecipeFields, encodeRecipeFields, List.append_assoc, (byte _).bind, (half _).bind, entries.bind]
  rfl

/-- A request that a frame can carry is read back from the front of its bytes. -/
theorem readRequest_back (r : Request) (fits : r.fits = true) : TakesBack (readRequest r.kind) Request.encode r := by
  intro rest
  cases r with
  | carrierDocked port id => simp [readRequest, Request.kind, Request.encode, readByte_cons, readText_back fits _]
  | slotMap port entries =>
    obtain ⟨count, texts⟩ := Bool.and_eq_true_iff.mp fits
    have list : TakesBack (readList readSlotField) (encodeList encodeSlotField) entries :=
      readList_back count fun f member => readSlotField_back (List.all_eq_true.mp texts f member)
    simp [readRequest, Request.kind, Request.encode, readByte_cons, list _]
  | lotDefine id port recipe priority selection =>
    obtain ⟨text, count⟩ := Bool.and_eq_true_iff.mp fits
    simp [readRequest, Request.kind, Request.encode, readByte_cons, readText_back text _, readBytes_back count _]
  | lotStart id => simp [readRequest, Request.kind, Request.encode, readText_back fits _]
  | lotHold id scope => simp [readRequest, Request.kind, Request.encode, readByte_cons, readText_back fits _]
  | lotRelease id choice => simp [readRequest, Request.kind, Request.encode, readByte_cons, readText_back fits _]
  | lotAbort id => simp [readRequest, Request.kind, Request.encode, readText_back fits _]
  | siteSeal id slot => simp [readRequest, Request.kind, Request.encode, readByte_cons, readText_back fits _]
  | lotQuery sel =>
    cases sel with
    | lot id => simp [readRequest, Request.kind, Request.encode, readLotSelector, readByte_cons, readText_back fits _]
    | port n => rfl
  | recipeSet slot fields => simp [readRequest, Request.kind, Request.encode, readByte_cons, readRecipeFields_back fits _]
  | siteLoad id slot sites =>
    obtain ⟨text, count⟩ := Bool.and_eq_true_iff.mp fits
    have list : TakesBack (readList readSiteField) (encodeList encodeSiteField) sites :=
      readList_back count fun f _ => readSiteField_back f
    simp [readRequest, Request.kind, Request.encode, readByte_cons, readText_back text _, list _]
  | siteQuery sel =>
    cases sel with
    | pool => rfl
    | list id slot start => simp [readRequest, Request.kind, Request.encode, readSiteSelector, readByte_cons, readText_back fits _, readHalf_back _ _]
  | reportFetch sel =>
    cases sel with
    | number n => simp [readRequest, Request.kind, Request.encode, readReportSelector, readByte_cons, readHalf_back _ _]
    | oldest => rfl
  | errorRead sel =>
    cases sel with
    | all => rfl
    | cls c => rfl
    | kinds names => simp [readRequest, Request.kind, Request.encode, readErrorSelector, readByte_cons, readBytes_back fits _]
  | errorClear names changes =>
    obtain ⟨count, changed⟩ := Bool.and_eq_true_iff.mp fits
    have list : TakesBack (readOption (readList readReportingField)) (encodeOption (encodeList encodeReportingField))
        changes := readOption_back fun l given =>
      readList_back (by simpa [given] using changed) fun f _ => readReportingField_back f
    simp [readRequest, Request.kind, Request.encode, readBytes_back count _, list _]
  | captureDone number result => simp [readRequest, Request.kind, Request.encode, readByte_cons, readHalf_back _ _]
  | classPost number cls confidence => simp [readRequest, Request.kind, Request.encode, readByte_cons, readHalf_back _ _]
  | reportAck number => simp [readRequest, Request.kind, Request.encode, readHalf_back _ _]
  | statsTake statistic amount => simp [readRequest, Request.kind, Request.encode, readByte_cons, readFull_back _ _]
  | settingSet name value => simp [readRequest, Request.kind, Request.encode, readByte_cons, readFull_back _ _]
  | noticeMaskSet conds => simp [readRequest, Request.kind, Request.encode, readBytes_back fits _]
  | noticeMaskClear conds => simp [readRequest, Request.kind, Request.encode, readBytes_back fits _]
  | carrierRelease port => rfl
  | carrierUndocked port => rfl
  | recipeQuery slot => rfl
  | moverRecover mover disposition => rfl
  | bufferGrant n => rfl
  | modeSet mode => rfl
  | cellQuery => rfl
  | captureFetch => rfl
  | captureStatus => rfl
  | statsRead => rfl
  | noticeRead => rfl
  | settingRead => rfl
  | settingsSave => rfl
  | toolClear => rfl

end Sys2Proof
end

section
/-! A body is read as a request of its kind only when it is exactly that request's bytes; the layout of each body (O8). -/

namespace Sys2Proof

/-! ### What is read is what was written -/

section
variable {α β γ : Type} {ra : Reader α} {ea : α → List Byte} {rb : Reader β} {eb : β → List Byte} {rc : Reader γ}
  {ec : γ → List Byte} {bytes rest : List Byte} {r : Request}

theorem Reads.one (ha : Reads ra ea) {mk : α → Request}
    (e : (ra bytes >>= fun x => some (mk x.1, x.2)) = some (r, rest)) : ∃ a, r = mk a ∧ bytes = ea a ++ rest := by
  obtain ⟨a, _, front, e⟩ := ha.bind e
  cases e
  exact ⟨a, rfl, front⟩

theorem Reads.two (ha : Reads ra ea) (hb : Reads rb eb) {mk : α → β → Request}
    (e : (ra bytes >>= fun x => rb x.2 >>= fun y => some (mk x.1 y.1, y.2)) = some (r, rest)) :
    ∃ a b, r = mk a b ∧ bytes = ea a ++ (eb b ++ rest) := by
  obtain ⟨a, _, rfl, after⟩ := ha.bind e
  obtain ⟨b, made, rfl⟩ := hb.one after
  exact ⟨a, b, made, rfl⟩

theorem Reads.three (ha : Reads ra ea) (hb : Reads rb eb) (hc : Reads rc ec) {mk : α → β → γ → Request}
    (e : (ra bytes >>= fun x => rb x.2 >>= fun y => rc y.2 >>= fun z => some (mk x.1 y.1 z.1, z.2)) = some (r, rest)) :
    ∃ a b c, r = mk a b c ∧ bytes = ea a ++ (eb b ++ (ec c ++ rest)) := by
  obtain ⟨a, _, rfl, after⟩ := ha.bind e
  obtain ⟨b, c, made, rfl⟩ := hb.two hc after
  exact ⟨a, b, c, made, rfl⟩

end

theorem readBytes_reads : Reads (readList readByte) (encodeList encodeByte) := readList_reads _ _ readByte_reads

theorem readLotSelector_reads : Reads readLotSelector fun sel => (Request.lotQuery sel).encode := by
  intro bytes sel rest e
  obtain ⟨b, more, rfl, after⟩ := readByte_reads.bind e
  clear e
  dsimp only at after
  split at after
  next zero =>
    obtain ⟨id, _, rfl, made⟩ := readText_reads.bind after
    cases made
    rw [zero]; rfl
  next =>
    split at after
    next one =>
      obtain ⟨n, _, rfl, made⟩ := readByte_reads.bind after
      cases made
      rw [one]; rfl
    next => cases after

theorem readSiteSelector_reads : Reads readSiteSelector fun sel => (Request.siteQuery sel).encode := by
  intro bytes sel rest e
  obtain ⟨b, more, rfl, after⟩ := readByte_reads.bind e
  clear e
  dsimp only at after
  split at after
  next zero => cases after; rw [zero]; rfl
  next =>
    split at after
    next one =>
      obtain ⟨id, _, rfl, with_id⟩ := readText_reads.bind after
      obtain ⟨slot, _, rfl, with_slot⟩ := readByte_reads.bind with_id
      obtain ⟨start, _, rfl, made⟩ := readHalf_reads.bind with_slot
      cases made
      simp [one, Request.encode, encodeByte]
    next => cases after

theorem readReportSelector_reads : Reads readReportSelector fun sel => (Request.reportFetch sel).encode := by
  intro bytes sel rest e
  obtain ⟨b, more, rfl, after⟩ := readByte_reads.bind e
  clear e
  dsimp only at after
  split at after
  next zero =>
    obtain ⟨n, _, rfl, made⟩ := readHalf_reads.bind after
    cases made
    rw [zero]; rfl
  next =>
    split at after
    next one => cases after; rw [one]; rfl
    next => cases after

theorem readErrorSelector_reads : Reads readErrorSelector fun sel => (Request.errorRead sel).encode := by
  intro bytes sel rest e
  obtain ⟨b, more, rfl, after⟩ := readByte_reads.bind e
  clear e
  dsimp only at after
  split at after
  next zero => cases after; rw [zero]; rfl
  next =>
    split at after
    next one =>
      obtain ⟨c, _, rfl, made⟩ := readByte_reads.bind after
      cases made
      rw [one]; rfl
    next =>
      split at after
      next two =>
        obtain ⟨names, _, rfl, made⟩ := readBytes_reads.bind after
        cases made
        rw [two]; rfl
      next => cases after

/-- A request that is read from the front of the bytes is of the kind asked for, and its bytes stood there. -/
theorem readRequest_reads (k : Kind) (bytes : List Byte) (r : Request) (rest : List Byte)
    (e : readRequest k bytes = some (r, rest)) : r.kind = k ∧ bytes = r.encode ++ rest := by
  cases k with
  | carrierRelease =>
    obtain ⟨a, rfl, rfl⟩ := readByte_reads.one e
    exact ⟨rfl, rfl⟩
  | carrierUndocked =>
    obtain ⟨a, rfl, rfl⟩ := readByte_reads.one e
    exact ⟨rfl, rfl⟩
  | lotStart =>
    obtain ⟨a, rfl, rfl⟩ := readText_reads.one e
    exact ⟨rfl, rfl⟩
  | lotAbort =>
    obtain ⟨a, rfl, rfl⟩ := readText_reads.one e
    exact ⟨rfl, rfl⟩
  | recipeQuery =>
    obtain ⟨a, rfl, rfl⟩ := readByte_reads.one e
    exact ⟨rfl, rfl⟩
  | bufferGrant =>
    obtain ⟨a, rfl, rfl⟩ := readByte_reads.one e
    exact ⟨rfl, rfl⟩
  | reportAck =>
    obtain ⟨a, rfl, rfl⟩ := readHalf_reads.one e
    exact ⟨rfl, rfl⟩
  | noticeMaskSet =>
    obtain ⟨a, rfl, rfl⟩ := readBytes_reads.one e
    exact ⟨rfl, rfl⟩
  | noticeMaskClear =>
    obtain ⟨a, rfl, rfl⟩ := readBytes_reads.one e
    exact ⟨rfl, rfl⟩
  | modeSet =>
    obtain ⟨a, rfl, rfl⟩ := readByte_reads.one e
    exact ⟨rfl, rfl⟩
  | lotQuery =>
    obtain ⟨a, rfl, rfl⟩ := readLotSelector_reads.one e
    exact ⟨rfl, rfl⟩
  | siteQuery =>
    obtain ⟨a, rfl, rfl⟩ := readSiteSelector_reads.one e
    exact ⟨rfl, rfl⟩
  | reportFetch =>
    obtain ⟨a, rfl, rfl⟩ := readReportSelector_reads.one e
    exact ⟨rfl, rfl⟩
  | errorRead =>
    obtain ⟨a, rfl, rfl⟩ := readErrorSelector_reads.one e
    exact ⟨rfl, rfl⟩
  | carrierDocked =>
    obtain ⟨a, b, rfl, rfl⟩ := readByte_reads.two readText_reads e
    exact ⟨rfl, by simp [Request.encode, encodeByte]⟩
  | slotMap =>
    obtain ⟨a, b, rfl, rfl⟩ := readByte_reads.two (readList_reads _ _ readSlotField_reads) e
    exact ⟨rfl, by simp [Request.encode, encodeByte]⟩
  | lotHold =>
    obtain ⟨a, b, rfl, rfl⟩ := readText_reads.two readByte_reads e
    exact ⟨rfl, by simp [Request.encode, encodeByte]⟩
  | lotRelease =>
    obtain ⟨a, b, rfl, rfl⟩ := readText_reads.two readByte_reads e
    exact ⟨rfl, by simp [Request.encode, encodeByte]⟩
  | recipeSet =>
    obtain ⟨a, b, rfl, rfl⟩ := readByte_reads.two readRecipeFields_reads e
    exact ⟨rfl, by simp [Request.encode, encodeByte]⟩
  | siteSeal =>
    obtain ⟨a, b, rfl, rfl⟩ := readText_reads.two readByte_reads e
    exact ⟨rfl, by simp [Request.encode, encodeByte]⟩
  | moverRecover =>
    obtain ⟨a, b, rfl, rfl⟩ := readByte_reads.two readByte_reads e
    exact ⟨rfl, by simp [Request.encode, encodeByte]⟩
  | captureDone =>
    obtain ⟨a, b, rfl, rfl⟩ := readHalf_reads.two readByte_reads e
    exact ⟨rfl, by simp [Request.encode, encodeByte]⟩
  | statsTake =>
    obtain ⟨a, b, rfl, rfl⟩ := readByte_reads.two readFull_reads e
    exact ⟨rfl, by simp [Request.encode, encodeByte]⟩
  | errorClear =>
    obtain ⟨a, b, rfl, rfl⟩ := readBytes_reads.two (readOption_reads _ _ (readList_reads _ _ readReportingField_reads)) e
    exact ⟨rfl, by simp [Request.encode]⟩
  | settingSet =>
    obtain ⟨a, b, rfl, rfl⟩ := readByte_reads.two readFull_reads e
    exact ⟨rfl, by simp [Request.encode, encodeByte]⟩
  | siteLoad =>
    obtain ⟨a, b, c, rfl, rfl⟩ := readText_reads.three readByte_reads (readList_reads _ _ readSiteField_reads) e
    exact ⟨rfl, by simp [Request.encode, encodeByte]⟩
  | classPost =>
    obtain ⟨a, b, c, rfl, rfl⟩ := readHalf_reads.three readByte_reads readByte_reads e
    exact ⟨rfl, by simp [Request.encode, encodeByte]⟩
  | lotDefine =>
    obtain ⟨id, _, rfl, with_id⟩ := readText_reads.bind e
    obtain ⟨port, _, rfl, with_port⟩ := readByte_reads.bind with_id
    obtain ⟨recipe, priority, selection, rfl, rfl⟩ := readByte_reads.three readByte_reads readBytes_reads with_port
    exact ⟨rfl, by simp [Request.encode, encodeByte]⟩
  | cellQuery => cases e; exact ⟨rfl, rfl⟩
  | captureFetch => cases e; exact ⟨rfl, rfl⟩
  | captureStatus => cases e; exact ⟨rfl, rfl⟩
  | statsRead => cases e; exact ⟨rfl, rfl⟩
  | noticeRead => cases e; exact ⟨rfl, rfl⟩
  | settingRead => cases e; exact ⟨rfl, rfl⟩
  | settingsSave => cases e; exact ⟨rfl, rfl⟩
  | toolClear => cases e; exact ⟨rfl, rfl⟩

end Sys2Proof
end

section
namespace Sys2Proof.Machine

/-- A list's bytes: its count, then its items. -/
theorem encodeList_eq {α : Type} (item : α → List Byte) (l : List α) :
    encodeList item l = BitVec.ofNat 8 (l.map item).length :: (l.map item).flatten := by
  rw [encodeList, List.length_map, List.flatMap_def]

theorem decodeBody_some (k : Kind) (body : List Byte) (r : Request) :
    decodeBody k body = some r ↔ readRequest k body = some (r, []) := by
  unfold decodeBody
  split
  next r' read => simp [read]
  next other =>
    simp only [reduceCtorEq, false_iff]
    exact fun read => other _ read

/-- Settles O8: reading back, exactness, and the layout of each body. -/
theorem requestBodiesReadBack : Obligations.RequestBodiesReadBack := by
  refine ⟨fun r fits => ?_, fun k body r h => ?_, ?_⟩
  · rw [decodeBody_some]
    simpa using readRequest_back r fits []
  · obtain ⟨kind, bytes⟩ := readRequest_reads k body r [] ((decodeBody_some k body r).mp h)
    exact ⟨kind, by simpa using bytes.symm⟩
  · intro id a b c v w l slots sites f changes half full text list opt names
    have list_eq {α : Type} (item : α → List Byte) (l : List α) : encodeList item l = list (l.map item) := encodeList_eq item l
    have opt_eq {α : Type} (item : α → List Byte) (o : Option α) : encodeOption item o = opt (o.map item) := by
      cases o <;> rfl
    have names_eq : encodeList encodeByte l = names := list_eq encodeByte l
    have slot_eq (e : SlotField) : encodeSlotField e = [e.state] ++ opt (e.expected.map text) :=
      congrArg ([e.state] ++ ·) (opt_eq encodeText e.expected)
    have excursions_eq : encodeOption (encodeList encodeExcursionField) f.excursions =
        opt (f.excursions.map fun xs => list (xs.map fun x => [x.cls] ++ half x.limit ++ [x.action])) := by
      rw [opt_eq, funext (list_eq encodeExcursionField)]
      rfl
    have changes_eq : encodeOption (encodeList encodeReportingField) changes =
        opt (changes.map fun xs => list (xs.map fun x => [x.kind, x.value])) := by
      rw [opt_eq, funext (list_eq encodeReportingField)]
      rfl
    refine ⟨rfl, ?slotMap, rfl, rfl, ?lotDefine, rfl, rfl, rfl, rfl, rfl, rfl, ?recipeSet, rfl, ?siteLoad, rfl, rfl,
      ?siteQuery, rfl, rfl, rfl, rfl, rfl, rfl, rfl, rfl, names_eq, names_eq, rfl, rfl, congrArg (2#8 :: ·) names_eq,
      ?errorClear, rfl, rfl, ?empty⟩
    case slotMap =>
      rw [← funext slot_eq]
      exact congrArg (a :: ·) (list_eq encodeSlotField slots)
    case lotDefine =>
      exact congrArg (encodeText id ++ [a, b, c] ++ ·) names_eq
    case recipeSet =>
      simp only [Request.encode, encodeRecipeFields, excursions_eq, opt_eq]
      have byte : encodeByte = fun b => [b] := rfl
      have two : encodeHalf = half := rfl
      simp only [byte, two, List.map_cons, List.map_nil, List.flatten_cons, List.flatten_nil, List.append_nil,
        List.append_assoc]
      rfl
    case siteLoad =>
      exact congrArg (encodeText id ++ [a] ++ ·) (list_eq encodeSiteField sites)
    case siteQuery =>
      simp [Request.encode, text, half, encodeText, encodeHalf]
    case errorClear =>
      rw [← names_eq, ← changes_eq]
      rfl
    case empty =>
      simp [Request.encode]

end Sys2Proof.Machine
end

section
/-! Reports (O57): the queue's requests, how the queue fills, the wire form. -/

namespace Sys2Proof.Machine

/-! ### REPORT_FETCH and REPORT_ACK (R154, R155) -/

theorem find_oldest {α : Type} {f : α → Bool} {older newer : List α} {r : α} (here : f r = true)
    (before : ∀ x ∈ older, f x = false) : (older ++ r :: newer).find? f = some r := by
  rw [List.find?_append, List.find?_eq_none.mpr (by simpa using before), Option.none_or, List.find?_cons_of_pos here]

theorem reportsUpTo_some {n : Half} {older newer : List Report} {r : Report} (here : r.number = some n)
    (before : ∀ x ∈ older, x.number ≠ some n) : reportsUpTo n (older ++ r :: newer) = some (older.length + 1) := by
  have earlier : older.findIdx? (fun x => x.number == some n) = none := by simpa using before
  simp [reportsUpTo, List.findIdx?_append, earlier, List.findIdx?_cons, here]

theorem reportsUpTo_none {n : Half} {q : List Report} (h : ∀ x ∈ q, x.number ≠ some n) : reportsUpTo n q = none := by
  have nowhere : q.findIdx? (fun x => x.number == some n) = none := by simpa using h
  simp [reportsUpTo, nowhere]

theorem acknowledge_eq (k : Nat) (c : Part) : acknowledge k c =
    if c.waitingReports = [] then { c with reportQueue := c.reportQueue.drop k }
    else raiseLotState (fillQueue c.waitingReports { c with reportQueue := c.reportQueue.drop k }) := by
  cases waits : c.waitingReports with
  | nil => simp [acknowledge, waits, fillQueue]
  | cons w rest => simp [acknowledge, waits]

/-! ### The queue fills (R19) -/

/-- Reports given their numbers as they enter. -/
def numbered (next : Half) (ws : List WaitingReport) : List Report :=
  ws.zipIdx.map (fun p => { p.1.report with number := some (next + BitVec.ofNat 16 p.2) })

theorem next_later (next : Half) (n : Nat) : next + BitVec.ofNat 16 (n + 1) = next + 1#16 + BitVec.ofNat 16 n := by
  rw [Nat.add_comm n 1, BitVec.ofNat_add, BitVec.add_assoc]

theorem numbered_cons (next : Half) (w : WaitingReport) (ws : List WaitingReport) :
    numbered next (w :: ws) = { w.report with number := some next } :: numbered (next + 1#16) ws := by
  have first_number : next + BitVec.ofNat 16 0 = next := BitVec.add_zero next
  simp only [numbered, List.zipIdx_cons, List.map_cons, first_number, Nat.zero_add, List.zipIdx_succ, List.map_map]
  refine congrArg _ (List.map_congr_left fun p _ => ?_)
  exact congrArg (fun n => { p.1.report with number := some n }) (next_later next p.2)

/-- Waiting reports enter while there is room: what this leaves of the queue, the numbers and the others that wait. -/
theorem fillQueue_rest (ws : List WaitingReport) : ∀ c : Part,
    let room := reportCapacity - c.reportQueue.length
    fillQueue ws c = { c with
      reportQueue := c.reportQueue ++ numbered c.nextReport (ws.take room)
      nextReport := c.nextReport + BitVec.ofNat 16 (ws.take room).length
      waitingReports := ws.drop room, lots := (fillQueue ws c).lots, carriers := (fillQueue ws c).carriers } := by
  induction ws with
  | nil =>
    intro c
    simp [fillQueue, numbered]
  | cons w rest ih =>
    intro c room
    by_cases fits : c.reportQueue.length < reportCapacity
    · have enters : fillQueue (w :: rest) c = fillQueue rest (enterReport w.lot w.report c) := if_pos fits
      have room_left : room = (reportCapacity - (c.reportQueue.length + 1)) + 1 := by omega
      rw [enters]
      refine (ih (enterReport w.lot w.report c)).trans ?_
      generalize fillQueue rest (enterReport w.lot w.report c) = d
      have grown (r : Report) : (c.reportQueue ++ [r]).length = c.reportQueue.length + 1 := List.length_append
      simp only [enterReport_rest, grown, room_left, List.take_succ_cons, List.drop_succ_cons, numbered_cons,
        List.append_assoc, List.singleton_append, List.length_cons (as := rest.take _)]
      rw [next_later _ (List.length _)]
    · have full : fillQueue (w :: rest) c = { c with waitingReports := w :: rest } := if_neg fits
      have no_room : room = 0 := by omega
      rw [full, no_room]
      simp [numbered]

theorem enterReport_lot (i j : LoadPort) (r : Report) (c : Part) :
    (enterReport i r c).lot? j = (c.lot? j).map (fun l => if i = j then { l with state := .closed } else l) := by
  rw [enterReport_rest]
  exact updateLot_lot i j _ c

theorem enterReport_carrier (i j : LoadPort) (r : Report) (c : Part) :
    (enterReport i r c).carrier j = if i = j then { c.carrier j with state := .releasable } else c.carrier j := by
  rw [enterReport_rest]
  by_cases same : i = j
  · subst same
    simp [Part.carrier]
  · simp [Part.carrier, same, PerLoadPort.get_set_other _ _ _ _ same]

/-- The lots whose reports enter close, and their carriers become RELEASABLE (R5, R156). -/
theorem fillQueue_closes (ws : List WaitingReport) (i : LoadPort) : ∀ c : Part,
    let entered := (ws.take (reportCapacity - c.reportQueue.length)).any (fun w => w.lot == i)
    (fillQueue ws c).lot? i = (c.lot? i).map (fun l => if entered then { l with state := .closed } else l) ∧
      (fillQueue ws c).carrier i = if entered then { c.carrier i with state := .releasable } else c.carrier i := by
  induction ws with
  | nil =>
    intro c
    simp [fillQueue]
    exact ⟨rfl, rfl⟩
  | cons w rest ih =>
    intro c entered
    by_cases fits : c.reportQueue.length < reportCapacity
    · have enters : fillQueue (w :: rest) c = fillQueue rest (enterReport w.lot w.report c) := if_pos fits
      have grown : (enterReport w.lot w.report c).reportQueue.length = c.reportQueue.length + 1 := by
        rw [enterReport_rest]
        simp
      have room_left : reportCapacity - c.reportQueue.length = (reportCapacity - (c.reportQueue.length + 1)) + 1 := by omega
      obtain ⟨lot, carrier⟩ := ih (enterReport w.lot w.report c)
      rw [enters, lot, carrier, enterReport_lot, enterReport_carrier, grown]
      simp only [entered, room_left, List.take_succ_cons, List.any_cons]
      generalize (rest.take _).any (fun w => w.lot == i) = later
      by_cases same : w.lot = i <;> cases later <;> simp [same, Function.comp_def]
    · have full : fillQueue (w :: rest) c = { c with waitingReports := w :: rest } := if_neg fits
      have no_room : reportCapacity - c.reportQueue.length = 0 := by omega
      rw [full]
      simp only [entered, no_room, List.take_zero, List.any_nil]
      simp
      exact ⟨rfl, rfl⟩

end Sys2Proof.Machine
end

section
/-! The wire form of a report (R157), field by field, and O57. -/

namespace Sys2Proof.Machine

/-- The bytes `mid` stand in `b` from the offset `o` on. -/
def At (b : List Byte) (o : Nat) (mid : List Byte) : Prop := ∃ pre post, b = pre ++ (mid ++ post) ∧ pre.length = o

/-- The number that `size` bytes from an offset on hold, least significant byte first. -/
def numAt (b : List Byte) (o size : Nat) : Nat := ((b.drop o).take size).foldr (fun b n => b.toNat + 256 * n) 0

theorem At.whole (b : List Byte) : At b 0 b := ⟨[], [], by simp, rfl⟩

theorem At.bytes {b mid : List Byte} {o n : Nat} (h : At b o mid) (size : mid.length = n) : (b.drop o).take n = mid := by
  obtain ⟨pre, post, whole, front⟩ := h
  exact field_at b pre mid post o n whole front size

theorem At.split {b x y : List Byte} {o n : Nat} (h : At b o (x ++ y)) (size : x.length = n) : At b o x ∧ At b (o + n) y := by
  obtain ⟨pre, post, rfl, front⟩ := h
  exact ⟨⟨pre, y ++ post, by simp, front⟩, ⟨pre ++ x, post, by simp, by simp [front, size]⟩⟩

/-- Records of one size: the record of an index. -/
theorem At.record {α : Type} {f : α → List Byte} {l : List α} {b : List Byte} {o size : Nat} (h : At b o (l.flatMap f))
    (sizes : ∀ x ∈ l, (f x).length = size) {j : Nat} {v : α} (hv : l[j]? = some v) : At b (o + size * j) (f v) := by
  obtain ⟨pre, post, rfl, front⟩ := h
  obtain ⟨before, behind, records, offset⟩ := flatMap_at f size l sizes j v hv
  exact ⟨pre ++ before, behind ++ post, by simp [records], by simp [front, offset]⟩

theorem At.num {b mid : List Byte} {o n : Nat} (h : At b o mid) (size : mid.length = n) :
    numAt b o n = mid.foldr (fun b n => b.toNat + 256 * n) 0 := by
  rw [numAt, h.bytes size]

/-- Numbers of one width, one behind the other. -/
theorem At.nums {f : Nat → List Byte} {size : Nat} (sizes : ∀ v, (f v).length = size)
    (value : ∀ v, (f v).foldr (fun b n => b.toNat + 256 * n) 0 = v % 256 ^ size) {b : List Byte} {o : Nat} {values : List Nat}
    (h : At b o (values.flatMap f)) : ∀ j v, values[j]? = some v → numAt b (o + size * j) size = v % 256 ^ size :=
  fun _ v hv => ((h.record (fun x _ => sizes x) hv).num (sizes v)).trans (value v)

/-- A number in one byte. -/
def natByte (n : Nat) : List Byte := [BitVec.ofNat 8 n]

theorem natByte_value (n : Nat) : (natByte n).foldr (fun b k => b.toNat + 256 * k) 0 = n % 256 ^ 1 := by
  simp [natByte]

theorem encodeHalf_value (v : Half) : (encodeHalf v).foldr (fun b k => b.toNat + 256 * k) 0 = v.toNat := by
  have join := toNat_joinHalf (v.extractLsb' 0 8) (v.extractLsb' 8 8)
  rw [joinHalf_extract] at join
  exact join.symm

section
variable {b : List Byte} {o : Nat} {values : List Nat}

theorem At.byteNums (h : At b o (values.flatMap natByte)) :
    ∀ j v, values[j]? = some v → numAt b (o + 1 * j) 1 = v % 256 ^ 1 := h.nums (fun v => (rfl : (natByte v).length = 1)) natByte_value

theorem At.halfNums (h : At b o (values.flatMap natHalf)) :
    ∀ j v, values[j]? = some v → numAt b (o + 2 * j) 2 = v % 256 ^ 2 := h.nums natHalf_length natHalf_value

theorem At.fullNums (h : At b o (values.flatMap natFull)) :
    ∀ j v, values[j]? = some v → numAt b (o + 4 * j) 4 = v % 256 ^ 4 := h.nums natFull_length natFull_value

theorem At.byte {x : Byte} (h : At b o [x]) : numAt b o 1 = x.toNat := by
  rw [h.num (n := 1) rfl]
  simp

/-- A text in a fixed field, its unused bytes 0. -/
theorem At.text {t : Text} {n : Nat} (h : At b o (fixedText n t)) (fits : t.length ≤ n) :
    (b.drop o).take n = t ++ List.replicate (n - t.length) 0#8 := by
  rw [h.bytes (fixedText_length n t fits), fixedText_eq n t fits]

end

/-! ### The three tables of R157 -/

theorem headerBytes_eq (r : Report) : headerBytes r =
    encodeHalf (r.number.getD 0#16) ++ ([r.outcome.code] ++
      ([r.recipe, r.summaries.length, r.totals.events.length, r.lotId.length, r.carrierId.length].flatMap natByte ++
      (fixedText 20 r.lotId ++ (fixedText 16 r.carrierId ++
      ([r.totals.loaded, r.totals.classified, r.totals.skipped, r.totals.failed, r.totals.unclassified].flatMap natFull ++
      (r.totals.classes.flatMap natFull ++
      [r.totals.sweeps, r.totals.mapHits, r.totals.captures, r.totals.rejections].flatMap natFull)))))) := by
  simp [headerBytes, natByte]

theorem eventBytes_eq (v : ExcursionEvent) : eventBytes v =
    [v.slot, v.cls].flatMap natByte ++ ([v.limit].flatMap natHalf ++ ([v.action.code] ++ [v.position].flatMap natByte)) := by
  simp [eventBytes, natByte]

theorem summaryBytes_eq (x : Summary) : summaryBytes x =
    [x.slot].flatMap natByte ++ ([x.outcome.code] ++ ([BitVec.ofNat 8 (x.waferId.getD []).length] ++
      ([flagsByte x.counts.flags] ++ (fixedText 24 (x.waferId.getD []) ++
      ([x.counts.loaded, x.counts.classified, x.counts.skipped, x.counts.failed, x.counts.unclassified].flatMap natHalf ++
      x.counts.classes.flatMap natHalf))))) := by
  simp [summaryBytes, natByte]

/-- The number that flags spell, the first of them in the lowest bit. -/
def flagsNumber (flags : List Bool) : Nat := flags.foldr (fun (b : Bool) n => (if b then 1 else 0) + 2 * n) 0

theorem flagsNumber_half (b : Bool) (n : Nat) : ((if b then 1 else 0) + 2 * n) / 2 = n := by
  cases b <;> simp
  omega

theorem flagsNumber_testBit (flags : List Bool) : ∀ q, (flagsNumber flags).testBit q = flags.getD q false := by
  induction flags with
  | nil => simp [flagsNumber]
  | cons b rest ih =>
    intro q
    cases q with
    | zero => cases b <;> simp [flagsNumber, Nat.testBit_zero]
    | succ q =>
      rw [Nat.testBit_succ, List.getD_cons_succ, ← ih]
      exact congrArg (Nat.testBit · q) (flagsNumber_half b (flagsNumber rest))

theorem flagsNumber_lt (flags : List Bool) : flagsNumber flags < 2 ^ flags.length := by
  induction flags with
  | nil => simp [flagsNumber]
  | cons b rest ih =>
    rw [List.length_cons, Nat.pow_succ]
    have step : flagsNumber (b :: rest) = (if b then 1 else 0) + 2 * flagsNumber rest := rfl
    rw [step]
    cases b <;> simp <;> omega

/-- The flags byte holds the flag of position 1 in its lowest bit. -/
theorem flagsByte_testBit {flags : List Bool} (four : flags.length = 4) (q : Nat) :
    (flagsByte flags).toNat.testBit q = flags.getD q false := by
  have small : flagsNumber flags < 2 ^ 4 := four ▸ flagsNumber_lt flags
  have number : (flagsByte flags).toNat = flagsNumber flags := by
    rw [flagsByte, BitVec.toNat_ofNat]
    exact Nat.mod_eq_of_lt (show flagsNumber flags < 2 ^ 8 by omega)
  rw [number, flagsNumber_testBit]

section
variable {r : Report} (lot : r.lotId.length ≤ 20) (carrier : r.carrierId.length ≤ 16) (classes : r.totals.classes.length = 16)
  (slots : ∀ x ∈ r.summaries, x.counts.classes.length = 16 ∧ (x.waferId.getD []).length ≤ 24)
include lot carrier classes slots

theorem reportBytes_length : (reportBytes r).length = 144 + 6 * r.totals.events.length + 70 * r.summaries.length := by
  rw [reportBytes, List.length_append, List.length_append, headerBytes_length r lot carrier classes,
    flatMap_length eventBytes 6 _ fun v _ => eventBytes_length v,
    flatMap_length summaryBytes 70 _ fun x member => summaryBytes_length x (slots x member).1 (slots x member).2]

omit slots in
/-- The header, the events and the summaries, each where it stands. -/
theorem reportBytes_parts : At (reportBytes r) 0 (headerBytes r) ∧
    At (reportBytes r) 144 (r.totals.events.flatMap eventBytes) ∧
    At (reportBytes r) (144 + 6 * r.totals.events.length) (r.summaries.flatMap summaryBytes) := by
  obtain ⟨front, summaries⟩ := (At.whole (reportBytes r)).split (n := 144 + 6 * r.totals.events.length) (by
    rw [List.length_append, headerBytes_length r lot carrier classes, flatMap_length eventBytes 6 _ fun v _ => eventBytes_length v])
  obtain ⟨header, events⟩ := front.split (headerBytes_length r lot carrier classes)
  exact ⟨header, by simpa using events, by simpa using summaries⟩

end

/-- What stands in the header. -/
theorem header_fields {r : Report} (lot : r.lotId.length ≤ 20) (carrier : r.carrierId.length ≤ 16)
    (classes : r.totals.classes.length = 16) {b : List Byte} (h : At b 0 (headerBytes r)) :
    At b 0 (encodeHalf (r.number.getD 0#16)) ∧ At b 2 [r.outcome.code] ∧
    At b 3 ([r.recipe, r.summaries.length, r.totals.events.length, r.lotId.length, r.carrierId.length].flatMap natByte) ∧
    At b 8 (fixedText 20 r.lotId) ∧ At b 28 (fixedText 16 r.carrierId) ∧
    At b 44 ([r.totals.loaded, r.totals.classified, r.totals.skipped, r.totals.failed, r.totals.unclassified].flatMap natFull) ∧
    At b 64 (r.totals.classes.flatMap natFull) ∧
    At b 128 ([r.totals.sweeps, r.totals.mapHits, r.totals.captures, r.totals.rejections].flatMap natFull) := by
  rw [headerBytes_eq] at h
  obtain ⟨number, h⟩ := h.split (n := 2) rfl
  obtain ⟨outcome, h⟩ := h.split (n := 1) rfl
  obtain ⟨counts, h⟩ := h.split (n := 5) rfl
  obtain ⟨lot_id, h⟩ := h.split (fixedText_length 20 _ lot)
  obtain ⟨carrier_id, h⟩ := h.split (fixedText_length 16 _ carrier)
  obtain ⟨sites, h⟩ := h.split (n := 20) rfl
  obtain ⟨per_class, rest⟩ := h.split (n := 64) (by rw [flatMap_length natFull 4 _ fun v _ => natFull_length v, classes])
  exact ⟨number, outcome, counts, lot_id, carrier_id, sites, per_class, rest⟩

/-- What stands in an event. -/
theorem event_fields {v : ExcursionEvent} {b : List Byte} {o : Nat} (h : At b o (eventBytes v)) :
    At b o ([v.slot, v.cls].flatMap natByte) ∧ At b (o + 2) ([v.limit].flatMap natHalf) ∧ At b (o + 4) [v.action.code] ∧
    At b (o + 5) ([v.position].flatMap natByte) := by
  rw [eventBytes_eq] at h
  obtain ⟨slot, h⟩ := h.split (n := 2) rfl
  obtain ⟨limit, h⟩ := h.split (n := 2) rfl
  obtain ⟨action, position⟩ := h.split (n := 1) rfl
  exact ⟨slot, limit, action, position⟩

/-- What stands in a summary. -/
theorem summary_fields {x : Summary} (id : (x.waferId.getD []).length ≤ 24) {b : List Byte} {o : Nat}
    (h : At b o (summaryBytes x)) : At b o ([x.slot].flatMap natByte) ∧ At b (o + 1) [x.outcome.code] ∧
    At b (o + 2) [BitVec.ofNat 8 (x.waferId.getD []).length] ∧ At b (o + 3) [flagsByte x.counts.flags] ∧
    At b (o + 4) (fixedText 24 (x.waferId.getD [])) ∧
    At b (o + 28) ([x.counts.loaded, x.counts.classified, x.counts.skipped, x.counts.failed, x.counts.unclassified].flatMap
      natHalf) ∧
    At b (o + 38) (x.counts.classes.flatMap natHalf) := by
  rw [summaryBytes_eq] at h
  obtain ⟨slot, h⟩ := h.split (n := 1) rfl
  obtain ⟨outcome, h⟩ := h.split (n := 1) rfl
  obtain ⟨length, h⟩ := h.split (n := 1) rfl
  obtain ⟨flags, h⟩ := h.split (n := 1) rfl
  obtain ⟨wafer_id, h⟩ := h.split (fixedText_length 24 _ id)
  obtain ⟨sites, per_class⟩ := h.split (n := 10) rfl
  exact ⟨slot, outcome, length, flags, wafer_id, sites, per_class⟩

/-- Settles O57: the requests, how the queue fills, and every field of the wire form. -/
theorem reportsAreFetchedAndAcknowledged : Obligations.ReportsAreFetchedAndAcknowledged := by
  refine ⟨fun s p tag n => ?_, fun waiting c => ?_, fun r lot carrier classes slots => ?_⟩
  · intro queue
    refine ⟨fun now => ?_, fun now => ?_⟩
    · have answers {sel : ReportSelector} {c : Part} {st : Status} {x : Body} (h : doReportFetch sel s.part = ⟨c, st, x⟩) :
          exec (.reportFetch p tag sel) s = .next (answered s p 40#8 tag c st x) := exec_answers (r := .reportFetch sel) now h
      refine ⟨fun older r newer whole named earlier => answers ?_, fun r newer whole => answers ?_, fun missing => answers ?_,
        fun empty => answers ?_⟩
      · have found : s.part.report? (.number n) = some r := by
          rw [Part.report?, show s.part.reportQueue = _ from whole]
          exact find_oldest (by simp [named]) (by simpa using earlier)
        simp only [doReportFetch, found]
        rfl
      · have found : s.part.report? .oldest = some r := by rw [Part.report?, show s.part.reportQueue = _ from whole]; rfl
        simp only [doReportFetch, found]
        rfl
      · have found : s.part.report? (.number n) = none := List.find?_eq_none.mpr (by simpa using missing)
        simp only [doReportFetch, found]
        rfl
      · have found : s.part.report? .oldest = none := by rw [Part.report?, show s.part.reportQueue = _ from empty]; rfl
        have none_queued : s.part.reportQueue.length = 0 := congrArg List.length empty
        simp only [doReportFetch, found, none_queued]
    · have answers {c : Part} {st : Status} {x : Body} (h : doReportAck n s.part = ⟨c, st, x⟩) :
          exec (.reportAck p tag n) s = .next (answered s p 41#8 tag c st x) := exec_answers (r := .reportAck n) now h
      refine ⟨fun missing => answers ?_, fun older r newer whole named earlier => ?_⟩
      · simp only [doReportAck, reportsUpTo_none (q := s.part.reportQueue) missing]
        rfl
      · intro kept filled
        have number : reportsUpTo n s.part.reportQueue = some (older.length + 1) := by
          rw [show s.part.reportQueue = _ from whole]
          exact reportsUpTo_some named earlier
        have dropped : s.part.reportQueue.drop (older.length + 1) = newer := by
          rw [show s.part.reportQueue = _ from whole]
          simp
        refine ⟨fun alone => answers ?_, fun waits => answers ?_⟩
        · simp only [doReportAck, number, acknowledge_eq, dropped, if_pos alone]
          rfl
        · simp only [doReportAck, number, acknowledge_eq, dropped, if_neg waits]
          rfl
  · exact ⟨fillQueue_rest waiting c, fun i => fillQueue_closes waiting i c⟩
  · intro bytes num text nums t
    obtain ⟨header, events, summaries⟩ := reportBytes_parts lot carrier classes
    obtain ⟨number, outcome, counts, lot_id, carrier_id, sites, per_class, rest⟩ := header_fields lot carrier classes header
    refine ⟨reportBytes_length lot carrier classes slots, ?_, ?_, counts.byteNums, lot_id.text lot, carrier_id.text carrier,
      sites.fullNums, per_class.fullNums, rest.fullNums, ?_, ?_⟩
    · intro n given
      rw [given] at number
      rw [show num 0 2 = _ from number.num (n := 2) rfl]
      exact encodeHalf_value n
    · rw [show num 2 1 = _ from outcome.byte]
      cases r.outcome <;> rfl
    · intro j v hv at'
      obtain ⟨slot, limit, action, position⟩ := event_fields (events.record (fun v _ => eventBytes_length v) hv)
      refine ⟨slot.byteNums, limit.halfNums, ?_, position.byteNums⟩
      rw [show num (at' + 4) 1 = _ from action.byte]
      cases v.action <;> rfl
    · intro j x hx at' k
      have member := slots x (List.mem_of_getElem? hx)
      obtain ⟨slot, outcome, length, flags, wafer_id, sites, per_class⟩ := summary_fields member.2
        (summaries.record (fun x h => summaryBytes_length x (slots x h).1 (slots x h).2) hx)
      refine ⟨slot.byteNums, ?_, ?_, fun four q => ?_, wafer_id.text member.2, sites.halfNums, per_class.halfNums⟩
      · rw [show num (at' + 1) 1 = _ from outcome.byte]
        cases x.outcome <;> rfl
      · rw [show num (at' + 2) 1 = _ from length.byte]
        exact toNat_lengthByte (by omega)
      · rw [show num (at' + 3) 1 = _ from flags.byte]
        exact flagsByte_testBit four q

end Sys2Proof.Machine
end

section
/-! The motion link's answers that move nothing: late ones, faults and expiries (R46, R47). -/

namespace Sys2Proof.Machine

theorem answered?_issued {c : Part} {m : Mover} {o : Order} (h : c.slotOf m = .issued o) : c.answered? m o.tag = some o := by
  simp [Part.answered?, h]

theorem answered?_none {c : Part} {m : Mover} {tag : Half} (other : ∀ o, c.slotOf m = .issued o → o.tag ≠ tag) :
    c.answered? m tag = none := by
  unfold Part.answered?
  split
  · rename_i o slot
    exact if_neg (other o slot)
  · rfl

/-- A wafer record is rewritten where there is one. -/
theorem updateWafer_elim (t : Nat) (f : Wafer → Wafer) (c : Part) :
    updateWafer t f c = { c with wafers := (c.wafer? t).elim c.wafers fun w => c.wafers.set t (some (f w)) } := by
  unfold updateWafer
  cases c.wafer? t <;> rfl

/-- A slot that faults marks its order's wafer uncertain and leaves the other records as they are (R47). -/
theorem faultSlot_eq (m : Mover) (o : Order) (cause : SlotCause) (c : Part) :
    faultSlot m o cause c = { c with
      orders := c.orders.set m (.faulted { o with timer := none } cause)
      stats := c.stats.set .moveFaults (c.stats.get .moveFaults + 1#32)
      wafers := (o.wafer.elim c.wafers fun t => (c.wafer? t).elim c.wafers fun w =>
        c.wafers.set t (some { w with uncertain := true })) } := by
  unfold faultSlot
  cases o.wafer with
  | none => rfl
  | some t => exact updateWafer_elim _ _ _

/-- Settles O39, by the slot the answer meets. -/
theorem lateAndFailedAnswers : Obligations.LateAndFailedAnswers := by
  intro s m tag text code counted late found faulted
  have found_eq : (s.part.slotOf m).found = found := by
    dsimp only [found]
    cases s.part.slotOf m <;> rfl
  have faulted_eq (o : Order) (cause : SlotCause) : faultSlot m o cause s.part = faulted o cause := by
    rw [faultSlot_eq]
    dsimp only [faulted]
    cases o.wafer with
    | none => rfl
    | some t =>
      dsimp only [Option.elim]
      cases s.part.wafer? t <;> rfl
  have next {f : Part → Part} {i : Instr} {c : Part} (runs : exec i s = .next (onPart f s)) (h : f s.part = c) :
      exec i s = .next (withPart s c) := by
    rw [runs, ← h]
    rfl
  refine ⟨fun other => ⟨?_, ?_⟩, fun o issued => ⟨?_, ?_⟩, fun idle => ?_⟩
  · refine next (f := takeComplete m tag text) rfl ?_
    rw [takeComplete, answered?_none other, found_eq]
    rfl
  · refine next (f := takeFault m tag code) rfl ?_
    rw [takeFault, answered?_none other, found_eq]
    rfl
  · refine next (f := takeFault m o.tag code) rfl ?_
    rw [takeFault, answered?_issued issued, ← faulted_eq]
  · refine next (f := takeTimeout m) rfl ?_
    rw [takeTimeout, issued, ← faulted_eq]
  · have stays : takeTimeout m s.part = s.part := by
      unfold takeTimeout
      split
      · rename_i o slot
        exact absurd slot (idle o)
      · rfl
    exact next rfl stays

end Sys2Proof.Machine
end

section
/-! An order going out, and the work of the stage, the aligner and the vacuum robot (R44, R54, R59 to R61, R71). -/

namespace Sys2Proof.Machine

/-- The target of an order is claimed for the wafer it carries; the other places stay (R41, R44). -/
theorem issueOrder_place (m : Mover) (k : OrderKind) (t : Option Nat) (c : Part) (q : Place) :
    (issueOrder m k t c).places.get q =
      if k.target? = some q ∧ t ≠ none then { c.places.get q with claim := t } else c.places.get q := by
  unfold issueOrder
  dsimp only
  split
  · rename_i p w target
    by_cases same : p = q
    · subst same
      rw [if_pos ⟨target, Option.some_ne_none w⟩]
      exact PlaceTable.get_set_same _ _ _
    · rw [if_neg fun h => same (Option.some.inj (target.symm.trans h.1))]
      exact PlaceTable.get_set_other _ _ _ _ same
  · rename_i never
    rw [if_neg]
    rintro ⟨target, carried⟩
    obtain ⟨w, wafer⟩ := Option.ne_none_iff_exists'.mp carried
    exact never q w target wafer

/-! ### The stage (R59, R71) -/

theorem issueMoveSite_goes {c : Part} {t n : Nat} {i : LoadPort} {slot : Nat} {e : SiteEntry}
    (idle : c.slotOf .st = .idle) (active : c.session.state = .active) (wafer : c.session.wafer = some t)
    (inflight : c.session.inFlight = some n) (site : c.site? t n = some (i, slot, e)) :
    issueMoveSite c =
      if e.state = .moving then { issueOrder .st (.moveSite e.x e.y) none c with atLoad := false } else c := by
  rw [issueMoveSite, if_pos ⟨active, (moverIdle_iff c .st).mpr idle⟩]
  simp only [wafer, inflight, site]

theorem issueMoveSite_stays {c : Part} (none_moves : ∀ e : SiteEntry, ¬ (c.slotOf .st = .idle ∧ c.session.state = .active ∧
    ∃ t n i slot, c.session.wafer = some t ∧ c.session.inFlight = some n ∧ c.site? t n = some (i, slot, e) ∧
      e.state = .moving)) : issueMoveSite c = c := by
  by_cases open_ : c.slotOf .st = .idle ∧ c.session.state = .active
  · obtain ⟨idle, active⟩ := open_
    cases wafer : c.session.wafer with
    | none => simp only [issueMoveSite, wafer, ite_self]
    | some t =>
      cases inflight : c.session.inFlight with
      | none => simp only [issueMoveSite, wafer, inflight, ite_self]
      | some n =>
        cases site : c.site? t n with
        | none => simp only [issueMoveSite, wafer, inflight, site, ite_self]
        | some x =>
          obtain ⟨i, slot, e⟩ := x
          rw [issueMoveSite_goes idle active wafer inflight site]
          exact if_neg fun moving => none_moves e ⟨idle, active, t, n, i, slot, wafer, inflight, site, moving⟩
  · rw [issueMoveSite, if_neg fun h => open_ ⟨(moverIdle_iff c .st).mp h.2, h.1⟩]

/-! ### The aligner (R54) -/

theorem alignWork_goes {c : Part} {t : Nat} {w : Wafer} (idle : c.slotOf .al = .idle) (lies : Lies c .aligner t w) :
    alignWork c = if w.phase = .aligning ∧ c.orderNames t = false then
      issueOrder .al (.align (c.recipeOf w.lot).readId) (some t) c else c := by
  obtain ⟨occupant, wafer⟩ := lies
  rw [alignWork, if_pos ((moverIdle_iff c .al).mpr idle)]
  simp only [Part.occupant, occupant, wafer]

theorem alignWork_stays {c : Part} (none_waits : ∀ t w, ¬ (c.slotOf .al = .idle ∧ Lies c .aligner t w ∧
    w.phase = .aligning ∧ ¬ Named c t)) : alignWork c = c := by
  by_cases idle : c.slotOf .al = .idle
  · cases occupant : (c.places.get .aligner).occupant with
    | none => simp only [alignWork, Part.occupant, occupant, ite_self]
    | some t =>
      cases wafer : c.wafer? t with
      | none => simp only [alignWork, Part.occupant, occupant, wafer, ite_self]
      | some w =>
        rw [alignWork_goes idle ⟨occupant, wafer⟩]
        exact if_neg fun h => none_waits t w ⟨idle, ⟨occupant, wafer⟩, h.1, (orderNames_false c t).mp h.2⟩
  · rw [alignWork, if_neg (mt (moverIdle_iff c .al).mp idle)]

/-! ### The vacuum robot (R60, R61) -/

/-- The wafer on TRANSFER_ARM goes to the STAGE or to its return lock. -/
theorem vrPlaceArm_some (c : Part) (k : OrderKind) (t : Nat) : c.vrPlaceArm = some (k, t) ↔
    ∃ w, Lies c .transferArm t w ∧
      ((w.phase = .toStage ∧ EmptyPlace c .stage ∧ c.atLoad = true ∧ k = .vrPlace .stage) ∨
      (w.phase = .toLock ∧ ∃ j, Reserved c t .returning j ∧ (c.lock j).state = .vacuum ∧ EmptyPlace c j.place ∧
        k = .vrPlace j.place)) := by
  simp only [Part.vrPlaceArm, Part.occupant]
  cases occupant : (c.places.get .transferArm).occupant with
  | none => exact iff_of_false (by simp) (not_lies_empty c .transferArm t _ occupant)
  | some u =>
    cases wafer : c.wafer? u with
    | none => exact iff_of_false (by simp [wafer]) (not_lies c .transferArm t u _ occupant wafer)
    | some v =>
      rw [lies_exists c .transferArm t u v _ occupant wafer]
      simp only [wafer]
      cases phase : v.phase with
      | toStage =>
        simp only [← placeEmpty_iff, reduceCtorEq, false_and, or_false, true_and]
        cases c.placeEmpty .stage <;> cases c.atLoad <;> simp [eq_comm, and_comm]
      | toLock =>
        simp only [reduceCtorEq, false_and, false_or, true_and, ← reservedFor_some, ← placeEmpty_iff]
        refine ⟨fun h => ?_, fun ⟨same, j, reserved, vacuum, empty, kind⟩ => ?_⟩
        · cases reserved : c.reservedFor u .returning with
          | none => simp [reserved] at h
          | some j =>
            simp only [reserved, Option.ite_none_right_eq_some, Option.some.injEq, Prod.mk.injEq] at h
            obtain ⟨⟨vacuum, empty⟩, kind, rfl⟩ := h
            exact ⟨rfl, j, reserved, vacuum, empty, kind.symm⟩
        · subst same kind
          simp only [reserved, vacuum, empty, and_self, if_true]
      | _ => simp

/-- The REVIEWED wafer is picked from the STAGE. -/
theorem vrPickStage_some (c : Part) (k : OrderKind) (t : Nat) : c.vrPickStage = some (k, t) ↔
    (∃ w, Lies c .stage t w ∧ w.phase = .reviewed ∧ c.atLoad = true ∧ EmptyPlace c .transferArm ∧
      ∃ j, Reserved c t .returning j ∧ (c.lock j).state = .vacuum) ∧ k = .vrPick .stage := by
  simp only [Part.vrPickStage, Part.occupant]
  cases occupant : (c.places.get .stage).occupant with
  | none => exact iff_of_false (by simp) fun h => not_lies_empty c .stage t _ occupant h.1
  | some u =>
    cases wafer : c.wafer? u with
    | none => exact iff_of_false (by simp [wafer]) fun h => not_lies c .stage t u _ occupant wafer h.1
    | some v =>
      rw [lies_exists c .stage t u v _ occupant wafer]
      simp only [wafer, ← reservedFor_some, ← placeEmpty_iff]
      refine ⟨fun h => ?_, fun ⟨⟨same, phase, load, empty, j, reserved, vacuum⟩, kind⟩ => ?_⟩
      · obtain ⟨⟨phase, load, empty⟩, h⟩ := Option.ite_none_right_eq_some.mp h
        cases reserved : c.reservedFor u .returning with
        | none => simp [reserved] at h
        | some j =>
          simp only [reserved, Option.ite_none_right_eq_some, Option.some.injEq, Prod.mk.injEq] at h
          obtain ⟨vacuum, kind, rfl⟩ := h
          exact ⟨⟨rfl, phase, load, empty, j, reserved, vacuum⟩, kind.symm⟩
      · subst same kind
        simp only [reserved, vacuum, phase, load, empty, and_self, if_true]

/-- A wafer that is READY, or whose pick was recovered, is picked from its lock. -/
theorem vrPickLock_some (c : Part) (j : LockId) (k : OrderKind) (t : Nat) : c.vrPickLock j = some (k, t) ↔
    (∃ w, EmptyPlace c .stage ∧ EmptyPlace c .transferArm ∧ (c.lock j).state = .vacuum ∧ Lies c j.place t w ∧
      (w.phase = .ready ∨ w.phase = .toStage)) ∧ k = .vrPick j.place := by
  simp only [Part.vrPickLock, Part.occupant, Bool.and_eq_true, ← placeEmpty_iff]
  refine ⟨fun h => ?_, fun ⟨⟨w, stage, arm, vacuum, ⟨occupant, wafer⟩, phase⟩, kind⟩ => ?_⟩
  · obtain ⟨⟨stage, arm⟩, h⟩ := Option.ite_none_right_eq_some.mp h
    split at h
    · rename_i u vacuum occupant
      cases wafer : c.wafer? u with
      | none => simp [wafer] at h
      | some w =>
        simp only [wafer, Option.ite_none_right_eq_some, Option.some.injEq, Prod.mk.injEq] at h
        obtain ⟨phase, kind, rfl⟩ := h
        exact ⟨⟨w, stage, arm, vacuum, ⟨occupant, wafer⟩, phase⟩, kind.symm⟩
    · cases h
  · subst kind
    simp only [stage, arm, vacuum, occupant, wafer, phase, and_self, if_true]

/-- A place that is empty gives the robot nothing to take from it. -/
theorem vrPlaceArm_empty {c : Part} (arm : EmptyPlace c .transferArm) : c.vrPlaceArm = none := by
  simp [Part.vrPlaceArm, Part.occupant, arm.1]

theorem vrPickStage_empty {c : Part} (stage : EmptyPlace c .stage) : c.vrPickStage = none := by
  simp [Part.vrPickStage, Part.occupant, stage.1]

theorem vrWork_goes {c : Part} {k : OrderKind} {t : Nat} (idle : c.slotOf .vr = .idle) (task : c.vrTask = some (k, t)) :
    vrWork c = doVrTask k t c := by
  rw [vrWork, if_pos ((moverIdle_iff c .vr).mpr idle)]
  simp only [task]

theorem vrWork_stays {c : Part} (h : c.slotOf .vr = .idle → c.vrTask = none) : vrWork c = c := by
  by_cases idle : c.slotOf .vr = .idle
  · simp only [vrWork, h idle, ite_self]
  · rw [vrWork, if_neg (mt (moverIdle_iff c .vr).mp idle)]

theorem setPhase_some {c : Part} {t : Nat} {w : Wafer} {p : Phase} (wafer : c.wafer? t = some w) :
    setPhase t p c = { c with wafers := c.wafers.set t (some { w with phase := p }) } := updateWafer_some c t w _ wafer

/-- A pick from a lock makes the wafer TO_STAGE (R60). -/
theorem doVrTask_pickLock {c : Part} {j : LockId} {t : Nat} {w : Wafer} (wafer : c.wafer? t = some w) :
    doVrTask (.vrPick j.place) t c = issueOrder .vr (.vrPick j.place) (some t)
      { c with wafers := c.wafers.set t (some { w with phase := .toStage }) } := by
  rw [← setPhase_some wafer]
  cases j <;> rfl

/-- MOVE_LOAD goes out when the stage is wanted at load (R59). -/
theorem moveLoadWork_eq (c : Part) : moveLoadWork c =
    if c.moverIdle .st ∧ c.atLoad = false ∧ (c.session.state = .idle ∨ c.stageReviewed)
        ∧ (c.placeEmpty .stage ∨ c.stageReturning) then issueOrder .st .moveLoad none c else c := rfl

/-- Settles O38, mover by mover. -/
theorem orderGoesOut : Obligations.OrderGoesOut := by
  refine ⟨fun m k t c => ⟨issueOrder_rest m k t c, ?_, fun j other => ?_, issueOrder_place m k t c⟩, ?_, fun c => rfl,
    fun c => ?_⟩
  · rw [issueOrder_slot, if_pos rfl]
  · rw [issueOrder_slot, if_neg other]
  · intro g blade at' q readId x y k
    simp [orderTimeoutMs, OrderKind.target?]
  · intro moving aligning placing leaving coming reviewed called
    refine ⟨fun e goes => ?_, issueMoveSite_stays, fun t w goes => ?_, alignWork_stays, fun k t goes => ?_,
      fun t goes => ?_, fun j t w goes preferred => ?_, fun no_place no_leave no_come => ?_, fun goes => ?_, fun stays => ?_⟩
    · obtain ⟨idle, active, t, n, i, slot, wafer, inflight, site, move⟩ := goes
      rw [issueMoveSite_goes idle active wafer inflight site, if_pos move]
    · obtain ⟨idle, lies, phase, unnamed⟩ := goes
      rw [alignWork_goes idle lies, if_pos ⟨phase, (orderNames_false c t).mpr unnamed⟩]
    · obtain ⟨idle, w, lies, why⟩ := goes
      have placed : c.vrPlaceArm = some (k, t) := (vrPlaceArm_some c k t).mpr ⟨w, lies, why⟩
      rw [vrWork_goes idle (by rw [Part.vrTask, placed]; rfl)]
      obtain ⟨_, _, _, rfl⟩ | ⟨_, j, _, _, _, rfl⟩ := why <;> rfl
    · obtain ⟨idle, w, j, lies, phase, load, arm, reserved, vacuum⟩ := goes
      have picked : c.vrPickStage = some (.vrPick .stage, t) :=
        (vrPickStage_some c _ t).mpr ⟨⟨w, lies, phase, load, arm, j, reserved, vacuum⟩, rfl⟩
      exact vrWork_goes idle (by rw [Part.vrTask, vrPlaceArm_empty arm, picked]; rfl)
    · obtain ⟨idle, stage, arm, vacuum, lies, phase⟩ := goes
      have picked : c.vrPickLock j = some (.vrPick j.place, t) :=
        (vrPickLock_some c j _ t).mpr ⟨⟨w, stage, arm, vacuum, lies, phase⟩, rfl⟩
      have task : c.vrTask = some (.vrPick j.place, t) := by
        rw [Part.vrTask, vrPlaceArm_empty arm, vrPickStage_empty stage]
        cases j with
        | a => rw [picked]; rfl
        | b =>
          have not_a : c.vrPickLock .a = none := by
            refine Option.eq_none_iff_forall_ne_some.mpr fun ⟨k, u⟩ a => ?_
            obtain ⟨⟨x, stage, arm, vacuum, lies, phase⟩, _⟩ := (vrPickLock_some c .a k u).mp a
            exact preferred rfl u x ⟨idle, stage, arm, vacuum, lies, phase⟩
          rw [not_a, picked]
          rfl
      rw [vrWork_goes idle task, doVrTask_pickLock lies.2]
    · refine vrWork_stays fun idle => Option.eq_none_iff_forall_ne_some.mpr fun ⟨k, t⟩ task => ?_
      have not_arm : c.vrPlaceArm = none := Option.eq_none_iff_forall_ne_some.mpr fun ⟨k, t⟩ a =>
        no_place k t ⟨idle, (vrPlaceArm_some c k t).mp a⟩
      have not_stage : c.vrPickStage = none := Option.eq_none_iff_forall_ne_some.mpr fun ⟨k, t⟩ a => by
        obtain ⟨⟨w, lies, phase, load, arm, j, reserved, vacuum⟩, _⟩ := (vrPickStage_some c k t).mp a
        exact no_leave t ⟨idle, w, j, lies, phase, load, arm, reserved, vacuum⟩
      have not_lock (j : LockId) : c.vrPickLock j = none := Option.eq_none_iff_forall_ne_some.mpr fun ⟨k, t⟩ a => by
        obtain ⟨⟨w, come⟩, _⟩ := (vrPickLock_some c j k t).mp a
        exact no_come j t w ⟨idle, come⟩
      rw [Part.vrTask, not_arm, not_stage, not_lock, not_lock] at task
      cases task
    · obtain ⟨idle, away, wanted, free⟩ := goes
      rw [moveLoadWork_eq, if_pos ⟨(moverIdle_iff c .st).mpr idle, away, wanted.imp_right (stageReviewed_iff c).mpr,
        free.imp (placeEmpty_iff c .stage).mpr (stageReturning_iff c).mpr⟩]
    · rw [moveLoadWork_eq, if_neg]
      rintro ⟨idle, away, wanted, free⟩
      exact stays ⟨(moverIdle_iff c .st).mp idle, away, wanted.imp_right (stageReviewed_iff c).mp,
        free.imp (placeEmpty_iff c .stage).mp (stageReturning_iff c).mp⟩

end Sys2Proof.Machine
end

section
/-! The locks' work: return locks, pumping and venting (R51, R58, R61 to R63). -/

namespace Sys2Proof.Machine

/-! ### Return locks (R61) -/

/-- An empty lock at ATMOSPHERE whose mover is free can be pumped for a return. -/
def Part.pumpable (c : Part) (k : LockId) : Bool := c.emptyAt .atmosphere k && c.moverIdle k.mover

theorem emptyAt_true (c : Part) (x : LockState) (k : LockId) :
    c.emptyAt x k = true ↔ (c.lock k).state = x ∧ c.lockEmpty k = true := by
  simp [Part.emptyAt]

theorem pumpable_iff (c : Part) (k : LockId) : c.pumpable k = true ↔
    ((c.lock k).state = .atmosphere ∧ c.lockEmpty k = true) ∧ c.slotOf k.mover = .idle := by
  rw [Part.pumpable, Bool.and_eq_true, emptyAt_true, moverIdle_iff]

theorem reserveReturn_vacuum {c : Part} {t : Nat} {k : LockId} (h : bothLocks.find? (c.emptyAt .vacuum) = some k) :
    reserveReturn t c = setReservation k (some ⟨t, .returning⟩) c := by
  simp only [reserveReturn, h]

theorem reserveReturn_pump {c : Part} {t : Nat} {k : LockId} (no_vacuum : bothLocks.find? (c.emptyAt .vacuum) = none)
    (h : bothLocks.find? c.pumpable = some k) :
    reserveReturn t c = issuePump k none (setReservation k (some ⟨t, .returning⟩) c) := by
  have h : bothLocks.find? (fun k => c.emptyAt .atmosphere k && c.moverIdle k.mover) = some k := h
  simp only [reserveReturn, no_vacuum, h]

theorem reserveReturn_none {c : Part} {t : Nat} (no_vacuum : bothLocks.find? (c.emptyAt .vacuum) = none)
    (h : bothLocks.find? c.pumpable = none) : reserveReturn t c = c := by
  have h : bothLocks.find? (fun k => c.emptyAt .atmosphere k && c.moverIdle k.mover) = none := h
  simp only [reserveReturn, no_vacuum, h]

theorem findLock_a {f : LockId → Bool} (a : f .a = true) : bothLocks.find? f = some .a :=
  (firstLock_some f .a).mpr ⟨a, fun h => by cases h⟩

theorem findLock_b {f : LockId → Bool} (a : ¬ f .a = true) (b : f .b = true) : bothLocks.find? f = some .b :=
  (firstLock_some f .b).mpr ⟨b, fun _ => a⟩

theorem findLock_none {f : LockId → Bool} (a : ¬ f .a = true) (b : ¬ f .b = true) : bothLocks.find? f = none := by
  simp [bothLocks, a, b]

/-! ### Pumping and venting (R51) -/

theorem lock_other_ne (k : LockId) : k.other ≠ k := by cases k <;> decide

/-- Besides its locks and wafer records, `d` is as `c`. -/
def SameButLocks (c d : Part) : Prop := d = { c with lockA := d.lockA, lockB := d.lockB, wafers := d.wafers }

theorem SameButLocks.trans {a b c : Part} (h : SameButLocks a b) (k : SameButLocks b c) : SameButLocks a c :=
  Eq.trans k (congrArg (fun x : Part => { x with lockA := c.lockA, lockB := c.lockB, wafers := c.wafers }) h)

theorem setLock_sameButLocks (k : LockId) (l : Lock) (c : Part) : SameButLocks c (setLock k l c) := by
  cases k <;> rfl

theorem dropReservation_sameButLocks (t : Nat) (p : Purpose) (k : LockId) (c : Part) :
    SameButLocks c (dropReservation t p k c) := by
  unfold dropReservation
  split
  · exact setLock_sameButLocks _ _ _
  · rfl

theorem updateWafer_sameButLocks (t : Nat) (f : Wafer → Wafer) (c : Part) : SameButLocks c (updateWafer t f c) := by
  unfold updateWafer
  split <;> rfl

/-- A lock order goes out with the lock in its new state, and changes no other record (R51). -/
theorem issueLock_spec (k : LockId) (kind : OrderKind) (t : Option Nat) (l : Lock) (c : Part) :
    let d := issueOrder k.mover kind t (setLock k l c)
    (d.lock k = l ∧ d.lock k.other = c.lock k.other ∧ SameButLocks (issueOrder k.mover kind t c) d) ∧
      d.wafers = c.wafers := by
  dsimp only
  refine ⟨⟨?_, ?_, ?_⟩, ?_⟩
  · rw [issueOrder_lock, setLock_lock, if_pos rfl]
  · rw [issueOrder_lock, setLock_lock, if_neg (lock_other_ne k)]
  · rw [issueOrder_setLock]
    exact setLock_sameButLocks _ _ _
  · rw [issueOrder_wafers, setLock_rest]

/-- PUMP for a wafer makes it vacuum-exposed and ends its INBOUND reservation (R51). -/
theorem issuePump_wafer {c : Part} {t : Nat} {w : Wafer} (k : LockId) (wafer : c.wafer? t = some w) :
    let d := issuePump k (some t) c
    (d.lock k = ⟨.pumping, if (c.lock k).reservation = some ⟨t, .inbound⟩ then none else (c.lock k).reservation⟩ ∧
      d.lock k.other = c.lock k.other ∧ SameButLocks (issueOrder k.mover .pump (some t) c) d) ∧
      d.wafers = c.wafers.set t (some { w with exposed := true }) := by
  have out := issueLock_spec k .pump (some t) { c.lock k with state := .pumping } c
  have unfolded : issuePump k (some t) c = dropReservation t .inbound k (updateWafer t (fun x => { x with exposed := true })
      (issueOrder k.mover .pump (some t) (setLock k { c.lock k with state := .pumping } c))) := rfl
  dsimp only at out ⊢
  rw [unfolded]
  generalize issueOrder k.mover .pump (some t) (setLock k { c.lock k with state := .pumping } c) = e at out ⊢
  obtain ⟨⟨lock, other, rest⟩, wafers⟩ := out
  have exposed := updateWafer_some e t w (fun x => { x with exposed := true }) (by rw [Part.wafer?, wafers]; exact wafer)
  have same_lock (j : LockId) : (updateWafer t (fun x => { x with exposed := true }) e).lock j = e.lock j := by
    rw [exposed]
    cases j <;> rfl
  refine ⟨⟨?_, ?_, ?_⟩, ?_⟩
  · rw [dropReservation_lock, same_lock, lock]
    dsimp only
    split <;> rfl
  · rw [dropReservation_other _ _ _ _ _ (lock_other_ne k), same_lock, other]
  · exact rest.trans ((updateWafer_sameButLocks _ _ _).trans (dropReservation_sameButLocks _ _ _ _))
  · rw [dropReservation_rest, exposed, ← wafers]

/-! ### Which order a lock gets (R48, R58, R62, R63) -/

theorem lockWork_pump {c : Part} {k : LockId} {t : Nat} {w : Wafer} (idle : c.slotOf k.mover = .idle)
    (air : (c.lock k).state = .atmosphere) (lies : Lies c k.place t w) :
    lockWork c k = if w.phase = .pumping ∧ c.lotAborted w.lot = false then issuePump k (some t) c else c := by
  obtain ⟨occupant, wafer⟩ := lies
  rw [lockWork, if_pos ((moverIdle_iff c _).mpr idle)]
  simp only [Part.occupant, air, occupant, wafer]

theorem lockWork_vent {c : Part} {k : LockId} {t : Nat} {w : Wafer} (idle : c.slotOf k.mover = .idle)
    (vacuum : (c.lock k).state = .vacuum) (lies : Lies c k.place t w) :
    lockWork c k = if w.phase = .venting then issueVent k (some t) c else c := by
  obtain ⟨occupant, wafer⟩ := lies
  rw [lockWork, if_pos ((moverIdle_iff c _).mpr idle)]
  simp only [Part.occupant, vacuum, occupant, wafer]

theorem lockWork_again {c : Part} {k : LockId} {t : Nat} (idle : c.slotOf k.mover = .idle)
    (air : (c.lock k).state = .atmosphere) (unoccupied : (c.places.get k.place).occupant = none)
    (reserved : (c.lock k).reservation = some ⟨t, .returning⟩) : lockWork c k = issuePump k none c := by
  rw [lockWork, if_pos ((moverIdle_iff c _).mpr idle)]
  simp only [Part.occupant, air, unoccupied, reserved]

/-- An empty lock at ATMOSPHERE is not pumped but for a return. -/
theorem lockWork_unreserved {c : Part} {k : LockId} (air : (c.lock k).state = .atmosphere)
    (unoccupied : (c.places.get k.place).occupant = none) (unreserved : ∀ t, (c.lock k).reservation ≠ some ⟨t, .returning⟩) :
    lockWork c k = c := by
  unfold lockWork
  simp only [Part.occupant, air, unoccupied]
  split <;> rfl

theorem lockWork_busy {c : Part} {k : LockId} (busy : c.slotOf k.mover ≠ .idle) : lockWork c k = c := by
  rw [lockWork, if_neg (mt (moverIdle_iff c _).mp busy)]

/-- Between its states, and empty at VACUUM, a lock gets no order here. -/
theorem lockWork_still {c : Part} {k : LockId} (not_air : (c.lock k).state ≠ .atmosphere)
    (empty : (c.lock k).state = .vacuum → (c.places.get k.place).occupant = none) : lockWork c k = c := by
  unfold lockWork
  cases state : (c.lock k).state with
  | atmosphere => exact absurd state not_air
  | vacuum => simp only [Part.occupant, empty state, ite_self]
  | pumping => simp only [ite_self]
  | venting => simp only [ite_self]

/-- A wafer tag that no record has gives the lock no order. -/
theorem lockWork_unknown {c : Part} {k : LockId} {t : Nat} (occupant : (c.places.get k.place).occupant = some t)
    (unknown : c.wafer? t = none) : lockWork c k = c := by
  unfold lockWork
  cases state : (c.lock k).state <;> simp only [Part.occupant, occupant, unknown, ite_self]

/-- The lock is vented empty under the conditions of R62. -/
theorem ventWork_eq (c : Part) (k : LockId) : ventWork c k =
    if c.emptyAt .vacuum k ∧ c.moverIdle k.mover ∧ c.alignerWaits ∧ bothLocks.all (fun j => !c.emptyAt .atmosphere j)
      ∧ c.wouldAdmit k ∧ c.needsReturn .stage = none ∧ c.needsReturn .transferArm = none then
    issueVent k none c else c := rfl

theorem no_lock_at_air (c : Part) :
    bothLocks.all (fun j => !c.emptyAt .atmosphere j) = true ↔ ∀ j, ¬ EmptyLock c .atmosphere j := by
  simp only [bothLocks, List.all_cons, List.all_nil, Bool.and_true, Bool.and_eq_true, Bool.not_eq_true', ← Bool.not_eq_true,
    emptyAt_iff]
  exact ⟨fun ⟨a, b⟩ j => by cases j <;> assumption, fun h => ⟨h .a, h .b⟩⟩

/-- Only the wafer on the STAGE or on TRANSFER_ARM can need a return lock (R61). -/
theorem no_return_needed (c : Part) : c.needsReturn .stage = none ∧ c.needsReturn .transferArm = none ↔
    ∀ q t, ¬ NeedsReturnLock c q t := by
  rw [needsReturn_none, needsReturn_none]
  refine ⟨fun ⟨stage, arm⟩ q t needs => ?_, fun h => ⟨h _, h _⟩⟩
  obtain ⟨w, lies, ⟨rfl, _⟩ | ⟨rfl, _⟩, _⟩ := id needs
  · exact stage t needs
  · exact arm t needs

/-- Settles O42, each choice by its own lemma. -/
theorem returnLockIsReserved : Obligations.ReturnLockIsReserved := by
  refine ⟨fun c k x t p => ⟨?_, reservedFor_some c t p k, reservedFor_none c t p⟩, fun c t => ?_, fun c q => ⟨fun t needs => ?_,
    fun no_need => ?_⟩, fun c k => ⟨?_, fun t w wafer => issuePump_wafer k wafer, fun t => ?_⟩, fun c k => ?_, fun c k => ?_⟩
  · rw [← emptyAt_true, emptyAt_iff]
  · intro at' pumpable reserved pumped
    have vacuum (j : LockId) : c.emptyAt .vacuum j = true ↔ at' .vacuum j := emptyAt_true c .vacuum j
    have pump (j : LockId) : c.pumpable j = true ↔ pumpable j := pumpable_iff c j
    have no_vacuum (a : ¬ at' .vacuum .a) (b : ¬ at' .vacuum .b) : bothLocks.find? (c.emptyAt .vacuum) = none :=
      findLock_none (mt (vacuum .a).mp a) (mt (vacuum .b).mp b)
    refine ⟨fun a => ?_, fun a b => ?_, fun a b p => ?_, fun a b p q => ?_, fun a b p q => ?_, fun k air => ?_⟩
    · exact reserveReturn_vacuum (findLock_a ((vacuum .a).mpr a))
    · exact reserveReturn_vacuum (findLock_b (mt (vacuum .a).mp a) ((vacuum .b).mpr b))
    · exact reserveReturn_pump (no_vacuum a b) (findLock_a ((pump .a).mpr p))
    · exact reserveReturn_pump (no_vacuum a b) (findLock_b (mt (pump .a).mp p) ((pump .b).mpr q))
    · exact reserveReturn_none (no_vacuum a b) (findLock_none (mt (pump .a).mp p) (mt (pump .b).mp q))
    · have kept : (reserved k).lock k = { c.lock k with reservation := some ⟨t, .returning⟩ } := by
        dsimp only [reserved, setReservation]
        rw [setLock_lock, if_pos rfl]
      have out := issueLock_spec k .pump none { (reserved k).lock k with state := .pumping } (reserved k)
      obtain ⟨⟨lock, _, _⟩, _⟩ := out
      have lock : (pumped k).lock k = { (reserved k).lock k with state := .pumping } := lock
      have slot := (issueOrder_slot k.mover k.mover .pump none
        (setLock k { (reserved k).lock k with state := .pumping } (reserved k))).trans (if_pos rfl)
      rw [lock, kept]
      exact ⟨rfl, rfl, _, slot, rfl⟩
  · rw [returnWork, (needsReturn_some c q t).mpr needs]
  · rw [returnWork, (needsReturn_none c q).mpr no_need]
  · exact issueLock_spec k .pump none { c.lock k with state := .pumping } c
  · exact issueLock_spec k .vent t { c.lock k with state := .venting } c
  · intro pump again vent
    refine ⟨fun t goes => ?_, fun goes => ?_, fun t goes => ?_, fun no_pump not_again no_vent => ?_⟩
    · obtain ⟨idle, air, w, lies, phase⟩ := goes
      rw [lockWork_pump idle air lies, if_pos phase]
    · obtain ⟨idle, air, unoccupied, t, reserved⟩ := goes
      exact lockWork_again idle air unoccupied reserved
    · obtain ⟨idle, vacuum, w, lies, phase⟩ := goes
      rw [lockWork_vent idle vacuum lies, if_pos phase]
    · by_cases idle : c.slotOf k.mover = .idle
      · cases occupant : (c.places.get k.place).occupant with
        | none =>
          by_cases air : (c.lock k).state = .atmosphere
          · exact lockWork_unreserved air occupant fun t reserved => not_again ⟨idle, air, occupant, t, reserved⟩
          · exact lockWork_still air fun _ => occupant
        | some t =>
          cases wafer : c.wafer? t with
          | none => exact lockWork_unknown occupant wafer
          | some w =>
            have lies : Lies c k.place t w := ⟨occupant, wafer⟩
            by_cases air : (c.lock k).state = .atmosphere
            · rw [lockWork_pump idle air lies]
              exact if_neg fun phase => no_pump t ⟨idle, air, w, lies, phase⟩
            · by_cases vacuum : (c.lock k).state = .vacuum
              · rw [lockWork_vent idle vacuum lies]
                exact if_neg fun phase => no_vent t ⟨idle, vacuum, w, lies, phase⟩
              · exact lockWork_still air fun h => absurd h vacuum
      · exact lockWork_busy idle
  · intro idle wanted
    refine ⟨fun ⟨empty, mover⟩ ⟨waits, no_air, takes_in, no_need⟩ => ?_, fun neither => ?_⟩
    · rw [ventWork_eq, if_pos ⟨(emptyAt_iff c _ k).mpr empty, (moverIdle_iff c _).mpr mover, (alignerWaits_iff c).mpr waits,
        (no_lock_at_air c).mpr no_air, (wouldAdmit_iff c k).mpr takes_in, (no_return_needed c).mpr no_need⟩]
    · rw [ventWork_eq, if_neg]
      rintro ⟨empty, mover, waits, no_air, takes_in, no_need⟩
      exact neither ⟨⟨(emptyAt_iff c _ k).mp empty, (moverIdle_iff c _).mp mover⟩, (alignerWaits_iff c).mp waits,
        (no_lock_at_air c).mp no_air, (wouldAdmit_iff c k).mp takes_in, (no_return_needed c).mp no_need⟩

end Sys2Proof.Machine
end

section
/-! The atmospheric robot's work and the dispatch arbiter (R52, R53, R57). -/

namespace Sys2Proof.Machine

/-! ### The inbound claim count (R57) -/

theorem inboundReservations_eq (c : Part) : c.inboundReservations =
    [LockId.a, .b].countP (fun k => (c.lock k).reservation.map (·.purpose) == some .inbound) := by
  refine List.countP_congr fun k _ => ?_
  cases (c.lock k).reservation <;> simp

/-! ### Offers (R10, R53) -/

/-- An entry that a lot can offer: WAITING, with a list that is sealed and holds an entry. -/
def Part.offers (c : Part) (i : LoadPort) (e : Selection) : Bool := e.status == .waiting && c.listStatus i e.slot == .sealed

theorem listStatus_sealed (c : Part) (i : LoadPort) (slot : Nat) :
    c.listStatus i slot = .sealed ↔ ∃ r, c.list? i slot = some r ∧ r.sealed = true ∧ r.entries ≠ [] := by
  unfold Part.listStatus
  cases c.list? i slot with
  | none => simp
  | some r =>
    cases closed : r.sealed with
    | false => simp [closed]
    | true => cases held : r.entries <;> simp [closed, held]

theorem offers_iff (c : Part) (i : LoadPort) (e : Selection) : c.offers i e = true ↔
    e.status = .waiting ∧ ∃ r, c.list? i e.slot = some r ∧ r.sealed = true ∧ r.entries ≠ [] := by
  rw [Part.offers, Bool.and_eq_true, beq_iff_eq, beq_iff_eq, listStatus_sealed]

theorem offer_lot {c : Part} {i : LoadPort} {l : Lot} (lot : c.lot? i = some l) (running : l.state = .running)
    (kept : l.aborted = false) (free : l.hold = .none) :
    c.offer i = (l.selection.find? (c.offers i)).map (·.slot) := by
  rw [Part.offer]
  simp only [lot]
  exact if_pos ⟨running, kept, free⟩

theorem offer_made {c : Part} {i : LoadPort} {slot : Nat} (offer : c.offer i = some slot) :
    ∃ l e, c.lot? i = some l ∧ l.state = .running ∧ l.aborted = false ∧ l.hold = .none ∧ e ∈ l.selection ∧ e.slot = slot ∧
      c.offers i e = true := by
  cases lot : c.lot? i with
  | none => simp [Part.offer, lot] at offer
  | some l =>
    by_cases able : l.state = .running ∧ l.aborted = false ∧ l.hold = .none
    · obtain ⟨running, kept, free⟩ := able
      rw [offer_lot lot running kept free] at offer
      obtain ⟨e, found, named⟩ := Option.map_eq_some_iff.mp offer
      exact ⟨l, e, rfl, running, kept, free, List.mem_of_find?_eq_some found, named, List.find?_some found⟩
    · rw [Part.offer] at offer
      simp only [lot, if_neg able, reduceCtorEq] at offer

/-! ### The best offer (R53) -/

/-- The better of the best offer so far and the offer of a lot. -/
def Part.better (c : Part) (best : Option (LoadPort × Nat)) (i : LoadPort) : Option (LoadPort × Nat) :=
  match c.offer i, c.lot? i with
  | some slot, some l =>
    match best with
    | none => some (i, slot)
    | some (j, slot') =>
      match c.lot? j with
      | none => some (i, slot)
      | some m => if lotBefore l m then some (i, slot) else some (j, slot')
  | _, _ => best

theorem bestOffer_eq (c : Part) : c.bestOffer = allLoadPorts.foldl c.better none := rfl

theorem better_none {c : Part} {i : LoadPort} (no_offer : c.offer i = none) (best : Option (LoadPort × Nat)) :
    c.better best i = best := by
  simp [Part.better, no_offer]

theorem better_alone {c : Part} {i : LoadPort} {slot : Nat} {l : Lot} (offer : c.offer i = some slot)
    (lot : c.lot? i = some l) : c.better none i = some (i, slot) := by
  simp [Part.better, offer, lot]

theorem better_two {c : Part} {i j : LoadPort} {slot : Nat} {l m : Lot} (offer : c.offer i = some slot)
    (lot : c.lot? i = some l) (other : c.lot? j = some m) (slot' : Nat) :
    c.better (some (j, slot')) i = if lotBefore l m then some (i, slot) else some (j, slot') := by
  simp [Part.better, offer, lot, other]

/-- Lot `l` at port `i` is preferred to lot `m` at port `j`: HOT first, then the lower start order number, then the lower
port. -/
def Preferred (i : LoadPort) (l : Lot) (j : LoadPort) (m : Lot) : Prop :=
  (l.priority = .hot ∧ m.priority = .normal) ∨
  (l.priority = m.priority ∧ (l.startOrder.getD 0 < m.startOrder.getD 0 ∨
    (l.startOrder.getD 0 = m.startOrder.getD 0 ∧ i.num < j.num)))

theorem priority_cases (p : Priority) : p = .hot ∨ p = .normal := by cases p <;> simp

theorem Preferred.of_before {i j : LoadPort} {l m : Lot} (before : lotBefore l m = true) : Preferred i l j m := by
  unfold lotBefore at before
  split at before
  · rename_i same
    exact .inr ⟨same, .inl (of_decide_eq_true before)⟩
  · rename_i differ
    have hot : l.priority = .hot := beq_iff_eq.mp before
    exact .inl ⟨hot, (priority_cases m.priority).resolve_left fun h => differ (hot.trans h.symm)⟩

/-- A lot that does not come before another leaves that one preferred when its port is the lower. -/
theorem Preferred.of_not_before {i j : LoadPort} {l m : Lot} (before : ¬ lotBefore m l = true) (lower : i.num < j.num) :
    Preferred i l j m := by
  unfold lotBefore at before
  split at before
  · rename_i same
    have least : ¬ m.startOrder.getD 0 < l.startOrder.getD 0 := fun h => before (decide_eq_true h)
    exact .inr ⟨same.symm, by omega⟩
  · rename_i differ
    have normal : m.priority = .normal := (priority_cases _).resolve_left fun h => before (beq_iff_eq.mpr h)
    exact .inl ⟨(priority_cases _).resolve_right fun h => differ (normal.trans h.symm), normal⟩

theorem Preferred.of_before_trans {i j k : LoadPort} {l m n : Lot} (before : lotBefore l m = true)
    (h : Preferred j m k n) : Preferred i l k n := by
  obtain ⟨hot, normal⟩ | ⟨same, start⟩ := Preferred.of_before (i := i) (j := j) before
  · obtain ⟨hot', _⟩ | ⟨same, _⟩ := h
    · rw [normal] at hot'
      cases hot'
    · exact .inl ⟨hot, same ▸ normal⟩
  · have first : l.startOrder.getD 0 < m.startOrder.getD 0 := by
      rw [lotBefore, if_pos same] at before
      exact of_decide_eq_true before
    obtain ⟨hot, normal⟩ | ⟨same', start'⟩ := h
    · exact .inl ⟨same.trans hot, normal⟩
    · exact .inr ⟨same.trans same', .inl (by omega)⟩

/-- After the lots at the ports `seen`: no offer was made, or the best one was. -/
def BestOf (c : Part) (seen : List LoadPort) : Option (LoadPort × Nat) → Prop
  | none => ∀ j ∈ seen, c.offer j = none
  | some (i, slot) => c.offer i = some slot ∧ i ∈ seen ∧ ∃ l, c.lot? i = some l ∧
      ∀ j ∈ seen, ∀ slot' m, j ≠ i → c.offer j = some slot' → c.lot? j = some m → Preferred i l j m

theorem BestOf.step {c : Part} {seen : List LoadPort} {best : Option (LoadPort × Nat)} (h : BestOf c seen best)
    {i : LoadPort} (higher : ∀ j ∈ seen, j.num < i.num) : BestOf c (i :: seen) (c.better best i) := by
  cases offer : c.offer i with
  | none =>
    rw [better_none offer]
    cases best with
    | none => exact fun j member => (List.mem_cons.mp member).elim (fun same => same ▸ offer) (h j)
    | some b =>
      obtain ⟨made, member, l, lot, best⟩ := h
      refine ⟨made, List.mem_cons_of_mem _ member, l, lot, fun j at' slot' m differ offer' => ?_⟩
      obtain rfl | old := List.mem_cons.mp at'
      · rw [offer] at offer'
        cases offer'
      · exact best j old slot' m differ offer'
  | some slot =>
    obtain ⟨l, _, lot, _⟩ := offer_made offer
    cases best with
    | none =>
      rw [better_alone offer lot]
      refine ⟨offer, List.mem_cons_self, l, lot, fun j at' slot' m differ offer' => ?_⟩
      rw [h j ((List.mem_cons.mp at').resolve_left differ)] at offer'
      cases offer'
    | some b =>
      obtain ⟨k, slot''⟩ := b
      obtain ⟨made, member, x, lot', best⟩ := h
      rw [better_two offer lot lot']
      split
      · rename_i before
        refine ⟨offer, List.mem_cons_self, l, lot, fun j at' slot' m differ offer' lot'' => ?_⟩
        by_cases same : j = k
        · subst same
          rw [lot'] at lot''
          cases lot''
          exact .of_before before
        · exact .of_before_trans before
            (best j ((List.mem_cons.mp at').resolve_left differ) slot' m same offer' lot'')
      · rename_i before
        refine ⟨made, List.mem_cons_of_mem _ member, x, lot', fun j at' slot' m differ offer' lot'' => ?_⟩
        obtain rfl | old := List.mem_cons.mp at'
        · rw [lot] at lot''
          cases lot''
          exact .of_not_before before (higher k member)
        · exact best j old slot' m differ offer' lot''

theorem bestOffer_best (c : Part) : BestOf c [.p4, .p3, .p2, .p1] c.bestOffer := by
  have none_seen : BestOf c [] none := fun _ member => by cases member
  exact (((none_seen.step (i := .p1) (by decide)).step (i := .p2) (by decide)).step (i := .p3) (by decide)).step
    (i := .p4) (by decide)

/-! ### The AR's work by preference (R52) -/

/-- No AR work of a preference below `n` is ready. -/
def NoneBefore (c : Part) (n : Nat) : Prop := ∀ m, m < n → ∀ k t w, ¬ ArReady c m k t w

/-- A preference whose work can only be an order offers nothing when no such order is ready. -/
theorem no_order {c : Part} {n : Nat} {task : Option ArTask} (cases' : task = none ∨ ∃ k t, task = some (.order k t))
    (iff' : ∀ k t, task = some (.order k t) ↔ ∃ w, ArReady c n k t w) (none_ready : ∀ k t w, ¬ ArReady c n k t w) :
    task = none := by
  refine cases'.resolve_right fun ⟨k, t, h⟩ => ?_
  obtain ⟨w, ready⟩ := (iff' k t).mp h
  exact none_ready k t w ready

/-- The preferences that offer nothing, once none of their orders is ready. -/
theorem NoneBefore.passes {c : Part} {n : Nat} (h : NoneBefore c n) :
    (1 < n → c.arHomeLower = none) ∧ (2 < n → c.arPlaceUpper = none) ∧ (3 < n → c.arPickLocks .lower = none) ∧
    (4 < n → c.arPickAligner = none) ∧ (5 < n → c.arPickLocks .upper = none) :=
  ⟨fun b => no_order (arHomeLower_cases c) (arHomeLower_order c) (h 1 b),
    fun b => no_order (arPlaceUpper_cases c) (arPlaceUpper_order c) (h 2 b),
    fun b => no_order (arPickLocks_cases c .lower) (arPickLower_order c) (h 3 b),
    fun b => (arPickAligner_none c).mpr (h 4 b),
    fun b => no_order (arPickLocks_cases c .upper) (arPickUpper_order c) (h 5 b)⟩

/-- The order of the highest preference that is ready is the AR's task, an admission apart. -/
theorem arTask_order {c : Part} {n : Nat} {k : OrderKind} {t : Nat} {w : Wafer} (ready : ArReady c n k t w)
    (before : NoneBefore c n) (plain : w.phase ≠ .waitLock ∨ n ≠ 4) : c.arTask = some (.order k t) := by
  obtain ⟨p1, p2, p3, p4, p5⟩ := before.passes
  rw [arTask_eq]
  obtain ⟨rfl, _⟩ | ⟨rfl, _⟩ | ⟨rfl, _⟩ | ⟨rfl, _⟩ | ⟨rfl, _⟩ | ⟨rfl, _⟩ := id ready
  · rw [(arHomeLower_order c k t).mpr ⟨w, ready⟩]
    rfl
  · rw [p1 (by decide), (arPlaceUpper_order c k t).mpr ⟨w, ready⟩]
    rfl
  · rw [p1 (by decide), p2 (by decide), (arPickLower_order c k t).mpr ⟨w, ready⟩]
    rfl
  · rw [p1 (by decide), p2 (by decide), p3 (by decide),
      arPickAligner_order c k t w ready (plain.resolve_right fun h => h rfl)]
    rfl
  · rw [p1 (by decide), p2 (by decide), p3 (by decide), p4 (by decide), (arPickUpper_order c k t).mpr ⟨w, ready⟩]
    rfl
  · rw [p1 (by decide), p2 (by decide), p3 (by decide), p4 (by decide), p5 (by decide),
      (arDispatch_order c k t).mpr ⟨w, ready⟩]
    rfl

theorem arTask_admission {c : Part} {k : OrderKind} {t : Nat} {w : Wafer} {j : LockId} (ready : ArReady c 4 k t w)
    (before : NoneBefore c 4) (waits : w.phase = .waitLock) (takes_in : Admits c j) : c.arTask = some (.admission j t) := by
  obtain ⟨p1, p2, p3, _, _⟩ := before.passes
  rw [arTask_eq, p1 (by decide), p2 (by decide), p3 (by decide), arPickAligner_admission c k t w j ready waits takes_in]
  rfl

theorem arTask_dispatch {c : Part} (before : NoneBefore c 7) : c.arTask = c.arDispatch := by
  obtain ⟨p1, p2, p3, p4, p5⟩ := before.passes
  rw [arTask_eq, p1 (by decide), p2 (by decide), p3 (by decide), p4 (by decide), p5 (by decide)]
  rfl

theorem arWork_goes {c : Part} {task : ArTask} (idle : c.slotOf .ar = .idle) (h : c.arTask = some task) :
    arWork c = doArTask task c := by
  rw [arWork, if_pos ((moverIdle_iff c _).mpr idle)]
  simp only [h]

theorem arWork_busy {c : Part} (busy : c.slotOf .ar ≠ .idle) : arWork c = c := by
  rw [arWork, if_neg (mt (moverIdle_iff c _).mp busy)]

theorem arWork_rests {c : Part} (h : c.arTask = none) : arWork c = c := by
  simp only [arWork, h, ite_self]

/-- An admission (R57). -/
theorem doArTask_admission {c : Part} {t : Nat} {w : Wafer} (j : LockId) (wafer : c.wafer? t = some w) :
    doArTask (.admission j t) c =
      issueOrder .ar (.arPick .upper (.place .aligner)) (some t) (setReservation j (some ⟨t, .inbound⟩)
        { c with wafers := c.wafers.set t (some { w with phase := .pumping }) }) := by
  rw [← setPhase_some (p := .pumping) wafer]
  have swap : setPhase t .pumping (setReservation j (some ⟨t, .inbound⟩) c) =
      setReservation j (some ⟨t, .inbound⟩) (setPhase t .pumping c) := by
    have unchanged : (setReservation j (some ⟨t, .inbound⟩) c).wafer? t = some w := by
      rw [← wafer, setReservation, setLock_rest]
      rfl
    rw [setPhase_some wafer, setPhase_some unchanged]
    cases j <;> rfl
  exact congrArg (issueOrder .ar (.arPick .upper (.place .aligner)) (some t)) swap

/-! ### The grant (R53) -/

/-- A lot with an entry DISPATCHED. -/
def Lot.granted (l : Lot) (slot : Nat) : Lot :=
  { l with selection := l.selection.map (fun e => if e.slot = slot then { e with status := .dispatched } else e) }

/-- The part after a grant, with its lot as given. -/
def grantPart (i : LoadPort) (slot t : Nat) (x : Lot) (c : Part) : Part :=
  issueOrder .ar (.arPick .upper (.slot i slot)) (some t)
    { c with wafers := c.wafers.set t (some (grantedWafer i slot)), lots := c.lots.set i (some x) }

theorem setLot_setLot (i : LoadPort) (x y : Option Lot) (c : Part) : setLot i x (setLot i y c) = setLot i x c := by
  cases i <;> rfl

theorem grantPart_lot (i : LoadPort) (slot t : Nat) (x : Lot) (c : Part) : (grantPart i slot t x c).lot? i = some x := by
  rw [grantPart, (issueOrder_lots _ _ _ _).lot]
  exact PerLoadPort.get_set_same _ _ _

theorem setLot_grantPart (i : LoadPort) (slot t : Nat) (x y : Lot) (c : Part) :
    setLot i (some y) (grantPart i slot t x c) = grantPart i slot t y c := by
  have twice := setLot_setLot i (some y) (some x) { c with wafers := c.wafers.set t (some (grantedWafer i slot)) }
  rw [grantPart, ← issueOrder_setLot]
  exact congrArg (issueOrder _ _ _) twice

theorem doArTask_grant {c : Part} {i : LoadPort} {l : Lot} (slot t : Nat) (lot : c.lot? i = some l) :
    doArTask (.grant i slot t) c = drainLot i (grantPart i slot t (l.granted slot) c) := by
  have entered : updateLot i (Lot.updateEntry slot (fun e => { e with status := .dispatched }))
      (setWafer t (some (grantedWafer i slot)) c) = setLot i (some (l.granted slot)) (setWafer t (some (grantedWafer i slot)) c) := by
    have lot : (setWafer t (some (grantedWafer i slot)) c).lot? i = some l := lot
    simp only [updateLot, lot, Lot.granted, Lot.updateEntry, beq_iff_eq]
  simp only [doArTask, entered]
  rfl

/-- The arbiter's choice, when it is to be made, and there is none. -/
theorem arDispatch_none {c : Part} (none_ready : ∀ k t w, ¬ ArReady c 6 k t w)
    (no_grant : ∀ i slot t, c.arDispatch ≠ some (.grant i slot t)) : c.arDispatch = none := by
  refine Option.eq_none_iff_forall_ne_some.mpr fun task h => ?_
  cases task with
  | order k t =>
    obtain ⟨w, ready⟩ := (arDispatch_order c k t).mp h
    exact none_ready k t w ready
  | admission j t => exact arDispatch_admission c j t h
  | grant i slot t => exact no_grant i slot t h

/-- Settles O43: the AR's task by preference, then the arbiter's fold over the four lots. -/
theorem dispatchChoosesTheBestOffer : Obligations.DispatchChoosesTheBestOffer := by
  refine ⟨fun c => ⟨vacuumInbound_iff c, rfl, ?_⟩, fun c => ?_, fun c => ⟨fun none_best i => ?_, fun i slot offer => ?_, ?_,
    fun i slot best => ?_⟩⟩
  · rw [Part.inboundClaimCount, inboundReservations_eq]
  · intro noneBefore granted
    have grant_iff (i : LoadPort) (slot t : Nat) (none_ready : noneBefore 7) :
        c.arDispatch = some (.grant i slot t) ↔ granted i slot t := by
      rw [arDispatch_grant, freeTag_some]
      exact ⟨fun ⟨_, rest⟩ => ⟨none_ready, rest⟩, fun ⟨_, rest⟩ => ⟨none_ready 6 (by decide), rest⟩⟩
    refine ⟨arWork_busy, fun idle => ⟨fun n k t w ready before plain => ?_, fun k t w j ready before waits takes_in => ?_, ?_,
      fun before no_grant => ?_⟩⟩
    · exact arWork_goes idle (arTask_order ready before plain)
    · rw [arWork_goes idle (arTask_admission ready before waits takes_in)]
      obtain ⟨⟨⟩, _⟩ | ⟨⟨⟩, _⟩ | ⟨⟨⟩, _⟩ | ⟨_, _, lies, rfl, _⟩ | ⟨⟨⟩, _⟩ | ⟨⟨⟩, _⟩ := ready
      exact doArTask_admission j lies.2
    · intro i slot t l grant lot taken record picked
      have task := (arTask_dispatch grant.1).trans ((grant_iff i slot t grant.1).mpr grant)
      obtain ⟨_, _, _, _, best⟩ := grant
      obtain ⟨x, _, lot', running, _⟩ := offer_some c i slot (bestOffer_offer c i slot best)
      obtain rfl : l = x := Option.some.inj (lot.symm.trans lot')
      rw [arWork_goes idle task, doArTask_grant slot t lot]
      refine ⟨fun ⟨e, member, waits⟩ => drainLot_stays _ i fun y at' drains => ?_, fun none_waits => ?_⟩
      · rw [grantPart_lot] at at'
        obtain rfl := Option.some.inj at'
        exact drains.2 e member waits
      · rw [drainLot_running _ i _ (grantPart_lot i slot t (l.granted slot) c) running none_waits, setLot_grantPart]
        rfl
    · refine arWork_rests ((arTask_dispatch before).trans (arDispatch_none (before 6 (by decide)) fun i slot t h => ?_))
      exact no_grant i slot t ((grant_iff i slot t before).mp h)
  · have seen := bestOffer_best c
    rw [none_best] at seen
    exact seen i (by cases i <;> decide)
  · obtain ⟨l, e, lot, running, kept, free, member, named, offers⟩ := offer_made offer
    obtain ⟨waits, r, list, sealed', full⟩ := (offers_iff c i e).mp offers
    exact ⟨l, e, r, lot, running, kept, free, member, named, waits, named ▸ list, sealed', full⟩
  · intro i l before e after lot running kept free ready whole none_ready goes
    have found : l.selection.find? (c.offers i) = some e := by
      refine List.find?_eq_some_iff_append.mpr ⟨(offers_iff c i e).mpr goes, before, after, whole, fun x member => ?_⟩
      simpa using mt (offers_iff c i x).mp (none_ready x member)
    rw [offer_lot lot running kept free, found]
    rfl
  · have seen := bestOffer_best c
    rw [best] at seen
    obtain ⟨offer, _, l, lot, preferred⟩ := seen
    exact ⟨offer, l, lot, fun j slot' m differ offer' lot' =>
      preferred j (by cases j <;> decide) slot' m differ offer' lot'⟩

end Sys2Proof.Machine
end

section
/-! The waiting site's issue, credits, the derived hold and what HOLD.N does to a session (R14, R84, R117 to R119). -/

namespace Sys2Proof.Machine

/-! ### One site rewritten -/

/-- A site that is found and rewritten: only its list is. -/
theorem updateSite_lists {c : Part} {t n : Nat} {i : LoadPort} {slot : Nat} {e : SiteEntry} (g : SiteEntry → SiteEntry)
    (numbers : ∀ e, (g e).number = e.number) (site : c.site? t n = some (i, slot, e)) :
    ∃ lists : List RevisitList, updateSite t n g c = { c with lists := lists } ∧
      Part.site? { c with lists := lists } t n = some (i, slot, g e) ∧ OnlySites i slot [n] c { c with lists := lists } := by
  obtain ⟨found, only⟩ := updateSite_found c t n g i slot e numbers site
  rw [updateSite_rest] at found only
  exact ⟨_, updateSite_rest c t n g, found, only⟩

/-- The entry of a site is rewritten through its list or through its wafer. -/
theorem updateEntry_site {c : Part} {t n : Nat} {i : LoadPort} {slot : Nat} {e : SiteEntry} (g : SiteEntry → SiteEntry)
    (site : c.site? t n = some (i, slot, e)) : updateEntry i slot n g c = updateSite t n g c := by
  obtain ⟨w, wafer, rfl, rfl, _, _⟩ := site?_some c t n i slot e site
  simp only [updateSite, wafer]

theorem updateLot_found {c : Part} {i : LoadPort} {l : Lot} (f : Lot → Lot) (lot : c.lot? i = some l) :
    updateLot i f c = { c with lots := c.lots.set i (some (f l)) } := by
  simp only [updateLot, lot]
  rfl

/-! ### Issue (R118, R119) -/

theorem tryIssue_stays {c : Part} (h : c.waitingSite = none ∨ c.credits = 0 ∨ 32 ≤ c.captureLog.length) :
    tryIssue c = c := by
  unfold tryIssue
  split
  · rfl
  · rename_i w waiting
    refine if_neg fun ⟨credit, room⟩ => ?_
    have room : c.captureLog.length < 32 := room
    obtain none_waits | spent | full := h
    · rw [waiting] at none_waits
      cases none_waits
    · omega
    · omega

theorem tryIssue_issues {c : Part} {w : WaitingSite} {i : LoadPort} {slot : Nat} {e : SiteEntry}
    (waiting : c.waitingSite = some w) (credit : 1 ≤ c.credits) (room : c.captureLog.length < 32)
    (site : c.site? w.wafer w.site = some (i, slot, e)) : tryIssue c = issueCapture w i slot e c := by
  have able : 1 ≤ c.credits ∧ c.captureLog.length < captureCapacity := ⟨credit, room⟩
  simp only [tryIssue, waiting, if_pos able, site]

/-- The record of a capture as it is issued. -/
def issuedRecord (c : Part) (w : WaitingSite) (i : LoadPort) (e : SiteEntry) : CaptureRecord :=
  ⟨c.nextCapture, w.wafer, e.number, e.x, e.y, e.inspClass, e.size, e.acceptedZ.getD 0, (c.recipeOf i).resolution,
    w.sharpness, e.attempts + 1, .unfetched, c.settings.captureTimeout * 1000⟩

theorem issueCapture_spec {c : Part} {w : WaitingSite} {i : LoadPort} {slot : Nat} {e : SiteEntry} {l : Lot}
    (site : c.site? w.wafer w.site = some (i, slot, e)) (lot : c.lot? i = some l) :
    let d := issueCapture w i slot e c
    d = { c with
      waitingSite := none, credits := c.credits - 1, nextCapture := c.nextCapture + 1#16, lists := d.lists
      stats := c.stats.set .capturesIssued (c.stats.get .capturesIssued + 1#32)
      lots := c.lots.set i (some { l with counters :=
        { l.counters with captures := min (l.counters.captures + 1) 4294967295 } })
      captureLog := c.captureLog ++ [issuedRecord c w i e] } ∧
    d.site? w.wafer w.site = some (i, slot, { e with state := .capturing, captureNo := some c.nextCapture }) ∧
    OnlySites i slot [w.site] c d := by
  dsimp only
  obtain ⟨_, _, _, _, _, number⟩ := site?_some c _ _ i slot e site
  obtain ⟨lists, entered, found, only⟩ := updateSite_lists
    (c := { c with
      waitingSite := none, credits := c.credits - 1, captureLog := c.captureLog ++ [issuedRecord c w i e]
      nextCapture := c.nextCapture + 1#16 })
    (fun e => { e with state := .capturing, captureNo := some c.nextCapture }) (fun _ => rfl) site
  have issued : issueCapture w i slot e c = { c with
      waitingSite := none, credits := c.credits - 1, nextCapture := c.nextCapture + 1#16, lists := lists
      stats := c.stats.set .capturesIssued (c.stats.get .capturesIssued + 1#32)
      lots := c.lots.set i (some { l with counters :=
        { l.counters with captures := min (l.counters.captures + 1) 4294967295 } })
      captureLog := c.captureLog ++ [issuedRecord c w i e] } := by
    have rewritten := (updateEntry_site (c := { c with
      waitingSite := none, credits := c.credits - 1, captureLog := c.captureLog ++ [issuedRecord c w i e]
      nextCapture := c.nextCapture + 1#16 })
      (fun e => { e with state := .capturing, captureNo := some c.nextCapture }) site).trans entered
    have counted := updateLot_found (fun l => { l with counters :=
      { l.counters with captures := saturate32 (l.counters.captures + 1) } })
      (show Part.lot? (countStat .capturesIssued { c with
        waitingSite := none, credits := c.credits - 1, captureLog := c.captureLog ++ [issuedRecord c w i e]
        nextCapture := c.nextCapture + 1#16, lists := lists }) i = some l from lot)
    rw [← rewritten, ← number] at counted
    exact counted.trans (by rw [number, rewritten]; rfl)
  rw [issued]
  exact ⟨rfl, found, only⟩

theorem doBufferGrant_fits {n : Byte} {c : Part} (some_granted : n ≠ 0#8) (fits : c.credits + n.toNat ≤ 255) :
    doBufferGrant n c =
      ⟨tryIssue { c with credits := c.credits + n.toNat }, .ok, .credits (c.credits + n.toNat) 0⟩ := by
  have no_excess : c.credits + n.toNat - 255 = 0 := Nat.sub_eq_zero_of_le fits
  simp only [doBufferGrant, if_neg some_granted, no_excess, if_true, Nat.min_eq_left fits, answerOk]

theorem doBufferGrant_exceeds {n : Byte} {c : Part} (some_granted : n ≠ 0#8) (exceeds : 255 < c.credits + n.toNat) :
    doBufferGrant n c = ⟨tryIssue { recordError .creditOverflow
      (.creditOverflow c.credits n.toNat (c.credits + n.toNat - 255)) c with credits := 255 }, .ok,
      .credits 255 (c.credits + n.toNat - 255)⟩ := by
  have excess : ¬ c.credits + n.toNat - 255 = 0 := by omega
  simp only [doBufferGrant, if_neg some_granted, if_neg excess, Nat.min_eq_right exceeds.le, answerOk]

/-- Settles O54. -/
theorem grantAndIssue : Obligations.GrantAndIssue := by
  refine ⟨fun s p tag b now => ?_, fun c => ⟨tryIssue_stays, fun w i slot e l waiting credit room site lot => ?_⟩⟩
  · have answers {c : Part} {st : Status} {x : Body} (h : doBufferGrant b s.part = ⟨c, st, x⟩) :
        exec (.bufferGrant p tag b) s = .next (answered s p 36#8 tag c st x) := exec_answers (r := .bufferGrant b) now h
    refine ⟨fun nothing => answers ?_, fun some_granted fits => answers (doBufferGrant_fits some_granted fits),
      fun some_granted exceeds => answers (doBufferGrant_exceeds some_granted exceeds)⟩
    rw [doBufferGrant, if_pos nothing]
    rfl
  · dsimp only
    rw [tryIssue_issues waiting credit room site]
    exact issueCapture_spec site lot

/-! ### The derived hold (R14) -/

theorem isSome_scope (o : Option Scope) : o.isSome = true ↔ o = some .n ∨ o = some .w := by
  obtain _ | _ | _ := o <;> simp

theorem hold_holdN (l : Lot) :
    l.hold = .holdN ↔ l.holdTool = some .n ∨ l.holdAuto = some .n ∨ l.holdExc = some .n := by
  unfold Lot.hold
  split
  · rename_i narrow
    exact iff_of_true rfl narrow
  · rename_i not_narrow
    exact iff_of_false (by split <;> simp) not_narrow

theorem hold_none (l : Lot) : l.hold = .none ↔ l.holdTool = none ∧ l.holdAuto = none ∧ l.holdExc = none := by
  unfold Lot.hold
  split
  · rename_i narrow
    refine iff_of_false (by simp) fun ⟨tool, auto, exc⟩ => ?_
    simp [tool, auto, exc] at narrow
  · split
    · rename_i some_source
      refine iff_of_false (by simp) fun ⟨tool, auto, exc⟩ => ?_
      simp [tool, auto, exc] at some_source
    · rename_i no_source
      simpa [not_or] using no_source

theorem hold_holdW (l : Lot) : l.hold = .holdW ↔
    (l.holdTool = some .w ∨ l.holdAuto = some .w ∨ l.holdExc = some .w) ∧
      ¬ (l.holdTool = some .n ∨ l.holdAuto = some .n ∨ l.holdExc = some .n) := by
  unfold Lot.hold
  split
  · rename_i narrow
    exact iff_of_false (by simp) fun h => h.2 narrow
  · rename_i not_narrow
    obtain ⟨tool, auto, exc⟩ := by simpa only [not_or] using not_narrow
    simp only [isSome_scope, tool, auto, exc, false_or, or_self, not_false_eq_true, and_true]
    split
    · rename_i wide
      exact iff_of_true rfl wide
    · rename_i no_source
      exact iff_of_false (by simp) no_source

/-! ### HOLD.N on a session (R84) -/

theorem inFlightState_some {c : Part} {t n : Nat} {i : LoadPort} {slot : Nat} {e : SiteEntry}
    (wafer : c.session.wafer = some t) (inflight : c.session.inFlight = some n)
    (site : c.site? t n = some (i, slot, e)) : c.inFlightState = some e.state := by
  simp only [Part.inFlightState, wafer, inflight, site]

theorem pauseSession_inactive {c : Part} (inactive : c.session.state ≠ .active) : pauseSession c = c := if_neg inactive

/-- The site in flight goes back to PENDING and the session pauses. -/
theorem pausedReturn_spec {c : Part} {t n : Nat} {i : LoadPort} {slot : Nat} {e : SiteEntry}
    (site : c.site? t n = some (i, slot, e)) :
    let d := setSessionState .paused (returnToPending t n c)
    d.session = { c.session with state := .paused, inFlight := none } ∧
      d.site? t n = some (i, slot, { e with state := .pending, acceptedZ := none }) ∧ OnlySites i slot [n] c d ∧
      d = { c with session := d.session, lists := d.lists } := by
  obtain ⟨lists, rewritten, found, only⟩ :=
    updateSite_lists (fun e => { e with state := .pending, acceptedZ := none }) (fun _ => rfl) site
  have returned : setSessionState .paused (returnToPending t n c) =
      { c with lists := lists, session := { c.session with state := .paused, inFlight := none } } := by
    rw [returnToPending, rewritten]
    rfl
  dsimp only
  rw [returned]
  exact ⟨rfl, found, only, rfl⟩

/-- Settles O44. -/
theorem holdsAreDerivedAndPause : Obligations.HoldsAreDerivedAndPause := by
  refine ⟨fun l => ⟨hold_holdN l, hold_holdW l, hold_none l⟩, fun c => ⟨pauseSession_inactive, ?_⟩⟩
  intro t n i slot e active wafer inflight site d paused returned
  have state := inFlightState_some wafer inflight site
  refine ⟨fun stays => ?_, fun focusing => ?_, fun waits => ?_⟩
  · obtain moving | capturing := stays
    · have goes : d = setSessionState .pausing c := by
        simp only [d, pauseSession, if_pos active, wafer, inflight, state, moving]
      exact goes
    · have goes : d = setSessionState .pausing c := by
        simp only [d, pauseSession, if_pos active, wafer, inflight, state, capturing]
      exact goes
  · have goes : d = setSessionState .paused (returnToPending t n (abandonFocus c)) := by
      simp only [d, pauseSession, if_pos active, wafer, inflight, state, focusing]
    obtain ⟨session, found, only, rest⟩ := pausedReturn_spec (c := abandonFocus c) site
    rw [← goes] at session found only rest
    exact ⟨session, found, only, rest⟩
  · have goes : d = setSessionState .paused (returnToPending t n (withdrawWaiting c)) := by
      simp only [d, pauseSession, if_pos active, wafer, inflight, state, waits]
    obtain ⟨session, found, only, rest⟩ := pausedReturn_spec (c := withdrawWaiting c) site
    rw [← goes] at session found only rest
    exact ⟨session, found, only, rest⟩

end Sys2Proof.Machine
end

section
/-! The focus map and the evaluation of a sweep (R97, R101 to R103, R106). -/

namespace Sys2Proof.Machine

/-! ### The focus map (R97, R106) -/

/-- The squared distance of a point of the map from a position. -/
def MapPoint.apart (x y : Int) (q : MapPoint) : Int := (x - q.x) ^ 2 + (y - q.y) ^ 2

theorem distance2_eq (x y : Int) (q : MapPoint) : distance2 x y q.x q.y = q.apart x y := by
  rw [distance2, MapPoint.apart]
  ring

theorem distance2_comm (x y x' y' : Int) : distance2 x y x' y' = distance2 x' y' x y := by
  unfold distance2
  ring

/-- The points that a new one leaves on the map. -/
def keptPoints (radius : Nat) (p : MapPoint) (m : List MapPoint) : List MapPoint :=
  m.filter (fun q => (radius : Int) ^ 2 ≤ 16 * q.apart p.x p.y)

theorem addMapPoint_eq (radius : Nat) (p : MapPoint) (m : List MapPoint) :
    addMapPoint radius p m = if (keptPoints radius p m ++ [p]).length = 49 then (keptPoints radius p m ++ [p]).drop 1
      else keptPoints radius p m ++ [p] := by
  have same : m.filter (fun q => !decide (16 * distance2 q.x q.y p.x p.y < (radius : Int) * (radius : Int))) =
      keptPoints radius p m := by
    refine List.filter_congr fun q _ => ?_
    rw [distance2_comm, distance2_eq, ← sq]
    simp only [← decide_not, not_lt]
  simp only [addMapPoint, same]

/-- The nearest point after one more point at the newest end. -/
theorem nearestPoint_concat (x y : Int) (m : List MapPoint) (p : MapPoint) : nearestPoint x y (m ++ [p]) =
    some ((nearestPoint x y m).elim p fun b => if p.apart x y ≤ b.apart x y then p else b) := by
  simp only [nearestPoint, List.foldl_append, List.foldl_cons, List.foldl_nil, distance2_eq]
  cases m.foldl _ none with
  | none => rfl
  | some b => exact (apply_ite some _ _ _).symm

theorem nearestPoint_spec (x y : Int) (m : List MapPoint) : (nearestPoint x y m = none ↔ m = []) ∧
    ∀ b, nearestPoint x y m = some b → ∃ older newer, m = older ++ b :: newer ∧
      (∀ q ∈ older, b.apart x y ≤ q.apart x y) ∧ ∀ q ∈ newer, b.apart x y < q.apart x y := by
  induction m using List.reverseRecOn with
  | nil => exact ⟨iff_of_true rfl rfl, fun b h => by cases h⟩
  | append_singleton m p ih =>
    obtain ⟨empty, found⟩ := ih
    rw [nearestPoint_concat]
    refine ⟨iff_of_false (by simp) (by simp), fun b h => ?_⟩
    cases best : nearestPoint x y m with
    | none =>
      obtain rfl := empty.mp best
      simp only [best, Option.elim, Option.some.injEq] at h
      subst h
      exact ⟨[], [], rfl, by simp, by simp⟩
    | some a =>
      obtain ⟨older, newer, whole, before, after⟩ := found a best
      simp only [best, Option.elim, Option.some.injEq] at h
      split at h
      · rename_i nearer
        subst h
        refine ⟨m, [], rfl, fun q member => nearer.trans ?_, fun _ member => by cases member⟩
        rw [whole] at member
        obtain old | rfl | new := by simpa only [List.mem_append, List.mem_cons] using member
        · exact before q old
        · exact le_refl _
        · exact (after q new).le
      · rename_i farther
        subst h
        refine ⟨older, newer ++ [p], by rw [whole, List.append_assoc]; rfl, before, fun q member => ?_⟩
        obtain new | last := List.mem_append.mp member
        · exact after q new
        · rw [List.mem_singleton.mp last]
          exact not_le.mp farther

/-- Settles O49. -/
theorem focusMapIsKept : Obligations.FocusMapIsKept := by
  refine ⟨fun radius p m few => ?_, nearestPoint_spec⟩
  intro kept d
  have eq : d = if (kept ++ [p]).length = 49 then (kept ++ [p]).drop 1 else kept ++ [p] := addMapPoint_eq radius p m
  have fewer : kept.length ≤ 48 := (List.length_filter_le _ _).trans few
  have grown : (kept ++ [p]).length = kept.length + 1 := List.length_append
  refine ⟨?_, fun room => ?_, fun full => ?_⟩
  · rw [eq]
    split
    · rw [List.length_drop]
      omega
    · omega
  · rw [eq, if_neg (by omega)]
  · rw [eq, if_pos (by omega), List.drop_append_of_le_length (by omega)]

/-! ### The peak step (R102) -/

/-- Of the steps 1 to `n` with a property, the one nearest a centre; of two, the lower; 0 when no step has it. -/
def nearestStep (hit : Nat → Prop) [DecidablePred hit] (away : Nat → Nat) (n : Nat) : Nat :=
  ((List.range n).map (· + 1)).foldl
    (fun best k => if hit k then (if best = 0 ∨ away k < away best then k else best) else best) 0

theorem nearestStep_succ (hit : Nat → Prop) [DecidablePred hit] (away : Nat → Nat) (n : Nat) :
    let best := nearestStep hit away n
    nearestStep hit away (n + 1) =
      if hit (n + 1) then (if best = 0 ∨ away (n + 1) < away best then n + 1 else best) else best := by
  simp only [nearestStep, List.range_succ, List.map_append, List.foldl_append, List.map_cons, List.map_nil, List.foldl_cons,
    List.foldl_nil]
  rfl

theorem nearestStep_spec (hit : Nat → Prop) [DecidablePred hit] (away : Nat → Nat) (n : Nat) :
    (nearestStep hit away n = 0 ∧ ∀ j, 1 ≤ j → j ≤ n → ¬ hit j) ∨
    (1 ≤ nearestStep hit away n ∧ nearestStep hit away n ≤ n ∧ hit (nearestStep hit away n) ∧
      ∀ j, 1 ≤ j → j ≤ n → hit j → away (nearestStep hit away n) < away j ∨
        (away (nearestStep hit away n) = away j ∧ nearestStep hit away n ≤ j)) := by
  induction n with
  | zero => exact .inl ⟨rfl, fun j low high => by omega⟩
  | succ n ih =>
    have up (j : Nat) (high : j ≤ n + 1) : j = n + 1 ∨ j ≤ n := by omega
    rw [nearestStep_succ]
    generalize nearestStep hit away n = best at ih ⊢
    by_cases new : hit (n + 1)
    · rw [if_pos new]
      obtain ⟨rfl, none_before⟩ | ⟨low, high, is_hit, least⟩ := ih
      · rw [if_pos (.inl rfl)]
        refine .inr ⟨by omega, le_refl _, new, fun j low high hit' => ?_⟩
        obtain rfl | below := up j high
        · exact .inr ⟨rfl, le_refl _⟩
        · exact absurd hit' (none_before j low below)
      · by_cases nearer : away (n + 1) < away best
        · rw [if_pos (.inr nearer)]
          refine .inr ⟨by omega, le_refl _, new, fun j low high hit' => ?_⟩
          obtain rfl | below := up j high
          · exact .inr ⟨rfl, le_refl _⟩
          · have best_least := least j low below hit'
            exact .inl (by omega)
        · rw [if_neg (not_or.mpr ⟨by omega, nearer⟩)]
          refine .inr ⟨low, by omega, is_hit, fun j low' high' hit' => ?_⟩
          obtain rfl | below := up j high'
          · omega
          · exact least j low' below hit'
    · rw [if_neg new]
      have none_new (j : Nat) (high : j ≤ n + 1) (hit' : hit j) : j ≤ n :=
        (up j high).resolve_left fun same => new (same ▸ hit')
      obtain ⟨rfl, none_before⟩ | ⟨low, high, is_hit, least⟩ := ih
      · exact .inl ⟨rfl, fun j low high hit' => none_before j low (none_new j high hit') hit'⟩
      · exact .inr ⟨low, by omega, is_hit, fun j low high hit' => least j low (none_new j high hit') hit'⟩

/-- The distance of a step from another. -/
def stepsApart (centre k : Nat) : Nat := if k ≤ centre then centre - k else k - centre

theorem stepsApart_cast (centre k : Nat) : (stepsApart centre k : Int) = |(k : Int) - centre| := by
  unfold stepsApart
  split
  · rw [abs_of_nonpos (by omega)]
    omega
  · rw [abs_of_nonneg (by omega)]
    omega

theorem peakStep_eq (counts : List Nat) (n : Nat) : peakStep counts n =
    nearestStep (fun k => counts.getD (k - 1) 0 = counts.foldl max 0) (stepsApart ((n + 1) / 2)) n := rfl

theorem foldl_max_le (l : List Nat) : ∀ b x, b ≤ x → (∀ y ∈ l, y ≤ x) → l.foldl max b ≤ x := by
  induction l with
  | nil => exact fun b x h _ => h
  | cons y l ih =>
    exact fun b x h below => ih _ _ (max_le h (below y List.mem_cons_self)) fun z m => below z (List.mem_cons_of_mem _ m)

theorem le_foldl_max (l : List Nat) : ∀ b, b ≤ l.foldl max b ∧ ∀ y ∈ l, y ≤ l.foldl max b := by
  induction l with
  | nil => exact fun b => ⟨le_refl _, fun _ m => by cases m⟩
  | cons y l ih =>
    intro b
    obtain ⟨start, rest⟩ := ih (max b y)
    refine ⟨(le_max_left b y).trans start, fun z member => ?_⟩
    obtain rfl | old := List.mem_cons.mp member
    · exact (le_max_right b z).trans start
    · exact rest z old

/-- The greatest count. -/
theorem foldl_max_eq {l : List Nat} {top : Nat} (member : top ∈ l) (greatest : ∀ x ∈ l, x ≤ top) : l.foldl max 0 = top :=
  le_antisymm (foldl_max_le l 0 top top.zero_le greatest) ((le_foldl_max l 0).2 top member)

/-! ### The parabola (R103) -/

theorem clampDrive_cast (z : Int) : (clampDrive z : Int) = max 0 (min z 65535) := Int.toNat_of_nonneg (le_max_left _ _)

/-- Rounding to the nearest unit, halves to the higher, in integers. -/
theorem round_half_up (z num den : Int) (positive : 0 < den) :
    ⌊(z : ℚ) + (num : ℚ) / den + 1 / 2⌋ = z + (2 * num + den) / (2 * den) := by
  obtain ⟨d, rfl⟩ : ∃ d : Nat, den = d := ⟨den.toNat, (Int.toNat_of_nonneg positive.le).symm⟩
  have not_zero : (d : ℚ) ≠ 0 := by
    have : 0 < d := by exact_mod_cast positive
    exact_mod_cast this.ne'
  have same : (z : ℚ) + (num : ℚ) / (d : Int) + 1 / 2 = (z : ℚ) + ((2 * num + d : Int) : ℚ) / ((2 * d : Nat) : ℚ) := by
    push_cast
    field_simp
    ring
  rw [same, Int.floor_intCast_add, Rat.floor_intCast_div_natCast]
  push_cast
  rfl

/-- The accepted z of a sweep whose middle count is the greatest. -/
theorem parabolaZ_cast {z0 size below top above : Nat} (low : below ≤ top) (high : above ≤ top) :
    (parabolaZ z0 size below top above : Int) = max 0 (min (⌊(z0 : ℚ) + (size : ℚ) * ((below : ℚ) - (above : ℚ)) /
      (2 * ((below : ℚ) - 2 * (top : ℚ) + (above : ℚ))) + 1 / 2⌋) 65535) := by
  have curved : (2 : ℚ) * ((below : ℚ) - 2 * (top : ℚ) + (above : ℚ)) =
      ((2 * ((below : Int) - 2 * (top : Int) + (above : Int)) : Int) : ℚ) := by push_cast; ring
  rw [curved]
  unfold parabolaZ
  dsimp only
  by_cases flat : 2 * ((below : Int) - 2 * (top : Int) + (above : Int)) = 0
  · have whole : ⌊(z0 : ℚ) + 0 + 1 / 2⌋ = z0 := by simpa using round_half_up z0 0 1 one_pos
    rw [if_pos flat, clampDrive_cast, flat, Int.cast_zero, div_zero, whole]
  · have negative : 2 * ((below : Int) - 2 * (top : Int) + (above : Int)) < 0 := by omega
    rw [if_neg flat, if_pos negative, if_pos negative, clampDrive_cast,
      ← round_half_up z0 _ _ (neg_pos.mpr negative)]
    push_cast
    rw [neg_div_neg_eq]

/-! ### The verdict (R102) -/

theorem getD_getElem? {l : List Nat} {k : Nat} (inside : k < l.length) : l[k]? = some (l.getD k 0) := by
  rw [List.getD_eq_getElem?_getD, List.getElem?_eq_getElem inside]
  rfl

theorem getD_mem {l : List Nat} {k : Nat} (inside : k < l.length) : l.getD k 0 ∈ l :=
  List.mem_of_getElem? (getD_getElem? inside)

theorem evaluateSweep_eq (limit n size : Nat) (counts drives : List Nat) : evaluateSweep limit n size counts drives =
    let k := peakStep counts n
    if counts.foldl max 0 < limit then .low
    else if k ≤ 1 ∨ n ≤ k then .edge (drives.getD (k - 1) 0)
    else .accept (parabolaZ (drives.getD (k - 1) 0) size (counts.getD (k - 2) 0) (counts.getD (k - 1) 0) (counts.getD k 0))
      (counts.getD (k - 1) 0) := rfl

/-- The peak of a sweep: a step of the greatest count, none of which is nearer the centre. -/
theorem peakStep_spec {counts : List Nat} {n top : Nat} (length : counts.length = n) (member : top ∈ counts)
    (greatest : ∀ x ∈ counts, x ≤ top) :
    let k := peakStep counts n
    1 ≤ k ∧ k ≤ n ∧ counts[k - 1]? = some top ∧ ∀ j, 1 ≤ j → j ≤ n → counts[j - 1]? = some top →
      let away (i : Nat) : Int := |(i : Int) - ((n + 1) / 2 : Nat)|
      away k < away j ∨ (away k = away j ∧ k ≤ j) := by
  have hit_iff (j : Nat) (low : 1 ≤ j) (high : j ≤ n) :
      counts.getD (j - 1) 0 = counts.foldl max 0 ↔ counts[j - 1]? = some top := by
    rw [foldl_max_eq member greatest, getD_getElem? (by omega), Option.some.injEq]
  dsimp only
  rw [peakStep_eq]
  obtain ⟨_, no_hit⟩ | ⟨low, high, hit, least⟩ := nearestStep_spec
    (fun k => counts.getD (k - 1) 0 = counts.foldl max 0) (stepsApart ((n + 1) / 2)) n
  · obtain ⟨m, inside, at'⟩ := List.mem_iff_getElem.mp member
    refine absurd ((hit_iff (m + 1) (by omega) (by omega)).mpr ?_) (no_hit (m + 1) (by omega) (by omega))
    rw [Nat.add_sub_cancel, List.getElem?_eq_getElem inside, at']
  · refine ⟨low, high, (hit_iff _ low high).mp hit, fun j low' high' at' => ?_⟩
    rw [← stepsApart_cast, ← stepsApart_cast, Int.ofNat_lt, Int.ofNat_inj]
    exact least j low' high' ((hit_iff j low' high').mpr at')

/-- Settles O48. -/
theorem sweepIsEvaluated : Obligations.SweepIsEvaluated := by
  refine ⟨fun centre n size k _ => clampDrive_cast _, ?_⟩
  intro limit n size top counts drives _ length length' member greatest
  have greatest_eq := foldl_max_eq member greatest
  refine ⟨fun low => ?_, fun enough => ?_⟩
  · rw [evaluateSweep_eq, greatest_eq]
    exact if_pos low
  · have verdict := evaluateSweep_eq limit n size counts drives
    dsimp only at verdict
    rw [greatest_eq, if_neg (by omega)] at verdict
    obtain ⟨low, high, at', least⟩ := peakStep_spec length member greatest
    generalize peakStep counts n = k at verdict low high at' least
    have peak : counts.getD (k - 1) 0 = top := by rw [List.getD_eq_getElem?_getD, at']; rfl
    refine ⟨k, drives.getD (k - 1) 0, low, high, at', getD_getElem? (by omega), least, fun edge => ?_, fun inner outer => ?_⟩
    · rw [verdict, if_pos (by omega)]
    · refine ⟨counts.getD (k - 2) 0, counts.getD k 0, _, getD_getElem? (by omega), getD_getElem? (by omega), ?_,
        parabolaZ_cast (greatest _ (getD_mem (by omega))) (greatest _ (getD_mem (by omega)))⟩
      rw [verdict, if_neg (by omega), peak]

end Sys2Proof.Machine
end

section
/-! Resolutions and their counting, excursions, and a hold that tightens (R14, R16, R26, R27, R134 to R140). -/

namespace Sys2Proof.Machine

/-! ### Selection entries -/

theorem updateEntry_selection (slot : Nat) (f : Selection → Selection) (l : Lot) :
    Lot.updateEntry slot f l = { l with selection := l.selection.map (fun e => if e.slot = slot then f e else e) } := by
  simp only [Lot.updateEntry, beq_iff_eq]

/-- The entry that is rewritten, its slot kept, is read rewritten. -/
theorem entry?_updateEntry {l : Lot} {slot : Nat} {e : Selection} (f : Selection → Selection)
    (slots : ∀ e, (f e).slot = e.slot) (entry : l.entry? slot = some e) :
    (Lot.updateEntry slot f l).entry? slot = some (f e) := by
  have named (x : Selection) : ((if x.slot == slot then f x else x).slot == slot) = (x.slot == slot) := by
    split
    · rw [slots]
    · rfl
  have at_slot : (e.slot == slot) = true := beq_iff_eq.mpr (entry_slot entry).1
  have found : l.selection.find? ((fun e => e.slot == slot) ∘ fun x => if x.slot == slot then f x else x) = some e :=
    (congrArg (l.selection.find? ·) (funext named)).trans entry
  simp only [Lot.entry?, Lot.updateEntry, List.find?_map, found, Option.map_some, at_slot, if_true]

/-! ### Resolution of a site (R26, R27) -/

theorem resolveEntry_number (r : Resolution) (e : SiteEntry) : (resolveEntry r e).number = e.number := by
  cases r <;> rfl

theorem resolveSite_spec {c : Part} {t n : Nat} {i : LoadPort} {slot : Nat} {e : SiteEntry} (r : Resolution)
    (site : c.site? t n = some (i, slot, e)) : ∃ lists : List RevisitList,
    resolveSite t n r c = countResolution i slot r { c with lists := lists } ∧
    OnlySites i slot [n] c { c with lists := lists } ∧
    Part.site? { c with lists := lists } t n = some (i, slot, resolveEntry r e) := by
  obtain ⟨lists, rewritten, found, only⟩ := updateSite_lists (resolveEntry r) (resolveEntry_number r) site
  refine ⟨lists, ?_, only, found⟩
  simp only [resolveSite, site, updateEntry_site _ site, rewritten]

/-! ### Counting (R136) -/

/-- The part after `n` resolutions of a slot have been counted alike. -/
def countedPart (i : LoadPort) (slot : Nat) (l : Lot) (k : Statistic) (n : Nat) (f : WaferCounts → WaferCounts)
    (g : LotCounters → LotCounters) (c : Part) : Part :=
  { c with
    stats := c.stats.set k (c.stats.get k + BitVec.ofNat 32 n)
    lots := c.lots.set i (some { l with
      selection := l.selection.map (fun e => if e.slot = slot then { e with counts := f e.counts } else e)
      counters := g l.counters }) }

theorem countedPart_eq {c : Part} {i : LoadPort} {l : Lot} (slot n : Nat) (k : Statistic) (f : WaferCounts → WaferCounts)
    (g : LotCounters → LotCounters) (lot : c.lot? i = some l) :
    updateLot i (fun l => { l.updateEntry slot (fun e => { e with counts := f e.counts }) with counters := g l.counters })
      { c with stats := c.stats.set k (c.stats.get k + BitVec.ofNat 32 n) } = countedPart i slot l k n f g c := by
  have lot : Part.lot? { c with stats := c.stats.set k (c.stats.get k + BitVec.ofNat 32 n) } i = some l := lot
  rw [updateLot_found _ lot, updateEntry_selection]
  rfl

/-- A resolution that is no classification is counted and does no more. -/
theorem countResolution_plain {c : Part} {i : LoadPort} {l : Lot} (slot : Nat) (r : Resolution) (lot : c.lot? i = some l)
    (plain : ∀ cls conf, r = .classified cls conf → cls = 0) :
    countResolution i slot r c = countedPart i slot l r.statistic 1 (countWafer r) (countLot r) c := by
  have counted := countedPart_eq slot 1 r.statistic (countWafer r) (countLot r) lot
  cases r with
  | classified cls conf => exact (if_pos (plain cls conf rfl)).trans counted
  | skipped why => exact counted
  | failed why => exact counted
  | unclassified => exact counted

theorem classCount_found {c : Part} {i : LoadPort} {l : Lot} {slot : Nat} {e : Selection} (lot : c.lot? i = some l)
    (entry : l.entry? slot = some e) (cls : Nat) : c.classCount i slot cls = e.counts.classes.getD cls 0 := by
  simp only [Part.classCount, lot, entry]

/-- A classification is counted, and then the excursion list is compared (R137, R139). -/
theorem countResolution_classified {c : Part} {i : LoadPort} {l : Lot} {slot cls : Nat} {e : Selection} (conf : Nat)
    (lot : c.lot? i = some l) (real : cls ≠ 0) (entry : l.entry? slot = some e) (known : cls < e.counts.classes.length) :
    countResolution i slot (.classified cls conf) c =
      compareEntries i slot cls (e.counts.classes.getD cls 0 + 1) 1 (c.recipeOf i).excursions
        (countedPart i slot l .sitesClassified 1 (countWafer (.classified cls conf)) (countLot (.classified cls conf)) c) := by
  have counted := countedPart_eq slot 1 .sitesClassified (countWafer (.classified cls conf))
    (countLot (.classified cls conf)) lot
  generalize whole : countedPart i slot l .sitesClassified 1 (countWafer (.classified cls conf))
    (countLot (.classified cls conf)) c = d at counted ⊢
  have lot' : d.lot? i = some { l.updateEntry slot (fun e => { e with counts := countWafer (.classified cls conf) e.counts }) with
      counters := countLot (.classified cls conf) l.counters } := by
    rw [← whole, updateEntry_selection]
    exact PerLoadPort.get_set_same _ _ _
  have recipe : d.recipeOf i = c.recipeOf i := by
    rw [Part.recipeOf, lot', Part.recipeOf, lot, ← whole]
    rfl
  have entry' := entry?_updateEntry (fun e => { e with counts := countWafer (.classified cls conf) e.counts })
    (fun _ => rfl) entry
  have bumped : (bumpClass cls e.counts.classes).getD cls 0 = e.counts.classes.getD cls 0 + 1 := by
    simp [bumpClass, List.getD_eq_getElem?_getD, known]
  have count : d.classCount i slot cls = e.counts.classes.getD cls 0 + 1 := (classCount_found lot' entry' cls).trans bumped
  have compared : countResolution i slot (.classified cls conf) c = compareEntries i slot cls (d.classCount i slot cls) 1
      (d.recipeOf i).excursions d := by
    rw [← counted]
    exact if_neg real
  rw [compared, count, recipe]

/-! ### Skipping together (R136) -/

theorem updateList_entries (c : Part) (i : LoadPort) (slot : Nat) (g : SiteEntry → SiteEntry) :
    (updateList i slot (fun l => { l with entries := l.entries.map g }) c).entries i slot = (c.entries i slot).map g := by
  rw [entries_eq, entries_eq, updateList_list c i i slot slot (fun l => { l with entries := l.entries.map g }) (fun _ => ⟨rfl, rfl⟩)]
  cases c.list? i slot <;> simp

theorem skipPending_spec {c : Part} {i : LoadPort} {l : Lot} (slot : Nat) (why : Reason) (lot : c.lot? i = some l) :
    ∃ lists : List RevisitList,
      let n := (c.entries i slot).countP (fun e => e.state == .pending)
      skipPending i slot why c = { countedPart i slot l .sitesSkipped n (fun k => { k with skipped := k.skipped + n })
        (fun k => { k with skipped := k.skipped + n }) c with lists := lists } ∧
      Part.entries { c with lists := lists } i slot = (c.entries i slot).map (fun e => if e.state = .pending then
        { e with state := .skipped, captureNo := none, reason := some why } else e) ∧
      OnlyList i slot c { c with lists := lists } := by
  let skipped : Part := updateList i slot (fun l => { l with
    entries := l.entries.map (fun e => if e.state == .pending then resolveEntry (.skipped why) e else e) }) c
  let n := (c.entries i slot).countP (fun e => e.state == .pending)
  have lot : skipped.lot? i = some l := lot
  have counted := countedPart_eq slot n .sitesSkipped (fun k => { k with skipped := k.skipped + n })
    (fun k => { k with skipped := k.skipped + n }) lot
  refine ⟨skipped.lists, counted, ?_, ?_⟩
  · have entries := updateList_entries c i slot (fun e => if e.state == .pending then resolveEntry (.skipped why) e else e)
    refine entries.trans ?_
    simp only [beq_iff_eq]
    rfl
  · exact updateList_onlyList i slot _ c fun e => by split <;> rfl

/-! ### Excursion entries (R134, R139) -/

theorem entryFires_iff {c : Part} {i : LoadPort} {slot pos : Nat} {l : Lot} {e : Selection} (cls count : Nat)
    (x : ExcursionEntry) (lot : c.lot? i = some l) (entry : l.entry? slot = some e) (low : 1 ≤ pos)
    (high : pos ≤ e.counts.flags.length) : entryFires c i slot cls count pos x = true ↔
      x.cls = cls ∧ x.limit = count ∧ e.counts.flags[pos - 1]? = some false := by
  have inside : pos - 1 < e.counts.flags.length := by omega
  simp only [entryFires, lot, entry, Bool.and_eq_true, beq_iff_eq, and_assoc, List.getD_eq_getElem?_getD,
    List.getElem?_eq_getElem inside, Option.getD_some, Option.some.injEq, Bool.not_eq_true']

theorem sampled_iff {c : Part} {i : LoadPort} {slot : Nat} {l : Lot} {e : Selection} (lot : c.lot? i = some l)
    (entry : l.entry? slot = some e) : c.sampled i slot = true ↔ ∃ (n : Nat) (x : ExcursionEntry),
      (c.recipeOf i).excursions[n]? = some x ∧ x.action = .sample ∧ e.counts.flags[n]? = some true := by
  simp only [Part.sampled, lot, entry, List.any_eq_true, Bool.and_eq_true, beq_iff_eq]
  constructor
  · rintro ⟨⟨x, flag⟩, member, sample, set⟩
    obtain ⟨n, at'⟩ := List.mem_iff_getElem?.mp member
    obtain ⟨entry', flag'⟩ := List.getElem?_zip_eq_some.mp at'
    dsimp only at sample set entry' flag'
    exact ⟨n, x, entry', sample, set ▸ flag'⟩
  · rintro ⟨n, x, entry', sample, flag⟩
    exact ⟨(x, true), List.mem_of_getElem? (List.getElem?_zip_eq_some.mpr ⟨entry', flag⟩), sample, rfl⟩

/-! ### A hold that tightens (R12, R14, R84) -/

theorem tightenHold_same {old new : Lot} (i : LoadPort) (c : Part) (same : old.hold = new.hold) :
    tightenHold i old new c = setLot i (some new) c := if_pos same

theorem tightenHold_raises {i : LoadPort} {old new : Lot} {c : Part} (changed : old.hold ≠ new.hold)
    (elsewhere : new.hold ≠ .holdN ∨ c.sessionLot ≠ some i) :
    tightenHold i old new c = raiseLotState (setLot i (some new) c) := by
  have reaches : ¬ (new.hold = .holdN ∧ (raiseLotState (setLot i (some new) c)).sessionLot = some i) := fun h =>
    elsewhere.elim (· h.1) (· h.2)
  simp only [tightenHold, if_neg changed, if_neg reaches]

theorem tightenHold_pauses {i : LoadPort} {old new : Lot} {c : Part} (changed : old.hold ≠ new.hold)
    (narrow : new.hold = .holdN) (here : c.sessionLot = some i) :
    tightenHold i old new c = pauseSession (raiseLotState (setLot i (some new) c)) := by
  have reaches : new.hold = .holdN ∧ (raiseLotState (setLot i (some new) c)).sessionLot = some i := ⟨narrow, here⟩
  simp only [tightenHold, if_neg changed, if_pos reaches]

theorem tightenHold_lot (i : LoadPort) (old new : Lot) (c : Part) : (tightenHold i old new c).lot? i = some new := by
  have set : (setLot i (some new) c).lot? i = some new := PerLoadPort.get_set_same _ _ _
  by_cases same : old.hold = new.hold
  · rw [tightenHold_same i c same, set]
  · by_cases reaches : new.hold = .holdN ∧ c.sessionLot = some i
    · rw [tightenHold_pauses same reaches.1 reaches.2, Part.lot?, pauseSession_lots]
      exact set
    · rw [tightenHold_raises same (not_and_or.mp reaches)]
      exact set

/-! ### A firing (R16, R140) -/

/-- A lot's record after a firing: the flag and the event (R140, step 1). -/
def Lot.flagged (l : Lot) (slot pos : Nat) (x : ExcursionEntry) : Lot :=
  { l with
    selection := l.selection.map (fun e => if e.slot = slot then
      { e with counts := { e.counts with flags := e.counts.flags.set (pos - 1) true } } else e)
    counters := { l.counters with events :=
      if ∃ v ∈ l.counters.events, v.position = pos then l.counters.events
      else l.counters.events ++ [⟨slot, x.cls, x.limit, x.action, pos⟩] } }

/-- A lot's record with the hold source that an action sets (R16). -/
def Lot.heldBy (l : Lot) (a : ExcursionAction) : Lot :=
  { l with holdExc := some (if l.holdExc = some .n ∨ a = .holdN then .n else .w) }

/-- The action sets the lot's source EXCURSION (R16). -/
def Lot.Holds (l : Lot) (a : ExcursionAction) : Prop :=
  (l.state = .running ∨ l.state = .draining) ∧ l.aborted = false ∧ (a = .holdW ∨ a = .holdN)

theorem addEvent_eq (v : ExcursionEvent) (k : LotCounters) : addEvent v k = { k with events :=
    if ∃ w ∈ k.events, w.position = v.position then k.events else k.events ++ [v] } := by
  unfold addEvent
  simp only [List.any_eq_true, beq_iff_eq]
  split <;> rfl

theorem fireEntry_eq {c : Part} {i : LoadPort} {l : Lot} (slot pos : Nat) (x : ExcursionEntry) (lot : c.lot? i = some l) :
    fireEntry i slot pos x c = raiseEvent .automation .excursion
      (excursionAction i x.action (setLot i (some (l.flagged slot pos x)) c)) := by
  have recorded : updateLot i (fun l =>
      { l.updateEntry slot (fun e => { e with counts := setFlag pos e.counts }) with
        counters := addEvent ⟨slot, x.cls, x.limit, x.action, pos⟩ l.counters }) c =
      setLot i (some (l.flagged slot pos x)) c := by
    rw [updateLot_found _ lot, addEvent_eq, updateEntry_selection]
    rfl
  exact congrArg (fun d => raiseEvent .automation .excursion (excursionAction i x.action d)) recorded

theorem recordExcursionHold_none {c : Part} {i : LoadPort} {l : Lot} (scope : Scope) (lot : c.lot? i = some l)
    (closed : ¬ ((l.state = .running ∨ l.state = .draining) ∧ l.aborted = false)) : recordExcursionHold i scope c = c := by
  simp only [recordExcursionHold, lot, if_neg closed]

theorem recordExcursionHold_sets {c : Part} {i : LoadPort} {l : Lot} (scope : Scope) (lot : c.lot? i = some l)
    (open' : (l.state = .running ∨ l.state = .draining) ∧ l.aborted = false) :
    recordExcursionHold i scope c = raiseEvent .automation .holdSet
      (tightenHold i l { l with holdExc := some (if l.holdExc = some .n then .n else scope) } c) := by
  simp only [recordExcursionHold, lot, if_pos open']

theorem excursionAction_none {c : Part} {i : LoadPort} {l : Lot} {a : ExcursionAction} (lot : c.lot? i = some l)
    (quiet : ¬ l.Holds a) : excursionAction i a c = c := by
  cases a with
  | note => rfl
  | sample => rfl
  | holdW => exact recordExcursionHold_none .w lot fun h => quiet ⟨h.1, h.2, .inl rfl⟩
  | holdN => exact recordExcursionHold_none .n lot fun h => quiet ⟨h.1, h.2, .inr rfl⟩

theorem excursionAction_sets {c : Part} {i : LoadPort} {l : Lot} {a : ExcursionAction} (lot : c.lot? i = some l)
    (holds : l.Holds a) :
    excursionAction i a c = raiseEvent .automation .holdSet (tightenHold i l (l.heldBy a) c) := by
  obtain ⟨state, kept, rfl | rfl⟩ := holds
  · have set := recordExcursionHold_sets .w lot ⟨state, kept⟩
    rw [show (if l.holdExc = some .n then Scope.n else .w) = if l.holdExc = some .n ∨ ExcursionAction.holdW = .holdN then .n
      else .w from if_congr (by simp) rfl rfl] at set
    exact set
  · have set := recordExcursionHold_sets .n lot ⟨state, kept⟩
    rw [show (if l.holdExc = some .n then Scope.n else .n) = if l.holdExc = some .n ∨ ExcursionAction.holdN = .holdN then .n
      else .w by simp] at set
    exact set

/-- Settles O56. -/
theorem resolutionsAreCounted : Obligations.ResolutionsAreCounted := by
  refine ⟨fun c t n slot i e r site => ?_, fun c i slot l lot => ?_, fun c i slot cls count pos x rest => ⟨rfl, rfl⟩,
    fun c i slot cls count pos x l e => entryFires_iff cls count x, fun c i slot l e => sampled_iff,
    fun c i slot pos x l lot => ?_⟩
  · obtain ⟨lists, resolved, only, found⟩ := resolveSite_spec r site
    exact ⟨lists, resolved, only, by rw [found]; cases r <;> rfl⟩
  · intro counted bump classified
    exact ⟨fun why => countResolution_plain slot _ lot nofun, fun why => countResolution_plain slot _ lot nofun,
      countResolution_plain slot _ lot nofun,
      fun conf => countResolution_plain slot _ lot fun cls conf' same => by cases same; rfl,
      fun cls conf e real entry known => countResolution_classified conf lot real entry known,
      fun why => skipPending_spec slot why lot⟩
  · intro d flagged holds held put fired set
    have lot' : (put flagged).lot? i = some flagged := PerLoadPort.get_set_same _ _ _
    have goes : d = fired (excursionAction i x.action (put flagged)) := fireEntry_eq slot pos x lot
    have twice : setLot i (some held) (put flagged) = put held := setLot_setLot i (some held) (some flagged) c
    have holding (h : holds) : d = set (tightenHold i flagged held (put flagged)) :=
      goes.trans (congrArg fired (excursionAction_sets lot' h))
    refine ⟨?_, fun quiet => ?_, fun h => ⟨?_, ?_⟩, fun h same => ?_, fun h changed elsewhere => ?_,
      fun h changed narrow here => ?_⟩
    · rw [goes]
      exact (mem_rawSet_raiseEvent .automation .excursion _ _ (by decide) rfl).mpr (.inl rfl)
    · rw [goes, excursionAction_none lot' quiet]
      exact ⟨rfl, lot'⟩
    · rw [holding h]
      exact tightenHold_lot i flagged held _
    · rw [holding h]
      exact (mem_rawSet_raiseEvent .automation .excursion _ _ (by decide) rfl).mpr
        (.inr ((mem_rawSet_raiseEvent .automation .holdSet _ _ (by decide) rfl).mpr (.inl rfl)))
    · rw [holding h, tightenHold_same i _ (old := flagged) (new := held) same.symm, twice]
    · rw [holding h, tightenHold_raises (c := put flagged) (old := flagged) (new := held) changed.symm elsewhere, twice]
    · rw [holding h, tightenHold_pauses (c := put flagged) (old := flagged) (new := held) changed.symm narrow here, twice]

end Sys2Proof.Machine
end

section
/-! The capture log through resolutions, walks and focus requests, and an issue seen from any site (R114, R118, R119, R130). -/

namespace Sys2Proof.Machine

/-! ### What leaves the capture log, the credits and the capture counter -/

/-- `d` has the capture log, the credits and the next capture number of `c`. -/
structure CapturesKept (c d : Part) : Prop where
  log : d.captureLog = c.captureLog
  credits : d.credits = c.credits
  next : d.nextCapture = c.nextCapture

namespace CapturesKept

theorem refl (c : Part) : CapturesKept c c := ⟨rfl, rfl, rfl⟩

theorem trans {a b c : Part} (h : CapturesKept a b) (k : CapturesKept b c) : CapturesKept a c :=
  ⟨k.log.trans h.log, k.credits.trans h.credits, k.next.trans h.next⟩

/-- The records carry over from a part that has the same. -/
theorem from_same {a b c : Part} (k : CapturesKept b c) (log : b.captureLog = a.captureLog) (credits : b.credits = a.credits)
    (next : b.nextCapture = a.nextCapture) : CapturesKept a c :=
  trans ⟨log, credits, next⟩ k

end CapturesKept

theorem settle_captures (c : Part) : CapturesKept c (settle c) :=
  let keeps := settle_keeps c
  ⟨keeps.captureLog, keeps.credits, keeps.nextCapture⟩

theorem updateLot_captures (i : LoadPort) (f : Lot → Lot) (c : Part) : CapturesKept c (updateLot i f c) := by
  rw [updateLot_rest]
  exact ⟨rfl, rfl, rfl⟩

theorem updateSite_captures (t n : Nat) (f : SiteEntry → SiteEntry) (c : Part) : CapturesKept c (updateSite t n f c) := by
  rw [updateSite_rest]
  exact ⟨rfl, rfl, rfl⟩

theorem returnToPending_captures (t n : Nat) (c : Part) : CapturesKept c (returnToPending t n c) :=
  (updateSite_captures t n _ c).trans ⟨rfl, rfl, rfl⟩

theorem pauseSession_captures (c : Part) : CapturesKept c (pauseSession c) := by
  have paused (d : Part) : CapturesKept d (setSessionState .paused d) := ⟨rfl, rfl, rfl⟩
  unfold pauseSession
  split
  · split
    · exact ⟨rfl, rfl, rfl⟩
    · exact ((returnToPending_captures _ _ (abandonFocus c)).trans (paused _)).from_same rfl rfl rfl
    · exact ((returnToPending_captures _ _ (withdrawWaiting c)).trans (paused _)).from_same rfl rfl rfl
    · exact ⟨rfl, rfl, rfl⟩
    · exact paused c
  · exact .refl c

theorem tightenHold_captures (i : LoadPort) (old new : Lot) (c : Part) : CapturesKept c (tightenHold i old new c) := by
  by_cases same : old.hold = new.hold
  · rw [tightenHold_same i c same]
    exact ⟨rfl, rfl, rfl⟩
  · by_cases reaches : new.hold = .holdN ∧ c.sessionLot = some i
    · rw [tightenHold_pauses same reaches.1 reaches.2]
      exact (pauseSession_captures _).from_same rfl rfl rfl
    · rw [tightenHold_raises same (not_and_or.mp reaches)]
      exact ⟨rfl, rfl, rfl⟩

theorem recordExcursionHold_captures (i : LoadPort) (scope : Scope) (c : Part) :
    CapturesKept c (recordExcursionHold i scope c) := by
  unfold recordExcursionHold
  split
  · exact .refl c
  · split
    · exact (tightenHold_captures _ _ _ c).trans ⟨rfl, rfl, rfl⟩
    · exact .refl c

theorem excursionAction_captures (i : LoadPort) (a : ExcursionAction) (c : Part) :
    CapturesKept c (excursionAction i a c) := by
  cases a with
  | note => exact .refl c
  | sample => exact .refl c
  | holdW => exact recordExcursionHold_captures i .w c
  | holdN => exact recordExcursionHold_captures i .n c

theorem fireEntry_captures (i : LoadPort) (slot pos : Nat) (x : ExcursionEntry) (c : Part) :
    CapturesKept c (fireEntry i slot pos x c) :=
  (updateLot_captures i _ c).trans ((excursionAction_captures i x.action _).trans ⟨rfl, rfl, rfl⟩)

theorem compareEntries_captures (i : LoadPort) (slot cls count : Nat) (xs : List ExcursionEntry) :
    ∀ (pos : Nat) (c : Part), CapturesKept c (compareEntries i slot cls count pos xs c) := by
  induction xs with
  | nil => exact fun _ c => .refl c
  | cons x rest ih =>
    intro pos c
    unfold compareEntries
    split
    · exact (fireEntry_captures i slot pos x c).trans (ih _ _)
    · exact ih _ c

theorem countResolution_captures (i : LoadPort) (slot : Nat) (r : Resolution) (c : Part) :
    CapturesKept c (countResolution i slot r c) := by
  have counted : CapturesKept c (updateLot i (fun l =>
      { l.updateEntry slot (fun e => { e with counts := countWafer r e.counts }) with counters := countLot r l.counters })
      (countStat r.statistic c)) := (updateLot_captures _ _ _).from_same rfl rfl rfl
  unfold countResolution
  dsimp only
  split
  · split
    · exact counted
    · exact counted.trans (compareEntries_captures _ _ _ _ _ _ _)
  · exact counted

theorem resolveSite_captures (t n : Nat) (r : Resolution) (c : Part) : CapturesKept c (resolveSite t n r c) := by
  unfold resolveSite
  split
  · exact .refl c
  · exact (countResolution_captures _ _ _ _).from_same rfl rfl rfl

theorem sessionEnd_captures (c : Part) : CapturesKept c (sessionEnd c) := by
  unfold sessionEnd
  split
  · exact .refl c
  · dsimp only
    split <;> exact ⟨rfl, rfl, rfl⟩

theorem takeFirst_captures (t : Nat) (bound : Option Nat) (ks : List Candidate) :
    ∀ c, CapturesKept c (takeFirst t bound ks c) := by
  induction ks with
  | nil => exact sessionEnd_captures
  | cons k rest ih =>
    intro c
    have taken : CapturesKept c (takeSite t k c) := (updateSite_captures _ _ _ c).trans ⟨rfl, rfl, rfl⟩
    unfold takeFirst
    split
    · exact taken
    · split
      · exact (resolveSite_captures _ _ _ c).trans (ih _)
      · exact taken

theorem walk_captures (c : Part) : CapturesKept c (walk c) := by
  unfold walk
  split
  · exact .refl c
  · split
    · exact .refl c
    · exact takeFirst_captures _ _ _ c

theorem leaveFlight_captures (c : Part) : CapturesKept c (leaveFlight c) := by
  unfold leaveFlight
  dsimp only
  split
  · exact (walk_captures _).from_same rfl rfl rfl
  · exact ⟨rfl, rfl, rfl⟩
  · exact ⟨rfl, rfl, rfl⟩

theorem siteLeft_captures (t n : Nat) (c : Part) : CapturesKept c (siteLeft t n c) := by
  unfold siteLeft
  split
  · exact leaveFlight_captures c
  · exact .refl c

theorem startConversion_captures (z : Nat) (c : Part) : CapturesKept c (startConversion z c) := by
  rw [startConversion_eq]
  exact ⟨rfl, rfl, rfl⟩

theorem beginCheck_captures (z ref : Nat) (r : FocusRequest) (c : Part) : CapturesKept c (beginCheck z ref r c) :=
  (startConversion_captures z c).trans ⟨rfl, rfl, rfl⟩

theorem beginSweep_captures (stage : FocusStage) (centre : Nat) (r : FocusRequest) (c : Part) :
    CapturesKept c (beginSweep stage centre r c) := by
  rw [beginSweep_eq]
  exact ⟨rfl, rfl, rfl⟩

theorem takeFocusRequest_captures (kind : FocusKind) (x y : Int) (z : Nat) (c : Part) :
    CapturesKept c (takeFocusRequest kind x y z c) := by
  have free : CapturesKept c (if c.focusRequest.isSome then abandonFocus c else c) := by
    split <;> exact ⟨rfl, rfl, rfl⟩
  unfold takeFocusRequest
  dsimp only
  generalize (if c.focusRequest.isSome then abandonFocus c else c) = d at free ⊢
  refine free.trans ?_
  split
  · split
    · exact beginSweep_captures _ _ _ d
    · split
      · exact beginCheck_captures _ _ _ d
      · exact beginSweep_captures _ _ _ d
  · exact beginCheck_captures _ _ _ d
  · exact beginSweep_captures _ _ _ d
  · exact beginSweep_captures _ _ _ d

/-! ### An issue seen from any site -/

/-- A site outside those that change is read as before. -/
theorem OnlySites.site? {j : LoadPort} {k : Nat} {ns : List Nat} {c d : Part} (only : OnlySites j k ns c d)
    (wafers : d.wafers = c.wafers) {t n : Nat} {i : LoadPort} {slot : Nat} {e : SiteEntry}
    (site : c.site? t n = some (i, slot, e)) (elsewhere : (i, slot) ≠ (j, k) ∨ n ∉ ns) :
    d.site? t n = some (i, slot, e) := by
  obtain ⟨w, wafer, rfl, rfl, _, _⟩ := site?_some c t n i slot e site
  have wafer' : d.wafer? t = some w := by rw [Part.wafer?, wafers]; exact wafer
  have entry : d.entryAt w.lot w.slot n = c.entryAt w.lot w.slot n := by
    by_cases here : (w.lot, w.slot) = (j, k)
    · obtain ⟨rfl, rfl⟩ := Prod.mk.inj here
      exact only.2 n (elsewhere.resolve_left fun h => h rfl)
    · have list := only.1.1 w.lot w.slot here
      simp only [Part.entryAt, Part.entries, list]
  rw [site?_entryAt d t n w wafer', entry, ← site?_entryAt c t n w wafer, site]

/-- A site's entry once its capture is issued (R119). -/
def SiteEntry.issued (number : Half) (e : SiteEntry) : SiteEntry :=
  { e with state := .capturing, captureNo := some number }

theorem issueCapture_log (w : WaitingSite) (i : LoadPort) (slot : Nat) (e : SiteEntry) (c : Part) :
    (issueCapture w i slot e c).captureLog = c.captureLog ++ [issuedRecord c w i e] ∧
      (issueCapture w i slot e c).wafers = c.wafers ∧ (issueCapture w i slot e c).session = c.session ∧
      (issueCapture w i slot e c).lists = (updateEntry i slot e.number
        (SiteEntry.issued c.nextCapture) c).lists := by
  unfold issueCapture
  dsimp only
  rw [updateLot_rest]
  exact ⟨rfl, rfl, rfl, rfl⟩

/-- Whether it issues or not: the log gains at most the next capture's record, and the session stays. -/
theorem tryIssue_log (c : Part) :
    ((tryIssue c).captureLog = c.captureLog ∨
      ∃ x, (tryIssue c).captureLog = c.captureLog ++ [x] ∧ x.number = c.nextCapture) ∧
    (tryIssue c).session = c.session := by
  unfold tryIssue
  split
  · exact ⟨.inl rfl, rfl⟩
  · rename_i w _
    split
    · split
      · exact ⟨.inl rfl, rfl⟩
      · rename_i i slot e _
        obtain ⟨log, _, session, _⟩ := issueCapture_log w i slot e c
        exact ⟨.inr ⟨_, log, rfl⟩, session⟩
    · exact ⟨.inl rfl, rfl⟩

/-- A site after an issue: as before, or, when it was the one issued, CAPTURING with the capture's number. -/
theorem tryIssue_site {c : Part} {t n : Nat} {i : LoadPort} {slot : Nat} {e : SiteEntry}
    (site : c.site? t n = some (i, slot, e)) : ∃ e', (tryIssue c).site? t n = some (i, slot, e') ∧
      (e' = e ∨ e' = e.issued c.nextCapture) := by
  unfold tryIssue
  split
  · exact ⟨e, site, .inl rfl⟩
  · rename_i w _
    split
    · split
      · exact ⟨e, site, .inl rfl⟩
      · rename_i j k x _
        obtain ⟨_, wafers, _, lists⟩ := issueCapture_log w j k x c
        have read : (issueCapture w j k x c).site? t n = (updateEntry j k x.number
            (SiteEntry.issued c.nextCapture) c).site? t n :=
          site?_congr _ (updateEntry j k x.number (SiteEntry.issued c.nextCapture) c) wafers lists t n
        rw [read]
        by_cases here : (i, slot) = (j, k) ∧ n = x.number
        · obtain ⟨same, number⟩ := here
          obtain ⟨rfl, rfl⟩ := Prod.mk.inj same
          rw [← number, updateEntry_site _ site]
          exact ⟨_, (updateSite_found c t n (SiteEntry.issued c.nextCapture) i slot e (fun _ => rfl) site).1, .inr rfl⟩
        · have only := updateEntry_onlySites j k x.number
            (SiteEntry.issued c.nextCapture) c (fun _ => rfl)
          refine ⟨e, only.site? rfl site ?_, .inl rfl⟩
          simpa [or_iff_not_imp_left, not_and_or] using here
    · exact ⟨e, site, .inl rfl⟩

/-! ### CLASS_POST (R127, R128) -/

theorem capture?_none {c : Part} {number : Half} (missing : ∀ r ∈ c.captureLog, r.number ≠ number) :
    c.capture? number = none :=
  List.find?_eq_none.mpr (by simpa using missing)

theorem capture?_number {c : Part} {number : Half} {r : CaptureRecord} (found : c.capture? number = some r) :
    r.number = number := by
  simpa using List.find?_some found

theorem resolveEntry_resolved (r : Resolution) (e : SiteEntry) : (resolveEntry r e).state.isResolved = true := by
  cases r <;> rfl

/-- A site that is resolved reads what it carries, and counting it changes no more of it. -/
theorem resolveSite_site {c : Part} {t n : Nat} {i : LoadPort} {slot : Nat} {e : SiteEntry} (r : Resolution)
    (site : c.site? t n = some (i, slot, e)) : (resolveSite t n r c).site? t n = some (i, slot, resolveEntry r e) := by
  obtain ⟨lists, resolved, _, found⟩ := resolveSite_spec r site
  rw [resolved]
  exact (countResolution_resolved i slot r _ t n i slot _ found (resolveEntry_resolved r e)).site.trans found

/-- Resolving takes the same entry from a site whether it was just issued or not. -/
theorem resolveEntry_issued (r : Resolution) (e : SiteEntry) (n : Half) :
    resolveEntry r (e.issued n) = resolveEntry r e := by
  cases r <;> rfl

/-- A site resolved after the waiting site took a place. -/
theorem resolveSite_tryIssue {c : Part} {t n : Nat} {i : LoadPort} {slot : Nat} {e : SiteEntry} (r : Resolution)
    (site : c.site? t n = some (i, slot, e)) :
    (resolveSite t n r (tryIssue c)).site? t n = some (i, slot, resolveEntry r e) := by
  obtain ⟨e', found, rfl | rfl⟩ := tryIssue_site site
  · exact resolveSite_site r found
  · rw [resolveSite_site r found, resolveEntry_issued]

theorem doClassPost_bad {number : Half} {cls conf : Byte} {c : Part} (bad : ¬ (cls.toNat ≤ 15 ∧ conf.toNat ≤ 100)) :
    doClassPost number cls conf c = ⟨c, .badField, .empty⟩ := by
  simp only [doClassPost, if_neg bad]
  rfl

theorem doClassPost_late {number : Half} {cls conf : Byte} {c : Part} (fits : cls.toNat ≤ 15 ∧ conf.toNat ≤ 100)
    (missing : ∀ r ∈ c.captureLog, r.number ≠ number) :
    doClassPost number cls conf c = ⟨countStat .latePosts c, .late, .empty⟩ := by
  simp only [doClassPost, if_pos fits, capture?_none missing]
  rfl

theorem doClassPost_found {number : Half} {cls conf : Byte} {c : Part} {r : CaptureRecord}
    (fits : cls.toNat ≤ 15 ∧ conf.toNat ≤ 100) (found : c.capture? number = some r) :
    doClassPost number cls conf c = if r.state = .doneGood then
      ⟨settle (resolveSite r.wafer r.site (.classified cls.toNat conf.toNat) (freeRecord number c)), .ok, .empty⟩
      else ⟨c, .order, .empty⟩ := by
  simp only [doClassPost, if_pos fits, found]
  rfl

/-- Settles O53. -/
theorem classIsPosted : Obligations.ClassIsPosted := by
  intro s p tag number cls conf now out answer good
  have answers {c : Part} {st : Status} (h : doClassPost number cls conf s.part = ⟨c, st, .empty⟩) :
      out = .next (answer c st) := exec_answers (r := .classPost number cls conf) now h
  refine ⟨fun bad => answers (doClassPost_bad bad), fun fits missing => answers (doClassPost_late fits missing),
    fun r fits found => ⟨fun early => answers ((doClassPost_found fits found).trans (if_neg early)), fun done => ?_⟩⟩
  intro kept freed d
  refine ⟨answers ((doClassPost_found fits found).trans (if_pos done)), ?_, fun idle => ?_, (tryIssue_log _).1,
    fun i slot e site => ?_⟩
  · exact ((resolveSite_captures _ _ _ freed).trans (settle_captures d)).log
  · exact congrArg Part.captureLog (tryIssue_stays (c := { s.part with captureLog := kept }) (.inl idle))
  · exact resolveSite_tryIssue (.classified cls.toNat conf.toNat) site

end Sys2Proof.Machine
end

section
/-! The timers of the Capture Exchange (R120, R126, R129). -/

namespace Sys2Proof.Machine

/-! ### The focus hold timer (R120) -/

theorem expireFocusHold_stays {c : Part} (stopped : ∀ w, c.waitingSite = some w → w.timer = none) :
    expireFocusHold c = c := by
  unfold expireFocusHold
  split
  · rfl
  · rename_i w waiting
    rw [stopped w waiting]
    rfl

theorem expireFocusHold_expires {c : Part} {w : WaitingSite} {ms : Nat} {i : LoadPort} {slot : Nat} {e : SiteEntry}
    (waiting : c.waitingSite = some w) (running : w.timer = some ms) (site : c.site? w.wafer w.site = some (i, slot, e)) :
    expireFocusHold c = takeFocusRequest .recheck e.x e.y (e.acceptedZ.getD 0)
      (updateSite w.wafer w.site (fun e => { e with state := .focusing }) { c with waitingSite := none }) := by
  have site : Part.site? { c with waitingSite := none } w.wafer w.site = some (i, slot, e) := site
  simp only [expireFocusHold, waiting, running, Option.isNone_some, Bool.false_eq_true, if_false, site]

/-- The reference sharpness a recheck is made against (R99). -/
def Part.referenceSharpness (c : Part) : Nat := (c.focusReference.map (·.sharpness)).getD 0

/-- A request in progress is abandoned before another is taken (R111). -/
def Part.freshFocus (c : Part) : Part := if c.focusRequest.isSome then abandonFocus c else c

theorem freshFocus_reference (c : Part) : c.freshFocus.focusReference = c.focusReference := by
  unfold Part.freshFocus
  split <;> rfl

theorem freshFocus_none {c : Part} (free : c.focusRequest = none) : c.freshFocus = c := by
  rw [Part.freshFocus, free]
  rfl

theorem takeFocusRequest_recheck (x y : Int) (z : Nat) (c : Part) : takeFocusRequest .recheck x y z c =
    beginCheck z c.referenceSharpness (newFocusRequest .recheck x y) c.freshFocus := by
  have taken : takeFocusRequest .recheck x y z c =
      beginCheck z c.freshFocus.referenceSharpness (newFocusRequest .recheck x y) c.freshFocus := by
    unfold Part.referenceSharpness
    cases reference : c.freshFocus.focusReference <;> simp only [takeFocusRequest] <;> rw [← Part.freshFocus, reference] <;> rfl
  rw [taken, Part.referenceSharpness, freshFocus_reference, Part.referenceSharpness]

/-- A recheck with no request in progress and the converter idle. -/
theorem takeFocusRequest_recheck_idle {c : Part} (x y : Int) (z : Nat) (free : c.focusRequest = none)
    (idle : c.converter = .idle) : takeFocusRequest .recheck x y z c = { c with
      focusRequest := some { kind := .recheck, x, y, stage := .check, checkZ := some z, checkRef := some c.referenceSharpness
                             centre := none, step := 0, counts := [], drives := [], restarts := 0 }
      drive := z
      converter := if z = c.drive then .zero c.sessionRecipe.resolution
        else .settling c.sessionRecipe.resolution c.settings.settleTime } := by
  rw [takeFocusRequest_recheck, freshFocus_none free, beginCheck, startConversion_eq]
  by_cases same : z = c.drive
  · rw [if_neg (not_not.mpr same), if_pos same, idle]
    rfl
  · rw [if_pos same, if_neg same]
    rfl

/-! ### Resolutions that are no classification -/

/-- A resolution that is no classification changes the counts alone besides the site. -/
theorem countResolution_rest (i : LoadPort) (slot : Nat) (r : Resolution) (c : Part)
    (plain : ∀ cls conf, r ≠ .classified cls conf) :
    countResolution i slot r c =
      { c with stats := c.stats.set r.statistic (c.stats.get r.statistic + 1#32), lots := (countResolution i slot r c).lots } := by
  cases r with
  | classified cls conf => exact absurd rfl (plain cls conf)
  | skipped why => exact updateLot_rest i _ (countStat .sitesSkipped c)
  | failed why => exact updateLot_rest i _ (countStat .sitesFailed c)
  | unclassified => exact updateLot_rest i _ (countStat .sitesUnclassified c)

theorem resolveSite_plain {c : Part} {t n : Nat} {i : LoadPort} {slot : Nat} {e : SiteEntry} {r : Resolution}
    (site : c.site? t n = some (i, slot, e)) (plain : ∀ cls conf, r ≠ .classified cls conf) :
    OnlySites i slot [n] c (resolveSite t n r c) := by
  obtain ⟨lists, resolved, only, _⟩ := resolveSite_spec r site
  refine onlySites_congr i slot [n] _ _ _ _ rfl ?_ only
  rw [resolved, countResolution_rest i slot r _ plain]

theorem resolveSite_session (t n : Nat) (r : Resolution) (c : Part) (plain : ∀ cls conf, r ≠ .classified cls conf) :
    (resolveSite t n r c).session = c.session := by
  unfold resolveSite
  split
  · rfl
  · rw [countResolution_rest _ _ r _ plain]
    rfl

/-! ### The capture-done and class-wait timers (R126, R129) -/

theorem expireCapture_missing {c : Part} {number : Half} (missing : ∀ r ∈ c.captureLog, r.number ≠ number) :
    expireCapture number c = c := by
  simp only [expireCapture, capture?_none missing]

theorem expireClassWait_missing {c : Part} {number : Half} (missing : ∀ r ∈ c.captureLog, r.number ≠ number) :
    expireClassWait number c = c := by
  simp only [expireClassWait, capture?_none missing]

theorem expireCapture_found {c : Part} {number : Half} {r : CaptureRecord} (found : c.capture? number = some r) :
    expireCapture number c = if r.state = .doneGood then c else settle (siteLeft r.wafer r.site
      (recordError .captureTimeout (.captureTimeout r.wafer r.site r.number r.state)
        (resolveSite r.wafer r.site (.failed .captureTimeout) (freeRecord number c)))) := by
  simp only [expireCapture, found]

theorem expireClassWait_found {c : Part} {number : Half} {r : CaptureRecord} (found : c.capture? number = some r) :
    expireClassWait number c =
      if r.state = .doneGood then settle (resolveSite r.wafer r.site .unclassified (freeRecord number c)) else c := by
  simp only [expireClassWait, found]

/-- Settles O55. -/
theorem captureTimersExpire : Obligations.CaptureTimersExpire := by
  intro s number
  have next {f : Part → Part} {i : Instr} {c : Part} (runs : exec i s = .next (onPart f s)) (h : f s.part = c) :
      exec i s = .next (withPart s c) := by
    rw [runs, ← h]
    rfl
  have stays {f : Part → Part} {i : Instr} (runs : exec i s = .next (onPart f s)) (h : f s.part = s.part) :
      exec i s = .next s := next runs h
  refine ⟨fun w ms i slot e waiting running site => ?_, fun stopped => stays rfl (expireFocusHold_stays stopped),
    fun missing => ⟨stays rfl (expireCapture_missing missing), stays rfl (expireClassWait_missing missing)⟩,
    fun r found => ?_⟩
  · obtain ⟨lists, rewritten, read, only⟩ := updateSite_lists (c := { s.part with waitingSite := none })
      (fun e => { e with state := .focusing }) (fun _ => rfl) site
    refine ⟨lists, read, only, next rfl ?_, fun free idle => takeFocusRequest_recheck_idle _ _ _ free idle⟩
    rw [expireFocusHold_expires waiting running site, rewritten]
  · intro kept freed failed unclassified landed inFlight out
    have expired := expireCapture_found found
    have leaves := siteLeft_leaves r.wafer r.site failed
    have session : failed.session = s.part.session :=
      (resolveSite_session _ _ (.failed .captureTimeout) freed nofun).trans (tryIssue_log { s.part with captureLog := kept }).2
    have times_out {d : Part} (live : r.state ≠ .doneGood) (h : siteLeft r.wafer r.site failed = d) :
        out = .next (withPart s (settle d)) :=
      next rfl (expired.trans ((if_neg live).trans (congrArg settle h)))
    obtain ⟨elsewhere, here⟩ := leaves
    have wafer_iff (x : Option Nat) : failed.session.wafer = x ↔ s.part.session.wafer = x := by rw [session]
    have flying_iff (x : Option Nat) : failed.session.inFlight = x ↔ s.part.session.inFlight = x := by rw [session]
    have state_iff (x : SessionState) : failed.session.state = x ↔ s.part.session.state = x := by rw [session]
    have here (h : inFlight) := here ((wafer_iff _).mpr h.1) ((flying_iff _).mpr h.2)
    refine ⟨(tryIssue_log _).1, fun i slot e site => ?_, fun live => ⟨?_, fun away => ?_, fun flies active => ?_,
      fun flies pausing => ?_, fun flies not_active not_pausing => ?_⟩, fun done => ⟨?_, ?_⟩⟩
    · obtain ⟨e', freed_site, _⟩ := tryIssue_site (c := { s.part with captureLog := kept }) site
      exact ⟨resolveSite_tryIssue (c := { s.part with captureLog := kept }) (.failed .captureTimeout) site,
        resolveSite_tryIssue (c := { s.part with captureLog := kept }) .unclassified site,
        resolveSite_plain freed_site nofun, resolveSite_plain freed_site nofun⟩
    · exact stays rfl ((expireClassWait_found found).trans (if_neg live))
    · exact times_out live (elsewhere fun h => away ⟨(wafer_iff _).mp h.1, (flying_iff _).mp h.2⟩)
    · exact times_out live ((here flies).1 ((state_iff _).mpr active))
    · exact times_out live ((here flies).2.1 ((state_iff _).mpr pausing))
    · exact times_out live ((here flies).2.2 (mt (state_iff _).mp not_active) (mt (state_iff _).mp not_pausing))
    · exact stays rfl (expired.trans (if_pos done))
    · exact next rfl ((expireClassWait_found found).trans (if_pos done))

end Sys2Proof.Machine
end

section
/-! CAPTURE_DONE (R123 to R125). -/

namespace Sys2Proof.Machine

/-! ### Which answer (R123) -/

theorem doneResult_bad {b : Byte} (bad : 1 < b.toNat) : doneResultOf b = none := by
  revert b
  decide

theorem byte_le_one {b : Byte} (small : b.toNat ≤ 1) : b = 0#8 ∨ b = 1#8 := by
  revert b
  decide

theorem doCaptureDone_bad {number : Half} {b : Byte} (c : Part) (bad : 1 < b.toNat) :
    doCaptureDone number b c = ⟨c, .badField, .empty⟩ := by
  simp only [doCaptureDone, doneResult_bad bad]
  rfl

theorem doCaptureDone_late {number : Half} {b : Byte} {c : Part} (small : b.toNat ≤ 1)
    (missing : ∀ r ∈ c.captureLog, r.number ≠ number) :
    doCaptureDone number b c = ⟨countStat .latePosts c, .late, .empty⟩ := by
  obtain rfl | rfl := byte_le_one small <;> simp only [doCaptureDone, capture?_none missing] <;> rfl

theorem doCaptureDone_order {number : Half} {b : Byte} {c : Part} {r : CaptureRecord} (small : b.toNat ≤ 1)
    (found : c.capture? number = some r) (early : r.state ≠ .fetched) :
    doCaptureDone number b c = ⟨c, .order, .empty⟩ := by
  obtain rfl | rfl := byte_le_one small <;> simp only [doCaptureDone, found, if_neg early] <;> rfl

theorem doCaptureDone_good {number : Half} {c : Part} {r : CaptureRecord} (found : c.capture? number = some r)
    (fetched : r.state = .fetched) : doCaptureDone number 0#8 c = ⟨settle (doneGood r c), .ok, .empty⟩ := by
  simp only [doCaptureDone, found, if_pos fetched]
  rfl

theorem doCaptureDone_reject {number : Half} {c : Part} {r : CaptureRecord} (found : c.capture? number = some r)
    (fetched : r.state = .fetched) : doCaptureDone number 1#8 c = ⟨settle (doneReject r c), .ok, .empty⟩ := by
  simp only [doCaptureDone, found, if_pos fetched]
  rfl

/-! ### GOOD (R124) -/

/-- The capture log after a DONE with GOOD. -/
def goodLog (r : CaptureRecord) (c : Part) : List CaptureRecord :=
  c.captureLog.map (fun x => if x.number = r.number then
    { x with state := .doneGood, timer := (c.waferRecipe r.wafer).classWait * 1000 } else x)

theorem doneGood_eq (r : CaptureRecord) (c : Part) : doneGood r c = siteLeft r.wafer r.site
    (updateSite r.wafer r.site (fun e => { e with state := .captured }) { c with captureLog := goodLog r c }) := by
  unfold doneGood updateCapture goodLog
  simp only [beq_iff_eq]

theorem doneGood_captures (r : CaptureRecord) (c : Part) : CapturesKept { c with captureLog := goodLog r c } (doneGood r c) := by
  rw [doneGood_eq]
  exact (updateSite_captures _ _ _ _).trans (siteLeft_captures _ _ _)

theorem doneGood_site {r : CaptureRecord} {c : Part} {i : LoadPort} {slot : Nat} {e : SiteEntry}
    (site : c.site? r.wafer r.site = some (i, slot, e)) : ∃ lists : List RevisitList,
      let captured := { c with captureLog := goodLog r c, lists := lists }
      captured.site? r.wafer r.site = some (i, slot, { e with state := .captured }) ∧
      OnlySites i slot [r.site] c captured ∧ LeavesFlight r.wafer r.site captured (doneGood r c) := by
  obtain ⟨lists, rewritten, found, only⟩ := updateSite_lists (c := { c with captureLog := goodLog r c })
    (fun e => { e with state := .captured }) (fun _ => rfl) site
  refine ⟨lists, found, only, ?_⟩
  rw [doneGood_eq, rewritten]
  exact siteLeft_leaves _ _ _

/-! ### REJECT (R81, R85, R87, R125) -/

theorem countReject_captures (t : Nat) (c : Part) : CapturesKept c (countReject t c) := by
  unfold countReject
  split
  · exact ⟨rfl, rfl, rfl⟩
  · exact (updateLot_captures _ _ _).from_same rfl rfl rfl

theorem retryLive_active (r : CaptureRecord) (e : SiteEntry) {c : Part} (active : c.session.state = .active) :
    retryLive r e c = takeFocusRequest .forced e.x e.y r.z c := by
  simp only [retryLive, active]

theorem retryLive_pausing (r : CaptureRecord) (e : SiteEntry) {c : Part} (pausing : c.session.state = .pausing) :
    retryLive r e c = leaveFlight (returnToPending r.wafer r.site c) := by
  simp only [retryLive, pausing]

theorem retryLive_stays (r : CaptureRecord) (e : SiteEntry) {c : Part} (not_active : c.session.state ≠ .active)
    (not_pausing : c.session.state ≠ .pausing) : retryLive r e c = c := by
  unfold retryLive
  split
  · rename_i active
    exact absurd active not_active
  · rename_i pausing
    exact absurd pausing not_pausing
  · rfl

theorem retryLive_captures (r : CaptureRecord) (e : SiteEntry) (c : Part) : CapturesKept c (retryLive r e c) := by
  unfold retryLive
  split
  · exact takeFocusRequest_captures _ _ _ _ c
  · exact (returnToPending_captures _ _ c).trans (leaveFlight_captures _)
  · exact .refl c

theorem retryRejected_captures (r : CaptureRecord) (e : SiteEntry) (c : Part) : CapturesKept c (retryRejected r e c) := by
  rw [retryRejected_eq]
  have focusing := updateSite_captures r.wafer r.site (fun e => { e with state := .focusing }) c
  dsimp only
  split
  · exact focusing.trans ((resolveSite_captures _ _ _ _).trans (siteLeft_captures _ _ _))
  · exact focusing.trans (retryLive_captures _ _ _)

/-- A rejection frees its record, and nothing after that changes the log. -/
theorem doneReject_captures (r : CaptureRecord) (c : Part) : CapturesKept (freeRecord r.number c) (doneReject r c) := by
  rw [doneReject_eq]
  have rejected : CapturesKept (freeRecord r.number c) (rejectRecord r c) :=
    (countReject_captures _ _).trans (updateSite_captures _ _ _ _)
  dsimp only
  split
  · exact rejected
  · split
    · exact rejected.trans (retryRejected_captures _ _ _)
    · exact rejected.trans ((resolveSite_captures _ _ _ _).trans (siteLeft_captures _ _ _))

/-- The part after a rejection is counted, with the lists as given. -/
def rejectedPart (i : LoadPort) (l : Lot) (c : Part) (lists : List RevisitList) : Part :=
  { c with
    lists := lists
    stats := c.stats.set .capturesRejected (c.stats.get .capturesRejected + 1#32)
    lots := c.lots.set i (some { l with counters :=
      { l.counters with rejections := min (l.counters.rejections + 1) 4294967295 } }) }

/-- A site after a rejected capture (R125). -/
def SiteEntry.rejected (e : SiteEntry) : SiteEntry :=
  { e with attempts := e.attempts + 1, acceptedZ := none, captureNo := none }

theorem rejectedPart_lot (i : LoadPort) (l : Lot) (c : Part) (lists : List RevisitList) :
    (rejectedPart i l c lists).lot? i =
      some { l with counters := { l.counters with rejections := min (l.counters.rejections + 1) 4294967295 } } :=
  PerLoadPort.get_set_same _ _ _

theorem lotOfWafer_site {c : Part} {t n : Nat} {i : LoadPort} {slot : Nat} {e : SiteEntry}
    (site : c.site? t n = some (i, slot, e)) : c.lotOfWafer t = some i := by
  obtain ⟨w, wafer, lot, _⟩ := site?_some c t n i slot e site
  rw [Part.lotOfWafer, wafer, ← lot]
  rfl

theorem rejectRecord_spec {r : CaptureRecord} {c : Part} {i : LoadPort} {slot : Nat} {e : SiteEntry} {l : Lot}
    (site : (freeRecord r.number c).site? r.wafer r.site = some (i, slot, e)) (lot : (freeRecord r.number c).lot? i = some l) :
    ∃ lists : List RevisitList, rejectRecord r c = rejectedPart i l (freeRecord r.number c) lists ∧
      (rejectedPart i l (freeRecord r.number c) lists).site? r.wafer r.site = some (i, slot, e.rejected) ∧
      OnlySites i slot [r.site] (freeRecord r.number c) (rejectedPart i l (freeRecord r.number c) lists) := by
  unfold rejectRecord
  generalize freeRecord r.number c = freed at site lot ⊢
  have counted : countReject r.wafer freed = rejectedPart i l freed freed.lists := by
    have lot : (countStat .capturesRejected freed).lot? i = some l := lot
    simp only [countReject, lotOfWafer_site site, countRejection, updateLot_found _ lot]
    rfl
  rw [counted]
  exact updateSite_lists SiteEntry.rejected (fun _ => rfl) (c := rejectedPart i l freed freed.lists) site

theorem rejectedPart_recipe {i : LoadPort} {l : Lot} {c : Part} {t n : Nat} {slot : Nat} {e : SiteEntry}
    {lists : List RevisitList} (site : (rejectedPart i l c lists).site? t n = some (i, slot, e)) (lot : c.lot? i = some l) :
    (rejectedPart i l c lists).waferRecipe t = c.recipeOf i := by
  rw [Part.waferRecipe, lotOfWafer_site site]
  dsimp only
  rw [Part.recipeOf, rejectedPart_lot, Part.recipeOf, lot]
  rfl

theorem rejectedPart_aborted {i : LoadPort} {l : Lot} {c : Part} {t n : Nat} {slot : Nat} {e : SiteEntry}
    {lists : List RevisitList} (site : (rejectedPart i l c lists).site? t n = some (i, slot, e)) :
    (rejectedPart i l c lists).waferAborted t = l.aborted := by
  rw [Part.waferAborted, lotOfWafer_site site]
  dsimp only
  rw [Part.lotAborted, rejectedPart_lot]

/-- A rejection at the attempt limit, and below it. -/
theorem doneReject_spec {r : CaptureRecord} {c : Part} {i : LoadPort} {slot : Nat} {e : SiteEntry} {l : Lot}
    (site : (freeRecord r.number c).site? r.wafer r.site = some (i, slot, e)) (lot : (freeRecord r.number c).lot? i = some l) :
    let freed := freeRecord r.number c
    ∃ lists : List RevisitList,
      (rejectedPart i l freed lists).site? r.wafer r.site = some (i, slot, e.rejected) ∧
      OnlySites i slot [r.site] freed (rejectedPart i l freed lists) ∧
      doneReject r c = if e.attempts + 1 < (freed.recipeOf i).attemptLimit then
        retryRejected r e.rejected (rejectedPart i l freed lists)
        else siteLeft r.wafer r.site (resolveSite r.wafer r.site (.failed .captureRejected) (rejectedPart i l freed lists)) := by
  obtain ⟨lists, start, found, only⟩ := rejectRecord_spec site lot
  refine ⟨lists, found, only, ?_⟩
  rw [doneReject_eq, start]
  simp only [found, rejectedPart_recipe found lot]
  rfl

/-- A site tried again below the limit, by its lot and the session. -/
theorem retryRejected_spec {r : CaptureRecord} {i : LoadPort} {l : Lot} {freed : Part} {slot : Nat} {e : SiteEntry}
    {lists : List RevisitList} (site : (rejectedPart i l freed lists).site? r.wafer r.site = some (i, slot, e))
    (only : OnlySites i slot [r.site] freed (rejectedPart i l freed lists)) :
    ∃ lists' : List RevisitList,
      (rejectedPart i l freed lists').site? r.wafer r.site = some (i, slot, { e with state := .focusing }) ∧
      OnlySites i slot [r.site] freed (rejectedPart i l freed lists') ∧
      retryRejected r e (rejectedPart i l freed lists) = if l.aborted then
        siteLeft r.wafer r.site (resolveSite r.wafer r.site (.skipped .aborted) (rejectedPart i l freed lists'))
        else retryLive r e (rejectedPart i l freed lists') := by
  obtain ⟨lists', rewritten, found, only'⟩ := updateSite_lists (fun e => { e with state := .focusing }) (fun _ => rfl) site
  have found : (rejectedPart i l freed lists').site? r.wafer r.site = some (i, slot, { e with state := .focusing }) := found
  refine ⟨lists', found, only.trans only', ?_⟩
  have rewritten : updateSite r.wafer r.site (fun e => { e with state := .focusing }) (rejectedPart i l freed lists) =
      rejectedPart i l freed lists' := rewritten
  rw [retryRejected_eq, rewritten]
  simp only [rejectedPart_aborted found]

/-- A site that a rejection resolves, and what its leaving flight follows. -/
theorem rejectedPart_resolves {t n : Nat} {i : LoadPort} {l : Lot} {freed : Part} {slot : Nat} {e : SiteEntry}
    {lists : List RevisitList} (r : Resolution) (site : (rejectedPart i l freed lists).site? t n = some (i, slot, e))
    (only : OnlySites i slot [n] freed (rejectedPart i l freed lists)) :
    ∃ lists' : List RevisitList,
      (rejectedPart i l freed lists').site? t n = some (i, slot, resolveEntry r e) ∧
      OnlySites i slot [n] freed (rejectedPart i l freed lists') ∧
      LeavesFlight t n (countResolution i slot r (rejectedPart i l freed lists'))
        (siteLeft t n (resolveSite t n r (rejectedPart i l freed lists))) := by
  obtain ⟨lists', resolved, only', found⟩ := resolveSite_spec r site
  refine ⟨lists', found, only.trans only', ?_⟩
  rw [resolved]
  exact siteLeft_leaves _ _ _

/-- A site that goes back to PENDING as its session pauses (R85). -/
theorem rejectedPart_pauses {t n : Nat} {i : LoadPort} {l : Lot} {freed : Part} {slot : Nat} {e : SiteEntry}
    {lists : List RevisitList} (site : (rejectedPart i l freed lists).site? t n = some (i, slot, e))
    (only : OnlySites i slot [n] freed (rejectedPart i l freed lists)) (pausing : freed.session.state = .pausing) :
    ∃ lists' : List RevisitList,
      (rejectedPart i l freed lists').site? t n = some (i, slot, { e with state := .pending, acceptedZ := none }) ∧
      OnlySites i slot [n] freed (rejectedPart i l freed lists') ∧
      leaveFlight (returnToPending t n (rejectedPart i l freed lists)) = { rejectedPart i l freed lists' with
        session := { freed.session with state := .paused, inFlight := none } } := by
  obtain ⟨lists', rewritten, found, only'⟩ := updateSite_lists
    (fun e => { e with state := .pending, acceptedZ := none }) (fun _ => rfl) site
  refine ⟨lists', found, only.trans only', ?_⟩
  have state : (returnToPending t n (rejectedPart i l freed lists)).session.state = .pausing := by
    rw [returnToPending, rewritten]
    exact pausing
  simp only [leaveFlight, state]
  rw [returnToPending, rewritten]
  rfl

/-- Settles O52. -/
theorem captureDoneIsTaken : Obligations.CaptureDoneIsTaken := by
  intro s p tag number b now out answer
  have answers {c : Part} {st : Status} (h : doCaptureDone number b s.part = ⟨c, st, .empty⟩) :
      out = .next (answer c st) := exec_answers (r := .captureDone number b) now h
  refine ⟨fun bad => answers (doCaptureDone_bad _ bad), fun small missing => answers (doCaptureDone_late small missing),
    fun r small found => ?_⟩
  obtain rfl := capture?_number found
  refine ⟨fun early => answers (doCaptureDone_order small found early), fun fetched good => ?_, fun fetched rejected => ?_⟩
  · subst good
    intro d log
    have kept := (doneGood_captures r s.part).trans (settle_captures d)
    exact ⟨answers (doCaptureDone_good found fetched), kept.log, kept.credits, kept.next, fun i slot e => doneGood_site⟩
  · subst rejected
    intro d kept freed
    refine ⟨answers (doCaptureDone_reject found fetched), ((doneReject_captures r s.part).trans (settle_captures d)).log,
      fun idle => tryIssue_stays (c := { s.part with captureLog := kept }) (.inl idle), (tryIssue_log _).1, ?_⟩
    intro i slot e l site lot
    have session : freed.session = s.part.session := (tryIssue_log { s.part with captureLog := kept }).2
    obtain ⟨lists, start, only, done⟩ := doneReject_spec site lot
    by_cases below : e.attempts + 1 < (freed.recipeOf i).attemptLimit
    · obtain ⟨lists', focusing, only', tried⟩ := retryRejected_spec start only
      have tried := (done.trans (if_pos below)).trans tried
      by_cases aborted : l.aborted = true
      · obtain ⟨lists'', skipped, only'', leaves⟩ := rejectedPart_resolves (.skipped .aborted) focusing only'
        rw [if_pos aborted] at tried
        rw [← tried] at leaves
        exact ⟨lists'', only'', fun limit => absurd below limit, fun _ _ => ⟨skipped, leaves⟩,
          fun _ live => absurd aborted (Bool.eq_false_iff.mp live), fun _ live => absurd aborted (Bool.eq_false_iff.mp live),
          fun _ live => absurd aborted (Bool.eq_false_iff.mp live)⟩
      · rw [if_neg aborted] at tried
        have state : (rejectedPart i l freed lists').session.state = s.part.session.state := congrArg Session.state session
        by_cases pausing : s.part.session.state = .pausing
        · obtain ⟨lists'', pending, only'', paused⟩ := rejectedPart_pauses focusing only'
            ((congrArg Session.state session).trans pausing)
          have goes : d = { rejectedPart i l freed lists'' with
              session := { s.part.session with state := .paused, inFlight := none } } := by
            rw [← session]
            exact (tried.trans (retryLive_pausing r _ (state.trans pausing))).trans paused
          exact ⟨lists'', only'', fun limit => absurd below limit, fun _ dead => absurd dead aborted,
            fun _ _ active => (by cases pausing.symm.trans active), fun _ _ _ => ⟨pending, goes⟩,
            fun _ _ _ not_pausing => absurd pausing not_pausing⟩
        · refine ⟨lists', only', fun limit => absurd below limit, fun _ dead => absurd dead aborted, fun _ _ active => ⟨focusing, ?_⟩,
            fun _ _ pausing' => absurd pausing' pausing, fun _ _ not_active not_pausing => ⟨focusing, ?_⟩⟩
          · exact tried.trans (retryLive_active r _ (state.trans active))
          · exact tried.trans (retryLive_stays r _ (state.trans_ne not_active) (state.trans_ne not_pausing))
    · obtain ⟨lists', failed, only', leaves⟩ := rejectedPart_resolves (.failed .captureRejected) start only
      rw [← done.trans (if_neg below)] at leaves
      exact ⟨lists', only', fun _ => ⟨failed, leaves⟩, fun h => absurd h below, fun h => absurd h below,
        fun h => absurd h below, fun h => absurd h below⟩

end Sys2Proof.Machine
end

section
/-! LOT_HOLD and LOT_RELEASE (R13 to R15, R84, R86). -/

namespace Sys2Proof.Machine

/-! ### A hold that changes -/

/-- Unless the hold leaves HOLD.N, a change of sources only tightens. -/
theorem changeHold_tightens {i : LoadPort} {old new : Lot} (c : Part) (stays : ¬ (old.hold = .holdN ∧ new.hold ≠ .holdN)) :
    changeHold i old new c = tightenHold i old new c :=
  if_neg fun h => stays ⟨h.1, h.2.1⟩

/-- A hold that leaves HOLD.N lets the session of the lot's wafer go on (R86). -/
theorem changeHold_leaves {i : LoadPort} {old new : Lot} {c : Part} (narrow : old.hold = .holdN) (wide : new.hold ≠ .holdN) :
    let recorded := raiseLotState (setLot i (some new) c)
    changeHold i old new c = if c.sessionLot = some i then resumeSession recorded else recorded := by
  have raised : tightenHold i old new c = raiseLotState (setLot i (some new) c) :=
    tightenHold_raises (fun same => wide (same.symm.trans narrow)) (.inl wide)
  dsimp only
  rw [changeHold, raised]
  refine if_congr ⟨fun h => h.2.2, fun here => ⟨narrow, wide, here⟩⟩ rfl rfl

theorem setOwnSource_eq (p : PortId) (x : Option Scope) (l : Lot) :
    setOwnSource p x l = if p = .tool then { l with holdTool := x } else { l with holdAuto := x } := by
  cases p <;> rfl

theorem ownSource_eq (p : PortId) (l : Lot) : ownSource p l = if p = .tool then l.holdTool else l.holdAuto := by
  cases p <;> rfl

/-! ### LOT_HOLD (R13) -/

theorem scopeOf_bad {b : Byte} (bad : 1 < b.toNat) : scopeOf b = none := by
  revert b
  decide

theorem scopeOf_good {b : Byte} (small : b.toNat ≤ 1) : scopeOf b = some (if b = 0#8 then .w else .n) := by
  revert b
  decide

theorem doLotHold_bad {p : PortId} {id : Text} {b : Byte} (c : Part) (bad : 1 < b.toNat) :
    doLotHold p id b c = ⟨c, .badField, .empty⟩ := by
  simp only [doLotHold, scopeOf_bad bad]
  rfl

theorem doLotHold_missing {p : PortId} {id : Text} {b : Byte} {c : Part} (small : b.toNat ≤ 1)
    (missing : c.lotNamed id = none) : doLotHold p id b c = ⟨c, .notFound, .empty⟩ := by
  simp only [doLotHold, scopeOf_good small, missing]
  rfl

theorem doLotHold_named {p : PortId} {id : Text} {b : Byte} {c : Part} {i : LoadPort} {l : Lot} (small : b.toNat ≤ 1)
    (named : c.lotNamed id = some (i, l)) :
    let held := setOwnSource p (some (if b = 0#8 then .w else .n)) l
    let recorded := raiseEvent .automation .holdSet (changeHold i l held c)
    doLotHold p id b c = if (l.state = .running ∨ l.state = .draining) ∧ l.aborted = false then
      ⟨if l.hold = .holdN ∧ held.hold ≠ .holdN then settle recorded else recorded, .ok, .empty⟩
      else ⟨c, .refusedState, .empty⟩ := by
  simp only [doLotHold, scopeOf_good small, named]
  rfl

/-- Settles O29, by what the hold changes from and to. -/
theorem lotHoldIsRecorded : Obligations.LotHoldIsRecorded := by
  intro s p tag id b now out refused
  have answers {c : Part} {st : Status} (h : doLotHold p id b s.part = ⟨c, st, .empty⟩) :
      out = .next (answered s p 7#8 tag c st .empty) := exec_answers (r := .lotHold id b) now h
  refine ⟨fun bad => answers (doLotHold_bad _ bad), fun small missing => answers (doLotHold_missing small missing),
    fun i l small named => ?_⟩
  intro takes scope held recorded
  have holds := doLotHold_named (p := p) small named
  dsimp only at holds
  rw [setOwnSource_eq] at holds
  have takes_it (h : takes) {c : Part} (kept : ¬ (l.hold = .holdN ∧ held.hold ≠ .holdN))
      (tightened : tightenHold i l held s.part = c) :
      out = .next (answered s p 7#8 tag (raiseEvent .automation .holdSet c) .ok .empty) := by
    refine answers ((holds.trans (if_pos h)).trans ?_)
    rw [← tightened, ← changeHold_tightens _ kept]
    exact congrArg (Reply.mk · .ok .empty) (if_neg kept)
  refine ⟨fun closed => answers (holds.trans (if_neg closed)), fun h same => ?_, fun h changed not_narrow elsewhere => ?_,
    fun h changed narrow here => ?_, fun h changed narrow => ?_⟩
  · exact takes_it h (fun leaves => leaves.2 (same ▸ leaves.1)) (tightenHold_same i _ same)
  · exact takes_it h (fun leaves => not_narrow leaves.1) (tightenHold_raises changed elsewhere)
  · exact takes_it h (fun leaves => leaves.2 narrow) (tightenHold_pauses changed narrow here)
  · have wide : held.hold ≠ .holdN := fun same => changed (narrow.trans same.symm)
    refine answers ((holds.trans (if_pos h)).trans ?_)
    have left : changeHold i l held s.part = _ := changeHold_leaves narrow wide
    refine congrArg (Reply.mk · .ok .empty) ((if_pos ⟨narrow, wide⟩).trans ?_)
    exact congrArg (fun c => settle (raiseEvent .automation .holdSet c)) left

/-! ### LOT_RELEASE (R15, R86) -/

theorem releaseChoiceOf_bad {b : Byte} (bad : 1 < b.toNat) : releaseChoiceOf b = none := by
  revert b
  decide

theorem releaseChoiceOf_good {b : Byte} (small : b.toNat ≤ 1) : releaseChoiceOf b = some (decide (b = 1#8)) := by
  revert b
  decide

theorem doLotRelease_bad {p : PortId} {id : Text} {b : Byte} (c : Part) (bad : 1 < b.toNat) :
    doLotRelease p id b c = ⟨c, .badField, .empty⟩ := by
  simp only [doLotRelease, releaseChoiceOf_bad bad]
  rfl

theorem doLotRelease_barred {id : Text} (c : Part) :
    doLotRelease .automation id 1#8 c = ⟨c, .notPermitted, .empty⟩ := rfl

/-- The hold source that a release names. -/
def releasedSource (p : PortId) (b : Byte) (l : Lot) : Option Scope := if b = 1#8 then l.holdExc else ownSource p l

/-- A lot without the source that a release names. -/
def releasedLot (p : PortId) (b : Byte) (l : Lot) : Lot :=
  if b = 1#8 then { l with holdExc := none } else setOwnSource p none l

theorem doLotRelease_missing {p : PortId} {id : Text} {b : Byte} {c : Part} (small : b.toNat ≤ 1)
    (allowed : ¬ (b = 1#8 ∧ p = .automation)) (missing : c.lotNamed id = none) :
    doLotRelease p id b c = ⟨c, .notFound, .empty⟩ := by
  simp only [doLotRelease, releaseChoiceOf_good small, decide_eq_true_eq, if_neg allowed, missing]
  rfl

theorem doLotRelease_named {p : PortId} {id : Text} {b : Byte} {c : Part} {i : LoadPort} {l : Lot} (small : b.toNat ≤ 1)
    (allowed : ¬ (b = 1#8 ∧ p = .automation)) (named : c.lotNamed id = some (i, l)) :
    doLotRelease p id b c = if releasedSource p b l = none then ⟨c, .refusedState, .empty⟩
      else ⟨settle (changeHold i l (releasedLot p b l) c), .ok, .empty⟩ := by
  simp only [doLotRelease, releaseChoiceOf_good small, decide_eq_true_eq, if_neg allowed, named, Option.isNone_iff_eq_none]
  rfl

theorem resumeSession_spec (c : Part) :
    (c.session.state = .paused → resumeSession c = walk (setSessionState .active c)) ∧
    (c.session.state = .pausing → resumeSession c = setSessionState .active c) ∧
    (c.session.state ≠ .paused → c.session.state ≠ .pausing → resumeSession c = c) := by
  refine ⟨fun paused => ?_, fun pausing => ?_, fun not_paused not_pausing => ?_⟩
  · simp only [resumeSession, paused]
  · simp only [resumeSession, pausing]
  · unfold resumeSession
    split
    · rename_i paused
      exact absurd paused not_paused
    · rename_i pausing
      exact absurd pausing not_pausing
    · rfl

/-- Removing a source never makes a hold HOLD.N. -/
theorem releasedLot_hold {p : PortId} {b : Byte} {l : Lot} (changed : l.hold ≠ (releasedLot p b l).hold) :
    (releasedLot p b l).hold ≠ .holdN := by
  intro narrow
  refine changed (Eq.trans ?_ narrow.symm)
  obtain sources := (hold_holdN _).mp narrow
  refine (hold_holdN l).mpr ?_
  unfold releasedLot at sources
  split at sources
  · simp only [reduceCtorEq, or_false] at sources
    exact sources.imp_right .inl
  · rw [setOwnSource_eq] at sources
    split at sources
    · simp only [reduceCtorEq, false_or] at sources
      exact .inr sources
    · simp only [reduceCtorEq, false_or] at sources
      exact sources.imp_right .inr

/-- Settles O30. -/
theorem lotReleaseRemovesASource : Obligations.LotReleaseRemovesASource := by
  refine ⟨resumeSession_spec, fun s p tag id b now => ?_⟩
  intro out refused
  have answers {c : Part} {st : Status} (h : doLotRelease p id b s.part = ⟨c, st, .empty⟩) :
      out = .next (answered s p 8#8 tag c st .empty) := exec_answers (r := .lotRelease id b) now h
  refine ⟨fun bad => answers (doLotRelease_bad _ bad), fun exc auto => answers (by subst exc auto; rfl),
    fun small allowed missing => answers (doLotRelease_missing small allowed missing), fun i l small allowed named => ?_⟩
  intro source freed removed
  have release := doLotRelease_named small allowed named
  have source_eq : releasedSource p b l = source := by rw [releasedSource, ownSource_eq]
  have freed_eq : releasedLot p b l = freed := by rw [releasedLot, setOwnSource_eq]
  have wide (changed : l.hold ≠ freed.hold) : freed.hold ≠ .holdN := by
    rw [← freed_eq] at changed ⊢
    exact releasedLot_hold changed
  rw [source_eq, freed_eq] at release
  have releases (some_source : source ≠ none) {c : Part} (h : changeHold i l freed s.part = c) :
      out = .next (answered s p 8#8 tag (settle c) .ok .empty) :=
    answers ((release.trans (if_neg some_source)).trans (by rw [h]))
  refine ⟨fun no_source => answers (release.trans (if_pos no_source)), fun some_source same => ?_,
    fun some_source changed elsewhere => ?_, fun some_source changed narrow here => ?_⟩
  · refine releases some_source ?_
    rw [changeHold_tightens _ fun leaves => leaves.2 (same ▸ leaves.1)]
    exact tightenHold_same i _ same
  · refine releases some_source ?_
    by_cases narrow : l.hold = .holdN
    · exact (changeHold_leaves narrow (wide changed)).trans (if_neg (elsewhere.resolve_left fun h => h narrow))
    · rw [changeHold_tightens _ fun leaves => narrow leaves.1]
      exact tightenHold_raises changed (.inl (wide changed))
  · exact releases some_source ((changeHold_leaves narrow (wide changed)).trans (if_pos here))

end Sys2Proof.Machine
end

section
/-! The converter's last result, which only the end of a conversion writes (R93). -/

namespace Sys2Proof.Machine

theorem updateLot_convResult (i : LoadPort) (f : Lot → Lot) (c : Part) : (updateLot i f c).convResult = c.convResult := by
  rw [updateLot_rest]

theorem updateSite_convResult (t n : Nat) (f : SiteEntry → SiteEntry) (c : Part) :
    (updateSite t n f c).convResult = c.convResult := by
  rw [updateSite_rest]

theorem returnToPending_convResult (t n : Nat) (c : Part) : (returnToPending t n c).convResult = c.convResult :=
  updateSite_convResult _ _ _ c

theorem pauseSession_convResult (c : Part) : (pauseSession c).convResult = c.convResult := by
  unfold pauseSession
  split
  · split
    · rfl
    · exact returnToPending_convResult _ _ (abandonFocus c)
    · exact returnToPending_convResult _ _ (withdrawWaiting c)
    · rfl
    · rfl
  · rfl

theorem tightenHold_convResult (i : LoadPort) (old new : Lot) (c : Part) :
    (tightenHold i old new c).convResult = c.convResult := by
  by_cases same : old.hold = new.hold
  · rw [tightenHold_same i c same]
    rfl
  · by_cases reaches : new.hold = .holdN ∧ c.sessionLot = some i
    · rw [tightenHold_pauses same reaches.1 reaches.2, pauseSession_convResult]
      rfl
    · rw [tightenHold_raises same (not_and_or.mp reaches)]
      rfl

theorem recordExcursionHold_convResult (i : LoadPort) (scope : Scope) (c : Part) :
    (recordExcursionHold i scope c).convResult = c.convResult := by
  unfold recordExcursionHold
  split
  · rfl
  · split
    · exact tightenHold_convResult _ _ _ c
    · rfl

theorem excursionAction_convResult (i : LoadPort) (a : ExcursionAction) (c : Part) :
    (excursionAction i a c).convResult = c.convResult := by
  cases a with
  | note => rfl
  | sample => rfl
  | holdW => exact recordExcursionHold_convResult i .w c
  | holdN => exact recordExcursionHold_convResult i .n c

theorem fireEntry_convResult (i : LoadPort) (slot pos : Nat) (x : ExcursionEntry) (c : Part) :
    (fireEntry i slot pos x c).convResult = c.convResult :=
  (excursionAction_convResult i x.action _).trans (updateLot_convResult i _ c)

theorem compareEntries_convResult (i : LoadPort) (slot cls count : Nat) (xs : List ExcursionEntry) :
    ∀ (pos : Nat) (c : Part), (compareEntries i slot cls count pos xs c).convResult = c.convResult := by
  induction xs with
  | nil => exact fun _ _ => rfl
  | cons x rest ih =>
    intro pos c
    rw [compareEntries, ih]
    split
    · exact fireEntry_convResult i slot pos x c
    · rfl

theorem countResolution_convResult (i : LoadPort) (slot : Nat) (r : Resolution) (c : Part) :
    (countResolution i slot r c).convResult = c.convResult := by
  unfold countResolution
  dsimp only
  split
  · split
    · exact updateLot_convResult _ _ _
    · exact (compareEntries_convResult _ _ _ _ _ _ _).trans (updateLot_convResult _ _ _)
  · exact updateLot_convResult _ _ _

theorem resolveSite_convResult (t n : Nat) (r : Resolution) (c : Part) :
    (resolveSite t n r c).convResult = c.convResult := by
  unfold resolveSite
  split
  · rfl
  · exact countResolution_convResult _ _ _ _

theorem sessionEnd_convResult (c : Part) : (sessionEnd c).convResult = c.convResult := by
  unfold sessionEnd
  split
  · rfl
  · dsimp only
    split <;> rfl

theorem takeFirst_convResult (t : Nat) (bound : Option Nat) (ks : List Candidate) :
    ∀ c, (takeFirst t bound ks c).convResult = c.convResult := by
  induction ks with
  | nil => exact sessionEnd_convResult
  | cons k rest ih =>
    intro c
    have taken : (takeSite t k c).convResult = c.convResult := updateSite_convResult _ _ _ c
    unfold takeFirst
    split
    · exact taken
    · split
      · exact (ih _).trans (resolveSite_convResult _ _ _ c)
      · exact taken

theorem walk_convResult (c : Part) : (walk c).convResult = c.convResult := by
  unfold walk
  split
  · rfl
  · split
    · rfl
    · exact takeFirst_convResult _ _ _ c

theorem leaveFlight_convResult (c : Part) : (leaveFlight c).convResult = c.convResult := by
  unfold leaveFlight
  dsimp only
  split
  · exact walk_convResult _
  · rfl
  · rfl

theorem tryIssue_convResult (c : Part) : (tryIssue c).convResult = c.convResult := by
  unfold tryIssue
  split
  · rfl
  · split
    · split
      · rfl
      · exact updateLot_convResult _ _ _
    · rfl

theorem handOver_convResult (t n sharpness : Nat) (c : Part) : (handOver t n sharpness c).convResult = c.convResult := by
  unfold handOver
  dsimp only
  split <;> exact tryIssue_convResult _

theorem startConversion_convResult (z : Nat) (c : Part) : (startConversion z c).convResult = c.convResult := by
  rw [startConversion_eq]

theorem beginSweep_convResult (stage : FocusStage) (centre : Nat) (r : FocusRequest) (c : Part) :
    (beginSweep stage centre r c).convResult = c.convResult := by
  rw [beginSweep_eq]
  rfl

theorem beginCheck_convResult (z ref : Nat) (r : FocusRequest) (c : Part) :
    (beginCheck z ref r c).convResult = c.convResult := startConversion_convResult z c

theorem freshFocus_convResult (c : Part) : c.freshFocus.convResult = c.convResult := by
  unfold Part.freshFocus
  split <;> rfl

theorem focusAccepted_convResult (z sharpness : Nat) (c : Part) :
    (focusAccepted z sharpness c).convResult = c.convResult := by
  unfold focusAccepted
  split
  · exact (handOver_convResult _ _ _ _).trans (updateSite_convResult _ _ _ c)
  · rfl

/-! ### Requests by their kind (R96, R97, R99, R100) -/

theorem freshFocus_eq (c : Part) : c.freshFocus =
    if c.focusRequest = none then c else { c with converter := .idle, focusRequest := none } := by
  unfold Part.freshFocus
  cases c.focusRequest <;> rfl

theorem freshFocus_settings (c : Part) : c.freshFocus.settings = c.settings := by
  unfold Part.freshFocus
  split <;> rfl

theorem freshFocus_map (c : Part) : c.freshFocus.focusMap = c.focusMap := by
  unfold Part.freshFocus
  split <;> rfl

theorem freshFocus_recipe (c : Part) : c.freshFocus.sessionRecipe = c.sessionRecipe := by
  unfold Part.freshFocus
  split <;> rfl

theorem takeFocusRequest_nominal (x y : Int) (z : Nat) (c : Part) : takeFocusRequest .nominal x y z c =
    beginSweep .sweep c.settings.nominalZ (newFocusRequest .nominal x y) c.freshFocus := by
  rw [← freshFocus_settings c]
  rfl

theorem clampDrive_nat (z : Nat) : clampDrive (z : Int) = min z 65535 := by
  have cast := clampDrive_cast z
  omega

theorem takeFocusRequest_forced (x y : Int) (z : Nat) (c : Part) : takeFocusRequest .forced x y z c =
    beginSweep .sweep (min z 65535) (newFocusRequest .forced x y) c.freshFocus := by
  rw [← clampDrive_nat]
  rfl

theorem takeFocusRequest_unmapped {c : Part} (x y : Int) (z : Nat) (unmapped : nearestPoint x y c.focusMap = none) :
    takeFocusRequest .predicted x y z c =
      beginSweep .sweep c.settings.nominalZ (newFocusRequest .predicted x y) c.freshFocus := by
  rw [← freshFocus_map] at unmapped
  rw [← freshFocus_settings c]
  simp only [takeFocusRequest]
  rw [← Part.freshFocus, unmapped]

theorem takeFocusRequest_mapped {c : Part} {x y : Int} {p : MapPoint} (z : Nat)
    (nearest : nearestPoint x y c.focusMap = some p) : takeFocusRequest .predicted x y z c =
      if (x - p.x) ^ 2 + (y - p.y) ^ 2 ≤ (c.sessionRecipe.mapRadius : Int) ^ 2 then
        beginCheck p.z p.sharpness (newFocusRequest .predicted x y) c.freshFocus
      else beginSweep .sweep p.z (newFocusRequest .predicted x y) c.freshFocus := by
  rw [← freshFocus_map] at nearest
  rw [← freshFocus_recipe c]
  simp only [takeFocusRequest]
  rw [← Part.freshFocus, nearest]
  dsimp only
  rw [distance2_eq, MapPoint.apart, ← sq]

theorem takeFocusRequest_convResult (kind : FocusKind) (x y : Int) (z : Nat) (c : Part) :
    (takeFocusRequest kind x y z c).convResult = c.convResult := by
  rw [← freshFocus_convResult c]
  cases kind with
  | predicted =>
    cases nearest : nearestPoint x y c.focusMap with
    | none =>
      rw [takeFocusRequest_unmapped x y z nearest]
      exact beginSweep_convResult _ _ _ _
    | some p =>
      rw [takeFocusRequest_mapped z nearest]
      split
      · exact beginCheck_convResult _ _ _ _
      · exact beginSweep_convResult _ _ _ _
  | recheck =>
    rw [takeFocusRequest_recheck]
    exact beginCheck_convResult _ _ _ _
  | nominal => exact beginSweep_convResult _ _ _ _
  | forced => exact beginSweep_convResult _ _ _ _

theorem focusFailed_convResult (why : Reason) (c : Part) : (focusFailed why c).convResult = c.convResult := by
  unfold focusFailed
  split
  · dsimp only
    split
    · exact updateSite_convResult _ _ _ c
    · split
      · exact (takeFocusRequest_convResult _ _ _ _ _).trans (updateSite_convResult _ _ _ c)
      · exact (leaveFlight_convResult _).trans ((resolveSite_convResult _ _ _ _).trans (updateSite_convResult _ _ _ c))
  · rfl

theorem takeCheck_convResult (count : Nat) (r : FocusRequest) (c : Part) :
    (takeCheck count r c).convResult = c.convResult := by
  unfold takeCheck
  dsimp only
  split
  · refine (focusAccepted_convResult _ _ _).trans ?_
    dsimp only
    split
    · rw [countMapHit_eq]
      rfl
    · rfl
  · exact beginSweep_convResult _ _ _ _

theorem concludeSweep_convResult (v : SweepVerdict) (r : FocusRequest) (c : Part) :
    (concludeSweep v r c).convResult = c.convResult := by
  cases v with
  | low => exact focusFailed_convResult _ _
  | edge z =>
    unfold concludeSweep
    dsimp only
    split
    · exact beginSweep_convResult _ _ _ c
    · exact focusFailed_convResult _ _
  | accept z sharpness => exact focusAccepted_convResult _ _ _

theorem takeStep_convResult (count : Nat) (r : FocusRequest) (c : Part) :
    (takeStep count r c).convResult = c.convResult := by
  unfold takeStep
  dsimp only
  split
  · exact startConversion_convResult _ c
  · exact concludeSweep_convResult _ _ c

theorem takeCount_convResult (count : Nat) (c : Part) : (takeCount count c).convResult = c.convResult := by
  unfold takeCount
  split
  · rfl
  · dsimp only
    split
    · exact takeCheck_convResult _ _ c
    · exact takeStep_convResult _ _ c
    · exact takeStep_convResult _ _ c

end Sys2Proof.Machine
end

section
/-! The end of a conversion: what the request in progress makes of its count (R93, R98 to R105). -/

namespace Sys2Proof.Machine

/-! ### Counts -/

theorem takeCount_idle {c : Part} (n : Nat) (free : c.focusRequest = none) : takeCount n c = c := by
  simp only [takeCount, free]

theorem takeCount_check {c : Part} {r : FocusRequest} (n : Nat) (request : c.focusRequest = some r)
    (check : r.stage = .check) : takeCount n c = takeCheck n { r with restarts := 0 } c := by
  simp only [takeCount, request, check]

theorem takeCount_step {c : Part} {r : FocusRequest} (n : Nat) (request : c.focusRequest = some r)
    (sweeping : r.stage ≠ .check) : takeCount n c = takeStep n { r with restarts := 0 } c := by
  simp only [takeCount, request]
  split
  · rename_i check
    exact absurd check sweeping
  · rfl
  · rfl

/-- The sharpness a count needs: the quality threshold of the session's recipe (R95). -/
def Part.sharpEnough (c : Part) : Nat := threshold c.sessionRecipe.resolution c.sessionRecipe.quality

/-- A check passes (R98, R104). -/
theorem takeCheck_passes {c : Part} {r : FocusRequest} {n z ref : Nat} (checkZ : r.checkZ = some z)
    (checkRef : r.checkRef = some ref) (sharp : c.sharpEnough ≤ n) (near : 7 * ref ≤ 8 * n) :
    takeCheck n r c = focusAccepted z n { (if r.kind = .predicted then countMapHit c else c) with
      drive := z, focusReference := some ⟨z, n⟩, focusRequest := none } := by
  have passes : threshold c.sessionRecipe.resolution c.sessionRecipe.quality ≤ n ∧ 7 * r.checkRef.getD 0 ≤ 8 * n := by
    rw [checkRef]
    exact ⟨sharp, near⟩
  simp only [takeCheck, if_pos passes, checkZ]
  rfl

/-- A check fails, and a sweep begins around its z (R99). -/
theorem takeCheck_fails {c : Part} {r : FocusRequest} {n z ref : Nat} (checkZ : r.checkZ = some z)
    (checkRef : r.checkRef = some ref) (fails : n < c.sharpEnough ∨ 8 * n < 7 * ref) :
    takeCheck n r c = beginSweep .sweep z r (countStat .checksFailed c) := by
  have not_passes : ¬ (threshold c.sessionRecipe.resolution c.sessionRecipe.quality ≤ n ∧ 7 * r.checkRef.getD 0 ≤ 8 * n) := by
    rw [checkRef]
    rintro ⟨sharp, near⟩
    have sharp : c.sharpEnough ≤ n := sharp
    have near : 7 * ref ≤ 8 * n := near
    omega
  simp only [takeCheck, if_neg not_passes, checkZ]
  rfl

theorem takeStep_next {c : Part} {r : FocusRequest} (n : Nat) (before : r.step < c.sessionRecipe.sweepSteps) :
    takeStep n r c = startStep { r with counts := r.counts ++ [n] } (r.centre.getD 0) (r.step + 1) c := if_pos before

theorem takeStep_last {c : Part} {r : FocusRequest} (n : Nat) (last : c.sessionRecipe.sweepSteps ≤ r.step) :
    takeStep n r c = concludeSweep (evaluateSweep c.sharpEnough c.sessionRecipe.sweepSteps c.sessionRecipe.stepSize
      (r.counts ++ [n]) r.drives) { r with counts := r.counts ++ [n] } c := if_neg (Nat.not_lt.mpr last)

/-! ### Answers (R76, R77, R104, R105) -/

/-- An accepted z reaches its site, which waits or is issued (R76, R118). -/
theorem focusAccepted_spec {c : Part} {t n slot : Nat} {i : LoadPort} {e : SiteEntry} (wafer : c.session.wafer = some t)
    (inflight : c.session.inFlight = some n) (site : c.site? t n = some (i, slot, e)) (z sharpness : Nat) :
    ∃ lists : List RevisitList,
      let waiting := { c with lists := lists, waitingSite := some ⟨t, n, sharpness, none⟩ }
      waiting.site? t n = some (i, slot, { e with acceptedZ := some z, state := .captureWait }) ∧
      OnlySites i slot [n] c waiting ∧
      (1 ≤ c.credits → c.captureLog.length < 32 → focusAccepted z sharpness c = tryIssue waiting) ∧
      (c.credits = 0 ∨ 32 ≤ c.captureLog.length → focusAccepted z sharpness c =
        { waiting with waitingSite := some ⟨t, n, sharpness, some c.sessionRecipe.focusHold⟩ }) := by
  obtain ⟨lists, rewritten, found, only⟩ := updateSite_lists
    (fun e => { e with acceptedZ := some z, state := .captureWait }) (fun _ => rfl) site
  refine ⟨lists, found, only, fun credit room => ?_, fun blocked => ?_⟩
  all_goals
    have handed : focusAccepted z sharpness c = handOver t n sharpness { c with lists := lists } := by
      simp only [focusAccepted, wafer, inflight, rewritten]
    rw [handed]
    unfold handOver
  · have issued := tryIssue_issues (c := { c with lists := lists, waitingSite := some ⟨t, n, sharpness, none⟩ }) rfl
      credit room found
    have gone : (tryIssue { c with lists := lists, waitingSite := some ⟨t, n, sharpness, none⟩ }).waitingSite = none := by
      rw [issued, issueCapture]
      dsimp only
      rw [updateLot_rest]
      rfl
    simp only [gone]
  · have stays := tryIssue_stays (c := { c with lists := lists, waitingSite := some ⟨t, n, sharpness, none⟩ }) (.inr blocked)
    simp only [stays]
    rfl

/-- A failure spends an attempt of its site (R77). -/
theorem focusFailed_spec {c : Part} {t n slot : Nat} {i : LoadPort} {e : SiteEntry} (wafer : c.session.wafer = some t)
    (inflight : c.session.inFlight = some n) (site : c.site? t n = some (i, slot, e)) (why : Reason) :
    ∃ lists : List RevisitList,
      let spent := { c with lists := lists }
      let attempts := e.attempts + 1
      OnlySites i slot [n] c spent ∧
      (attempts < c.sessionRecipe.attemptLimit →
        spent.site? t n = some (i, slot, { e with attempts := attempts, acceptedZ := none }) ∧
        focusFailed why c = takeFocusRequest .nominal e.x e.y 0 spent) ∧
      (c.sessionRecipe.attemptLimit ≤ attempts →
        spent.site? t n = some (i, slot,
          { e with attempts := attempts, acceptedZ := none, state := .failed, captureNo := none, reason := some why }) ∧
        LeavesFlight t n (countResolution i slot (.failed why) spent) (focusFailed why c)) := by
  obtain ⟨lists, rewritten, found, only⟩ := updateSite_lists
    (fun e => { e with attempts := e.attempts + 1, acceptedZ := none }) (fun _ => rfl) site
  have failed : focusFailed why c =
      if e.attempts + 1 < (Part.sessionRecipe { c with lists := lists }).attemptLimit then
        takeFocusRequest .nominal e.x e.y 0 { c with lists := lists }
      else leaveFlight (resolveSite t n (.failed why) { c with lists := lists }) := by
    simp only [focusFailed, wafer, inflight, rewritten, found]
  by_cases below : e.attempts + 1 < c.sessionRecipe.attemptLimit
  · exact ⟨lists, only, fun _ => ⟨found, failed.trans (if_pos below)⟩, fun limit => absurd below (Nat.not_lt.mpr limit)⟩
  · obtain ⟨lists', resolved, only', found'⟩ := resolveSite_spec (.failed why) found
    refine ⟨lists', only.trans only', fun h => absurd h below, fun _ => ⟨found', ?_⟩⟩
    rw [failed.trans (if_neg below), resolved]
    refine leaveFlight_leaves t n _ ?_ ?_
    · rw [countResolution_rest i slot (.failed why) _ nofun]
      exact wafer
    · rw [countResolution_rest i slot (.failed why) _ nofun]
      exact inflight

/-! ### The end of a conversion (R91, R93) -/

/-- A part whose converter has ended a conversion with a count (R93). -/
def Part.converted (c : Part) (n res : Nat) : Part := { c with converter := .idle, convResult := some ⟨n, c.drive, res⟩ }

theorem endConversion_ends {c : Part} {res : Nat} (raw : Nat) (phase : c.converter = .deintegrate res) :
    let n := min raw (fullScale res)
    endConversion raw c = settle (takeCount n (c.converted n res)) := by
  simp only [endConversion, phase]
  rfl

/-- A sweep's next step, from a converter that is idle (R101). -/
theorem startStep_idle {c : Part} {r : FocusRequest} {centre k : Nat} (idle : c.converter = .idle) :
    let z := stepDrive centre c.sessionRecipe.sweepSteps c.sessionRecipe.stepSize k
    let d := startStep r centre k c
    d.drive = z ∧
    d.converter = (if z = c.drive then .zero c.sessionRecipe.resolution
      else .settling c.sessionRecipe.resolution c.settings.settleTime) ∧
    d.focusRequest = some { r with step := k, drives := r.drives ++ [z], restarts := 0 } := by
  dsimp only
  refine ⟨?_, ?_, rfl⟩
  · rw [startStep, startConversion_eq]
  · rw [startStep, startConversion_eq]
    dsimp only
    by_cases same : stepDrive centre c.sessionRecipe.sweepSteps c.sessionRecipe.stepSize k = c.drive
    · rw [if_neg (not_not.mpr same), if_pos same, idle]
    · rw [if_pos same, if_neg same]

/-- Settles O47. -/
theorem conversionEnds : Obligations.ConversionEnds := by
  unfold Obligations.ConversionEnds
  intro start count sweep
  have start_eq (z : Nat) (c : Part) : startConversion z c = start z c := startConversion_eq z c
  have count_eq (k : Statistic) (f : LotCounters → LotCounters) (c : Part) : countFor k f c = count k f c := rfl
  have sweep_eq (stage : FocusStage) (centre : Nat) (r : FocusRequest) (c : Part) :
      beginSweep stage centre r c = sweep stage centre r c := beginSweep_eq stage centre r c
  refine ⟨fun s raw res phase => ?_, ⟨rfl, fun r => ⟨rfl, rfl, rfl, rfl⟩⟩, fun c kind x y z => ?_, fun c n r request => ?_,
    fun c t n slot i e wafer inflight site => ⟨focusAccepted_spec wafer inflight site, focusFailed_spec wafer inflight site⟩⟩
  · intro n
    have keeps := settle_keeps (takeCount n (s.part.converted n res))
    refine ⟨_, congrArg (fun c => Host.Outcome.next (withPart s c)) (endConversion_ends raw phase), rfl,
      keeps.convResult.trans (takeCount_convResult _ _), fun free => ?_, fun r request sweeping before => ?_⟩
    · have free : (s.part.converted n res).focusRequest = none := free
      rw [keeps.converter, keeps.drive, takeCount_idle n free]
      exact ⟨rfl, rfl⟩
    · intro steps z
      have request : (s.part.converted n res).focusRequest = some r := request
      have before : r.step < (s.part.converted n res).sessionRecipe.sweepSteps := before
      rw [keeps.converter, keeps.drive, keeps.focusRequest, takeCount_step n request sweeping, takeStep_next (r := { r with restarts := 0 }) n before]
      exact startStep_idle rfl
  · intro fresh r check begun
    have fresh_eq : c.freshFocus = fresh := freshFocus_eq c
    refine ⟨fun predicted unmapped => ?_, fun p predicted nearest => ?_, fun recheck => ?_, fun nominal => ?_,
      fun forced => ?_⟩
    · subst predicted
      have none_near : nearestPoint x y c.focusMap = none := by rw [unmapped]; rfl
      rw [← sweep_eq, ← fresh_eq]
      exact takeFocusRequest_unmapped x y z none_near
    · subst predicted
      have taken := takeFocusRequest_mapped z nearest
      rw [fresh_eq] at taken
      refine ⟨fun near => taken.trans ((if_pos near).trans ?_), fun far => taken.trans ((if_neg far).trans (sweep_eq _ _ _ _))⟩
      rw [beginCheck, start_eq]
      rfl
    · subst recheck
      refine (takeFocusRequest_recheck x y z c).trans ?_
      rw [fresh_eq, beginCheck, start_eq]
      rfl
    · subst nominal
      rw [← sweep_eq, ← fresh_eq]
      exact takeFocusRequest_nominal x y z c
    · subst forced
      rw [← sweep_eq, ← fresh_eq]
      exact takeFocusRequest_forced x y z c
  · intro recipe limit after answered
    refine ⟨fun z ref check checkZ checkRef => ?_, fun sweeping last => ?_⟩
    · intro hit
      have taken := takeCount_check n request check
      refine ⟨fun sharp near => ?_, fun fails => ?_⟩
      · refine taken.trans ((takeCheck_passes checkZ checkRef sharp near).trans ?_)
        dsimp only [hit]
        split
        · rw [countMapHit_eq]
          rfl
        · rfl
      · refine taken.trans ((takeCheck_fails checkZ checkRef fails).trans ?_)
        rw [sweep_eq]
        rfl
    · intro verdict
      have taken : after = concludeSweep verdict { r with restarts := 0, counts := r.counts ++ [n] } c :=
        (takeCount_step n request sweeping).trans (takeStep_last n last)
      refine ⟨fun low => ?_, fun z edge first_sweep => ?_, fun z edge second => ?_, fun z sharpness accepted => ?_⟩
      · rw [taken, low]
        rfl
      · rw [taken, edge]
        exact (if_pos first_sweep).trans (sweep_eq _ _ _ _)
      · rw [taken, edge]
        exact if_neg (by rw [second]; decide)
      · rw [taken, accepted]
        rfl

end Sys2Proof.Machine
end

section
/-! The order in which the walk meets the entries of a list (R70, R71). -/

namespace Sys2Proof.Machine

/-! ### A row's run -/

/-- One candidate of a run stands before another, by the direction the row is walked in. -/
def Candidate.Before (a b : Candidate) : Prop :=
  if a.direction = .forward then a.position < b.position else b.position < a.position

/-- One candidate is met before another: in a lower row, or earlier in the same row's run. -/
def Candidate.MetBefore (a b : Candidate) : Prop :=
  a.row < b.row ∨ (a.row = b.row ∧ a.direction = b.direction ∧ a.Before b)

theorem pendingInRow_ordered (l : List SiteEntry) (r : Int) (d : Direction) :
    (pendingInRow l r d).Pairwise Candidate.MetBefore := by
  have positions : (l.zipIdx 1).Pairwise (fun p q => p.2 < q.2) := by
    refine List.pairwise_map.mp ?_
    rw [List.zipIdx_map_snd]
    exact List.pairwise_lt_range'
  have run : (((l.zipIdx 1).filter (fun p => p.1.row == r && p.1.state == .pending)).map
      (fun p => (⟨r, d, p.2, p.1⟩ : Candidate))).Pairwise (fun a b => a.position < b.position) :=
    List.pairwise_map.mpr (positions.filter _)
  have same (a : Candidate) (h : a ∈ pendingInRow l r d) : a.row = r ∧ a.direction = d := by
    obtain ⟨row, direction, _⟩ := (mem_pendingInRow l r d a).mp h
    exact ⟨row, direction⟩
  have ordered : (pendingInRow l r d).Pairwise (fun a b => if d = .forward then a.position < b.position
      else b.position < a.position) := by
    cases d with
    | forward => exact run
    | backward => exact List.pairwise_reverse.mpr run
  refine ordered.imp_of_mem fun {a b} ha hb h => .inr ?_
  obtain ⟨row, direction⟩ := same a ha
  obtain ⟨row', direction'⟩ := same b hb
  refine ⟨row.trans row'.symm, direction.trans direction'.symm, ?_⟩
  rw [Candidate.Before, direction]
  exact h

/-! ### The rows to enter -/

theorem insertRow_ascending (r : Int) (l : List Int) (h : l.Pairwise (· < ·)) : (insertRow r l).Pairwise (· < ·) := by
  induction l with
  | nil => exact List.pairwise_singleton _ _
  | cons q rest ih =>
    obtain ⟨least, rest_ascends⟩ := List.pairwise_cons.mp h
    unfold insertRow
    split
    · exact h
    · split
      · rename_i lower
        refine List.pairwise_cons.mpr ⟨fun x member => ?_, h⟩
        obtain rfl | member := List.mem_cons.mp member
        · exact lower
        · exact lower.trans (least x member)
      · rename_i differ not_lower
        refine List.pairwise_cons.mpr ⟨fun x member => ?_, ih rest_ascends⟩
        obtain rfl | member := (mem_insertRow r x rest).mp member
        · omega
        · exact least x member

theorem rowsToEnter_ascending (l : List SiteEntry) (current : Option Int) : (rowsToEnter l current).Pairwise (· < ·) := by
  unfold rowsToEnter
  generalize ((l.filter _).map (·.row)) = rows
  induction rows with
  | nil => exact List.Pairwise.nil
  | cons r rest ih => exact insertRow_ascending r _ ih

/-! ### The candidates of the rows to enter -/

/-- A candidate comes from the run of one of the rows. -/
theorem candidatesOf_run (l : List SiteEntry) (rows : List Int) :
    ∀ (d : Direction) (k : Candidate), k ∈ candidatesOf l d rows → ∃ r ∈ rows, ∃ d', k ∈ pendingInRow l r d' := by
  induction rows with
  | nil => exact fun d k h => by cases h
  | cons r rest ih =>
    intro d k h
    obtain here | later := List.mem_append.mp h
    · exact ⟨r, List.mem_cons_self, d, here⟩
    · obtain ⟨r', member, d', run⟩ := ih _ _ later
      exact ⟨r', List.mem_cons_of_mem _ member, d', run⟩

/-- Every row's run is met, in one direction or the other. -/
theorem run_candidatesOf (l : List SiteEntry) (rows : List Int) (r : Int) (member : r ∈ rows) :
    ∀ d : Direction, ∃ d', ∀ k ∈ pendingInRow l r d', k ∈ candidatesOf l d rows := by
  induction rows with
  | nil => cases member
  | cons q rest ih =>
    intro d
    obtain rfl | later := List.mem_cons.mp member
    · exact ⟨d, fun k h => List.mem_append_left _ h⟩
    · obtain ⟨d', all⟩ := ih later d.opposite
      exact ⟨d', fun k h => List.mem_append_right _ (all k h)⟩

theorem candidatesOf_ordered (l : List SiteEntry) (rows : List Int) (ascending : rows.Pairwise (· < ·)) :
    ∀ d : Direction, (candidatesOf l d rows).Pairwise Candidate.MetBefore := by
  induction rows with
  | nil => exact fun _ => List.Pairwise.nil
  | cons r rest ih =>
    intro d
    obtain ⟨least, ascends⟩ := List.pairwise_cons.mp ascending
    refine List.pairwise_append.mpr ⟨pendingInRow_ordered l r d, ih ascends _, fun a ha b hb => .inl ?_⟩
    rw [((mem_pendingInRow l r d a).mp ha).1]
    exact least b.row (mem_candidatesOf l rest _ b hb).1

/-! ### Everything the search meets -/

/-- What the search meets of the current row. -/
def currentRun (s : Session) (l : List SiteEntry) (r : Int) : List Candidate :=
  (pendingInRow l r s.direction).filter (fun k => ahead s.direction (s.cursor.getD 0) k.position)

theorem walkOrder_begin {s : Session} (l : List SiteEntry) (row : s.row = none) :
    walkOrder s l = candidatesOf l .forward (rowsToEnter l none) := by
  simp only [walkOrder, row]

theorem walkOrder_row {s : Session} {r : Int} (l : List SiteEntry) (row : s.row = some r) :
    walkOrder s l = currentRun s l r ++ candidatesOf l s.direction.opposite (rowsToEnter l (some r)) := by
  simp only [walkOrder, row]
  rfl

/-- A candidate of the rows to enter: PENDING, in its place, in a row above the current one. -/
theorem candidatesOf_entered {l : List SiteEntry} {current : Option Int} {d : Direction} {k : Candidate}
    (member : k ∈ candidatesOf l d (rowsToEnter l current)) : k.entry.state = .pending ∧ k.entry.row = k.row ∧
      1 ≤ k.position ∧ l[k.position - 1]? = some k.entry ∧ ∀ r, current = some r → r < k.row := by
  obtain ⟨r, row_member, d', run⟩ := candidatesOf_run l _ d k member
  obtain ⟨rfl, _, row, pending, low, at'⟩ := (mem_pendingInRow l r d' k).mp run
  obtain ⟨e, _, _, row', above⟩ := (mem_rowsToEnter l current k.row).mp row_member
  exact ⟨pending, row, low, at', fun r h => row' ▸ above r h⟩

theorem currentRun_entered {s : Session} {l : List SiteEntry} {r : Int} {k : Candidate} (member : k ∈ currentRun s l r) :
    k.entry.state = .pending ∧ k.entry.row = k.row ∧ 1 ≤ k.position ∧ l[k.position - 1]? = some k.entry ∧ k.row = r ∧
      k.direction = s.direction := by
  obtain ⟨row, direction, row', pending, low, at'⟩ := (mem_pendingInRow l r _ k).mp (List.mem_filter.mp member).1
  exact ⟨pending, row'.trans row.symm, low, at', row, direction⟩

theorem walkOrder_entered {s : Session} {l : List SiteEntry} {k : Candidate} (member : k ∈ walkOrder s l) :
    k.entry.state = .pending ∧ k.entry.row = k.row ∧ 1 ≤ k.position ∧ l[k.position - 1]? = some k.entry ∧
      ∀ r, s.row = some r → r ≤ k.row := by
  cases row : s.row with
  | none =>
    rw [walkOrder_begin l row] at member
    obtain ⟨pending, row', low, at', _⟩ := candidatesOf_entered member
    exact ⟨pending, row', low, at', nofun⟩
  | some r =>
    rw [walkOrder_row l row] at member
    obtain here | later := List.mem_append.mp member
    · obtain ⟨pending, row', low, at', same, _⟩ := currentRun_entered here
      exact ⟨pending, row', low, at', fun q h => by obtain rfl := Option.some.inj h; exact same.ge⟩
    · obtain ⟨pending, row', low, at', above⟩ := candidatesOf_entered later
      exact ⟨pending, row', low, at', fun q h => (above q h).le⟩

theorem walkOrder_ordered (s : Session) (l : List SiteEntry) : (walkOrder s l).Pairwise Candidate.MetBefore := by
  cases row : s.row with
  | none =>
    rw [walkOrder_begin l row]
    exact candidatesOf_ordered l _ (rowsToEnter_ascending l none) _
  | some r =>
    rw [walkOrder_row l row]
    refine List.pairwise_append.mpr ⟨(pendingInRow_ordered l r _).filter _,
      candidatesOf_ordered l _ (rowsToEnter_ascending l (some r)) _, fun a ha b hb => .inl ?_⟩
    obtain ⟨_, _, _, _, same, _⟩ := currentRun_entered ha
    obtain ⟨_, _, _, _, above⟩ := candidatesOf_entered hb
    exact same ▸ above r rfl

/-- The rows to enter all hold a PENDING entry. -/
theorem rowsToEnter_held (l : List SiteEntry) (current : Option Int) :
    ∀ r ∈ rowsToEnter l current, ∃ e ∈ l, e.state = .pending ∧ e.row = r := by
  intro r member
  obtain ⟨e, held, pending, row, _⟩ := (mem_rowsToEnter l current r).mp member
  exact ⟨e, held, pending, row⟩

/-- The first candidate of the rows to enter is met in the direction that they begin with. -/
theorem candidatesOf_direction {l : List SiteEntry} {current : Option Int} {d : Direction} {k : Candidate}
    {rest : List Candidate} (whole : candidatesOf l d (rowsToEnter l current) = k :: rest) : k.direction = d := by
  have held := rowsToEnter_held l current
  cases rows : rowsToEnter l current with
  | nil =>
    rw [rows] at whole
    cases whole
  | cons r more =>
    rw [rows] at whole held
    obtain ⟨k', rest', whole', _, direction⟩ := candidatesOf_head l d r more (held r List.mem_cons_self)
    rw [whole] at whole'
    obtain ⟨rfl, _⟩ := List.cons.inj whole'
    exact direction

theorem opposite_eq (d : Direction) : d.opposite = if d = .forward then .backward else .forward := by
  cases d <;> rfl

theorem walkOrder_direction {s : Session} {l : List SiteEntry} {k : Candidate} {rest : List Candidate}
    (whole : walkOrder s l = k :: rest) :
    (s.row = none → k.direction = .forward) ∧
    ∀ r, s.row = some r → k.direction = if k.row = r then s.direction else s.direction.opposite := by
  refine ⟨fun row => ?_, fun r row => ?_⟩
  · rw [walkOrder_begin l row] at whole
    exact candidatesOf_direction whole
  · rw [walkOrder_row l row] at whole
    cases run : currentRun s l r with
    | nil =>
      rw [run] at whole
      obtain ⟨_, _, _, _, above⟩ := candidatesOf_entered (k := k) (whole ▸ List.mem_cons_self)
      rw [if_neg (above r rfl).ne']
      exact candidatesOf_direction whole
    | cons k' rest' =>
      rw [run] at whole
      obtain ⟨rfl, _⟩ := List.cons.inj whole
      obtain ⟨_, _, _, _, same, direction⟩ := currentRun_entered (k := k') (run ▸ List.mem_cons_self)
      rw [if_pos same, direction]

/-- A row is walked in the direction opposite to that of the row before it. -/
theorem walkOrder_alternates (s : Session) (l : List SiteEntry) :
    (walkOrder s l).IsChain (fun a b => a.row < b.row → a.direction ≠ b.direction) := by
  cases row : s.row with
  | none =>
    rw [walkOrder_begin l row]
    exact candidatesOf_alternate l _ (rowsToEnter_held l none) _
  | some r =>
    rw [walkOrder_row l row]
    refine List.isChain_append.mpr ⟨?_, candidatesOf_alternate l _ (rowsToEnter_held l (some r)) _, ?_⟩
    · refine List.Pairwise.isChain (List.pairwise_of_forall_mem_list fun a ha b hb lower => ?_)
      obtain ⟨_, _, _, _, same, _⟩ := currentRun_entered ha
      obtain ⟨_, _, _, _, same', _⟩ := currentRun_entered hb
      omega
    · intro a ha b hb _ equal
      obtain ⟨_, _, _, _, _, direction⟩ := currentRun_entered (List.mem_of_getLast? ha)
      obtain ⟨rest, whole⟩ : ∃ rest, candidatesOf l s.direction.opposite (rowsToEnter l (some r)) = b :: rest :=
        List.head?_eq_some_iff.mp hb
      have entered := candidatesOf_direction whole
      rw [direction, entered] at equal
      revert equal
      cases s.direction <;> decide

/-- Every PENDING entry of the rows above is met. -/
theorem walkOrder_complete {s : Session} {l : List SiteEntry} {n : Nat} {e : SiteEntry} (at' : l[n]? = some e)
    (pending : e.state = .pending) (above : ∀ r, s.row = some r → r < e.row) :
    ∃ k ∈ walkOrder s l, k.position = n + 1 ∧ k.entry = e := by
  have entered : e.row ∈ rowsToEnter l s.row :=
    (mem_rowsToEnter l s.row e.row).mpr ⟨e, List.mem_of_getElem? at', pending, rfl, above⟩
  have met (d : Direction) : ∃ k ∈ candidatesOf l d (rowsToEnter l s.row), k.position = n + 1 ∧ k.entry = e := by
    obtain ⟨d', all⟩ := run_candidatesOf l _ e.row entered d
    exact ⟨⟨e.row, d', n + 1, e⟩, all _ ((mem_pendingInRow l _ _ _).mpr ⟨rfl, rfl, rfl, pending, by simp, by simpa using at'⟩),
      rfl, rfl⟩
  cases row : s.row with
  | none =>
    rw [row] at met
    rw [walkOrder_begin l row]
    exact met _
  | some r =>
    rw [row] at met
    rw [walkOrder_row l row]
    obtain ⟨k, member, same⟩ := met s.direction.opposite
    exact ⟨k, List.mem_append_right _ member, same⟩

/-- Of the current row exactly the entries at the cursor or past it are met. -/
theorem walkOrder_current {s : Session} {l : List SiteEntry} {n cursor : Nat} {e : SiteEntry} (at' : l[n]? = some e)
    (pending : e.state = .pending) (row : s.row = some e.row) (at_cursor : s.cursor = some cursor) :
    (∃ k ∈ walkOrder s l, k.position = n + 1 ∧ k.entry = e) ↔
      if s.direction = .forward then cursor ≤ n + 1 else n + 1 ≤ cursor := by
  have ahead_iff (p : Nat) : ahead s.direction (s.cursor.getD 0) p = true ↔
      if s.direction = .forward then cursor ≤ p else p ≤ cursor := by
    rw [at_cursor]
    cases s.direction <;> simp [ahead]
  rw [walkOrder_row l row]
  constructor
  · rintro ⟨k, member, position, entry⟩
    obtain here | later := List.mem_append.mp member
    · rw [← position]
      exact (ahead_iff _).mp (List.mem_filter.mp here).2
    · obtain ⟨_, row', _, _, above⟩ := candidatesOf_entered later
      have above := above e.row rfl
      rw [entry] at row'
      omega
  · intro past
    refine ⟨⟨e.row, s.direction, n + 1, e⟩, List.mem_append_left _ (List.mem_filter.mpr ⟨?_, (ahead_iff _).mpr past⟩), rfl, rfl⟩
    exact (mem_pendingInRow l _ _ _).mpr ⟨rfl, rfl, rfl, pending, by simp, by simpa using at'⟩

end Sys2Proof.Machine
end

section
/-! The walk's search: the entry taken, the entries skipped below the floor, the session's end (R71, R72, R82). -/

namespace Sys2Proof.Machine

/-! ### The search's start -/

/-- The sampling floor in force for a wafer (R72). -/
def Part.floor (c : Part) (w : Wafer) : Option Nat :=
  if c.sampled w.lot w.slot then some c.sessionRecipe.samplingFloor else none

theorem walk_eq {c : Part} {t : Nat} {w : Wafer} (session : c.session.wafer = some t) (wafer : c.wafer? t = some w) :
    walk c = takeFirst t (c.floor w) (walkOrder c.session (c.entries w.lot w.slot)) c := by
  simp only [walk, session, wafer]
  rfl

theorem takeFirst_takes {t : Nat} {bound : Option Nat} {k : Candidate} (rest : List Candidate) (c : Part)
    (enough : ∀ f, bound = some f → f ≤ k.entry.priority) : takeFirst t bound (k :: rest) c = takeSite t k c := by
  cases bound with
  | none => rfl
  | some f => exact if_neg (Nat.not_lt.mpr (enough f rfl))

theorem takeFirst_nil (t : Nat) (bound : Option Nat) (c : Part) : takeFirst t bound [] c = sessionEnd c := rfl

/-! ### A site taken (R71) -/

/-- The session with a candidate in flight. -/
def Session.took (s : Session) (k : Candidate) : Session :=
  { s with row := some k.row, direction := k.direction, cursor := some k.position, inFlight := some k.entry.number }

theorem takeSite_spec {c : Part} {t : Nat} {w : Wafer} (k : Candidate) (wafer : c.wafer? t = some w) :
    let d := takeSite t k c
    (d.session = c.session.took k ∧ d = { c with session := d.session, lists := d.lists }) ∧
    OnlySites w.lot w.slot [k.entry.number] c d ∧
    ∀ i slot e, c.site? t k.entry.number = some (i, slot, e) →
      d.site? t k.entry.number = some (i, slot, { e with state := .moving }) := by
  have rest := updateSite_rest c t k.entry.number (fun e => { e with state := .moving })
  have only := updateSite_onlySites t k.entry.number (fun e => { e with state := .moving }) c w wafer (fun _ => rfl)
  have taken : takeSite t k c = { c with session := c.session.took k
                                         lists := (takeSite t k c).lists } := by
    conv_lhs => rw [takeSite, rest]
    rfl
  refine ⟨⟨?_, ?_⟩, only, fun i slot e site => ?_⟩
  · rw [taken]
  · rw [taken]
  · exact (updateSite_found c t _ (fun e => { e with state := .moving }) i slot e (fun _ => rfl) site).1

/-! ### The session's end (R82, R83) -/

/-- The outcome of a session over the lists of `d`. -/
def Part.sessionResult (c d : Part) (w : Wafer) : WaferOutcome :=
  if c.lotAborted w.lot = true then .aborted
  else if ∃ e ∈ d.entries w.lot w.slot, e.state = .skipped ∨ e.state = .failed then .partialReview else .reviewed

/-- The session of wafer `t` has ended, and of the session's records nothing else stands. -/
def SessionEnded (c : Part) (t : Nat) (w : Wafer) (d : Part) : Prop :=
  d.session = ⟨.idle, none, none, .forward, none, none⟩ ∧ d.focusMap = [] ∧
    d.focusReference = none ∧ d.drive = c.settings.parkZ ∧ .session ∈ rawSet d .image ∧
    d.wafers = c.wafers.set t (some { w with phase := .reviewed, outcome := some (c.sessionResult d w) })

theorem session_raised (c d : Part) (notices : d.notices = (raiseEvent .image .session c).notices) :
    .session ∈ rawSet d .image := by
  rw [mem_rawSet]
  refine ⟨by decide, ?_⟩
  rw [if_pos (by rfl), notices]
  exact (mem_raiseEvent .image .session .session c).mpr ⟨by decide, rfl, .inl rfl⟩

theorem sessionEnd_ended {c : Part} {t : Nat} {w : Wafer} (session : c.session.wafer = some t)
    (wafer : c.wafer? t = some w) : SessionEnded c t w (sessionEnd c) ∧ (sessionEnd c).lists = c.lists := by
  have ended := sessionEnd_spec c t w session wafer
  refine ⟨⟨?_, ?_, ?_, ?_, session_raised c _ ?_, ?_⟩, ?_⟩
  all_goals rw [ended]
  rfl

/-- A site is read from the same list when its wafer's lot and slot stay. -/
theorem site?_wafer {c d : Part} {t : Nat} {w x : Wafer} (wafer : c.wafer? t = some w) (wafer' : d.wafer? t = some x)
    (lot : x.lot = w.lot) (slot : x.slot = w.slot) (lists : d.lists = c.lists) (n : Nat) : d.site? t n = c.site? t n := by
  rw [site?_entryAt d t n x wafer', site?_entryAt c t n w wafer, lot, slot]
  unfold Part.entryAt Part.entries Part.list?
  rw [lists]

theorem sessionEnd_site {c : Part} {t : Nat} {w : Wafer} (session : c.session.wafer = some t)
    (wafer : c.wafer? t = some w) (n : Nat) : (sessionEnd c).site? t n = c.site? t n := by
  obtain ⟨⟨_, _, _, _, _, wafers⟩, lists⟩ := sessionEnd_ended session wafer
  exact site?_wafer wafer (wafer?_set c _ t w _ wafer wafers) rfl rfl lists n

/-! ### The entries met -/

/-- The entries that a search meets are read under their numbers, which differ. -/
theorem walkOrder_numbers {s : Session} {l : List SiteEntry} (distinct : (l.map (·.number)).Nodup) :
    ((walkOrder s l).map (·.entry.number)).Nodup := by
  refine List.pairwise_map.mpr ((walkOrder_ordered s l).imp_of_mem fun {a b} ha hb before same => ?_)
  obtain ⟨_, row, low, at', _⟩ := walkOrder_entered ha
  obtain ⟨_, row', low', at'', _⟩ := walkOrder_entered hb
  have place (k : Candidate) (h : l[k.position - 1]? = some k.entry) :
      (l.map (·.number))[k.position - 1]? = some k.entry.number := by rw [List.getElem?_map, h]; rfl
  obtain ⟨inside, value⟩ := List.getElem?_eq_some_iff.mp (place a at')
  obtain ⟨inside', value'⟩ := List.getElem?_eq_some_iff.mp (place b at'')
  have position : a.position - 1 = b.position - 1 :=
    (distinct.getElem_inj_iff).mp (value.trans (same.trans value'.symm))
  have entry : a.entry = b.entry := Option.some.inj (at'.symm.trans (position ▸ at''))
  obtain lower | ⟨_, _, earlier⟩ := before
  · rw [entry] at row
    omega
  · unfold Candidate.Before at earlier
    split at earlier <;> omega

theorem find_of_nodup {l : List SiteEntry} (distinct : (l.map (·.number)).Nodup) {n : Nat} {e : SiteEntry}
    (at' : l[n]? = some e) : l.find? (fun x => x.number == e.number) = some e := by
  induction l generalizing n with
  | nil => cases at'
  | cons a rest ih =>
    obtain ⟨fresh, distinct⟩ := List.nodup_cons.mp distinct
    cases n with
    | zero =>
      obtain rfl := Option.some.inj at'
      exact List.find?_cons_of_pos (by simp)
    | succ n =>
      have member : e.number ∈ rest.map (·.number) := List.mem_map_of_mem (List.mem_of_getElem? at')
      have differ : a.number ≠ e.number := fun same => fresh (show a.number ∈ _ from same ▸ member)
      rw [List.find?_cons_of_neg (by simpa using differ)]
      exact ih distinct at'

theorem walkOrder_site {c : Part} {t : Nat} {w : Wafer} {k : Candidate} (wafer : c.wafer? t = some w)
    (distinct : ((c.entries w.lot w.slot).map (·.number)).Nodup) (member : k ∈ walkOrder c.session (c.entries w.lot w.slot)) :
    c.site? t k.entry.number = some (w.lot, w.slot, k.entry) := by
  obtain ⟨_, _, _, at', _⟩ := walkOrder_entered member
  rw [site?_entryAt c t _ w wafer, Part.entryAt, find_of_nodup distinct at']
  rfl

/-! ### The search below the floor (R72) -/

/-- The search that skips candidates and then takes one. -/
theorem walk_skips_takes {c : Part} {t : Nat} {w : Wafer} {skipped more : List Candidate} {k : Candidate}
    (wafer : c.wafer? t = some w)
    (sites : ∀ x ∈ skipped ++ k :: more, c.site? t x.entry.number = some (w.lot, w.slot, x.entry))
    (distinct : ((skipped ++ k :: more).map (·.entry.number)).Nodup) :
    let d := takeSite t k (skipAll t skipped c)
    d.stats = c.stats.set .sitesSkipped (c.stats.get .sitesSkipped + BitVec.ofNat 32 skipped.length) ∧
    OnlySites w.lot w.slot ((skipped ++ [k]).map (·.entry.number)) c d ∧
    (∀ x ∈ skipped, d.site? t x.entry.number = some (w.lot, w.slot, resolveEntry (.skipped .sampledDown) x.entry)) ∧
    d.session = c.session.took k ∧
    d.site? t k.entry.number = some (w.lot, w.slot, { k.entry with state := .moving }) := by
  rw [List.map_append] at distinct
  obtain ⟨distinct_skipped, _, apart⟩ := List.nodup_append.mp distinct
  have fresh (x : Candidate) (h : x ∈ skipped) : x.entry.number ≠ k.entry.number :=
    apart _ (List.mem_map_of_mem h) _ (List.mem_map_of_mem List.mem_cons_self)
  have spec := skipAll_spec t w skipped c wafer (fun x h => sites x (List.mem_append_left _ h)) distinct_skipped
  dsimp only at spec ⊢
  generalize skipAll t skipped c = m at spec ⊢
  obtain ⟨rest, read, only, _⟩ := spec
  have wafers : m.wafers = c.wafers := by rw [rest]
  have wafer' : m.wafer? t = some w := by rw [Part.wafer?, wafers]; exact wafer
  obtain ⟨⟨session, taken⟩, only', found⟩ := takeSite_spec k wafer'
  have kept : m.site? t k.entry.number = some (w.lot, w.slot, k.entry) := by
    refine only.site? wafers (sites k (List.mem_append_right _ List.mem_cons_self)) (.inr fun h => ?_)
    obtain ⟨x, member, same⟩ := List.mem_map.mp h
    exact fresh x member same
  refine ⟨?_, ?_, fun x member => ?_, ?_, found _ _ _ kept⟩
  · rw [taken, rest]
  · rw [List.map_append]
    exact (only.mono fun _ => List.mem_append_left _).trans (only'.mono fun _ => List.mem_append_right _)
  · refine only'.site? (by rw [taken]) (read x member) (.inr ?_)
    simpa using fresh x member
  · rw [session, rest]

/-- The search that skips candidates and then ends the session. -/
theorem walk_skips_ends {c : Part} {t : Nat} {w : Wafer} {skipped : List Candidate} (session : c.session.wafer = some t)
    (wafer : c.wafer? t = some w) (sites : ∀ x ∈ skipped, c.site? t x.entry.number = some (w.lot, w.slot, x.entry))
    (distinct : (skipped.map (·.entry.number)).Nodup) :
    let d := sessionEnd (skipAll t skipped c)
    d.stats = c.stats.set .sitesSkipped (c.stats.get .sitesSkipped + BitVec.ofNat 32 skipped.length) ∧
    OnlySites w.lot w.slot (skipped.map (·.entry.number)) c d ∧
    (∀ x ∈ skipped, d.site? t x.entry.number = some (w.lot, w.slot, resolveEntry (.skipped .sampledDown) x.entry)) ∧
    SessionEnded c t w d := by
  have spec := skipAll_spec t w skipped c wafer sites distinct
  dsimp only at spec ⊢
  generalize skipAll t skipped c = m at spec ⊢
  obtain ⟨rest, read, only, aborted⟩ := spec
  have wafers : m.wafers = c.wafers := by rw [rest]
  have wafer' : m.wafer? t = some w := by rw [Part.wafer?, wafers]; exact wafer
  have session' : m.session.wafer = some t := by rw [rest]; exact session
  have settings : m.settings = c.settings := by rw [rest]
  obtain ⟨⟨idle, map, reference, drive, raised, wafers'⟩, lists⟩ := sessionEnd_ended session' wafer'
  refine ⟨?_, onlySites_congr _ _ _ _ _ _ _ rfl lists only, fun x member => ?_,
    ⟨idle, map, reference, drive.trans (by rw [settings]), raised, ?_⟩⟩
  · rw [sessionEnd_spec m t w session' wafer', rest]
  · rw [sessionEnd_site session' wafer', read x member]
  · rw [wafers', wafers, Part.sessionResult, Part.sessionResult, aborted]

/-- What a search that meets `skipped`, all below the floor, and then `rest` has done. -/
theorem walk_below_floor {c : Part} {t : Nat} {w : Wafer} {skipped rest : List Candidate} (session : c.session.wafer = some t)
    (wafer : c.wafer? t = some w) (sampled : c.sampled w.lot w.slot = true)
    (distinct : ((c.entries w.lot w.slot).map (·.number)).Nodup)
    (order : walkOrder c.session (c.entries w.lot w.slot) = skipped ++ rest)
    (below : ∀ x ∈ skipped, x.entry.priority < c.sessionRecipe.samplingFloor)
    (least : ∀ k more, rest = k :: more → c.sessionRecipe.samplingFloor ≤ k.entry.priority) :
    (walk c).stats = c.stats.set .sitesSkipped (c.stats.get .sitesSkipped + BitVec.ofNat 32 skipped.length) ∧
    OnlySites w.lot w.slot ((skipped ++ rest.take 1).map (·.entry.number)) c (walk c) ∧
    (∀ x ∈ skipped, (walk c).site? t x.entry.number =
      some (w.lot, w.slot, resolveEntry (.skipped .sampledDown) x.entry)) ∧
    (∀ k more, rest = k :: more → (walk c).session = c.session.took k ∧
      (walk c).site? t k.entry.number = some (w.lot, w.slot, { k.entry with state := .moving })) ∧
    (rest = [] → SessionEnded c t w (walk c)) := by
  have bound : c.floor w = some c.sessionRecipe.samplingFloor := if_pos sampled
  have skips : walk c = takeFirst t (some c.sessionRecipe.samplingFloor) rest (skipAll t skipped c) := by
    rw [walk_eq session wafer, bound, order]
    exact takeFirst_skips t _ rest skipped c below
  have sites (x : Candidate) (member : x ∈ skipped ++ rest) : c.site? t x.entry.number = some (w.lot, w.slot, x.entry) :=
    walkOrder_site wafer distinct (order ▸ member)
  have numbers : ((skipped ++ rest).map (·.entry.number)).Nodup := order ▸ walkOrder_numbers distinct
  cases rest with
  | nil =>
    rw [List.append_nil] at sites numbers
    rw [takeFirst_nil] at skips
    have ended := walk_skips_ends session wafer sites numbers
    dsimp only at ended
    rw [← skips] at ended
    obtain ⟨stats, only, read, over_now⟩ := ended
    exact ⟨stats, only.mono fun _ h => by simpa using h, read,
      fun k more h => absurd h.symm (List.cons_ne_nil k more), fun _ => over_now⟩
  | cons k more =>
    rw [takeFirst_takes more _ fun f h => Option.some.inj h ▸ least k more rfl] at skips
    have took := walk_skips_takes wafer sites numbers
    dsimp only at took
    rw [← skips] at took
    obtain ⟨stats, only, read, at_site, taken⟩ := took
    refine ⟨stats, only, read, fun k' more' same => ?_, fun h => absurd h (List.cons_ne_nil k more)⟩
    obtain ⟨rfl, _⟩ := List.cons.inj same
    exact ⟨at_site, taken⟩

/-- Settles O45: the order of the search, then what the search does with the entries it meets. -/
theorem walkTakesTheNextSite : Obligations.WalkTakesTheNextSite := by
  intro c t w session wafer entries found floor took outcome ended
  have walked := walk_eq session wafer
  refine ⟨fun k rest whole enough => ?_, fun nothing => ?_, ?_, fun k => walkOrder_entered, walkOrder_ordered _ _,
    fun k rest whole => ?_, fun before a b after whole => ?_, fun n e => walkOrder_complete,
    fun n e cursor => walkOrder_current⟩
  · have taken : walk c = takeSite t k c := by
      rw [walked, show walkOrder _ _ = _ from whole]
      refine takeFirst_takes rest c fun f bound => ?_
      unfold Part.floor at bound
      split at bound
      · rename_i sampled
        obtain rfl := Option.some.inj bound
        exact enough.resolve_left fun h => by rw [sampled] at h; cases h
      · cases bound
    dsimp only
    rw [taken]
    obtain ⟨⟨at_site, rest'⟩, only, sites⟩ := takeSite_spec k wafer
    exact ⟨at_site, rest', only, sites⟩
  · have ends : walk c = sessionEnd c := by
      rw [walked, show walkOrder _ _ = _ from nothing]
      rfl
    obtain ⟨over_now, lists⟩ := sessionEnd_ended session wafer
    rw [ends]
    exact ⟨rfl, over_now, lists⟩
  · intro skipped rest sampled distinct whole below least
    exact walk_below_floor session wafer sampled distinct whole below least
  · obtain ⟨begins, goes_on⟩ := walkOrder_direction whole
    cases row : c.session.row with
    | none => exact begins row
    | some r => exact (goes_on r row).trans (by rw [opposite_eq])
  · intro lower
    have chain := walkOrder_alternates c.session entries
    rw [show walkOrder _ _ = _ from whole] at chain
    exact (List.isChain_append_cons_cons.mp chain).2.1 lower

end Sys2Proof.Machine
end

section
/-! What a completed order does to the cell: the wafer's arrival, the locks, the ALIGN's read, the stage (R45, R51, R55,
R58, R60, R63, R73). -/

namespace Sys2Proof.Machine

/-! ### Places and wafer records written twice -/

theorem PlaceTable.set_set (p : PlaceTable) (q : Place) (a b : PlaceEntry) : (p.set q a).set q b = p.set q b := by
  cases q <;> rfl

/-- The record of a wafer that a part has already rewritten is rewritten again. -/
theorem updateWafer_again {c d : Part} {t : Nat} {w x : Wafer} (f : Wafer → Wafer) (wafer : c.wafer? t = some w)
    (wafers : d.wafers = c.wafers.set t (some x)) : updateWafer t f d = { d with wafers := c.wafers.set t (some (f x)) } := by
  rw [updateWafer_some d t x f (wafer?_set c d t w x wafer wafers), wafers, List.set_set]

/-- A wafer record written over with itself. -/
theorem wafers_set_self {c : Part} {t : Nat} {w : Wafer} (wafer : c.wafer? t = some w) : c.wafers.set t (some w) = c.wafers := by
  have inside := wafer?_lt c t w wafer
  have same : some w = c.wafers[t] := by rw [← wafer, Part.wafer?, List.getD_eq_getElem _ _ inside]
  rw [same, List.set_getElem_self]

/-! ### What leaves the wafers where they lie -/

/-- The places and the place of every wafer stay. -/
def Placed (c d : Part) : Prop := d.places = c.places ∧ ∀ t, (d.wafer? t).map (·.place) = (c.wafer? t).map (·.place)

theorem Placed.of_same {c d : Part} (places : d.places = c.places) (wafers : d.wafers = c.wafers) : Placed c d :=
  ⟨places, fun t => by unfold Part.wafer?; rw [wafers]⟩

theorem Placed.trans {a b c : Part} (h : Placed a b) (k : Placed b c) : Placed a c :=
  ⟨k.1.trans h.1, fun t => (k.2 t).trans (h.2 t)⟩

theorem updateWafer_other {c : Part} {t u : Nat} (f : Wafer → Wafer) (differ : u ≠ t) :
    (updateWafer t f c).wafer? u = c.wafer? u := by
  unfold updateWafer
  split
  · rfl
  · unfold Part.wafer? setWafer
    rw [List.getD_eq_getElem?_getD, List.getD_eq_getElem?_getD, List.getElem?_set_ne (Ne.symm differ)]

theorem updateWafer_placed (t : Nat) {f : Wafer → Wafer} (c : Part) (kept : ∀ w, (f w).place = w.place) :
    Placed c (updateWafer t f c) := by
  refine ⟨by rw [updateWafer_elim], fun u => ?_⟩
  by_cases same : u = t
  · subst same
    cases wafer : c.wafer? u with
    | none => rw [updateWafer_elim, wafer]; exact congrArg _ wafer
    | some w =>
      rw [updateWafer_some c u w f wafer, wafer?_set c _ u w (f w) wafer rfl]
      exact congrArg some (kept w)
  · rw [updateWafer_other f same]

theorem setPhase_placed (t : Nat) (p : Phase) (c : Part) : Placed c (setPhase t p c) := updateWafer_placed t c fun _ => rfl

theorem dropReservation_placed (t : Nat) (p : Purpose) (k : LockId) (c : Part) : Placed c (dropReservation t p k c) :=
  .of_same (by rw [dropReservation_rest]) (by rw [dropReservation_rest])

theorem updateSite_placed (t n : Nat) (f : SiteEntry → SiteEntry) (c : Part) : Placed c (updateSite t n f c) :=
  .of_same (by rw [updateSite_rest]) (by rw [updateSite_rest])

theorem skipSite_placed (t n : Nat) (why : Reason) (c : Part) : Placed c (resolveSite t n (.skipped why) c) := by
  unfold resolveSite
  split
  · exact .of_same rfl rfl
  · rw [countResolution_rest _ _ (.skipped why) _ nofun]
    exact .of_same rfl rfl

theorem sessionEnd_placed (c : Part) : Placed c (sessionEnd c) := by
  unfold sessionEnd
  split
  · exact .of_same rfl rfl
  · rename_i t _
    dsimp only
    split
    · exact .of_same rfl rfl
    · rename_i w wafer
      have ended := updateWafer_placed t (f := fun w => { w with
        outcome := some (sessionOutcome (c.lotAborted w.lot) (c.entries w.lot w.slot)), phase := .reviewed }) c fun _ => rfl
      rw [updateWafer_some c t w _ wafer] at ended
      exact ended.trans (.of_same rfl rfl)

theorem takeFirst_placed (t : Nat) (bound : Option Nat) (ks : List Candidate) : ∀ c, Placed c (takeFirst t bound ks c) := by
  induction ks with
  | nil => exact sessionEnd_placed
  | cons k rest ih =>
    intro c
    have taken : Placed c (takeSite t k c) := (updateSite_placed t _ _ c).trans (.of_same rfl rfl)
    unfold takeFirst
    split
    · exact taken
    · split
      · exact (skipSite_placed t _ _ c).trans (ih _)
      · exact taken

theorem walk_placed (c : Part) : Placed c (walk c) := by
  unfold walk
  split
  · exact .of_same rfl rfl
  · split
    · exact .of_same rfl rfl
    · exact takeFirst_placed _ _ _ c

theorem sessionBegin_placed (t : Nat) (c : Part) : Placed c (sessionBegin t c) := by
  unfold sessionBegin
  have walks (d : Part) (same : Placed c d) : Placed c (walk d) := same.trans (walk_placed d)
  dsimp only
  split
  · exact walks _ (.of_same rfl rfl)
  · split
    · exact walks _ (.of_same rfl rfl)
    · split
      · exact .of_same rfl rfl
      · exact walks _ (.of_same rfl rfl)

theorem vrPlaced_placed (p : Place) (t : Nat) (c : Part) : Placed c (vrPlaced p t c) := by
  unfold vrPlaced
  split
  · unfold stageReached
    split
    · exact .of_same rfl rfl
    · split
      · exact setPhase_placed _ _ _
      · exact (setPhase_placed _ _ _).trans (sessionBegin_placed _ _)
  · exact (dropReservation_placed _ _ _ _).trans (setPhase_placed _ _ _)

end Sys2Proof.Machine
end

section
/-! The completion of each kind of order as one equation (R45), and O40. -/

namespace Sys2Proof.Machine

/-! ### A wafer that is carried (R45) -/

/-- The places after a wafer has left `source` for `target`. -/
def PlaceTable.moved (p : PlaceTable) (t : Nat) (source target : Place) : PlaceTable :=
  (p.set source { p.get source with occupant := none }).set target ⟨some t, none⟩

theorem PlaceTable.moved_spec (p : PlaceTable) (t : Nat) (source target : Place) :
    (p.moved t source target).get target = ⟨some t, none⟩ ∧
    (source ≠ target → (p.moved t source target).get source = { p.get source with occupant := none }) ∧
    ∀ q, q ≠ target → q ≠ source → (p.moved t source target).get q = p.get q := by
  refine ⟨PlaceTable.get_set_same _ _ _, fun differ => ?_, fun q not_target not_source => ?_⟩
  · rw [PlaceTable.moved, PlaceTable.get_set_other _ _ _ _ differ.symm, PlaceTable.get_set_same]
  · rw [PlaceTable.moved, PlaceTable.get_set_other _ _ _ _ not_target.symm,
      PlaceTable.get_set_other _ _ _ _ not_source.symm]

/-- The wafer, taken from a place, lies at another one. -/
def Part.carried (c : Part) (t : Nat) (w : Wafer) (source target : Place) : Part :=
  { c with places := c.places.moved t source target, wafers := c.wafers.set t (some { w with place := some target }) }

theorem arrive_cleared {c : Part} {t : Nat} {w : Wafer} (source target : Place) (wafer : c.wafer? t = some w) :
    arrive t target (clearOccupant source c) = c.carried t w source target :=
  arrive_some (clearOccupant source c) t target w wafer

theorem carried_wafer {c : Part} {t : Nat} {w : Wafer} (source target : Place) (wafer : c.wafer? t = some w) :
    (c.carried t w source target).wafer? t = some { w with place := some target } :=
  wafer?_set c _ t w _ wafer rfl

theorem carried_update {c : Part} {t : Nat} {w : Wafer} {source target : Place} (f : Wafer → Wafer)
    (wafer : c.wafer? t = some w) : updateWafer t f (c.carried t w source target) =
      { c.carried t w source target with wafers := c.wafers.set t (some (f { w with place := some target })) } :=
  updateWafer_again f wafer rfl

/-! ### The kinds of order -/

theorem completion_pickSlot {m : Mover} {o : Order} {text : Option Text} {c : Part} {t : Nat} {w : Wafer} {blade : Blade}
    {port : LoadPort} {n : Nat} (tag : o.wafer = some t) (wafer : c.wafer? t = some w)
    (kind : o.kind = .arPick blade (.slot port n)) :
    applyCompletion m o text c = { c with
      places := c.places.set blade.place ⟨some t, none⟩
      wafers := c.wafers.set t (some { w with place := some blade.place, phase := .aligning }) } := by
  simp only [applyCompletion, kind, tag]
  exact updateWafer_again _ wafer (by rw [arrive_some c t _ w wafer]) |>.trans (by rw [arrive_some c t _ w wafer])

theorem completion_pick {m : Mover} {o : Order} {text : Option Text} {c : Part} {t : Nat} {w : Wafer} {blade : Blade}
    {p : Place} (tag : o.wafer = some t) (wafer : c.wafer? t = some w) (kind : o.kind = .arPick blade (.place p)) :
    applyCompletion m o text c = c.carried t w p blade.place := by
  simp only [applyCompletion, kind, tag]
  exact arrive_cleared _ _ wafer

theorem completion_place {m : Mover} {o : Order} {text : Option Text} {c : Part} {t : Nat} {w : Wafer} {blade : Blade}
    {p : Place} (tag : o.wafer = some t) (wafer : c.wafer? t = some w) (kind : o.kind = .arPlace blade (.place p)) :
    applyCompletion m o text c = c.carried t w blade.place p := by
  simp only [applyCompletion, kind, tag]
  exact arrive_cleared _ _ wafer

theorem completion_home {m : Mover} {o : Order} {text : Option Text} {c : Part} {t : Nat} {w : Wafer} {blade : Blade}
    {port : LoadPort} {n : Nat} (tag : o.wafer = some t) (wafer : c.wafer? t = some w)
    (kind : o.kind = .arPlace blade (.slot port n)) :
    applyCompletion m o text c = { c with
      places := c.places.set blade.place { c.places.get blade.place with occupant := none }
      wafers := c.wafers.set t (some { w with place := none, phase := .home }) } := by
  simp only [applyCompletion, kind, tag]
  exact updateWafer_again (d := clearOccupant blade.place c) (x := w) _ wafer (wafers_set_self wafer).symm

theorem completion_vrPick {m : Mover} {o : Order} {text : Option Text} {c : Part} {t : Nat} {w : Wafer} {p : Place}
    (tag : o.wafer = some t) (wafer : c.wafer? t = some w) (kind : o.kind = .vrPick p) :
    applyCompletion m o text c = { c.carried t w p .transferArm with
      wafers := c.wafers.set t (some { w with place := some .transferArm
                                              phase := if p = .stage then .toLock else w.phase }) } := by
  simp only [applyCompletion, kind, tag]
  rw [arrive_cleared p .transferArm wafer]
  split
  · exact carried_update _ wafer
  · rfl

theorem completion_vrPlace {m : Mover} {o : Order} {text : Option Text} {c : Part} {t : Nat} {w : Wafer} {p : Place}
    (tag : o.wafer = some t) (wafer : c.wafer? t = some w) (kind : o.kind = .vrPlace p) :
    applyCompletion m o text c = vrPlaced p t (c.carried t w .transferArm p) := by
  simp only [applyCompletion, kind, tag]
  rw [arrive_cleared _ _ wafer]

/-- A lock's PUMP or VENT ends (R51). -/
theorem completion_lock {m : Mover} {o : Order} {text : Option Text} {c : Part} {k : LockId} (mover : m = LockId.mover k) :
    (o.kind = .pump → applyCompletion m o text c = pumpDone k o.wafer c) ∧
    (o.kind = .vent → applyCompletion m o text c = ventDone k o.wafer c) := by
  subst mover
  refine ⟨fun kind => ?_, fun kind => ?_⟩
  all_goals
    cases k <;> simp only [applyCompletion, kind] <;> rfl

theorem completion_align {m : Mover} {o : Order} {text : Option Text} {c : Part} {t : Nat} {readId : Bool}
    (tag : o.wafer = some t) (kind : o.kind = .align readId) : applyCompletion m o text c = alignDone t readId text c := by
  simp only [applyCompletion, kind, tag]

theorem completion_moveLoad {m : Mover} {o : Order} {text : Option Text} {c : Part} (kind : o.kind = .moveLoad) :
    applyCompletion m o text c = { c with atLoad := true } := by
  simp only [applyCompletion, kind]

theorem completion_moveSite {m : Mover} {o : Order} {text : Option Text} {c : Part} {x y : Int}
    (kind : o.kind = .moveSite x y) : applyCompletion m o text c = siteArrived c := by
  simp only [applyCompletion, kind]

/-! ### Where a wafer arrives -/

theorem completion_arrives {m : Mover} {o : Order} {text : Option Text} {c : Part} {t : Nat} {w : Wafer}
    {source target : Place} (tag : o.wafer = some t) (wafer : c.wafer? t = some w) (goal : o.kind.target? = some target)
    (from' : o.kind.source? = some source ∨ (o.kind.source? = none ∧ source = target)) :
    (applyCompletion m o text c).places = c.places.moved t source target ∧
      ((applyCompletion m o text c).wafer? t).map (·.place) = some (some target) := by
  have carried (p q : Place) (d : Part) (same : Placed (c.carried t w p q) d) :
      d.places = c.places.moved t p q ∧ (d.wafer? t).map (·.place) = some (some q) :=
    ⟨same.1, (same.2 t).trans (by rw [carried_wafer p q wafer]; rfl)⟩
  have rests (p q : Place) (d : Part) (same : d = c.carried t w p q) :
      d.places = c.places.moved t p q ∧ (d.wafer? t).map (·.place) = some (some q) :=
    carried p q d (same ▸ .of_same rfl rfl)
  cases kind : o.kind with
  | arPick blade station =>
    rw [kind] at goal from'
    obtain rfl := Option.some.inj goal
    cases station with
    | slot port n =>
      obtain ⟨_, rfl⟩ := from'.resolve_left nofun
      rw [completion_pickSlot tag wafer kind]
      exact ⟨(PlaceTable.set_set _ _ _ _).symm, congrArg (Option.map (·.place)) (wafer?_set c _ t w
        { w with place := some blade.place, phase := .aligning } wafer rfl)⟩
    | place p =>
      obtain rfl := Option.some.inj (from'.resolve_right nofun)
      exact rests _ _ _ (completion_pick tag wafer kind)
  | arPlace blade station =>
    rw [kind] at goal from'
    cases station with
    | slot port n => cases goal
    | place p =>
      obtain rfl := Option.some.inj goal
      obtain rfl := Option.some.inj (from'.resolve_right nofun)
      exact rests _ _ _ (completion_place tag wafer kind)
  | vrPick p =>
    rw [kind] at goal from'
    obtain rfl := Option.some.inj goal
    obtain rfl := Option.some.inj (from'.resolve_right nofun)
    rw [completion_vrPick tag wafer kind]
    exact ⟨rfl, congrArg (Option.map (·.place)) (wafer?_set c _ t w
      { w with place := some .transferArm, phase := if p = .stage then .toLock else w.phase } wafer rfl)⟩
  | vrPlace p =>
    rw [kind] at goal from'
    obtain rfl := Option.some.inj goal
    obtain rfl := Option.some.inj (from'.resolve_right nofun)
    rw [completion_vrPlace tag wafer kind]
    exact carried _ _ _ (vrPlaced_placed _ _ _)
  | pump => rw [kind] at goal; cases goal
  | vent => rw [kind] at goal; cases goal
  | align readId => rw [kind] at goal; cases goal
  | moveLoad => rw [kind] at goal; cases goal
  | moveSite x y => rw [kind] at goal; cases goal

/-! ### The VR's PLACE (R60, R63, R69) -/

theorem lock?_place (k : LockId) : (LockId.place k).lock? = some k := by cases k <;> rfl

theorem vrPlaced_lock {c : Part} {t : Nat} {w : Wafer} (k : LockId) (wafer : c.wafer? t = some w) :
    let d := vrPlaced k.place t c
    d.wafers = c.wafers.set t (some { w with phase := .venting }) ∧
    d.lock k = { c.lock k with reservation :=
      if (c.lock k).reservation = some ⟨t, .returning⟩ then none else (c.lock k).reservation } ∧
    d.lock k.other = c.lock k.other ∧ d = { c with wafers := d.wafers, lockA := d.lockA, lockB := d.lockB } := by
  have rest := dropReservation_rest t .returning k c
  have placed : vrPlaced k.place t c = { dropReservation t .returning k c with
      wafers := c.wafers.set t (some { w with phase := .venting }) } := by
    simp only [vrPlaced, lock?_place]
    exact updateWafer_again (x := w) _ wafer (by rw [rest]; exact (wafers_set_self wafer).symm)
  dsimp only
  rw [placed]
  refine ⟨rfl, ?_, dropReservation_other t .returning k.other k c (lock_other_ne k), by rw [rest]⟩
  have dropped := dropReservation_lock t .returning k c
  refine (show Part.lock _ k = (dropReservation t .returning k c).lock k by cases k <;> rfl).trans (dropped.trans ?_)
  split <;> rfl

/-- The part at session begin: the session, its maps and the SESSION condition (R69). -/
def Part.begun (c : Part) (t : Nat) : Part :=
  raiseEvent .image .session { c with
    session := ⟨.active, some t, none, .forward, none, none⟩, focusMap := [], focusReference := none }

theorem sessionBegin_spec {c : Part} {t : Nat} {w : Wafer} {l : Lot} (wafer : c.wafer? t = some w)
    (lot : c.lot? w.lot = some l) :
    sessionBegin t c = if l.hold = .holdN then setSessionState .paused (c.begun t) else walk (c.begun t) := by
  have session : (c.begun t).sessionLot = some w.lot := congrArg (·.map (·.lot)) wafer
  have lot' : (c.begun t).lot? w.lot = some l := lot
  have begun : sessionBegin t c = match (c.begun t).sessionLot with
    | none => walk (c.begun t)
    | some i => match (c.begun t).lot? i with
      | none => walk (c.begun t)
      | some l => if l.hold = .holdN then setSessionState .paused (c.begun t) else walk (c.begun t) := rfl
  rw [begun, session]
  dsimp only
  rw [lot']

theorem lotAborted_lot {c : Part} {i : LoadPort} {l : Lot} (lot : c.lot? i = some l) : c.lotAborted i = l.aborted := by
  simp only [Part.lotAborted, lot]

theorem vrPlaced_stage {c : Part} {t : Nat} {w : Wafer} {l : Lot} (wafer : c.wafer? t = some w)
    (lot : c.lot? w.lot = some l) : vrPlaced .stage t c =
      if l.aborted = true then { c with wafers := c.wafers.set t (some { w with phase := .reviewed }) }
      else sessionBegin t { c with wafers := c.wafers.set t (some { w with phase := .reviewing }) } := by
  have reached : vrPlaced .stage t c = stageReached t c := rfl
  rw [reached, stageReached, wafer, ← lotAborted_lot lot, ← setPhase_some wafer, ← setPhase_some wafer]

end Sys2Proof.Machine
end

section
/-! The ALIGN's read, the stage's arrival, and O40. -/

namespace Sys2Proof.Machine

/-! ### The read of an ALIGN (R55) -/

/-- The read that an ALIGN's text is. -/
def readOf (readId : Bool) (text : Option Text) : Option Text :=
  text.filter (fun x => readId && decide (1 ≤ x.length ∧ x.length ≤ 24))

theorem successfulRead_eq (readId : Bool) (text : Option Text) : successfulRead readId text = readOf readId text := by
  cases readId with
  | false => cases text <;> rfl
  | true =>
    cases text with
    | none => rfl
    | some x =>
      have within : textWithin 24 x = decide (1 ≤ x.length ∧ x.length ≤ 24) := by
        rw [Bool.eq_iff_iff, textWithin_iff, decide_eq_true_iff]
      simp only [successfulRead, readOf, within, Option.filter, Bool.true_and]

/-- The wafer with the read it keeps. -/
def Wafer.withRead (w : Wafer) (read : Option Text) : Wafer :=
  { w with readId := if read = none then w.readId else read }

/-- What the slot map of the wafer's carrier expects where the recipe reads IDs. -/
def Part.Expects (c : Part) (w : Wafer) (x : Text) : Prop :=
  (c.recipeOf w.lot).readId = true ∧
    ∃ map e, (c.carrier w.lot).map = some map ∧ map[w.slot - 1]? = some e ∧ e.expected = some x

theorem expectedId_iff (c : Part) (i : LoadPort) (slot : Nat) (x : Text) : c.expectedId i slot = some x ↔
    ∃ map e, (c.carrier i).map = some map ∧ map[slot - 1]? = some e ∧ e.expected = some x := by
  unfold Part.expectedId
  cases (c.carrier i).map with
  | none => simp
  | some map =>
    dsimp only
    cases entry : map[slot - 1]? with
    | none => simp [entry]
    | some e => simp [entry]

theorem expects_iff (c : Part) (w : Wafer) (x : Text) :
    c.Expects w x ↔ (c.recipeOf w.lot).readId = true ∧ c.expectedId w.lot w.slot = some x := by
  rw [expectedId_iff]
  rfl

/-- The part with a wafer's record. -/
def Part.put (c : Part) (t : Nat) (x : Wafer) : Part := { c with wafers := c.wafers.set t (some x) }

theorem alignDone_eq {c : Part} {t : Nat} {w : Wafer} (readId : Bool) (text : Option Text) (wafer : c.wafer? t = some w) :
    alignDone t readId text c =
      if c.lotAborted w.lot then c.put t (w.withRead (readOf readId text))
      else match (c.recipeOf w.lot).readId, c.expectedId w.lot w.slot with
        | true, some x => if readOf readId text = some x then c.put t { w.withRead (readOf readId text) with phase := .waitLock }
            else idMismatch t w x (readOf readId text) (c.put t (w.withRead (readOf readId text)))
        | _, _ => c.put t { w.withRead (readOf readId text) with phase := .waitLock } := by
  have kept : (if (readOf readId text).isSome then updateWafer t (fun w => { w with readId := readOf readId text }) c else c) =
      c.put t (w.withRead (readOf readId text)) := by
    unfold Wafer.withRead Part.put
    cases readOf readId text with
    | none => exact congrArg (fun ws => ({ c with wafers := ws } : Part)) (wafers_set_self wafer).symm
    | some x => exact updateWafer_some c t w _ wafer
  have waits : setPhase t .waitLock (c.put t (w.withRead (readOf readId text))) =
      c.put t { w.withRead (readOf readId text) with phase := .waitLock } := updateWafer_again _ wafer rfl
  rw [← waits]
  simp only [alignDone, wafer, successfulRead_eq, kept]
  rfl

theorem alignDone_aborted {c : Part} {t : Nat} {w : Wafer} (readId : Bool) (text : Option Text) (wafer : c.wafer? t = some w)
    (aborted : c.lotAborted w.lot = true) : alignDone t readId text c = c.put t (w.withRead (readOf readId text)) := by
  rw [alignDone_eq readId text wafer, if_pos aborted]

theorem alignDone_passes {c : Part} {t : Nat} {w : Wafer} (readId : Bool) (text : Option Text) (wafer : c.wafer? t = some w)
    (live : c.lotAborted w.lot = false) (right : ∀ x, c.Expects w x → readOf readId text = some x) :
    alignDone t readId text c = c.put t { w.withRead (readOf readId text) with phase := .waitLock } := by
  rw [alignDone_eq readId text wafer, if_neg (by rw [live]; decide)]
  split
  · rename_i reads expected
    exact if_pos (right _ ((expects_iff c w _).mpr ⟨reads, expected⟩))
  · rfl

theorem alignDone_mismatch {c : Part} {t : Nat} {w : Wafer} {x : Text} (readId : Bool) (text : Option Text)
    (wafer : c.wafer? t = some w) (live : c.lotAborted w.lot = false) (expects : c.Expects w x)
    (wrong : readOf readId text ≠ some x) : alignDone t readId text c =
      idMismatch t w x (readOf readId text) (c.put t (w.withRead (readOf readId text))) := by
  obtain ⟨reads, expected⟩ := (expects_iff c w x).mp expects
  rw [alignDone_eq readId text wafer, if_neg (by rw [live]; decide), reads, expected]
  exact if_neg wrong

theorem idMismatch_spec {c : Part} {t : Nat} {w kept : Wafer} {l : Lot} (x : Text) (read : Option Text)
    (wafer : c.wafer? t = some w) (lot : c.lot? w.lot = some l) :
    let d := idMismatch t w x read (c.put t kept)
    d.wafers = c.wafers.set t (some { kept with outcome := some .idMismatch, phase := .returning }) ∧
    d.errors = (recordError .idMismatch (.idMismatch l.id w.slot x read) c).errors ∧
    d.entries w.lot w.slot = (c.entries w.lot w.slot).map (fun e => if e.state = .pending then
      { e with state := .skipped, captureNo := none, reason := some .idMismatch } else e) ∧
    OnlyList w.lot w.slot c d ∧
    d.stats = c.stats.set .sitesSkipped (c.stats.get .sitesSkipped +
      BitVec.ofNat 32 ((c.entries w.lot w.slot).countP (fun e => e.state == .pending))) := by
  let failed : Part := { recordError .idMismatch (.idMismatch l.id w.slot x read) c with
    wafers := c.wafers.set t (some { kept with outcome := some .idMismatch, phase := .returning }) }
  have reaches : idMismatch t w x read (c.put t kept) = skipPending w.lot w.slot .idMismatch failed := by
    have lot' : (c.put t kept).lot? w.lot = some l := lot
    simp only [idMismatch, lot']
    exact congrArg _ (updateWafer_again _ wafer rfl)
  obtain ⟨lists, skipped, entries, only⟩ := skipPending_spec (c := failed) w.slot .idMismatch lot
  dsimp only
  rw [reaches, skipped]
  exact ⟨rfl, rfl, entries, only, rfl⟩

/-! ### The stage's arrival (R73, R85) -/

theorem takeFocusRequest_predicted_request (x y : Int) (z : Nat) (c : Part) :
    ∃ r, (takeFocusRequest .predicted x y z c).focusRequest = some r ∧ r.kind = .predicted ∧ r.x = x ∧ r.y = y := by
  cases nearest : nearestPoint x y c.focusMap with
  | none => rw [takeFocusRequest_unmapped x y z nearest]; exact ⟨_, rfl, rfl, rfl, rfl⟩
  | some p =>
    rw [takeFocusRequest_mapped z nearest]
    split
    · exact ⟨_, rfl, rfl, rfl, rfl⟩
    · exact ⟨_, rfl, rfl, rfl, rfl⟩

theorem returnToPending_spec {c : Part} {t n : Nat} {i : LoadPort} {slot : Nat} {e : SiteEntry}
    (site : c.site? t n = some (i, slot, e)) : ∃ lists : List RevisitList,
      returnToPending t n c = { c with lists := lists, session := { c.session with inFlight := none } } ∧
      Part.site? { c with lists := lists } t n = some (i, slot, { e with state := .pending, acceptedZ := none }) ∧
      OnlySites i slot [n] c { c with lists := lists } := by
  obtain ⟨lists, rewritten, found, only⟩ :=
    updateSite_lists (fun e => { e with state := .pending, acceptedZ := none }) (fun _ => rfl) site
  exact ⟨lists, by rw [returnToPending, rewritten], found, only⟩

theorem leaveFlight_landed {c d : Part} (landed : { c with session := { c.session with inFlight := none } } = d) :
    leaveFlight c = match d.session.state with
      | .active => walk d
      | .pausing => setSessionState .paused d
      | _ => d := by
  subst landed
  rfl

/-- A session whose site has been put back goes on or is PAUSED. -/
theorem leaveFlight_returned {c : Part} (returned : c.session.inFlight = none) :
    (c.session.state = .active → leaveFlight c = walk c) ∧
    (c.session.state = .pausing → leaveFlight c = { c with session := { c.session with state := .paused } }) := by
  have left := leaveFlight_landed (c := c) (d := c) (by rw [← returned])
  refine ⟨fun active => ?_, fun pausing => ?_⟩
  · rw [left, active]
  · rw [left, pausing]
    rfl

theorem siteArrived_still {c : Part} (h : c.session.wafer = none ∨ c.session.inFlight = none) : siteArrived c = c := by
  unfold siteArrived
  split
  · rename_i wafer inflight
    rcases h with none_there | none_there
    · rw [none_there] at wafer; cases wafer
    · rw [none_there] at inflight; cases inflight
  · rfl

theorem siteArrived_at {c : Part} {t n : Nat} (wafer : c.session.wafer = some t) (inflight : c.session.inFlight = some n) :
    (c.site? t n = none → siteArrived c = c) ∧
    ∀ i slot e, c.site? t n = some (i, slot, e) →
      (e.state ≠ .moving → siteArrived c = c) ∧
      (e.state = .moving → c.session.state = .active → siteArrived c =
        takeFocusRequest .predicted e.x e.y 0 (updateSite t n (fun e => { e with state := .focusing }) c)) ∧
      (e.state = .moving → c.session.state = .pausing → siteArrived c = leaveFlight (returnToPending t n c)) := by
  refine ⟨fun site => ?_, fun i slot e site => ⟨fun still => ?_, fun moving active => ?_, fun moving pausing => ?_⟩⟩
  · simp only [siteArrived, wafer, inflight, site]
  · simp only [siteArrived, wafer, inflight, site, if_neg still]
  · simp only [siteArrived, wafer, inflight, site, if_pos moving, active]
  · simp only [siteArrived, wafer, inflight, site, if_pos moving, pausing]

/-! ### Locks -/

theorem turned_spec (k : LockId) (x : LockState) (ws : List (Option Wafer)) (c : Part) :
    let d : Part := { setLockState k x c with wafers := ws }
    d.lock k = { c.lock k with state := x } ∧ d.lock k.other = c.lock k.other ∧
      d = { c with lockA := d.lockA, lockB := d.lockB, wafers := d.wafers } := by
  cases k <;> exact ⟨rfl, rfl, rfl⟩

theorem completion_turns {m : Mover} {o : Order} {c : Part} {k : LockId} (text : Option Text)
    (mover : m = LockId.mover k) (x : LockState) (ph : Phase)
    (kind : (o.kind = .pump ∧ x = .vacuum ∧ ph = .ready) ∨ (o.kind = .vent ∧ x = .atmosphere ∧ ph = .returning)) :
    ∃ ws, applyCompletion m o text c = { setLockState k x c with wafers := ws } ∧ (o.wafer = none → ws = c.wafers) ∧
      ∀ t w, o.wafer = some t → c.wafer? t = some w → ws = c.wafers.set t (some { w with phase := ph }) := by
  have turned : applyCompletion m o text c =
      o.wafer.elim (setLockState k x c) (fun t => setPhase t ph (setLockState k x c)) := by
    rcases kind with ⟨pump, rfl, rfl⟩ | ⟨vent, rfl, rfl⟩
    · rw [(completion_lock mover).1 pump]
      cases o.wafer <;> rfl
    · rw [(completion_lock mover).2 vent]
      cases o.wafer <;> rfl
  have wafers : (setLockState k x c).wafers = c.wafers := by cases k <;> rfl
  rw [turned]
  generalize setLockState k x c = d at wafers
  cases tag : o.wafer with
  | none => exact ⟨c.wafers, by rw [← wafers]; rfl, fun _ => rfl, fun u _ tag => absurd tag.symm (Option.some_ne_none u)⟩
  | some t =>
    refine ⟨_, updateWafer_elim t _ d, fun tag => absurd tag (Option.some_ne_none t), fun u w tag wafer => ?_⟩
    obtain rfl := Option.some.inj tag
    have wafer' : d.wafer? t = some w := by rw [Part.wafer?, wafers]; exact wafer
    rw [wafer', wafers]
    rfl

end Sys2Proof.Machine
end

section
/-! O40. -/

namespace Sys2Proof.Machine

/-- The wafer set down on the STAGE, in a phase. -/
def Part.staged (c : Part) (t : Nat) (w : Wafer) (ph : Phase) : Part :=
  { c with
    places := c.places.moved t .transferArm .stage
    wafers := c.wafers.set t (some { w with place := some .stage, phase := ph }) }

theorem completion_stage {m : Mover} {o : Order} {text : Option Text} {c : Part} {t : Nat} {w : Wafer} {l : Lot}
    (tag : o.wafer = some t) (wafer : c.wafer? t = some w) (kind : o.kind = .vrPlace .stage)
    (lot : c.lot? w.lot = some l) :
    (l.aborted = true → applyCompletion m o text c = c.staged t w .reviewed) ∧
    (l.aborted = false → l.hold = .holdN →
      applyCompletion m o text c = setSessionState .paused ((c.staged t w .reviewing).begun t)) ∧
    (l.aborted = false → l.hold ≠ .holdN → applyCompletion m o text c = walk ((c.staged t w .reviewing).begun t)) := by
  have staged (ph : Phase) : ({ c.carried t w .transferArm .stage with
      wafers := (c.carried t w .transferArm .stage).wafers.set t (some { w with place := some .stage, phase := ph }) } : Part) =
        c.staged t w ph :=
    congrArg (fun ws => ({ c.carried t w .transferArm .stage with wafers := ws } : Part)) (List.set_set ..)
  have placed := vrPlaced_stage (l := l) (carried_wafer .transferArm .stage wafer) lot
  dsimp only at placed
  rw [staged, staged] at placed
  have reached := (completion_vrPlace (m := m) (text := text) tag wafer kind).trans placed
  have begins := sessionBegin_spec (c := c.staged t w .reviewing) (wafer?_set c _ t w _ wafer rfl) lot
  refine ⟨fun aborted => reached.trans (if_pos aborted), fun live held => ?_, fun live free => ?_⟩
  · exact reached.trans ((if_neg (by rw [live]; decide)).trans (begins.trans (if_pos held)))
  · exact reached.trans ((if_neg (by rw [live]; decide)).trans (begins.trans (if_neg free)))

theorem completion_vrPlace_lock {m : Mover} {o : Order} {text : Option Text} {c : Part} {t : Nat} {w : Wafer} {k : LockId}
    (tag : o.wafer = some t) (wafer : c.wafer? t = some w) (kind : o.kind = .vrPlace k.place) :
    let d := applyCompletion m o text c
    d.wafers = c.wafers.set t (some { w with place := some k.place, phase := .venting }) ∧
    d.lock k = { c.lock k with reservation :=
      if (c.lock k).reservation = some ⟨t, .returning⟩ then none else (c.lock k).reservation } ∧
    d.lock k.other = c.lock k.other ∧
    d = { c with places := d.places, wafers := d.wafers, lockA := d.lockA, lockB := d.lockB } := by
  obtain ⟨wafers, lock, other, rest⟩ := vrPlaced_lock k (carried_wafer .transferArm k.place wafer)
  dsimp only
  rw [completion_vrPlace tag wafer kind]
  refine ⟨wafers.trans (List.set_set ..), lock.trans ?_, other.trans ?_, rest.trans ?_⟩
  · cases k <;> rfl
  · cases k <;> rfl
  · rw [rest]
    rfl

theorem takeComplete_issued {m : Mover} {o : Order} {c : Part} (text : Option Text) (issued : c.slotOf m = .issued o) :
    takeComplete m o.tag text c = settle (applyCompletion m o text { c with
      orders := c.orders.set m .idle
      stats := c.stats.set .movesCompleted (c.stats.get .movesCompleted + 1#32) }) := by
  rw [takeComplete, answered?_issued issued]
  rfl

theorem completion_site {m : Mover} {o : Order} {text : Option Text} {c : Part} {x y : Int} {t n slot : Nat}
    {i : LoadPort} {e : SiteEntry} (kind : o.kind = .moveSite x y) (wafer : c.session.wafer = some t)
    (inflight : c.session.inFlight = some n) (site : c.site? t n = some (i, slot, e)) :
    let d := applyCompletion m o text c
    (e.state ≠ .moving → d = c) ∧
    (e.state = .moving → c.session.state = .active → ∃ (lists : List RevisitList) (r : FocusRequest),
      let there := { c with lists := lists }
      there.site? t n = some (i, slot, { e with state := .focusing }) ∧ OnlySites i slot [n] c there ∧
      d = takeFocusRequest .predicted e.x e.y 0 there ∧
      d.focusRequest = some r ∧ r.kind = .predicted ∧ r.x = e.x ∧ r.y = e.y) ∧
    (e.state = .moving → c.session.state = .pausing → ∃ lists : List RevisitList,
      d = { c with lists := lists, session := { c.session with state := .paused, inFlight := none } } ∧
      d.site? t n = some (i, slot, { e with state := .pending, acceptedZ := none }) ∧ OnlySites i slot [n] c d) := by
  obtain ⟨still, active, pausing⟩ := (siteArrived_at wafer inflight).2 i slot e site
  dsimp only
  rw [completion_moveSite kind]
  refine ⟨still, fun moving is_active => ?_, fun moving is_pausing => ?_⟩
  · obtain ⟨lists, rewritten, found, only⟩ := updateSite_lists (fun e => { e with state := .focusing }) (fun _ => rfl) site
    obtain ⟨r, request⟩ := takeFocusRequest_predicted_request e.x e.y 0 { c with lists := lists }
    have taken := (active moving is_active).trans (congrArg _ rewritten)
    exact ⟨lists, r, found, only, taken, by rw [taken]; exact request⟩
  · obtain ⟨lists, returned, found, only⟩ := returnToPending_spec site
    have left : siteArrived c =
        { c with lists := lists, session := { c.session with state := .paused, inFlight := none } } := by
      rw [pausing moving is_pausing, returned]
      exact (leaveFlight_returned (c := { c with lists := lists, session := { c.session with inFlight := none } }) rfl).2
        is_pausing
    rw [left]
    exact ⟨lists, rfl, found, only⟩

/-- Settles O40, by the kinds of order. -/
theorem completionIsApplied : Obligations.CompletionIsApplied := by
  refine ⟨fun s m o text issued => ?_, fun c m o text => ⟨?_, ?_, ?_, ?_, ?_, ?_, ?_⟩⟩
  · exact congrArg (fun c => Host.Outcome.next (withPart s c)) (takeComplete_issued text issued)
  · intro t w source target tag wafer to' from'
    obtain ⟨places, place⟩ := completion_arrives (m := m) (text := text) tag wafer to' from'
    dsimp only
    rw [places]
    obtain ⟨arrived, left, rest⟩ := PlaceTable.moved_spec c.places t source target
    exact ⟨arrived, place, left, rest⟩
  · intro t w tag wafer record carried
    refine ⟨fun blade port n kind => ?_, fun blade p kind => ?_, fun blade p kind => ?_, fun p kind => ?_, fun k kind => ?_,
      fun l kind lot => ?_⟩
    · exact (completion_pickSlot tag wafer kind).trans (by rw [completion_pickSlot tag wafer kind])
    · exact (completion_pick tag wafer kind).trans (by rw [completion_pick tag wafer kind]; rfl)
    · exact (completion_place tag wafer kind).trans (by rw [completion_place tag wafer kind]; rfl)
    · exact (completion_vrPick tag wafer kind).trans (by rw [completion_vrPick tag wafer kind]; rfl)
    · exact completion_vrPlace_lock tag wafer kind
    · exact completion_stage tag wafer kind lot
  · intro t w blade port n tag wafer kind
    dsimp only
    rw [completion_home tag wafer kind]
    exact ⟨rfl, wafer?_set c _ t w _ wafer rfl⟩
  · intro k mover turned
    have turns (x : LockState) (ph : Phase) (kind : (o.kind = .pump ∧ x = .vacuum ∧ ph = .ready) ∨
        (o.kind = .vent ∧ x = .atmosphere ∧ ph = .returning)) : turned x ph := by
      obtain ⟨ws, done, none_there, one⟩ := completion_turns text mover x ph kind
      obtain ⟨lock, other, rest⟩ := turned_spec k x ws c
      dsimp only [turned]
      rw [done]
      exact ⟨lock, other, rest, none_there, one⟩
    exact ⟨fun pump => turns _ _ (.inl ⟨pump, rfl, rfl⟩), fun vent => turns _ _ (.inr ⟨vent, rfl, rfl⟩)⟩
  · exact completion_moveLoad
  · intro t w readId tag wafer kind read kept put expects pending
    have aligned := completion_align (m := m) (text := text) (c := c) tag kind
    refine ⟨fun aborted => ?_, fun live right => ?_, fun x l live expected wrong lot => ?_⟩
    · exact aligned.trans (alignDone_aborted readId text wafer aborted)
    · exact aligned.trans (alignDone_passes readId text wafer live right)
    · have missed := aligned.trans (alignDone_mismatch readId text wafer live expected wrong)
      have spec := idMismatch_spec (kept := w.withRead (readOf readId text)) x (readOf readId text) wafer lot
      dsimp only at spec
      rw [← missed] at spec
      exact spec
  · intro x y kind
    refine ⟨fun absent => (completion_moveSite kind).trans (siteArrived_still absent), fun t n wafer inflight => ⟨?_, ?_⟩⟩
    · exact fun site => (completion_moveSite kind).trans ((siteArrived_at wafer inflight).1 site)
    · exact fun i slot e site => completion_site kind wafer inflight site

end Sys2Proof.Machine
end

section
/-! Recovery of a faulted mover (R48 to R50), and O41. -/

namespace Sys2Proof.Machine

/-! ### A list whose PENDING entries are skipped (R36) -/

/-- As `skipPending_spec`, whether a lot is bound or not. -/
theorem skipPending_lists (i : LoadPort) (slot : Nat) (why : Reason) (c : Part) :
    ∃ (lists : List RevisitList) (lots : PerLoadPort (Option Lot)),
      skipPending i slot why c = { c with
        lists := lists, lots := lots
        stats := c.stats.set .sitesSkipped (c.stats.get .sitesSkipped +
          BitVec.ofNat 32 ((c.entries i slot).countP (fun e => e.state == .pending))) } ∧
      Part.entries { c with lists := lists } i slot = (c.entries i slot).map (fun e => if e.state = .pending then
        { e with state := .skipped, captureNo := none, reason := some why } else e) ∧
      OnlyList i slot c { c with lists := lists } := by
  let g : SiteEntry → SiteEntry := fun e => if e.state == .pending then resolveEntry (.skipped why) e else e
  let skipped : Part := updateList i slot (fun l => { l with entries := l.entries.map g }) c
  refine ⟨skipped.lists, (skipPending i slot why c).lots, ?_, ?_, ?_⟩
  · unfold skipPending countSkips
    dsimp only
    rw [updateLot_rest]
    rfl
  · refine (updateList_entries c i slot g).trans (List.map_congr_left fun e _ => ?_)
    simp only [g, beq_iff_eq, resolveEntry]
  · exact onlyList_congr _ _ _ _ _ _ rfl rfl (updateList_onlyList i slot g c fun e => by
      unfold g
      split <;> rfl)

/-! ### The operands (R48) -/

theorem moverOf_eq (b : Byte) : moverOf b = allMovers[b.toNat]? := by revert b; decide

theorem moverOf_none {b : Byte} (bad : 5 < b.toNat) : moverOf b = none :=
  (moverOf_eq b).trans (List.getElem?_eq_none_iff.mpr bad)

theorem dispositionOf_some {b : Byte} (small : b.toNat ≤ 2) :
    dispositionOf b = some (if b = 0#8 then .atSource else if b = 1#8 then .atTarget else .removed) := by
  revert b; decide

theorem dispositionOf_none {b : Byte} (bad : 2 < b.toNat) : dispositionOf b = none := by revert b; decide

theorem removed_iff {b : Byte} (small : b.toNat ≤ 2) :
    (if b = 0#8 then Disposition.atSource else if b = 1#8 then .atTarget else .removed) = .removed ↔ b = 2#8 := by
  revert b; decide

theorem doMoverRecover_bad {b e : Byte} (c : Part) (bad : 5 < b.toNat ∨ 2 < e.toNat) :
    doMoverRecover b e c = ⟨c, .badField, .empty⟩ := by
  rcases bad with bad | bad
  · simp only [doMoverRecover, moverOf_none bad]
    rfl
  · simp only [doMoverRecover, dispositionOf_none bad]
    cases moverOf b <;> rfl

theorem doMoverRecover_eq {b e : Byte} {m : Mover} (c : Part) (mover : allMovers[b.toNat]? = some m) (small : e.toNat ≤ 2) :
    doMoverRecover b e c = match c.slotOf m with
      | .faulted o _ =>
        if e = 2#8 ∧ (m = .st ∨ o.wafer = none) then ⟨c, .badField, .empty⟩
        else ⟨settle (applyDisposition (if e = 0#8 then .atSource else if e = 1#8 then .atTarget else .removed) m o
          (recoverSlot m o c)), .ok, .empty⟩
      | _ => ⟨c, .refusedState, .empty⟩ := by
  rw [← moverOf_eq] at mover
  simp only [doMoverRecover, mover, dispositionOf_some small, removed_iff small]
  rfl

theorem doMoverRecover_sound {b e : Byte} {m : Mover} {c : Part} (mover : allMovers[b.toNat]? = some m) (small : e.toNat ≤ 2)
    (sound : ∀ o cause, c.slotOf m ≠ .faulted o cause) : doMoverRecover b e c = ⟨c, .refusedState, .empty⟩ := by
  rw [doMoverRecover_eq c mover small]
  split
  · rename_i o cause slot
    exact absurd slot (sound o cause)
  · rfl

theorem recoverSlot_eq (m : Mover) (o : Order) (c : Part) : recoverSlot m o c = { c with
    orders := c.orders.set m .idle
    wafers := match o.wafer with
      | none => c.wafers
      | some t => match c.wafer? t with
        | none => c.wafers
        | some w => c.wafers.set t (some { w with uncertain := false }) } := by
  unfold recoverSlot
  cases o.wafer with
  | none => rfl
  | some t =>
    refine (updateWafer_elim t _ (setSlot m .idle c)).trans ?_
    have same : (setSlot m .idle c).wafer? t = c.wafer? t := rfl
    rw [same]
    dsimp only
    cases c.wafer? t <;> rfl

/-! ### AT_SOURCE and AT_TARGET (R49) -/

theorem clearTargetClaim_some {o : Order} {c : Part} {p : Place} (goal : o.kind.target? = some p) :
    clearTargetClaim o c = { c with places := c.places.set p { c.places.get p with claim := none } } := by
  simp only [clearTargetClaim, goal]
  rfl

theorem atTarget_completes {m : Mover} {o : Order} {c : Part} (not_site : ∀ x y, o.kind ≠ .moveSite x y) :
    applyDisposition .atTarget m o c = applyCompletion m o none c := by
  simp only [applyDisposition, recoverAtTarget]

theorem atSource_lock {m : Mover} {o : Order} {c : Part} {k : LockId} (mover : m = LockId.mover k) :
    (o.kind = .pump → applyDisposition .atSource m o c = setLockState k .atmosphere c) ∧
    (o.kind = .vent → applyDisposition .atSource m o c = setLockState k .vacuum c) := by
  subst mover
  refine ⟨fun kind => ?_, fun kind => ?_⟩
  all_goals
    cases k <;> simp only [applyDisposition, recoverAtSource, clearTargetClaim, kind] <;> rfl

theorem atSource_stays {m : Mover} {o : Order} {c : Part}
    (h : (∃ readId, o.kind = .align readId) ∨ ∃ blade port n, o.kind = .arPlace blade (.slot port n)) :
    applyDisposition .atSource m o c = c := by
  rcases h with ⟨readId, kind⟩ | ⟨blade, port, n, kind⟩
  all_goals
    simp only [applyDisposition, recoverAtSource, clearTargetClaim, kind]
    rfl

theorem atSource_carrying {m : Mover} {o : Order} {c : Part} {target : Place} (goal : o.kind.target? = some target) :
    applyDisposition .atSource m o c =
      { c with places := c.places.set target { c.places.get target with claim := none } } := by
  rw [← clearTargetClaim_some goal]
  cases kind : o.kind with
  | arPick blade station => simp only [applyDisposition, recoverAtSource, kind]
  | arPlace blade station => simp only [applyDisposition, recoverAtSource, kind]
  | vrPick p => simp only [applyDisposition, recoverAtSource, kind]
  | vrPlace p => simp only [applyDisposition, recoverAtSource, kind]
  | pump => rw [kind] at goal; cases goal
  | vent => rw [kind] at goal; cases goal
  | align readId => rw [kind] at goal; cases goal
  | moveLoad => rw [kind] at goal; cases goal
  | moveSite x y => rw [kind] at goal; cases goal

theorem moveLoad_recovered {m : Mover} {o : Order} {c : Part} (kind : o.kind = .moveLoad) :
    applyDisposition .atSource m o c = { c with atLoad := false } ∧
    applyDisposition .atTarget m o c = { c with atLoad := true } := by
  refine ⟨?_, ?_⟩
  · simp only [applyDisposition, recoverAtSource, clearTargetClaim, kind]
    rfl
  · simp only [applyDisposition, recoverAtTarget, kind]
    exact completion_moveLoad kind

/-! ### A MOVE_SITE recovered (R49, R74) -/

theorem moveSite_recovered {m : Mover} {o : Order} {c : Part} {x y : Int} {d : Disposition} (kind : o.kind = .moveSite x y)
    (one : d ∈ [Disposition.atSource, .atTarget]) :
    applyDisposition d m o c = siteRecovered { c with atLoad := false } := by
  rcases List.mem_pair.mp one with rfl | rfl
  · simp only [applyDisposition, recoverAtSource, clearTargetClaim, kind]
    rfl
  · simp only [applyDisposition, recoverAtTarget, kind]

theorem siteRecovered_stays {c : Part} (still : ∀ t n i slot e, c.session.wafer = some t → c.session.inFlight = some n →
    c.site? t n = some (i, slot, e) → e.state ≠ .moving) : siteRecovered c = c := by
  unfold siteRecovered
  split
  · rename_i t n wafer inflight moving
    simp only [Part.inFlightState, wafer, inflight] at moving
    cases site : c.site? t n with
    | none => rw [site] at moving; cases moving
    | some found =>
      obtain ⟨i, slot, e⟩ := found
      rw [site] at moving
      exact absurd (Option.some.inj moving) (still t n i slot e wafer inflight site)
  · rfl

theorem siteRecovered_moving {c : Part} {t n slot : Nat} {i : LoadPort} {e : SiteEntry} (wafer : c.session.wafer = some t)
    (inflight : c.session.inFlight = some n) (site : c.site? t n = some (i, slot, e)) (moving : e.state = .moving) :
    siteRecovered c = leaveFlight (returnToPending t n c) := by
  simp only [siteRecovered, wafer, inflight, inFlightState_some wafer inflight site, moving]

/-! ### REMOVED (R50) -/

/-- The lock of a PUMP or VENT order whose wafer has been removed is at ATMOSPHERE. -/
def aired (m : Mover) (o : Order) (c : Part) : Part :=
  match o.kind, lockOfMover m with
  | .pump, some k => setLockState k .atmosphere c
  | .vent, some k => setLockState k .atmosphere c
  | _, _ => c

theorem lockOfMover_mover (k : LockId) : lockOfMover k.mover = some k := by cases k <;> rfl

theorem setLockState_reservation (k j : LockId) (x : LockState) (c : Part) :
    ((setLockState k x c).lock j).reservation = (c.lock j).reservation := by
  cases k <;> cases j <;> rfl

theorem setLockState_locks (k : LockId) (x : LockState) (c : Part) :
    ∃ a b, setLockState k x c = { c with lockA := a, lockB := b } := by cases k <;> exact ⟨_, _, rfl⟩

theorem aired_spec (m : Mover) (o : Order) (c : Part) :
    (∃ a b, aired m o c = { c with lockA := a, lockB := b }) ∧
    (∀ j, ((aired m o c).lock j).reservation = (c.lock j).reservation) ∧
    ∀ k, m = LockId.mover k → o.kind = .pump ∨ o.kind = .vent → ((aired m o c).lock k).state = .atmosphere := by
  have air (k : LockId) : ((setLockState k .atmosphere c).lock k).state = .atmosphere := by cases k <;> rfl
  unfold aired
  split
  · rename_i k kind mover
    refine ⟨setLockState_locks _ _ _, fun j => setLockState_reservation _ _ _ _, fun k' at' _ => ?_⟩
    rw [at', lockOfMover_mover] at mover
    exact Option.some.inj mover ▸ air k'
  · rename_i k kind mover
    refine ⟨setLockState_locks _ _ _, fun j => setLockState_reservation _ _ _ _, fun k' at' _ => ?_⟩
    rw [at', lockOfMover_mover] at mover
    exact Option.some.inj mover ▸ air k'
  · rename_i no_pump no_vent
    refine ⟨⟨c.lockA, c.lockB, rfl⟩, fun _ => rfl, fun k at' kind => ?_⟩
    rw [at', lockOfMover_mover] at no_pump no_vent
    rcases kind with pump | vent
    · exact absurd rfl (no_pump k pump)
    · exact absurd rfl (no_vent k vent)

/-- The places once a wafer has left its place and the target is no longer claimed. -/
def PlaceTable.vacated (p : PlaceTable) (q target : Option Place) : PlaceTable :=
  let p := q.elim p fun q => p.set q { p.get q with occupant := none }
  target.elim p fun g => p.set g { p.get g with claim := none }

theorem vacated_spec (p : PlaceTable) (q target : Option Place) :
    (∀ x, q = some x → ((p.vacated q target).get x).occupant = none) ∧
    (∀ x, target = some x → ((p.vacated q target).get x).claim = none) ∧
    ∀ x, q ≠ some x → target ≠ some x → (p.vacated q target).get x = p.get x := by
  have left (x : Place) (h : q = some x) : ((p.vacated q none).get x).occupant = none := by
    subst h
    simp [PlaceTable.vacated]
  have stays (x : Place) (h : q ≠ some x) : (p.vacated q none).get x = p.get x := by
    cases q with
    | none => rfl
    | some y => exact PlaceTable.get_set_other _ _ _ _ fun same => h (congrArg some same)
  cases target with
  | none => exact ⟨left, fun x h => absurd h.symm (Option.some_ne_none x), fun x h _ => stays x h⟩
  | some g =>
    have claimed : p.vacated q (some g) =
        (p.vacated q none).set g { (p.vacated q none).get g with claim := none } := rfl
    rw [claimed]
    refine ⟨fun x h => ?_, fun x h => ?_, fun x h k => ?_⟩
    · by_cases same : g = x
      · subst same
        rw [PlaceTable.get_set_same]
        exact left g h
      · rw [PlaceTable.get_set_other _ _ _ _ same]
        exact left x h
    · obtain rfl := Option.some.inj h
      rw [PlaceTable.get_set_same]
    · rw [PlaceTable.get_set_other _ _ _ _ fun same => k (congrArg some same)]
      exact stays x h

/-- The record of a wafer that has been taken out of the cell. -/
def Wafer.removed (w : Wafer) : Wafer :=
  { w with place := none, phase := .home, exposed := false, outcome := some .handlingFault }

theorem dropped_reservations (c : Part) (t : Nat) (k : LockId) :
    ((dropReservations t .returning (dropReservations t .inbound c)).lock k).reservation ≠ some ⟨t, .inbound⟩ ∧
    ((dropReservations t .returning (dropReservations t .inbound c)).lock k).reservation ≠ some ⟨t, .returning⟩ := by
  rw [dropReservations_eq, dropReservations_eq]
  cases k with
  | a =>
    dsimp only [Part.lock]
    by_cases inbound : c.lockA.reservation = some ⟨t, .inbound⟩ <;>
      by_cases returning : c.lockA.reservation = some ⟨t, .returning⟩ <;> simp [inbound, returning]
  | b =>
    dsimp only [Part.lock]
    by_cases inbound : c.lockB.reservation = some ⟨t, .inbound⟩ <;>
      by_cases returning : c.lockB.reservation = some ⟨t, .returning⟩ <;> simp [inbound, returning]

end Sys2Proof.Machine
end

section
/-! O41. -/

namespace Sys2Proof.Machine

theorem vacated_eq (c : Part) (q : Option Place) (o : Order) :
    clearTargetClaim o (match q with | none => c | some p => clearOccupant p c) =
      { c with places := c.places.vacated q o.kind.target? } := by
  unfold clearTargetClaim
  cases q <;> cases o.kind.target? <;> rfl

theorem recoverRemoved_eq {m : Mover} {o : Order} {c : Part} {t : Nat} {w : Wafer} (tag : o.wafer = some t)
    (wafer : c.wafer? t = some w) : recoverRemoved m o c = skipPending w.lot w.slot .handling (updateWafer t Wafer.removed
      (aired m o (dropReservations t .returning (dropReservations t .inbound
        { c with places := c.places.vacated w.place o.kind.target? })))) := by
  rw [← vacated_eq]
  simp only [recoverRemoved, tag, wafer]
  rfl

theorem dropReservations_locks (t : Nat) (c : Part) :
    ∃ a b, dropReservations t .returning (dropReservations t .inbound c) = { c with lockA := a, lockB := b } := by
  rw [dropReservations_eq, dropReservations_eq]
  exact ⟨_, _, rfl⟩

/-- What an order's removed wafer leaves of the part. -/
theorem recoverRemoved_spec {m : Mover} {o : Order} {c : Part} {t : Nat} {w : Wafer} (tag : o.wafer = some t)
    (wafer : c.wafer? t = some w) :
    ∃ (a b : Lock) (lists : List RevisitList) (lots : PerLoadPort (Option Lot)),
      recoverRemoved m o c = { c with
        places := c.places.vacated w.place o.kind.target?, lockA := a, lockB := b, lists := lists, lots := lots
        wafers := c.wafers.set t (some w.removed)
        stats := c.stats.set .sitesSkipped (c.stats.get .sitesSkipped +
          BitVec.ofNat 32 ((c.entries w.lot w.slot).countP (fun e => e.state == .pending))) } ∧
      (∀ k, (Part.lock { c with lockA := a, lockB := b } k).reservation ≠ some ⟨t, .inbound⟩ ∧
        (Part.lock { c with lockA := a, lockB := b } k).reservation ≠ some ⟨t, .returning⟩) ∧
      (∀ k, m = LockId.mover k → o.kind = .pump ∨ o.kind = .vent →
        (Part.lock { c with lockA := a, lockB := b } k).state = .atmosphere) ∧
      Part.entries { c with lists := lists } w.lot w.slot = (c.entries w.lot w.slot).map (fun e =>
        if e.state = .pending then { e with state := .skipped, captureNo := none, reason := some .handling } else e) ∧
      OnlyList w.lot w.slot c { c with lists := lists } := by
  have freed := dropped_reservations { c with places := c.places.vacated w.place o.kind.target? } t
  obtain ⟨a, b, dropped⟩ := dropReservations_locks t { c with places := c.places.vacated w.place o.kind.target? }
  rw [recoverRemoved_eq tag wafer]
  generalize dropReservations t .returning _ = d at freed dropped ⊢
  obtain ⟨⟨a', b', air⟩, kept, state⟩ := aired_spec m o d
  generalize aired m o d = x at air kept state ⊢
  have rest : x = { c with places := c.places.vacated w.place o.kind.target?, lockA := a', lockB := b' } := by
    rw [air, dropped]
  have locks (k : LockId) : Part.lock { c with lockA := a', lockB := b' } k = x.lock k := by rw [rest]; cases k <;> rfl
  have record : updateWafer t Wafer.removed x = { x with wafers := c.wafers.set t (some w.removed) } :=
    updateWafer_again _ wafer (by rw [rest]; exact (wafers_set_self wafer).symm)
  obtain ⟨lists, lots, skipped, entries, only⟩ :=
    skipPending_lists w.lot w.slot .handling (updateWafer t Wafer.removed x)
  rw [record, rest] at skipped entries only
  rw [record, rest]
  refine ⟨a', b', lists, lots, skipped, fun k => ?_, fun k mover kind => ?_, entries, only⟩
  · rw [locks, kept]
    exact freed k
  · rw [locks]
    exact state k mover kind

/-- A MOVE_SITE under AT_SOURCE and AT_TARGET alike. -/
theorem moveSite_disposition {m : Mover} {o : Order} {c : Part} {x y : Int} {disposition : Disposition}
    (kind : o.kind = .moveSite x y) (one : disposition ∈ [Disposition.atSource, .atTarget]) :
    let d := applyDisposition disposition m o c
    let away := { c with atLoad := false }
    ((∀ t n i slot e, c.session.wafer = some t → c.session.inFlight = some n → c.site? t n = some (i, slot, e) →
      e.state ≠ .moving) → d = away) ∧
    ∀ t n i slot e, c.session.wafer = some t → c.session.inFlight = some n → c.site? t n = some (i, slot, e) →
      e.state = .moving → ∃ lists : List RevisitList,
        let returned := { away with lists := lists, session := { c.session with inFlight := none } }
        returned.site? t n = some (i, slot, { e with state := .pending, acceptedZ := none }) ∧
        OnlySites i slot [n] c returned ∧
        (c.session.state = .active → d = walk returned) ∧
        (c.session.state = .pausing → d = { returned with session := { returned.session with state := .paused } }) := by
  dsimp only
  rw [moveSite_recovered kind one]
  refine ⟨siteRecovered_stays (c := { c with atLoad := false }), fun t n i slot e wafer inflight site moving => ?_⟩
  rw [siteRecovered_moving (c := { c with atLoad := false }) wafer inflight site moving]
  obtain ⟨lists, returned, found, only⟩ := returnToPending_spec (c := { c with atLoad := false }) site
  rw [returned]
  obtain ⟨active, pausing⟩ := leaveFlight_returned
    (c := { c with atLoad := false, lists := lists, session := { c.session with inFlight := none } }) rfl
  exact ⟨lists, found, only, active, pausing⟩

/-- Settles O41: the request, then each disposition by the kind of order. -/
theorem moverIsRecovered : Obligations.MoverIsRecovered := by
  refine ⟨rfl, fun s p tag b e now => ?_, fun m o c => ?_⟩
  · intro out refused
    have answers {c : Part} {st : Status} (h : doMoverRecover b e s.part = ⟨c, st, .empty⟩) :
        out = .next (answered s p 24#8 tag c st .empty) := exec_answers (r := .moverRecover b e) now h
    refine ⟨fun bad => answers (doMoverRecover_bad _ bad), fun m mover small => ⟨fun sound => ?_, fun o cause slot => ?_⟩⟩
    · exact answers (doMoverRecover_sound mover small sound)
    · have recovers := doMoverRecover_eq s.part mover small
      rw [slot] at recovers
      refine ⟨fun no_removal => answers (recovers.trans (if_pos no_removal)), fun removal => ?_⟩
      exact answers ((recovers.trans (if_neg removal)).trans
        (congrArg (fun c => (⟨settle (applyDisposition _ m o c), .ok, .empty⟩ : Reply)) (recoverSlot_eq m o s.part)))
  · refine ⟨atTarget_completes, fun k mover => ?_, atSource_stays, fun target => atSource_carrying, fun t w tag wafer => ?_,
      moveLoad_recovered, fun x y kind disposition one => moveSite_disposition kind one⟩
    · obtain ⟨pump, vent⟩ := atSource_lock (o := o) (c := c) mover
      refine ⟨fun kind => ?_, fun kind => ?_⟩
      · dsimp only
        rw [pump kind]
        cases k <;> exact ⟨rfl, rfl, rfl⟩
      · dsimp only
        rw [vent kind]
        cases k <;> exact ⟨rfl, rfl, rfl⟩
    · obtain ⟨a, b, lists, lots, removed, freed, air, entries, only⟩ := recoverRemoved_spec (m := m) tag wafer
      obtain ⟨left, unclaimed, stays⟩ := vacated_spec c.places w.place o.kind.target?
      dsimp only [applyDisposition]
      rw [removed]
      refine ⟨wafer?_set c _ t w w.removed wafer rfl, left, (reservedFor_none _ t .inbound).mpr fun k => ?_,
        (reservedFor_none _ t .returning).mpr fun k => ?_, unclaimed, stays, fun k mover kind => ?_, entries, only, rfl⟩
      · cases k
        · exact (freed .a).1
        · exact (freed .b).1
      · cases k
        · exact (freed .a).2
        · exact (freed .b).2
      · cases k
        · exact air .a mover kind
        · exact air .b mover kind

end Sys2Proof.Machine
end

section
/-! A RUNNING lot through `settle` (R10, R11, R18), and O28. -/

namespace Sys2Proof.Machine

/-! ### Entries rewritten slot by slot -/

/-- The entry of a slot once every entry has been rewritten, its slot kept. -/
theorem entry?_map {l m : Lot} {slot : Nat} {g : Selection → Selection} (slots : ∀ e, (g e).slot = e.slot)
    (selection : m.selection = l.selection.map g) : m.entry? slot = (l.entry? slot).map g := by
  have named : ((fun e : Selection => e.slot == slot) ∘ g) = fun e => e.slot == slot := funext fun e => by
    rw [Function.comp_apply, slots]
  rw [Lot.entry?, Lot.entry?, selection, List.find?_map, named]

/-! ### Ruling out -/

/-- What ruling out does to an entry. -/
def Part.rule (c : Part) (i : LoadPort) (e : Selection) : Selection := if c.barren i e then ruleOutEntry .noSites e else e

theorem ruled_selection (l : Lot) (c : Part) (i : LoadPort) : (l.ruled c i).selection = l.selection.map (c.rule i) := rfl

theorem rule_barren {c : Part} {i : LoadPort} {e : Selection} (barren : c.barren i e = true) :
    c.rule i e = ruleOutEntry .noSites e := if_pos barren

theorem rule_stays {c : Part} {i : LoadPort} {e : Selection} (not_barren : ¬ c.barren i e = true) : c.rule i e = e :=
  if_neg not_barren

theorem rule_slot (c : Part) (i : LoadPort) (e : Selection) : (c.rule i e).slot = e.slot := by
  unfold Part.rule
  split <;> rfl

theorem ruled_waiting {l : Lot} {c : Part} {i : LoadPort} {f : Selection} (member : f ∈ (l.ruled c i).selection)
    (waiting : f.status = .waiting) : f ∈ l.selection ∧ ¬ c.barren i f = true := by
  rw [ruled_selection] at member
  obtain ⟨e, listed, rfl⟩ := List.mem_map.mp member
  by_cases barren : c.barren i e = true
  · rw [rule_barren barren] at waiting
    cases waiting
  · rw [rule_stays barren]
    exact ⟨listed, barren⟩

/-! ### The lot after `settle` -/

theorem inUse_recordsSettled {c : Part} {i : LoadPort} {l : Lot} (lot : c.lot? i = some l) (used : InUse (recordsSettled c) i) :
    InUse c i := by
  obtain ⟨t, w, member, wafer, owner⟩ := used
  obtain ⟨x, before, same, _⟩ := (recordsSettled_lot c i l lot).2 t w wafer
  exact ⟨t, x, member, before, same.trans owner⟩

theorem afterDraining_selection (l : Lot) : l.afterDraining.selection = l.selection := by
  unfold Lot.afterDraining
  split <;> rfl

theorem afterDraining_idle {l : Lot} (running : l.state = .running) (idle : ∀ e ∈ l.selection, e.status ≠ .waiting) :
    l.afterDraining.state = .draining := by
  rw [Lot.afterDraining, if_pos ⟨running, (anyWaiting_false l).mpr idle⟩]

theorem afterDraining_waits {l : Lot} {e : Selection} (member : e ∈ l.selection) (waiting : e.status = .waiting) :
    l.afterDraining = l :=
  if_neg fun ⟨_, none_waits⟩ => (anyWaiting_false l).mp none_waits e member waiting

/-- The record of a slot has a wafer in use. -/
def Part.Used (c : Part) (i : LoadPort) (slot : Nat) : Prop := ∃ t w, c.wafer? t = some w ∧ w.lot = i ∧ w.slot = slot

/-- A lot of which `settleLots` leaves the entries without wafers as ruling out and draining made them. -/
theorem recordsSettled_running {c : Part} {i : LoadPort} {l : Lot} (lot : c.lot? i = some l) (running : l.state = .running)
    (live : l.aborted = false) : ∃ y g, (recordsSettled c).lot? i = some y ∧ y.state = (l.ruled c i).afterDraining.state ∧
      y.selection = (l.ruled c i).selection.map g ∧ (∀ e, (g e).slot = e.slot ∧ (g e).status = e.status) ∧
      ∀ e, ¬ c.Used i e.slot → g e = e := by
  obtain ⟨g, settled, kept, free⟩ := (recordsSettled_lot c i l lot).1
  have ruled : l.afterRuling c i = l.ruled c i := if_pos ⟨running, live⟩
  rw [ruled] at settled
  refine ⟨_, g, settled, rfl, congrArg _ (afterDraining_selection _), kept, fun e unused => free e fun t w wafer owner slot => ?_⟩
  exact unused ⟨t, w, wafer, owner, slot⟩

theorem settle_running {c : Part} {i : LoadPort} {l : Lot} (lot : c.lot? i = some l) (running : l.state = .running)
    (live : l.aborted = false) : ∃ x g, (settle c).lot? i = some x ∧ x.selection = (l.ruled c i).selection.map g ∧
      (∀ e, (g e).slot = e.slot) ∧
      (∀ e, ¬ c.Used i e.slot → (∀ f ∈ (l.ruled c i).selection, f.status = .waiting → f.slot ≠ e.slot) → g e = e) ∧
      ((∀ e ∈ (l.ruled c i).selection, e.status ≠ .waiting) → ¬ InUse c i →
        (x.state = .closed ∨ x.state = .reportWait) ∧ (∀ e ∈ x.selection, e.status ≠ .waiting) ∧ LotStateUp (settle c)) := by
  obtain ⟨y, g, settled, state, selection, kept, free⟩ := recordsSettled_running lot running live
  have waits (e : Selection) (idle : ∀ f ∈ (l.ruled c i).selection, f.status = .waiting → f.slot ≠ e.slot) :
      ∀ f ∈ y.selection, f.status = .waiting → f.slot ≠ e.slot := by
    intro f member waiting
    rw [selection] at member
    obtain ⟨f', listed, rfl⟩ := List.mem_map.mp member
    rw [(kept f').1]
    exact idle f' listed ((kept f').2 ▸ waiting)
  obtain ⟨completes, stays⟩ := settleLots_lot c i y settled
  by_cases done : y.state = .draining ∧ ¬ InUse (recordsSettled c) i
  · obtain ⟨⟨d, before, same⟩, up⟩ := completes done.1 done.2
    obtain ⟨x, g', lot', ended, selection', slots, untouched, none_waits⟩ := completeLot_lot i d y before
    have not_running : x.state ≠ .running := by rcases ended with h | h <;> rw [h] <;> decide
    refine ⟨x, g' ∘ g, settle_lot c i x (same.trans lot') not_running, ?_, fun e => (slots _).trans (kept e).1,
      fun e unused idle => ?_, fun _ _ => ⟨ended, none_waits, (issueWork_lot _ i x (same.trans lot')).2 up⟩⟩
    · rw [selection', selection, List.map_map]
    · rw [Function.comp_apply, free e unused]
      exact untouched e (waits e idle)
  · have finishes : (∀ e ∈ (l.ruled c i).selection, e.status ≠ .waiting) → ¬ InUse c i → False := fun idle no =>
      done ⟨state.trans (afterDraining_idle running idle), fun used => no (inUse_recordsSettled lot used)⟩
    rcases (issueWork_lot (settleLots c) i y (stays done)).1 with same | ⟨_, e', member, waiting, x, lot', selection'⟩
    · exact ⟨y, g, same, selection, fun e => (kept e).1, fun e unused _ => free e unused, fun idle no => (finishes idle no).elim⟩
    · refine ⟨x, (fun q => if q.slot == e'.slot then { q with status := .dispatched } else q) ∘ g, lot', ?_, fun e => ?_,
        fun e unused idle => ?_, fun idle no => (finishes idle no).elim⟩
      · rw [selection', selection, List.map_map]
      · rw [Function.comp_apply, ← (kept e).1]
        split <;> rfl
      · rw [Function.comp_apply, free e unused]
        exact if_neg fun same => waits e idle e' member waiting (beq_iff_eq.mp same).symm

theorem settleLots_waits {c : Part} {i : LoadPort} {l : Lot} {e : Selection} (lot : c.lot? i = some l)
    (running : l.state = .running) (live : l.aborted = false) (member : e ∈ l.selection) (waiting : e.status = .waiting)
    (not_barren : ¬ c.barren i e = true) : ∃ x, (settleLots c).lot? i = some x ∧ x.state = .running := by
  obtain ⟨y, g, settled, state, _⟩ := recordsSettled_running lot running live
  have listed : e ∈ (l.ruled c i).selection := List.mem_map.mpr ⟨e, member, rule_stays not_barren⟩
  rw [afterDraining_waits listed waiting] at state
  have runs : y.state = .running := state.trans running
  exact ⟨y, (settleLots_lot c i y settled).2 fun done => LotState.noConfusion (runs.symm.trans done.1), runs⟩

/-! ### LOT_START (R9) -/

theorem doLotStart_missing {id : Text} {c : Part} (missing : c.lotNamed id = none) :
    doLotStart id c = ⟨c, .notFound, .empty⟩ := by
  simp only [doLotStart, missing]
  rfl

theorem doLotStart_named {id : Text} {c : Part} {i : LoadPort} {l : Lot} (named : c.lotNamed id = some (i, l)) :
    doLotStart id c = if l.state ≠ .defined then ⟨c, .refusedState, .empty⟩ else
      ⟨settle (raiseLotState { c with
        startCounter := min (c.startCounter + 1) 4294967295
        lots := c.lots.set i (some { l with state := .running, startOrder := some (min (c.startCounter + 1) 4294967295) }) }),
        .ok, .empty⟩ := by
  simp only [doLotStart, named]
  rfl

/-- Settles O28. -/
theorem lotStarts : Obligations.LotStarts := by
  refine ⟨fun c => ?_, fun c i => ⟨fun unbound => ?_, fun l lot => ?_⟩, fun s p tag id now => ?_⟩
  · simp only [settleLots, allLoadPorts, List.foldl_cons, List.foldl_nil]
  · have none_there (l : Lot) (lot : c.lot? i = some l) : False := Option.some_ne_none l (lot.symm.trans unbound)
    exact ⟨ruleOutLot_stays c i fun l lot => (none_there l lot).elim, drainLot_stays c i fun l lot => (none_there l lot).elim,
      completeIfDone_stays c i fun l lot => (none_there l lot).elim⟩
  · have only {P : Lot → Prop} (h : ¬ P l) : ∀ x, c.lot? i = some x → ¬ P x := fun x found => by
      obtain rfl := Option.some.inj (lot.symm.trans found)
      exact h
    refine ⟨fun h => ruleOutLot_stays c i (only h), fun running live => ?_,
      fun running idle => drainLot_running c i l lot running idle, fun h => drainLot_stays c i (only h),
      fun draining no => completeIfDone_done c i l lot draining no, fun h => completeIfDone_stays c i (only h),
      fun running live all_barren no => ?_, fun running live ⟨e, member, waiting, not_barren⟩ => ?_⟩
    · refine ⟨(l.ruled c i).selection, ruleOutLot_running c i l lot running live, List.length_map _, fun n e found => ?_⟩
      have ruled : (l.ruled c i).selection[n]? = some (c.rule i e) := by
        rw [ruled_selection, List.getElem?_map, found]
        rfl
      refine ⟨fun barren => ?_, fun not_barren => ?_⟩
      · rw [ruled, rule_barren ((barren_iff c i e).mpr barren)]
        rfl
      · rw [ruled, rule_stays fun barren => not_barren ((barren_iff c i e).mp barren)]
    · have idle : ∀ e ∈ (l.ruled c i).selection, e.status ≠ .waiting := fun e member waiting =>
        have ⟨listed, not_barren⟩ := ruled_waiting member waiting
        not_barren ((barren_iff c i e).mpr (all_barren e listed waiting))
      obtain ⟨x, _, lot', _, _, _, finishes⟩ := settle_running lot running live
      obtain ⟨ended, none_waits, up⟩ := finishes idle no
      exact ⟨⟨x, lot', ended, none_waits⟩, up.raised⟩
    · exact settleLots_waits lot running live member waiting fun barren => not_barren ((barren_iff c i e).mp barren)
  · intro out
    have answers {c : Part} {st : Status} (h : doLotStart id s.part = ⟨c, st, .empty⟩) :
        out = .next (answered s p 6#8 tag c st .empty) := exec_answers (r := .lotStart id) now h
    refine ⟨fun missing => answers (doLotStart_missing missing), fun i l named => ⟨fun other => ?_, fun defined => ?_⟩⟩
    · exact answers ((doLotStart_named named).trans (if_pos other))
    · exact ⟨answers ((doLotStart_named named).trans (if_neg (not_not_intro defined))), settle_keeps _⟩

end Sys2Proof.Machine
end

section
/-! The list of a slot as SITE_LOAD and SITE_SEAL find and leave it (R31 to R33), and O35. -/

namespace Sys2Proof.Machine

/-! ### The checks that a load and a seal share (R31) -/

/-- The list of a slot takes sites: its entry waits and the list is not sealed. -/
def Part.ListOpen (c : Part) (i : LoadPort) (slot : Nat) (e : Selection) : Prop :=
  e.status = .waiting ∧ ∀ r, c.list? i slot = some r → r.sealed = false

/-- The lot takes sites no longer. -/
def Lot.Gone (l : Lot) : Prop := l.aborted = true ∨ l.state = .reportWait ∨ l.state = .closed

theorem unsealed_iff (c : Part) (i : LoadPort) (slot : Nat) :
    ((c.list? i slot).map (·.sealed)).getD false = false ↔ ∀ r, c.list? i slot = some r → r.sealed = false := by
  cases c.list? i slot <;> simp

theorem openSlot_missing {c : Part} {id : Text} (slot : Byte) (missing : c.lotNamed id = none) :
    openSlot id slot c = .error .notFound := by
  simp only [openSlot, findSlot_unnamed slot missing]

section
variable {c : Part} {id : Text} {slot : Byte} {i : LoadPort} {l : Lot} (named : c.lotNamed id = some (i, l))
include named

theorem openSlot_unlisted (unlisted : l.entry? slot.toNat = none) : openSlot id slot c = .error .badField := by
  simp only [openSlot, findSlot_unlisted named unlisted]

theorem openSlot_listed {e : Selection} (listed : l.entry? slot.toNat = some e) :
    openSlot id slot c = if l.aborted = true ∨ l.state = .reportWait ∨ l.state = .closed then .error .refusedState
      else if e.status = .waiting ∧ ((c.list? i slot.toNat).map (·.sealed)).getD false = false then .ok i
      else .error .listSealed := by
  simp only [openSlot, findSlot_listed named listed]

theorem openSlot_gone {e : Selection} (listed : l.entry? slot.toNat = some e) (gone : l.Gone) :
    openSlot id slot c = .error .refusedState := (openSlot_listed named listed).trans (if_pos gone)

theorem openSlot_sealed {e : Selection} (listed : l.entry? slot.toNat = some e) (here : ¬ l.Gone)
    (not_open : ¬ c.ListOpen i slot.toNat e) : openSlot id slot c = .error .listSealed :=
  (openSlot_listed named listed).trans ((if_neg here).trans (if_neg fun ⟨waiting, unsealed⟩ =>
    not_open ⟨waiting, (unsealed_iff c i slot.toNat).mp unsealed⟩))

theorem openSlot_opens {e : Selection} (listed : l.entry? slot.toNat = some e) (here : ¬ l.Gone)
    (is_open : c.ListOpen i slot.toNat e) : openSlot id slot c = .ok i :=
  (openSlot_listed named listed).trans ((if_neg here).trans
    (if_pos ⟨is_open.1, (unsealed_iff c i slot.toNat).mpr is_open.2⟩))

end

/-! ### The list that a load or a seal works on (R29, R32) -/

/-- The list of a slot, empty and unsealed where there is none yet. -/
def Part.listOrNew (c : Part) (i : LoadPort) (slot : Nat) : RevisitList := (c.list? i slot).getD ⟨i, slot, false, []⟩

theorem list?_named {c : Part} {i : LoadPort} {slot : Nat} {r : RevisitList} (list : c.list? i slot = some r) :
    r.lot = i ∧ r.slot = slot := by simpa using List.find?_some list

theorem ensureList_rest (i : LoadPort) (slot : Nat) (c : Part) :
    ensureList i slot c = { c with lists := (ensureList i slot c).lists } := by
  unfold ensureList
  split <;> rfl

theorem ensureList_list (i : LoadPort) (slot : Nat) (c : Part) :
    (ensureList i slot c).list? i slot = some (c.listOrNew i slot) ∧
    ∀ j k, (j, k) ≠ (i, slot) → (ensureList i slot c).list? j k = c.list? j k := by
  unfold ensureList Part.listOrNew
  split
  · rename_i absent
    refine ⟨?_, fun j k other => ?_⟩
    · rw [absent]
      unfold Part.list? at absent ⊢
      rw [List.find?_append, absent]
      simp
    · unfold Part.list?
      rw [List.find?_append, List.find?_singleton, if_neg, Option.or_none]
      simp only [Bool.and_eq_true, beq_iff_eq]
      exact fun ⟨lot, at_slot⟩ => other (by rw [lot, at_slot])
  · rename_i r present
    rw [present]
    exact ⟨rfl, fun _ _ _ => rfl⟩

/-- The entries of the list of a slot are those of the list a load or a seal works on. -/
theorem listOrNew_entries (c : Part) (i : LoadPort) (slot : Nat) : (c.listOrNew i slot).entries = c.entries i slot := by
  rw [entries_eq, Part.listOrNew]
  cases c.list? i slot <;> rfl

theorem updateEnsured_list (c : Part) (i : LoadPort) (slot : Nat) (f : RevisitList → RevisitList)
    (named : ∀ r, (f r).lot = r.lot ∧ (f r).slot = r.slot) :
    (updateList i slot f (ensureList i slot c)).list? i slot = some (f (c.listOrNew i slot)) ∧
    ∀ j k, (j, k) ≠ (i, slot) → (updateList i slot f (ensureList i slot c)).list? j k = c.list? j k := by
  obtain ⟨here, elsewhere⟩ := ensureList_list i slot c
  refine ⟨?_, fun j k other => ?_⟩
  · rw [updateList_list _ i i slot slot f named, here]
    simp
  · rw [updateList_list _ i j slot k f named, elsewhere j k other]
    have not_it : ¬ (j = i ∧ k = slot) := fun ⟨lot, at_slot⟩ => other (by rw [lot, at_slot])
    cases c.list? j k with
    | none => rfl
    | some r => exact congrArg some (if_neg not_it)

theorem updateEnsured_rest (c : Part) (i : LoadPort) (slot : Nat) (f : RevisitList → RevisitList) :
    updateList i slot f (ensureList i slot c) = { c with lists := (updateList i slot f (ensureList i slot c)).lists } := by
  rw [updateList, ensureList_rest]

/-! ### SITE_SEAL (R33) -/

/-- The part with the list of a slot sealed. -/
def Part.sealedAt (c : Part) (i : LoadPort) (slot : Nat) : Part :=
  updateList i slot (fun l => { l with sealed := true }) (ensureList i slot c)

theorem sealedAt_eq (c : Part) (i : LoadPort) (slot : Nat) : c.sealedAt i slot = { c with
    lists := if c.list? i slot = none then c.lists ++ [⟨i, slot, true, []⟩]
      else c.lists.map (fun r => if r.lot = i ∧ r.slot = slot then { r with sealed := true } else r) } := by
  have tests (r : RevisitList) : ((r.lot == i && r.slot == slot) = true) = (r.lot = i ∧ r.slot = slot) := by simp
  unfold Part.sealedAt updateList
  simp only [tests]
  cases list : c.list? i slot with
  | none =>
    have apart (r : RevisitList) (member : r ∈ c.lists) : ¬ (r.lot = i ∧ r.slot = slot) := by
      have other := List.find?_eq_none.mp list r member
      simpa using other
    have same : c.lists.map (fun r => if r.lot = i ∧ r.slot = slot then { r with sealed := true } else r) = c.lists :=
      (List.map_congr_left fun r member => if_neg (apart r member)).trans c.lists.map_id'
    simp only [ensureList, list, List.map_append, same]
    simp
  | some r => simp only [ensureList, list, reduceCtorEq, if_false]

theorem sealedAt_list (c : Part) (i : LoadPort) (slot : Nat) :
    (c.sealedAt i slot).list? i slot = some { c.listOrNew i slot with sealed := true } :=
  (updateEnsured_list c i slot (fun l => { l with sealed := true }) fun _ => ⟨rfl, rfl⟩).1

theorem sealedAt_entries (c : Part) (i : LoadPort) (slot : Nat) : (c.sealedAt i slot).entries i slot = c.entries i slot := by
  rw [entries_eq, sealedAt_list, ← listOrNew_entries]
  rfl

theorem doSiteSeal_error {id : Text} {slot : Byte} {c : Part} {st : Status} (h : openSlot id slot c = .error st) :
    doSiteSeal id slot c = ⟨c, st, .empty⟩ := by
  simp only [doSiteSeal, h]
  rfl

theorem doSiteSeal_ok {id : Text} {slot : Byte} {c : Part} {i : LoadPort} (h : openSlot id slot c = .ok i) :
    doSiteSeal id slot c =
      ⟨settle (c.sealedAt i slot.toNat), .ok, .siteSealed (c.entries i slot.toNat).length⟩ := by
  rw [← sealedAt_entries]
  simp only [doSiteSeal, h]
  rfl

/-! ### What a seal makes ready -/

/-- The slot whose list is sealed empty is ruled out in a RUNNING lot, and the lot completes when nothing else is left. -/
theorem settle_barren {c : Part} {i : LoadPort} {l : Lot} {e : Selection} {slot : Nat} {r : RevisitList}
    (lot : c.lot? i = some l) (running : l.state = .running) (live : l.aborted = false) (listed : l.entry? slot = some e)
    (waiting : e.status = .waiting) (list : c.list? i slot = some r) (is_sealed : r.sealed = true) (nothing : r.entries = [])
    (unused : ¬ c.Used i slot) : ∃ x q, (settle c).lot? i = some x ∧ x.entry? slot = some q ∧ q.status = .ruledOut ∧
      q.summary = some ⟨slot, none, .noSites, e.counts⟩ ∧
      (¬ InUse c i → (∀ f ∈ l.selection, f.status = .waiting → f.slot = slot) →
        (x.state = .closed ∨ x.state = .reportWait)) := by
  have barren (f : Selection) (waits : f.status = .waiting) (at_slot : f.slot = slot) : c.barren i f = true :=
    (barren_iff c i f).mpr ⟨waits, r, by rw [at_slot]; exact list, is_sealed, nothing⟩
  obtain ⟨x, g, lot', selection, slots, untouched, finishes⟩ := settle_running lot running live
  have ruled : (l.ruled c i).entry? slot = some (ruleOutEntry .noSites e) := by
    rw [entry?_map (rule_slot c i) (ruled_selection l c i), listed, Option.map_some,
      rule_barren (barren e waiting (entry_slot listed).1)]
  have kept : g (ruleOutEntry .noSites e) = ruleOutEntry .noSites e := by
    refine untouched _ (by rw [show (ruleOutEntry .noSites e).slot = slot from (entry_slot listed).1]; exact unused)
      fun f member waits same => ?_
    exact (ruled_waiting member waits).2 (barren f waits (same.trans (entry_slot listed).1))
  refine ⟨x, ruleOutEntry .noSites e, lot', ?_, rfl, ?_, fun no only => ?_⟩
  · rw [entry?_map slots selection, ruled, Option.map_some, kept]
  · rw [← (entry_slot listed).1]
    rfl
  · refine (finishes (fun f member waits => ?_) no).1
    have ⟨listed', not_barren⟩ := ruled_waiting member waits
    exact not_barren (barren f waits (only f listed' waits))

/-- A lot that has not been started, with no wafer in use, is as it was. -/
theorem settle_defined {c : Part} {i : LoadPort} {l : Lot} (lot : c.lot? i = some l) (defined : l.state = .defined)
    (unused : ∀ t w, c.wafer? t = some w → w.lot ≠ i) : (settle c).lot? i = some l := by
  have not_running : l.state ≠ .running := by rw [defined]; decide
  have unruled : l.afterRuling c i = l := if_neg fun h => not_running h.1
  have undrained : l.afterDraining = l := if_neg fun h => not_running h.1
  obtain ⟨g, settled, _, free⟩ := (recordsSettled_lot c i l lot).1
  have same : l.selection.map g = l.selection :=
    (List.map_congr_left fun e _ => free e fun t w wafer owner => absurd owner (unused t w wafer)).trans l.selection.map_id'
  rw [unruled, undrained, same] at settled
  exact settle_lot c i l ((settleLots_lot c i l settled).2 fun done => by rw [defined] at done; cases done.1) not_running

/-- Settles O35. -/
theorem listIsSealed : Obligations.ListIsSealed := by
  intro s p tag id b now out refused
  have answers {c : Part} {st : Status} {body : Body} (h : doSiteSeal id b s.part = ⟨c, st, body⟩) :
      out = .next (answered s p 17#8 tag c st body) := exec_answers (r := .siteSeal id b) now h
  refine ⟨fun missing => answers (doSiteSeal_error (openSlot_missing b missing)), fun i l named =>
    ⟨fun unlisted => answers (doSiteSeal_error (openSlot_unlisted named unlisted)), fun e listed => ?_⟩⟩
  intro gone waits marked done
  have lot : s.part.lot? i = some l := lotNamed_lot named
  have done_eq : s.part.sealedAt i b.toNat = done := sealedAt_eq s.part i b.toNat
  refine ⟨fun is_gone => answers (doSiteSeal_error (openSlot_gone named listed is_gone)),
    fun here not_open => answers (doSiteSeal_error (openSlot_sealed named listed here not_open)), fun here is_open => ?_⟩
  refine ⟨?_, settle_keeps _, fun running empty unused => ?_, fun defined unused => ?_⟩
  · rw [← done_eq]
    exact answers (doSiteSeal_ok (openSlot_opens named listed here is_open))
  · have live : l.aborted = false := by
      by_cases aborted : l.aborted = true
      · exact absurd (.inl aborted) here
      · simpa using aborted
    have list := sealedAt_list s.part i b.toNat
    rw [done_eq] at list
    obtain ⟨x, q, lot', entry, ruled, summary, finishes⟩ := settle_barren (c := done) lot running live listed is_open.1 list rfl
      ((listOrNew_entries _ _ _).trans empty) fun ⟨t, w, wafer, owner, slot⟩ => unused t w wafer owner slot
    exact ⟨x, q, lot', entry, ruled, summary, fun none_owned only =>
      finishes (fun ⟨t, w, _, wafer, owner⟩ => none_owned t w wafer owner) only⟩
  · exact settle_defined (c := done) lot defined unused

end Sys2Proof.Machine
end

section
/-! The sites that a load brings in, their visiting order (R25, R30 to R32), and O34. -/

namespace Sys2Proof.Machine

/-! ### The visiting order (R30) -/

theorem entryBefore_iff (a b : SiteEntry) : entryBefore a b = true ↔
    a.row < b.row ∨ (a.row = b.row ∧ (a.col < b.col ∨ (a.col = b.col ∧ (a.x < b.x ∨ (a.x = b.x ∧
      (a.y < b.y ∨ (a.y = b.y ∧ a.number < b.number))))))) := by
  simp only [entryBefore, ite_not, Bool.ite_eq_true_distrib, decide_eq_true_eq]
  split_ifs <;> omega

theorem entryBefore_trans {a b c : SiteEntry} (h : entryBefore a b = true) (k : entryBefore b c = true) :
    entryBefore a c = true := by
  rw [entryBefore_iff] at h k ⊢
  omega

/-- Of two sites with different numbers one comes before the other. -/
theorem entryBefore_total {a b : SiteEntry} (differ : a.number ≠ b.number) (not_before : ¬ entryBefore a b = true) :
    entryBefore b a = true := by
  rw [entryBefore_iff] at not_before ⊢
  omega

theorem insertEntry_perm (e : SiteEntry) (l : List SiteEntry) : (insertEntry e l).Perm (e :: l) := by
  induction l with
  | nil => exact .refl _
  | cons f rest ih =>
    unfold insertEntry
    split
    · exact .refl _
    · exact (ih.cons f).trans (.swap e f rest)

theorem insertEntry_sorted {e : SiteEntry} {l : List SiteEntry} (sorted : l.Pairwise (fun x y => entryBefore x y = true))
    (fresh : ∀ x ∈ l, x.number ≠ e.number) : (insertEntry e l).Pairwise (fun x y => entryBefore x y = true) := by
  induction l with
  | nil => exact List.pairwise_singleton _ _
  | cons f rest ih =>
    obtain ⟨before, sorted'⟩ := List.pairwise_cons.mp sorted
    unfold insertEntry
    split
    · rename_i ahead
      refine List.pairwise_cons.mpr ⟨fun x member => ?_, sorted⟩
      rcases List.mem_cons.mp member with rfl | later
      · exact ahead
      · exact entryBefore_trans ahead (before x later)
    · rename_i behind
      refine List.pairwise_cons.mpr ⟨fun x member => ?_, ih sorted' fun x later => fresh x (List.mem_cons_of_mem f later)⟩
      rcases List.mem_cons.mp ((insertEntry_perm e rest).mem_iff.mp member) with rfl | later
      · exact entryBefore_total (fresh f List.mem_cons_self).symm behind
      · exact before x later

/-- The entries of a list once sites have joined it. -/
def joined (l es : List SiteEntry) : List SiteEntry := es.foldl (fun acc e => insertEntry e acc) l

theorem joined_perm (es : List SiteEntry) : ∀ l, (joined l es).Perm (l ++ es) := by
  induction es with
  | nil => intro l; rw [List.append_nil]; exact .refl _
  | cons e rest ih =>
    intro l
    exact (ih (insertEntry e l)).trans (((insertEntry_perm e l).append_right rest).trans List.perm_middle.symm)

theorem joined_sorted (es : List SiteEntry) : ∀ l, l.Pairwise (fun x y => entryBefore x y = true) →
    (es.map (·.number)).Nodup → (∀ e ∈ es, ∀ x ∈ l, x.number ≠ e.number) →
    (joined l es).Pairwise (fun x y => entryBefore x y = true) := by
  induction es with
  | nil => exact fun l sorted _ _ => sorted
  | cons e rest ih =>
    intro l sorted nodup fresh
    obtain ⟨once, nodup'⟩ := List.nodup_cons.mp nodup
    refine ih (insertEntry e l) (insertEntry_sorted sorted (fresh e List.mem_cons_self)) nodup' fun f member x inside => ?_
    rcases List.mem_cons.mp ((insertEntry_perm e l).mem_iff.mp inside) with rfl | earlier
    · exact fun same => once (List.mem_map.mpr ⟨f, member, same.symm⟩)
    · exact fresh f (List.mem_cons_of_mem e member) x earlier

/-! ### The checks on the sites (R25, R31) -/

/-- The fields of a site are in their ranges. -/
def FieldFits (f : SiteField) : Prop :=
  (1 ≤ f.number.toNat ∧ f.number.toNat ≤ 4095) ∧ f.priority.toNat ≤ 3 ∧
    (-150000 ≤ f.x.toInt ∧ f.x.toInt ≤ 150000) ∧ (-150000 ≤ f.y.toInt ∧ f.y.toInt ≤ 150000)

/-- The entry that a site's fields give. -/
def fieldEntry (f : SiteField) : SiteEntry :=
  ⟨f.number.toNat, f.row.toInt, f.col.toInt, f.x.toInt, f.y.toInt, f.inspClass.toNat, f.size.toNat, f.priority.toNat,
    .pending, 0, none, none, none, none⟩

/-- The sites that a load takes into a list. -/
def SitesFit (sites : List SiteField) (present : List SiteEntry) : Prop :=
  (1 ≤ sites.length ∧ sites.length ≤ 16) ∧ (∀ f ∈ sites, FieldFits f) ∧ (sites.map (·.number)).Nodup ∧
    ∀ f ∈ sites, ∀ e ∈ present, e.number ≠ f.number.toNat

theorem siteEntryOf_fits {f : SiteField} (fits : FieldFits f) : siteEntryOf f = some (fieldEntry f) := by
  obtain ⟨number, priority, x, y⟩ := fits
  refine if_pos ⟨(inRange_iff _ _ _).mpr number, ?_, ?_, (inRange_iff _ _ _).mpr ⟨Nat.zero_le _, priority⟩⟩
  · simpa [coordinateOk] using x
  · simpa [coordinateOk] using y

theorem siteEntryOf_bad {f : SiteField} (bad : ¬ FieldFits f) : siteEntryOf f = none := by
  refine if_neg fun ⟨number, x, y, priority⟩ => bad ?_
  exact ⟨(inRange_iff _ _ _).mp number, ((inRange_iff _ _ _).mp priority).2, by simpa [coordinateOk] using x,
    by simpa [coordinateOk] using y⟩

theorem siteEntries_fit {sites : List SiteField} (fits : ∀ f ∈ sites, FieldFits f) :
    mapAll siteEntryOf sites = some (sites.map fieldEntry) := by
  rw [mapAll_some fun f member => by rw [siteEntryOf_fits (fits f member)]; rfl]
  refine congrArg some ((List.filterMap_congr fun f member => siteEntryOf_fits (fits f member)).trans ?_)
  exact congrFun List.filterMap_eq_map sites

theorem entries_nodup (sites : List SiteField) :
    ((sites.map fieldEntry).map (·.number)).Nodup ↔ (sites.map (·.number)).Nodup := by
  have numbers : (sites.map fieldEntry).map (·.number) = (sites.map (·.number)).map BitVec.toNat := by
    rw [List.map_map, List.map_map]
    rfl
  rw [numbers]
  exact List.nodup_map_iff fun _ _ => BitVec.eq_of_toNat_eq

theorem newSites_fit {sites : List SiteField} {present : List SiteEntry} (fit : SitesFit sites present) :
    newSites sites present = some (sites.map fieldEntry) := by
  obtain ⟨count, fits, nodup, fresh⟩ := fit
  rw [newSites, if_pos ((inRange_iff _ _ _).mpr count), siteEntries_fit fits]
  refine if_pos ⟨(entries_nodup sites).mpr nodup, ?_⟩
  simp only [List.all_eq_true, List.mem_map, Bool.not_eq_true', List.any_eq_false, beq_iff_eq]
  rintro _ ⟨f, member, rfl⟩ e listed
  exact fresh f member e listed

theorem newSites_unfit {sites : List SiteField} {present : List SiteEntry} (unfit : ¬ SitesFit sites present) :
    newSites sites present = none := by
  unfold newSites
  split
  · rename_i count
    by_cases fits : ∀ f ∈ sites, FieldFits f
    · rw [siteEntries_fit fits]
      refine if_neg fun ⟨nodup, fresh⟩ => unfit ⟨(inRange_iff _ _ _).mp count, fits, (entries_nodup sites).mp nodup, ?_⟩
      simp only [List.all_eq_true, List.mem_map, Bool.not_eq_true', List.any_eq_false, beq_iff_eq] at fresh
      exact fun f member e listed => fresh (fieldEntry f) ⟨f, member, rfl⟩ e listed
    · obtain ⟨f, bad⟩ := not_forall.mp fits
      obtain ⟨member, bad⟩ := Classical.not_imp.mp bad
      rw [mapAll_none ⟨f, member, siteEntryOf_bad bad⟩]
  · rfl

/-! ### SITE_LOAD (R32) -/

theorem loadSites_eq {c : Part} {i : LoadPort} {l : Lot} (slot : Nat) (es : List SiteEntry) (lot : c.lot? i = some l) :
    loadSites i slot es c = { c with
      lists := (updateList i slot (fun r => { r with entries := joined r.entries es }) (ensureList i slot c)).lists
      freeCount := c.freeCount - es.length
      lots := c.lots.set i (some { l with
        counters := { l.counters with loaded := l.counters.loaded + es.length }
        selection := l.selection.map (fun q => if q.slot = slot then
          { q with counts := { q.counts with loaded := q.counts.loaded + es.length } } else q) }) } := by
  have rest := congrArg (fun d : Part => { d with freeCount := d.freeCount - es.length })
    (updateEnsured_rest c i slot (fun r => { r with entries := joined r.entries es }))
  have lot' : Part.lot? { c with
      lists := (updateList i slot (fun r => { r with entries := joined r.entries es }) (ensureList i slot c)).lists
      freeCount := c.freeCount - es.length } i = some l := lot
  refine (congrArg (updateLot i _) rest).trans ((updateLot_found _ lot').trans ?_)
  rw [updateEntry_selection]

theorem doSiteLoad_error {id : Text} {slot : Byte} {sites : List SiteField} {c : Part} {st : Status}
    (h : openSlot id slot c = .error st) : doSiteLoad id slot sites c = ⟨c, st, .empty⟩ := by
  simp only [doSiteLoad, h]
  rfl

theorem doSiteLoad_unfit {id : Text} {slot : Byte} {sites : List SiteField} {c : Part} {i : LoadPort}
    (h : openSlot id slot c = .ok i) (unfit : ¬ SitesFit sites (c.entries i slot.toNat)) :
    doSiteLoad id slot sites c = ⟨c, .badField, .empty⟩ := by
  simp only [doSiteLoad, h, newSites_unfit unfit]
  rfl

theorem doSiteLoad_fit {id : Text} {slot : Byte} {sites : List SiteField} {c : Part} {i : LoadPort}
    (h : openSlot id slot c = .ok i) (fit : SitesFit sites (c.entries i slot.toNat)) :
    doSiteLoad id slot sites c =
      if c.settings.waferCap < (c.entries i slot.toNat).length + sites.length ∨ c.freeCount < sites.length then
        ⟨c, .noSpace, .noSpace (c.entries i slot.toNat).length c.settings.waferCap c.freeCount⟩
      else ⟨loadSites i slot.toNat (sites.map fieldEntry) c, .ok,
        .siteLoaded ((loadSites i slot.toNat (sites.map fieldEntry) c).entries i slot.toNat).length
          (loadSites i slot.toNat (sites.map fieldEntry) c).freeCount⟩ := by
  simp only [doSiteLoad, h, newSites_fit fit, List.length_map]
  rfl

end Sys2Proof.Machine
end

section
/-! O34. -/

namespace Sys2Proof.Machine

theorem loadSites_list {c : Part} {i : LoadPort} {l : Lot} (slot : Nat) (es : List SiteEntry) (lot : c.lot? i = some l) :
    (loadSites i slot es c).list? i slot =
      some { c.listOrNew i slot with entries := joined (c.listOrNew i slot).entries es } ∧
    ∀ j k, (j, k) ≠ (i, slot) → (loadSites i slot es c).list? j k = c.list? j k := by
  rw [loadSites_eq slot es lot]
  exact updateEnsured_list c i slot (fun r => { r with entries := joined r.entries es }) fun _ => ⟨rfl, rfl⟩

theorem loadSites_entries {c : Part} {i : LoadPort} {l : Lot} (slot : Nat) (es : List SiteEntry) (lot : c.lot? i = some l) :
    (loadSites i slot es c).entries i slot = joined (c.entries i slot) es := by
  rw [entries_eq, (loadSites_list slot es lot).1, ← listOrNew_entries]
  rfl

theorem listOrNew_unsealed {c : Part} {i : LoadPort} {slot : Nat} (h : ∀ r, c.list? i slot = some r → r.sealed = false) :
    (c.listOrNew i slot).sealed = false := by
  unfold Part.listOrNew
  cases list : c.list? i slot with
  | none => rfl
  | some r => exact h r list

/-- Settles O34: the order, the seven checks, then the list that the sites have joined. -/
theorem sitesAreLoaded : Obligations.SitesAreLoaded := by
  refine ⟨entryBefore_iff, fun s p tag id b sites now => ?_⟩
  intro out refused
  have answers {c : Part} {st : Status} {body : Body} (h : doSiteLoad id b sites s.part = ⟨c, st, body⟩) :
      out = .next (answered s p 16#8 tag c st body) := exec_answers (r := .siteLoad id b sites) now h
  refine ⟨fun missing => answers (doSiteLoad_error (openSlot_missing b missing)), fun i l named => ?_⟩
  intro present free cap n good
  have lot : s.part.lot? i = some l := lotNamed_lot named
  refine ⟨fun unlisted => answers (doSiteLoad_error (openSlot_unlisted named unlisted)), fun e listed => ?_⟩
  refine ⟨fun gone => answers (doSiteLoad_error (openSlot_gone named listed gone)),
    fun here not_open => answers (doSiteLoad_error (openSlot_sealed named listed here not_open)),
    fun here is_open unfit => answers (doSiteLoad_unfit (openSlot_opens named listed here is_open) unfit),
    fun here is_open fit no_room => ?_, fun here is_open fit fits_list fits_pool => ?_⟩
  · exact answers ((doSiteLoad_fit (openSlot_opens named listed here is_open) fit).trans (if_pos no_room))
  · have loads := (doSiteLoad_fit (openSlot_opens named listed here is_open) fit).trans
      (if_neg (not_or.mpr ⟨Nat.not_lt.mpr fits_list, Nat.not_lt.mpr fits_pool⟩))
    have loaded := loadSites_eq b.toNat (sites.map fieldEntry) lot
    have entries := loadSites_entries b.toNat (sites.map fieldEntry) lot
    obtain ⟨list, others⟩ := loadSites_list b.toNat (sites.map fieldEntry) lot
    have perm := joined_perm (sites.map fieldEntry) present
    have length := perm.length_eq
    rw [List.length_append, List.length_map] at length
    rw [entries, length, loaded, List.length_map] at loads
    rw [loaded, List.length_map] at list entries others
    refine ⟨_, answers loads, ?_, fun sorted => ?_, ⟨_, list, listOrNew_unsealed is_open.2⟩, others⟩
    · exact (List.Perm.of_eq entries).trans perm
    · obtain ⟨_, _, nodup, fresh⟩ := fit
      refine Eq.mpr (congrArg (List.Pairwise _) entries) (joined_sorted _ present sorted ((entries_nodup sites).mpr nodup) ?_)
      rintro _ member x inside
      obtain ⟨f, given, rfl⟩ := List.mem_map.mp member
      exact fresh f given x inside

end Sys2Proof.Machine
end

section
/-! The WAITING entries of a lot that completes (R18, R37, R149). -/

namespace Sys2Proof.Machine

/-! ### Counts added up -/

theorem stats_set_self (s : Stats) (k : Statistic) : s.set k (s.get k) = s := by cases k <;> rfl

theorem stats_add_zero (s : Stats) (k : Statistic) : s.set k (s.get k + BitVec.ofNat 32 0) = s := by
  rw [show s.get k + BitVec.ofNat 32 0 = s.get k from BitVec.add_zero _, stats_set_self]

theorem stats_add_add (s : Stats) (k : Statistic) (m n : Nat) :
    (s.set k (s.get k + BitVec.ofNat 32 m)).set k ((s.set k (s.get k + BitVec.ofNat 32 m)).get k + BitVec.ofNat 32 n) =
      s.set k (s.get k + BitVec.ofNat 32 (m + n)) := by
  rw [BitVec.ofNat_add, ← BitVec.add_assoc]
  cases k <;> rfl

/-- What the slots of a list hold in total, each slot once. -/
def slotTotal (f : Nat → Nat) (slots : List Nat) : Nat := (slots.dedup.map f).sum

/-- The slot that is counted out first. -/
theorem slotTotal_cons {f g : Nat → Nat} {a : Nat} (slots : List Nat) (gone : g a = 0) (same : ∀ b, b ≠ a → g b = f b) :
    slotTotal f (a :: slots) = f a + slotTotal g slots := by
  have others {l : List Nat} (absent : a ∉ l) : l.map g = l.map f :=
    List.map_congr_left fun b member => same b fun h => absent (h ▸ member)
  by_cases member : a ∈ slots
  · have listed : a ∈ slots.dedup := List.mem_dedup.mpr member
    have absent : a ∉ slots.dedup.erase a := (List.nodup_dedup slots).not_mem_erase
    have total (h : Nat → Nat) : h a + ((slots.dedup.erase a).map h).sum = (slots.dedup.map h).sum :=
      List.sum_map_erase h listed
    rw [slotTotal, List.dedup_cons_of_mem member, slotTotal, ← total f, ← total g, others absent, gone, Nat.zero_add]
  · have absent : a ∉ slots.dedup := mt List.mem_dedup.mp member
    rw [slotTotal, List.dedup_cons_of_notMem member, List.map_cons, List.sum_cons, slotTotal, others absent]

/-! ### An entry and a list that are not dispatched -/

/-- An entry that is ruled out undispatched, `n` sites of its list skipped. -/
def Selection.undispatched (n : Nat) (e : Selection) : Selection :=
  let counts := { e.counts with skipped := e.counts.skipped + n }
  { e with status := .ruledOut, counts, summary := some ⟨e.slot, none, .notDispatched, counts⟩ }

theorem undispatched_again (n : Nat) (e : Selection) : (e.undispatched n).undispatched 0 = e.undispatched n := rfl

/-- A lot whose slots `slots` are ruled out undispatched. -/
def Lot.undispatched (l : Lot) (slots : List Nat) (pending : Nat → Nat) : Lot :=
  { l with
    selection := l.selection.map (fun e => if e.slot ∈ slots then e.undispatched (pending e.slot) else e)
    counters := { l.counters with skipped := l.counters.skipped + slotTotal pending slots } }

/-- A list of which the PENDING entries are skipped at completion. -/
def RevisitList.undispatched (r : RevisitList) : RevisitList :=
  { r with entries := r.entries.map (fun e =>
      if e.state = .pending then
        { e with state := .skipped, captureNo := none, reason := some (if r.sealed then .notDispatched else .unsealed) }
      else e) }

/-- The PENDING sites of a slot. -/
def Part.pendingAt (c : Part) (i : LoadPort) (slot : Nat) : Nat := (c.entries i slot).countP (fun e => e.state == .pending)

/-- No site of a list that has been skipped is PENDING. -/
theorem undispatched_pending (r : RevisitList) : r.undispatched.entries.countP (fun e => e.state == .pending) = 0 := by
  rw [List.countP_eq_zero]
  intro e member
  obtain ⟨x, _, rfl⟩ := List.mem_map.mp member
  split
  · simp
  · rename_i resolved
    simpa using resolved

theorem undispatched_twice (r : RevisitList) : r.undispatched.undispatched = r.undispatched := by
  have fixed : r.undispatched.entries.map (fun e => if e.state = .pending then
      { e with state := .skipped, captureNo := none, reason := some (if r.sealed then .notDispatched else .unsealed) }
      else e) = r.undispatched.entries := by
    refine (List.map_congr_left fun e member => if_neg fun pending => ?_).trans (List.map_id' _)
    have none_left := List.countP_eq_zero.mp (undispatched_pending r) e member
    exact none_left (beq_iff_eq.mpr pending)
  exact congrArg (fun es => ({ r with entries := es } : RevisitList)) fixed

/-! ### Ruling out, slot by slot -/

/-- What ruling out `slots` undispatched leaves. -/
def Undispatched (i : LoadPort) (l : Lot) (slots : List Nat) (c d : Part) : Prop :=
  (∃ lists : List RevisitList, d = { c with
    lists := lists, lots := c.lots.set i (some (l.undispatched slots (c.pendingAt i)))
    stats := c.stats.set .sitesSkipped (c.stats.get .sitesSkipped + BitVec.ofNat 32 (slotTotal (c.pendingAt i) slots)) }) ∧
  (∀ slot ∈ slots, d.list? i slot = (c.list? i slot).map RevisitList.undispatched) ∧
  ∀ j slot, (j = i → slot ∉ slots) → d.list? j slot = c.list? j slot

theorem lots_set_self {c : Part} {i : LoadPort} {l : Lot} (lot : c.lot? i = some l) : c.lots.set i (some l) = c.lots := by
  rw [← lot]
  cases i <;> rfl

theorem lots_set_set (p : PerLoadPort (Option Lot)) (i : LoadPort) (x y : Option Lot) : (p.set i x).set i y = p.set i y := by
  cases i <;> rfl

theorem undispatched_nil {c : Part} {i : LoadPort} {l : Lot} (lot : c.lot? i = some l) : Undispatched i l [] c c := by
  have same : l.undispatched [] (c.pendingAt i) = l := by
    have entries : l.selection.map (fun e => if e.slot ∈ [] then e.undispatched (c.pendingAt i e.slot) else e) = l.selection :=
      (List.map_congr_left fun e _ => if_neg List.not_mem_nil).trans (List.map_id' _)
    unfold Lot.undispatched
    rw [entries]
    rfl
  refine ⟨⟨c.lists, ?_⟩, fun slot h => absurd h List.not_mem_nil, fun _ _ _ => rfl⟩
  rw [same, lots_set_self lot]
  exact congrArg (fun s => ({ c with stats := s } : Part)) (stats_add_zero c.stats .sitesSkipped).symm

theorem entries_list {c : Part} {i : LoadPort} {slot : Nat} {r : RevisitList} (list : c.list? i slot = some r) :
    c.entries i slot = r.entries := by rw [entries_eq, list]; rfl

theorem entries_absent {c : Part} {i : LoadPort} {slot : Nat} (list : c.list? i slot = none) : c.entries i slot = [] := by
  rw [entries_eq, list]; rfl

/-- The lists after the PENDING entries of a slot's list are skipped. -/
theorem skipPending_list {c : Part} {i : LoadPort} {slot : Nat} {r : RevisitList} (list : c.list? i slot = some r) :
    (skipPending i slot (if r.sealed then .notDispatched else .unsealed) c).list? i slot = some r.undispatched ∧
    ∀ j k, (j, k) ≠ (i, slot) →
      (skipPending i slot (if r.sealed then .notDispatched else .unsealed) c).list? j k = c.list? j k := by
  refine ⟨?_, (skipPending_onlyList i slot _ c).1⟩
  have rewritten := updateList_list c i i slot slot (fun l => { l with entries := l.entries.map (fun e =>
    if e.state == .pending then resolveEntry (.skipped (if r.sealed then .notDispatched else .unsealed)) e else e) })
    fun _ => ⟨rfl, rfl⟩
  have same : (skipPending i slot (if r.sealed then .notDispatched else .unsealed) c).list? i slot =
      (updateList i slot (fun l => { l with entries := l.entries.map (fun e =>
        if e.state == .pending then resolveEntry (.skipped (if r.sealed then .notDispatched else .unsealed)) e else e) }) c).list?
          i slot := by
    unfold skipPending countSkips Part.list?
    dsimp only
    rw [updateLot_rest]
  rw [same, rewritten, list]
  simp [RevisitList.undispatched, resolveEntry]

/-- A lot with `n` skips of a slot counted. -/
def Lot.skipsCounted (l : Lot) (slot n : Nat) : Lot :=
  { l with
    selection := l.selection.map (fun e => if e.slot = slot then
      { e with counts := { e.counts with skipped := e.counts.skipped + n } } else e)
    counters := { l.counters with skipped := l.counters.skipped + n } }

theorem slotTotal_one (f : Nat → Nat) (slot : Nat) : slotTotal f [slot] = f slot := by simp [slotTotal]

theorem skipsCounted_ruled (l : Lot) (slot : Nat) (p : Nat → Nat) :
    Lot.updateEntry slot (ruleOutEntry .notDispatched) (l.skipsCounted slot (p slot)) = l.undispatched [slot] p := by
  rw [updateEntry_selection, Lot.undispatched, slotTotal_one]
  have entries : ((l.skipsCounted slot (p slot)).selection.map fun e =>
      if e.slot = slot then ruleOutEntry .notDispatched e else e) =
        l.selection.map fun e => if e.slot ∈ [slot] then e.undispatched (p e.slot) else e := by
    rw [Lot.skipsCounted, List.map_map]
    refine List.map_congr_left fun e _ => ?_
    by_cases here : e.slot = slot
    · subst here
      simp only [Function.comp_apply, if_true, List.mem_singleton]
      rfl
    · simp only [Function.comp_apply, here, if_false, List.mem_singleton]
  exact congrArg (fun es => ({ l.skipsCounted slot (p slot) with selection := es } : Lot)) entries

theorem skipsCounted_none (l : Lot) (slot : Nat) : l.skipsCounted slot 0 = l := by
  have entries : l.selection.map (fun e => if e.slot = slot then
      { e with counts := { e.counts with skipped := e.counts.skipped + 0 } } else e) = l.selection :=
    (List.map_congr_left fun e _ => ite_self e).trans (List.map_id' _)
  exact congrArg (fun es => ({ l with selection := es } : Lot)) entries

theorem ruleOutUndispatched_spec {c : Part} {i : LoadPort} {l : Lot} (slot : Nat) (lot : c.lot? i = some l) :
    Undispatched i l [slot] c (ruleOutUndispatched i slot c) := by
  have ruled := skipsCounted_ruled l slot (c.pendingAt i)
  cases list : c.list? i slot with
  | none =>
    have nothing : c.pendingAt i slot = 0 := by rw [Part.pendingAt, entries_absent list]; rfl
    rw [nothing, skipsCounted_none] at ruled
    have done : ruleOutUndispatched i slot c =
        { c with lots := c.lots.set i (some (l.undispatched [slot] (c.pendingAt i))) } := by
      simp only [ruleOutUndispatched, list, updateLot_found _ lot, ruled]
    refine ⟨⟨c.lists, ?_⟩, fun s member => ?_, fun _ _ _ => by rw [done]; rfl⟩
    · rw [done, slotTotal_one, nothing]
      exact congrArg (fun s => ({ c with
        lots := c.lots.set i (some (l.undispatched [slot] (c.pendingAt i))), stats := s } : Part))
        (stats_add_zero c.stats .sitesSkipped).symm
    · obtain rfl := List.mem_singleton.mp member
      rw [list, done]
      exact list
  | some r =>
    obtain ⟨here, elsewhere⟩ := skipPending_list list
    obtain ⟨lists, rest, _⟩ := skipPending_spec slot (if r.sealed then .notDispatched else .unsealed) lot
    have lot' : (skipPending i slot (if r.sealed then .notDispatched else .unsealed) c).lot? i =
        some (l.skipsCounted slot (c.pendingAt i slot)) := by
      rw [rest]
      exact PerLoadPort.get_set_same _ _ _
    have lots : (skipPending i slot (if r.sealed then .notDispatched else .unsealed) c).lots =
        c.lots.set i (some (l.skipsCounted slot (c.pendingAt i slot))) := by rw [rest]; rfl
    have done : ruleOutUndispatched i slot c =
        { skipPending i slot (if r.sealed then .notDispatched else .unsealed) c with
          lots := c.lots.set i (some (l.undispatched [slot] (c.pendingAt i))) } := by
      simp only [ruleOutUndispatched, list, updateLot_found _ lot', lots, lots_set_set, ruled]
    refine ⟨⟨lists, ?_⟩, fun s member => ?_, fun j k other => ?_⟩
    · rw [done, rest, slotTotal_one]
      rfl
    · obtain rfl := List.mem_singleton.mp member
      rw [list, done]
      exact here
    · rw [done]
      exact elsewhere j k fun same => other (congrArg Prod.fst same) (List.mem_singleton.mpr (congrArg Prod.snd same))

/-- Ruling out one slot and then others, the slot among them or not. -/
theorem Undispatched.cons {i : LoadPort} {l : Lot} {a : Nat} {slots : List Nat} {c d x : Part}
    (one : Undispatched i l [a] c d) (rest : Undispatched i (l.undispatched [a] (c.pendingAt i)) slots d x) :
    Undispatched i l (a :: slots) c x := by
  obtain ⟨⟨lists, d_eq⟩, d_here, d_elsewhere⟩ := one
  obtain ⟨⟨lists', x_eq⟩, x_here, x_elsewhere⟩ := rest
  have gone : d.pendingAt i a = 0 := by
    rw [Part.pendingAt, entries_eq, d_here a List.mem_cons_self]
    cases c.list? i a with
    | none => rfl
    | some r => exact undispatched_pending r
  have same (b : Nat) (other : b ≠ a) : d.pendingAt i b = c.pendingAt i b := by
    rw [Part.pendingAt, Part.pendingAt, entries_eq, entries_eq,
      d_elsewhere i b fun _ member => other (List.mem_singleton.mp member)]
  have total := slotTotal_cons slots gone same
  have lot : (l.undispatched [a] (c.pendingAt i)).undispatched slots (d.pendingAt i) =
      l.undispatched (a :: slots) (c.pendingAt i) := by
    have entries : (l.undispatched [a] (c.pendingAt i)).selection.map (fun e =>
        if e.slot ∈ slots then e.undispatched (d.pendingAt i e.slot) else e) =
          l.selection.map (fun e => if e.slot ∈ a :: slots then e.undispatched (c.pendingAt i e.slot) else e) := by
      rw [Lot.undispatched, List.map_map]
      refine List.map_congr_left fun e _ => ?_
      rw [Function.comp_apply]
      by_cases is_a : e.slot = a
      · rw [if_pos (List.mem_singleton.mpr is_a), if_pos (List.mem_cons.mpr (.inl is_a))]
        split
        · rw [show (e.undispatched _).slot = a from is_a, gone]
          rfl
        · rfl
      · rw [if_neg (mt List.mem_singleton.mp is_a), same e.slot is_a]
        simp [is_a]
    have count : l.counters.skipped + slotTotal (c.pendingAt i) [a] + slotTotal (d.pendingAt i) slots =
        l.counters.skipped + slotTotal (c.pendingAt i) (a :: slots) := by rw [total, slotTotal_one, Nat.add_assoc]
    rw [Lot.undispatched, entries]
    exact congrArg (fun n => ({ l with
      selection := l.selection.map (fun e => if e.slot ∈ a :: slots then e.undispatched (c.pendingAt i e.slot) else e)
      counters := { l.counters with skipped := n } } : Lot)) count
  refine ⟨⟨lists', ?_⟩, fun slot member => ?_, fun j slot other => ?_⟩
  · rw [x_eq, lot, total, ← stats_add_add, ← slotTotal_one (c.pendingAt i) a, d_eq, lots_set_set]
  · by_cases later : slot ∈ slots
    · rw [x_here slot later]
      by_cases is_a : slot = a
      · rw [d_here slot (List.mem_singleton.mpr is_a), Option.map_map]
        cases c.list? i slot with
        | none => rfl
        | some r => exact congrArg some (undispatched_twice r)
      · rw [d_elsewhere i slot fun _ h => is_a (List.mem_singleton.mp h)]
    · have is_a : slot = a := (List.mem_cons.mp member).resolve_right later
      rw [x_elsewhere i slot fun _ => later, d_here slot (List.mem_singleton.mpr is_a)]
  · rw [x_elsewhere j slot fun h k => other h (List.mem_cons_of_mem a k),
      d_elsewhere j slot fun h k => other h (List.mem_cons.mpr (.inl (List.mem_singleton.mp k)))]

/-- The slots of the WAITING entries of a selection. -/
def waitingSlots (entries : List Selection) : List Nat := (entries.filter (fun e => e.status == .waiting)).map (·.slot)

theorem ruleOutWaiting_spec (i : LoadPort) (entries : List Selection) : ∀ (c : Part) (l : Lot), c.lot? i = some l →
    Undispatched i l (waitingSlots entries) c (ruleOutWaiting i entries c) := by
  induction entries with
  | nil => exact fun c l lot => undispatched_nil lot
  | cons e rest ih =>
    intro c l lot
    unfold ruleOutWaiting
    by_cases waits : e.status = .waiting
    · have one := ruleOutUndispatched_spec e.slot lot
      have lot' : (ruleOutUndispatched i e.slot c).lot? i = some (l.undispatched [e.slot] (c.pendingAt i)) := by
        obtain ⟨⟨_, done⟩, _⟩ := one
        rw [done]
        exact PerLoadPort.get_set_same _ _ _
      have slots : waitingSlots (e :: rest) = e.slot :: waitingSlots rest := by simp [waitingSlots, waits]
      rw [if_pos waits, slots]
      exact one.cons (ih _ _ lot')
    · have slots : waitingSlots (e :: rest) = waitingSlots rest := by simp [waitingSlots, waits]
      rw [if_neg waits, slots]
      exact ih c l lot

end Sys2Proof.Machine
end

section
/-! A lot that completes, and the freeing of wafer records (R18, R43, R148 to R153). -/

namespace Sys2Proof.Machine

/-! ### The report (R150 to R153) -/

theorem reportOutcome_eq (aborted : Bool) (l : List Summary) : reportOutcome aborted l =
    if aborted = true then .aborted
    else if ∀ x ∈ l, x.outcome = .reviewed ∨ x.outcome = .noSites then .complete else .partialReport := by
  have every : (l.all (fun s => s.outcome == .reviewed || s.outcome == .noSites) = true) =
      ∀ x ∈ l, x.outcome = .reviewed ∨ x.outcome = .noSites := by simp
  simp only [reportOutcome, every]

theorem deliverReport_enters {c : Part} {i : LoadPort} {l : Lot} (lot : c.lot? i = some l) (room : c.reportQueue.length < 6) :
    deliverReport i c = { c with
      reportQueue := c.reportQueue ++ [{ assembleReport i l c with number := some c.nextReport }]
      nextReport := c.nextReport + 1#16
      lots := c.lots.set i (some { l with state := .closed })
      carriers := c.carriers.set i { c.carrier i with state := .releasable } } := by
  have enters : deliverReport i c = enterReport i (assembleReport i l c) c := by
    simp only [deliverReport, lot]
    exact if_pos room
  rw [enters, enterReport_rest, updateLot_found _ lot]

theorem deliverReport_waits {c : Part} {i : LoadPort} {l : Lot} (lot : c.lot? i = some l) (full : 6 ≤ c.reportQueue.length) :
    deliverReport i c = { c with
      waitingReports := c.waitingReports ++ [⟨i, assembleReport i l c⟩]
      lots := c.lots.set i (some { l with state := .reportWait }) } := by
  have waits : deliverReport i c = waitReport i (assembleReport i l c) c := by
    simp only [deliverReport, lot]
    exact if_neg (Nat.not_lt.mpr full)
  have lot' : Part.lot? { c with waitingReports := c.waitingReports ++ [⟨i, assembleReport i l c⟩] } i = some l := lot
  rw [waits, waitReport, updateLot_found _ lot']

/-- A lot at completion, before its report is assembled. -/
def Lot.ended (l : Lot) (slots : List Nat) (pending : Nat → Nat) : Lot :=
  { l.undispatched slots pending with holdTool := none, holdAuto := none, holdExc := none }

theorem completeLot_spec {c : Part} {i : LoadPort} {l : Lot} (lot : c.lot? i = some l) :
    ∃ lists : List RevisitList,
      let d : Part := { c with
        lists := lists, lots := c.lots.set i (some (l.ended (waitingSlots l.selection) (c.pendingAt i)))
        stats := c.stats.set .sitesSkipped (c.stats.get .sitesSkipped +
          BitVec.ofNat 32 (slotTotal (c.pendingAt i) (waitingSlots l.selection))) }
      completeLot i c = raiseLotState (deliverReport i d) ∧
      (∀ slot ∈ waitingSlots l.selection, d.list? i slot = (c.list? i slot).map RevisitList.undispatched) ∧
      ∀ j slot, (j = i → slot ∉ waitingSlots l.selection) → d.list? j slot = c.list? j slot := by
  obtain ⟨⟨lists, ruled⟩, here, elsewhere⟩ := ruleOutWaiting_spec i l.selection c l lot
  have lot' : (ruleOutWaiting i l.selection c).lot? i =
      some (l.undispatched (waitingSlots l.selection) (c.pendingAt i)) := by
    rw [ruled]
    exact PerLoadPort.get_set_same _ _ _
  have cleared : clearSources i (ruleOutWaiting i l.selection c) = { c with
      lists := lists, lots := c.lots.set i (some (l.ended (waitingSlots l.selection) (c.pendingAt i)))
      stats := c.stats.set .sitesSkipped (c.stats.get .sitesSkipped +
        BitVec.ofNat 32 (slotTotal (c.pendingAt i) (waitingSlots l.selection))) } := by
    rw [clearSources, updateLot_found _ lot', ruled, lots_set_set]
    rfl
  refine ⟨lists, ?_, fun slot member => ?_, fun j slot other => ?_⟩
  · rw [← cleared]
    simp only [completeLot, lot]
  · rw [← here slot member, ruled]
    rfl
  · rw [← elsewhere j slot other, ruled]
    rfl

/-! ### A wafer record is freed (R43, R148) -/

/-- A wafer is home with every site of its list resolved. -/
def Part.Home (c : Part) (w : Wafer) : Prop :=
  w.phase = .home ∧ w.place = none ∧
    ∀ e ∈ c.entries w.lot w.slot, e.state ∈ [SiteState.classified, .skipped, .failed, .unclassified]

theorem isResolved_iff (x : SiteState) :
    x.isResolved = true ↔ x ∈ [SiteState.classified, .skipped, .failed, .unclassified] := by cases x <;> decide

theorem waferDone_iff (c : Part) (w : Wafer) : c.waferDone w = true ↔ c.Home w := by
  simp only [Part.waferDone, Part.Home, openCount, Bool.and_eq_true, beq_iff_eq, Option.isNone_iff_eq_none,
    List.countP_eq_zero, Bool.not_eq_true', Bool.not_eq_false, isResolved_iff, and_assoc]

section
variable {c : Part} {t : Nat} {w : Wafer} (wafer : c.wafer? t = some w)
include wafer

theorem freeIfDone_stays (not_home : ¬ c.Home w) : freeIfDone c t = c := by
  simp only [freeIfDone, wafer]
  exact if_neg (mt (waferDone_iff c w).mp not_home)

theorem freeIfDone_frees (home : c.Home w) : freeIfDone c t = freeWafer t w c := by
  simp only [freeIfDone, wafer]
  exact if_pos ((waferDone_iff c w).mpr home)

end

theorem freeWafer_eq {c : Part} {t : Nat} {w : Wafer} {l : Lot} {outcome : WaferOutcome} (lot : c.lot? w.lot = some l)
    (result : w.outcome = some outcome) : freeWafer t w c = { c with
      wafers := c.wafers.set t none
      lists := c.lists.filter (fun r => ¬ (r.lot = w.lot ∧ r.slot = w.slot))
      freeCount := (freeWafer t w c).freeCount
      lots := c.lots.set w.lot (some { l with selection := l.selection.map (fun e => if e.slot = w.slot then
        { e with summary := some ⟨e.slot, w.readId, outcome, e.counts⟩ } else e) }) } := by
  have tests : (fun r : RevisitList => !(r.lot == w.lot && r.slot == w.slot)) =
      fun r => decide (¬ (r.lot = w.lot ∧ r.slot = w.slot)) := funext fun r => by
    rw [Bool.eq_iff_iff]
    simp [Classical.or_iff_not_imp_left]
  have summary : waferSummary w = fun e => ⟨e.slot, w.readId, outcome, e.counts⟩ := funext fun e => by
    rw [waferSummary, result]
    rfl
  rw [← tests]
  simp only [freeWafer, updateLot_found _ lot, updateEntry_selection, summary]
  rfl

theorem freeWafer_pool (t : Nat) (w : Wafer) (c : Part) :
    (freeWafer t w c).freeCount + heldEntries (freeWafer t w c) = c.freeCount + heldEntries c := by
  have kept := freeList_pool w.lot w.slot (updateLot w.lot (Lot.updateEntry w.slot
    (fun e => { e with summary := some (waferSummary w e) })) c)
  refine kept.trans ?_
  rw [updateLot_rest]
  rfl

theorem freeWafer_wafer {t : Nat} (w : Wafer) (c : Part) : (freeWafer t w c).wafer? t = none := by
  have freed : (freeWafer t w c).wafers = c.wafers.set t none := by
    simp only [freeWafer, setWafer, freeList]
    rw [updateLot_rest]
  rw [Part.wafer?, freed, List.getD_eq_getElem?_getD, List.getElem?_set_self']
  cases c.wafers[t]? <;> rfl

/-! ### The lists of other wafers -/

theorem freeList_entries (i j : LoadPort) (slot k : Nat) (c : Part) :
    (freeList i slot c).entries j k = c.entries j k ∨ (freeList i slot c).entries j k = [] := by
  have found : (freeList i slot c).list? j k = (c.lists.filter fun r => !(r.lot == i && r.slot == slot)).find?
      (fun r => r.lot == j && r.slot == k) := rfl
  rw [List.find?_filter] at found
  by_cases same : j = i ∧ k = slot
  · obtain ⟨rfl, rfl⟩ := same
    refine .inr (entries_absent (found.trans (List.find?_eq_none.mpr fun r _ => ?_)))
    cases r.lot == j && r.slot == k <;> decide
  · refine .inl ?_
    rw [entries_eq, entries_eq, found]
    refine congrArg (fun o => (Option.map (·.entries) o).getD []) (congrArg (c.lists.find? ·) (funext fun r => ?_))
    by_cases here : r.lot = j ∧ r.slot = k
    · obtain ⟨rfl, rfl⟩ := here
      simpa [Classical.or_iff_not_imp_left] using same
    · have not_here : (r.lot == j && r.slot == k) = false := by simpa using here
      simp [not_here]

theorem freeIfDone_entries (c : Part) (t : Nat) (j : LoadPort) (k : Nat) :
    (freeIfDone c t).entries j k = c.entries j k ∨ (freeIfDone c t).entries j k = [] := by
  unfold freeIfDone
  split
  · exact .inl rfl
  · split
    · rename_i w _ _
      have lists : (freeWafer t w c).lists = (freeList w.lot w.slot c).lists := by
        simp only [freeWafer, setWafer, freeList]
        rw [updateLot_rest]
      have same : (freeWafer t w c).entries j k = (freeList w.lot w.slot c).entries j k := by
        unfold Part.entries Part.list?
        rw [lists]
      rw [same]
      exact freeList_entries _ _ _ _ c
    · exact .inl rfl

/-- A wafer that is home stays home while other records are freed. -/
theorem home_kept {c d : Part} {w : Wafer} (home : c.Home w)
    (entries : d.entries w.lot w.slot = c.entries w.lot w.slot ∨ d.entries w.lot w.slot = []) : d.Home w := by
  obtain ⟨phase, place, resolved⟩ := home
  refine ⟨phase, place, fun e member => ?_⟩
  rcases entries with same | nothing
  · exact resolved e (same ▸ member)
  · rw [nothing] at member
    cases member

end Sys2Proof.Machine
end

section
/-! A record that can be freed is freed in the same event (R43, R45), and O32. -/

namespace Sys2Proof.Machine

/-! ### No order sends a wafer home -/

/-- The record of the tag, if one is in use, is not home. -/
def NotHome (t : Nat) (c : Part) : Prop := ∀ w, c.wafer? t = some w → w.phase ≠ .home

theorem NotHome.congr {t : Nat} {c d : Part} (h : NotHome t c) (wafers : d.wafers = c.wafers) : NotHome t d := by
  intro w wafer
  refine h w ?_
  rw [Part.wafer?, ← wafers]
  exact wafer

theorem updateWafer_notHome (t u : Nat) {f : Wafer → Wafer} (c : Part)
    (away : ∀ w, w.phase ≠ .home → (f w).phase ≠ .home) (h : NotHome t c) : NotHome t (updateWafer u f c) := by
  intro w wafer
  by_cases same : t = u
  · subst same
    cases before : c.wafer? t with
    | none =>
      rw [updateWafer_elim, before] at wafer
      exact absurd (before.symm.trans wafer) (Option.some_ne_none w).symm
    | some x =>
      rw [updateWafer_some c t x f before, wafer?_set c _ t x (f x) before rfl] at wafer
      exact Option.some.inj wafer ▸ away x (h x before)
  · rw [updateWafer_other f same] at wafer
    exact h w wafer

theorem setWafer_notHome (t u : Nat) {x : Wafer} (c : Part) (away : x.phase ≠ .home) (h : NotHome t c) :
    NotHome t (setWafer u (some x) c) := by
  intro w wafer
  have read : (setWafer u (some x) c).wafer? t = ((c.wafers.set u (some x))[t]?).getD none := List.getD_eq_getElem?_getD
  by_cases same : u = t
  · subst same
    rw [read, List.getElem?_set_self'] at wafer
    cases there : c.wafers[u]? with
    | none => rw [there] at wafer; cases wafer
    | some y =>
      rw [there] at wafer
      exact Option.some.inj wafer ▸ away
  · rw [read, List.getElem?_set_ne same, ← List.getD_eq_getElem?_getD] at wafer
    exact h w wafer

theorem dropReservation_wafers (t : Nat) (p : Purpose) (k : LockId) (c : Part) :
    (dropReservation t p k c).wafers = c.wafers := by rw [dropReservation_rest]

theorem drainLot_wafers (i : LoadPort) (c : Part) : (drainLot i c).wafers = c.wafers ∧ (drainLot i c).lists = c.lists := by
  rw [drainLot_rest]
  exact ⟨rfl, rfl⟩

theorem ruleOutLot_wafers (i : LoadPort) (c : Part) :
    (ruleOutLot i c).wafers = c.wafers ∧ (ruleOutLot i c).lists = c.lists := by
  rw [ruleOutLot_rest]
  exact ⟨rfl, rfl⟩

section
variable {t : Nat} {c : Part} (h : NotHome t c)
include h

theorem setPhase_notHome (u : Nat) {p : Phase} (away : p ≠ .home) : NotHome t (setPhase u p c) :=
  updateWafer_notHome t u c (fun _ _ => away) h

theorem setLock_notHome (k : LockId) (l : Lock) : NotHome t (setLock k l c) := h.congr (by cases k <;> rfl)

theorem issueOrder_notHome (m : Mover) (k : OrderKind) (u : Option Nat) : NotHome t (issueOrder m k u c) :=
  h.congr (issueOrder_wafers m k u c)

theorem issuePump_notHome (k : LockId) (u : Option Nat) : NotHome t (issuePump k u c) := by
  have pumped := issueOrder_notHome (setLock_notHome h k { c.lock k with state := .pumping }) k.mover .pump u
  unfold issuePump
  cases u with
  | none => exact pumped
  | some v =>
    exact NotHome.congr (updateWafer_notHome t v (f := fun w => { w with exposed := true }) _ (fun _ away => away) pumped)
      (dropReservation_wafers v .inbound k _)

theorem issueVent_notHome (k : LockId) (u : Option Nat) : NotHome t (issueVent k u c) :=
  issueOrder_notHome (setLock_notHome h k _) _ _ _

theorem issueMoveSite_notHome : NotHome t (issueMoveSite c) := by
  unfold issueMoveSite
  repeat' split
  all_goals exact h.congr (by simp [issueOrder_wafers])

theorem lockWork_notHome (k : LockId) : NotHome t (lockWork c k) := by
  unfold lockWork
  split
  · split
    · split
      · exact h
      · split
        · exact issuePump_notHome h _ _
        · exact h
    · split
      · exact issuePump_notHome h _ _
      · exact h
    · split
      · exact h
      · split
        · exact issueVent_notHome h _ _
        · exact h
    · exact h
  · exact h

theorem alignWork_notHome : NotHome t (alignWork c) := by
  unfold alignWork
  repeat' split
  all_goals exact h.congr (by simp [issueOrder_wafers])

theorem returnWork_notHome (p : Place) : NotHome t (returnWork c p) := by
  unfold returnWork
  split
  · exact h
  · unfold reserveReturn
    split
    · exact setLock_notHome h _ _
    · split
      · exact issuePump_notHome (setLock_notHome h _ _) _ _
      · exact h

theorem arWork_notHome : NotHome t (arWork c) := by
  unfold arWork
  split
  · split
    · exact h
    · rename_i task _
      cases task with
      | order k u => exact issueOrder_notHome h _ _ _
      | admission k u => exact issueOrder_notHome (setPhase_notHome (setLock_notHome h _ _) u (by decide)) _ _ _
      | grant i slot u =>
        have granted := setWafer_notHome t u (x := grantedWafer i slot) c nofun h
        have entered : NotHome t (updateLot i (Lot.updateEntry slot (fun e => { e with status := .dispatched }))
            (setWafer u (some (grantedWafer i slot)) c)) := granted.congr (by rw [updateLot_rest])
        exact NotHome.congr (issueOrder_notHome entered .ar (.arPick .upper (.slot i slot)) (some u)) (drainLot_wafers i _).1
  · exact h

theorem vrWork_notHome : NotHome t (vrWork c) := by
  unfold vrWork
  split
  · split
    · exact h
    · unfold doVrTask
      split
      · exact issueOrder_notHome h _ _ _
      · exact issueOrder_notHome (setPhase_notHome h _ (by decide)) _ _ _
      · exact issueOrder_notHome h _ _ _
  · exact h

theorem ventWork_notHome (k : LockId) : NotHome t (ventWork c k) := by
  unfold ventWork
  split
  · exact issueVent_notHome h _ _
  · exact h

theorem moveLoadWork_notHome : NotHome t (moveLoadWork c) := by
  unfold moveLoadWork
  split
  · exact issueOrder_notHome h _ _ _
  · exact h

theorem issueWork_notHome : NotHome t (issueWork c) := by
  have locks := lockWork_notHome (lockWork_notHome (issueMoveSite_notHome h) .a) .b
  have returns := returnWork_notHome (returnWork_notHome (alignWork_notHome locks) .stage) .transferArm
  have carried := vrWork_notHome (arWork_notHome returns)
  exact moveLoadWork_notHome (ventWork_notHome (ventWork_notHome carried .a) .b)

end

/-! ### A wafer at home through `settleLots` -/

theorem redirect_home {c : Part} {t : Nat} {w : Wafer} (wafer : c.wafer? t = some w) (home : w.phase = .home)
    (place : w.place = none) : redirect c t = c := by
  refine (redirect_eq c t w wafer).2 fun ⟨_, p, turns⟩ => ?_
  have some_phase := (redirectPhase_some c w p).mpr turns
  rw [redirectPhase, place, home] at some_phase
  cases some_phase

/-- The record of `t` is `w`, and home. -/
def HomeAt (t : Nat) (w : Wafer) (c : Part) : Prop := c.wafer? t = some w ∧ c.Home w

theorem HomeAt.congr {t : Nat} {w : Wafer} {c d : Part} (h : HomeAt t w c) (wafer : d.wafer? t = c.wafer? t)
    (lists : d.lists = c.lists) : HomeAt t w d := by
  refine ⟨wafer.trans h.1, home_kept h.2 (.inl ?_)⟩
  unfold Part.entries Part.list?
  rw [lists]

theorem redirects_homeAt {t : Nat} {w : Wafer} {c : Part} (h : HomeAt t w c) : HomeAt t w (allTags.foldl redirect c) := by
  refine foldl_inv redirect (HomeAt t w) (fun d u before => ?_) allTags c h
  by_cases same : u = t
  · subst same
    rw [redirect_home before.1 before.2.1 before.2.2.1]
    exact before
  · exact before.congr (redirect_other d u t (Ne.symm same)) (by rw [redirect_rest])

theorem frees_home {t : Nat} {w : Wafer} {c : Part} (tag : t ∈ allTags) (h : HomeAt t w c) :
    (allTags.foldl freeIfDone c).wafer? t = none := by
  refine foldl_at freeIfDone t (HomeAt t w) (fun d => d.wafer? t = none) (fun d u other before => ?_) (fun d before => ?_)
    (fun d u other before => ?_) allTags (by decide) tag c h
  · exact ⟨(freeIfDone_other d u t other.symm).trans before.1, home_kept before.2 (freeIfDone_entries d u _ _)⟩
  · rw [freeIfDone_frees before.1 before.2]
    exact freeWafer_wafer w d
  · exact (freeIfDone_other d u t other.symm).trans before

theorem HomeAt.same {t : Nat} {w : Wafer} {c d : Part} (h : HomeAt t w c) (same : d.wafers = c.wafers ∧ d.lists = c.lists) :
    HomeAt t w d :=
  h.congr (by rw [Part.wafer?, same.1]; rfl) same.2

theorem recordsSettled_home {t : Nat} {w : Wafer} {c : Part} (tag : t ∈ allTags) (h : HomeAt t w c) :
    (recordsSettled c).wafer? t = none := by
  have ruled := foldl_inv (fun c i => ruleOutLot i c) (HomeAt t w) (fun d i before => before.same (ruleOutLot_wafers i d))
    allLoadPorts c h
  have drained := foldl_inv (fun c i => drainLot i c) (HomeAt t w) (fun d i before => before.same (drainLot_wafers i d))
    allLoadPorts _ ruled
  exact frees_home tag (redirects_homeAt drained)

theorem settleLots_home {t : Nat} {w : Wafer} {c : Part} (tag : t ∈ allTags) (h : HomeAt t w c) :
    (settleLots c).wafer? t = none := by
  rw [settleLots_eq]
  refine foldl_inv (fun c i => completeIfDone i c) (fun d => d.wafer? t = none) (fun d i before => ?_) allLoadPorts _
    (recordsSettled_home tag h)
  rw [Part.wafer?, completeIfDone_wafers]
  exact before

theorem settle_home {t : Nat} {w : Wafer} {c : Part} (tag : t ∈ allTags) (h : HomeAt t w c) :
    (settle c).wafer? t ≠ some w := by
  have freed : NotHome t (settleLots c) := fun x there =>
    absurd ((settleLots_home tag h).symm.trans there) (Option.some_ne_none x).symm
  exact fun there => issueWork_notHome freed w there h.2.1

/-- The report of a lot that has completed. -/
def Lot.report (l : Lot) (carrierId : Text) (number : Option Half) : Report :=
  let summaries := l.selection.filterMap (·.summary)
  ⟨number, l.id, carrierId, l.recipe,
    if l.aborted = true then .aborted
    else if ∀ x ∈ summaries, x.outcome = .reviewed ∨ x.outcome = .noSites then .complete else .partialReport,
    summaries, l.counters⟩

theorem assembleReport_eq (i : LoadPort) (l : Lot) (c : Part) :
    assembleReport i l c = l.report ((c.carrier i).id.getD []) none := by
  simp only [assembleReport, reportOutcome_eq]
  rfl

theorem deliverReport_lists (i : LoadPort) (c : Part) :
    (deliverReport i c).lists = c.lists ∧ (deliverReport i c).stats = c.stats := by
  cases lot : c.lot? i with
  | none => simp only [deliverReport, lot, and_self]
  | some l =>
    rcases Nat.lt_or_ge c.reportQueue.length 6 with room | full
    · rw [deliverReport_enters lot room]
      exact ⟨rfl, rfl⟩
    · rw [deliverReport_waits lot full]
      exact ⟨rfl, rfl⟩

/-- The lists and counts of a lot that completes, its state and its report. -/
theorem completeLot_result {c : Part} {i : LoadPort} {l : Lot} (lot : c.lot? i = some l) :
    let d := completeLot i c
    let done := l.ended (waitingSlots l.selection) (c.pendingAt i)
    (∀ slot ∈ waitingSlots l.selection, d.list? i slot = (c.list? i slot).map RevisitList.undispatched) ∧
    (∀ j slot, (j = i → slot ∉ waitingSlots l.selection) → d.list? j slot = c.list? j slot) ∧
    d.stats = c.stats.set .sitesSkipped (c.stats.get .sitesSkipped +
      BitVec.ofNat 32 (slotTotal (c.pendingAt i) (waitingSlots l.selection))) ∧
    (c.reportQueue.length < 6 → d.lots = c.lots.set i (some { done with state := .closed }) ∧
      d.carriers = c.carriers.set i { c.carrier i with state := .releasable } ∧ d.nextReport = c.nextReport + 1#16 ∧
      d.waitingReports = c.waitingReports ∧
      d.reportQueue = c.reportQueue ++ [done.report ((c.carrier i).id.getD []) (some c.nextReport)]) ∧
    (6 ≤ c.reportQueue.length → d.lots = c.lots.set i (some { done with state := .reportWait }) ∧
      d.carriers = c.carriers ∧ d.nextReport = c.nextReport ∧ d.reportQueue = c.reportQueue ∧
      d.waitingReports = c.waitingReports ++ [⟨i, done.report ((c.carrier i).id.getD []) none⟩]) := by
  obtain ⟨lists, completes, here, elsewhere⟩ := completeLot_spec lot
  dsimp only at completes here elsewhere ⊢
  generalize l.ended (waitingSlots l.selection) (c.pendingAt i) = done at completes here elsewhere ⊢
  obtain ⟨kept, stats⟩ := deliverReport_lists i { c with
    lists := lists, lots := c.lots.set i (some done)
    stats := c.stats.set .sitesSkipped (c.stats.get .sitesSkipped +
      BitVec.ofNat 32 (slotTotal (c.pendingAt i) (waitingSlots l.selection))) }
  have list (j : LoadPort) (slot : Nat) : (completeLot i c).list? j slot = Part.list? { c with lists := lists } j slot := by
    rw [completes]
    unfold Part.list?
    rw [show (raiseLotState _).lists = lists from kept]
  have lot' : Part.lot? { c with
      lists := lists, lots := c.lots.set i (some done)
      stats := c.stats.set .sitesSkipped (c.stats.get .sitesSkipped +
        BitVec.ofNat 32 (slotTotal (c.pendingAt i) (waitingSlots l.selection))) } i = some done :=
    PerLoadPort.get_set_same _ _ _
  refine ⟨fun slot member => (list i slot).trans (here slot member),
    fun j slot other => (list j slot).trans (elsewhere j slot other),
    (by rw [completes]; exact stats), fun room => ?_, fun full => ?_⟩
  · rw [completes, deliverReport_enters lot' room, lots_set_set, assembleReport_eq]
    exact ⟨rfl, rfl, rfl, rfl, rfl⟩
  · rw [completes, deliverReport_waits lot' full, lots_set_set, assembleReport_eq]
    exact ⟨rfl, rfl, rfl, rfl, rfl⟩

/-- Settles O32: completion by whether the queue has room, then the freeing of a record. -/
theorem lotCompletes : Obligations.LotCompletes := by
  refine ⟨fun c i l lot => ?_, fun c t w wafer => ?_⟩
  · obtain ⟨here, elsewhere, stats, enters, waits⟩ := completeLot_result lot
    obtain ⟨tool, automation⟩ := (completeLot_raises i c l lot).raised
    exact ⟨(c.carrier i).id.getD [], fun x id => by rw [id]; rfl, here, elsewhere, stats, tool, automation, enters, waits⟩
  · intro d home
    have frees (is_home : c.Home w) : d = freeWafer t w c := freeIfDone_frees wafer is_home
    refine ⟨freeIfDone_stays wafer, fun is_home tag => settle_home tag ⟨wafer, is_home⟩, fun l outcome is_home lot result => ?_⟩
    rw [frees is_home]
    exact ⟨freeWafer_eq lot result, freeWafer_pool t w c⟩

end Sys2Proof.Machine
end

section
/-! LOT_ABORT's answer, and the wafers that turn back (R17, R65). -/

namespace Sys2Proof.Machine

/-! ### LOT_ABORT (R17) -/

theorem doLotAbort_missing {id : Text} {c : Part} (missing : c.lotNamed id = none) :
    doLotAbort id c = ⟨c, .notFound, .empty⟩ := by
  simp only [doLotAbort, missing]
  rfl

section
variable {id : Text} {c : Part} {i : LoadPort} {l : Lot} (named : c.lotNamed id = some (i, l))
include named

theorem doLotAbort_defined (state : l.state = .defined) :
    doLotAbort id c = ⟨completeLot i (setLot i (some (abortedLot l)) c), .ok, .empty⟩ := by
  simp only [doLotAbort, named, state]
  rfl

theorem doLotAbort_running (state : l.state = .running) : doLotAbort id c =
    ⟨settle (abortWafers i (raiseLotState (setLot i (some { abortedLot l with state := .draining }) c))), .ok, .empty⟩ := by
  simp only [doLotAbort, named, state]
  rfl

theorem doLotAbort_again (state : l.state = .draining) (aborted : l.aborted = true) :
    doLotAbort id c = ⟨c, .ok, .empty⟩ := by
  simp only [doLotAbort, named, state, aborted]
  rfl

theorem doLotAbort_draining (state : l.state = .draining) (live : l.aborted = false) : doLotAbort id c =
    ⟨settle (abortWafers i (if l.hold = .none then setLot i (some (abortedLot l)) c
      else raiseLotState (setLot i (some (abortedLot l)) c))), .ok, .empty⟩ := by
  simp only [doLotAbort, named, state, live]
  rfl

theorem doLotAbort_late (late : l.state = .reportWait ∨ l.state = .closed) :
    doLotAbort id c = ⟨c, .refusedState, .empty⟩ := by
  rcases late with state | state
  all_goals
    simp only [doLotAbort, named, state]
    rfl

end

/-! ### A wafer that turns back (R65) -/

theorem TurnsBack.congr {c d : Part} {w : Wafer} {p : Phase} (h : TurnsBack c w p)
    (states : ∀ k, (d.lock k).state = (c.lock k).state) : TurnsBack d w p := by
  obtain h | h | h | h | h | ⟨k, place, cases⟩ := h
  · exact .inl h
  · exact .inr (.inl h)
  · exact .inr (.inr (.inl h))
  · exact .inr (.inr (.inr (.inl h)))
  · exact .inr (.inr (.inr (.inr (.inl h))))
  · exact .inr (.inr (.inr (.inr (.inr ⟨k, place, by rw [states]; exact cases⟩))))

theorem named_congr {c d : Part} (orders : d.orders = c.orders) (t : Nat) : Named d t ↔ Named c t := by
  unfold Named Part.slotOf
  rw [orders]

theorem lotAborted_congr {c d : Part} (lots : d.lots = c.lots) (i : LoadPort) : d.lotAborted i = c.lotAborted i := by
  unfold Part.lotAborted Part.lot?
  rw [lots]

/-- The wafer `w` of an aborted lot takes phase `p` next. -/
def ToTurn (t : Nat) (w : Wafer) (p : Phase) (c : Part) : Prop :=
  c.wafer? t = some w ∧ c.lotAborted w.lot = true ∧ ¬ Named c t ∧ TurnsBack c w p

/-- The wafer has taken its phase and its INBOUND reservation is gone. -/
def Turned (t : Nat) (w : Wafer) (p : Phase) (c : Part) : Prop :=
  c.wafer? t = some { w with phase := p } ∧ ∀ k, (c.lock k).reservation ≠ some ⟨t, .inbound⟩

theorem ToTurn.congr {t : Nat} {w : Wafer} {p : Phase} {c d : Part} (h : ToTurn t w p c) (wafer : d.wafer? t = c.wafer? t)
    (aborted : d.lotAborted w.lot = c.lotAborted w.lot) (orders : d.orders = c.orders)
    (states : ∀ k, (d.lock k).state = (c.lock k).state) : ToTurn t w p d := by
  obtain ⟨there, gone, free, turns⟩ := h
  exact ⟨wafer.trans there, aborted.trans gone, mt (named_congr orders t).mp free, turns.congr states⟩

theorem redirect_turns {t : Nat} {w : Wafer} {p : Phase} {c : Part} (h : ToTurn t w p c) : Turned t w p (redirect c t) := by
  obtain ⟨wafer, aborted, free, turns⟩ := h
  rw [(redirect_eq c t w wafer).1 p ⟨aborted, free⟩ turns]
  refine ⟨wafer?_set c _ t w _ wafer rfl, fun k => ?_⟩
  cases k with
  | a =>
    by_cases mine : c.lockA.reservation = some ⟨t, .inbound⟩
    · simp [Part.lock, mine]
    · simp [Part.lock, mine]
  | b =>
    by_cases mine : c.lockB.reservation = some ⟨t, .inbound⟩
    · simp [Part.lock, mine]
    · simp [Part.lock, mine]

theorem redirects_turn {t : Nat} {w : Wafer} {p : Phase} {c : Part} (tag : t ∈ allTags) (h : ToTurn t w p c) :
    Turned t w p (allTags.foldl redirect c) := by
  refine foldl_at redirect t (ToTurn t w p) (Turned t w p) (fun d u other before => ?_) (fun d => redirect_turns)
    (fun d u other after => ?_) allTags (by decide) tag c h
  · exact before.congr (redirect_other d u t other.symm) (lotAborted_congr (by rw [redirect_rest]) _)
      (by rw [redirect_rest]) fun k => (redirect_lock d u k).1
  · refine ⟨(redirect_other d u t other.symm).trans after.1, fun k => ?_⟩
    rcases (redirect_lock d u k).2 with none_there | same
    · rw [none_there]
      exact (Option.some_ne_none _).symm
    · rw [same]
      exact after.2 k

theorem drained_toTurn {t : Nat} {w : Wafer} {p : Phase} {c : Part} (h : ToTurn t w p c) :
    ToTurn t w p (allLoadPorts.foldl (fun c i => drainLot i c) (allLoadPorts.foldl (fun c i => ruleOutLot i c) c)) := by
  cases lot : c.lot? w.lot with
  | none =>
    have aborted := h.2.1
    simp only [Part.lotAborted, lot] at aborted
    cases aborted
  | some l =>
    have gone : l.aborted = true := (lotAborted_lot lot).symm.trans h.2.1
    have unruled : l.afterRuling c w.lot = l := if_neg fun running => by
      rw [gone] at running
      exact absurd running.2 (by decide)
    obtain ⟨ruled, wafers⟩ := ruled_all c w.lot l lot
    rw [unruled] at ruled
    have rest := foldl_inv (fun c i => ruleOutLot i c) (fun d => d.orders = c.orders ∧ ∀ k, d.lock k = c.lock k)
      (fun d i same => by rw [ruleOutLot_rest]; exact same) allLoadPorts c ⟨rfl, fun _ => rfl⟩
    generalize allLoadPorts.foldl (fun c i => ruleOutLot i c) c = m at ruled wafers rest ⊢
    obtain ⟨drained, wafers'⟩ := drained_all m w.lot l ruled
    have rest' := foldl_inv (fun c i => drainLot i c) (fun d => d.orders = c.orders ∧ ∀ k, d.lock k = c.lock k)
      (fun d i same => by rw [drainLot_rest]; exact same) allLoadPorts m rest
    have aborted : l.afterDraining.aborted = l.aborted := by
      unfold Lot.afterDraining
      split <;> rfl
    refine h.congr (by rw [Part.wafer?, wafers', wafers]; rfl) ?_ rest'.1 fun k => by rw [rest'.2]
    rw [lotAborted_lot drained, lotAborted_lot lot, aborted]

/-- At the end of an event a wafer of an aborted lot has turned back. -/
theorem settleLots_turned {t : Nat} {w : Wafer} {p : Phase} {c : Part} (tag : t ∈ allTags) (away : p ≠ .home)
    (h : ToTurn t w p c) : Turned t w p (settleLots c) := by
  have turned := redirects_turn tag (drained_toTurn h)
  have freed : Turned t w p (recordsSettled c) := foldl_inv freeIfDone (Turned t w p) (fun d u before => by
    by_cases same : u = t
    · subst same
      rw [freeIfDone_open d u fun x wafer => by rw [← Option.some.inj (before.1.symm.trans wafer)]; exact away]
      exact before
    · exact ⟨(freeIfDone_other d u t (Ne.symm same)).trans before.1, fun k => by rw [freeIfDone_lock]; exact before.2 k⟩)
    allTags _ turned
  rw [settleLots_eq]
  refine foldl_inv (fun c i => completeIfDone i c) (Turned t w p) (fun d i before => ⟨?_, fun k => ?_⟩) allLoadPorts _ freed
  · rw [Part.wafer?, completeIfDone_wafers]
    exact before.1
  · rw [completeIfDone_lock]
    exact before.2 k

end Sys2Proof.Machine
end

section
/-! The wafers of an aborted lot (R65, R87, R89). -/

namespace Sys2Proof.Machine

/-! ### Skipped entries -/

/-- An entry of a list whose PENDING sites are skipped by an abort. -/
def skipAborted (e : SiteEntry) : SiteEntry :=
  if e.state = .pending then { e with state := .skipped, captureNo := none, reason := some .aborted } else e

theorem skipAborted_resolved {e : SiteEntry} (resolved : e.state ≠ .pending) : skipAborted e = e := if_neg resolved

theorem skipAborted_state (e : SiteEntry) : (skipAborted e).state ≠ .pending := by
  unfold skipAborted
  split
  · nofun
  · assumption

theorem skipAborted_number (e : SiteEntry) : (skipAborted e).number = e.number := by
  unfold skipAborted
  split <;> rfl

theorem skipAborted_twice (e : SiteEntry) : skipAborted (skipAborted e) = skipAborted e :=
  skipAborted_resolved (skipAborted_state e)

/-! ### What the abort of wafers keeps -/

/-- The abort of wafers leaves the session, the orders and the lots' abort as they are, and skips PENDING entries alone. -/
structure AbortKept (c d : Part) : Prop where
  session : d.session = c.session
  orders  : d.orders = c.orders
  aborted : ∀ j, d.lotAborted j = c.lotAborted j
  entries : ∀ j slot, d.entries j slot = c.entries j slot ∨ d.entries j slot = (c.entries j slot).map skipAborted

theorem AbortKept.refl (c : Part) : AbortKept c c := ⟨rfl, rfl, fun _ => rfl, fun _ _ => .inl rfl⟩

theorem AbortKept.trans {a b c : Part} (h : AbortKept a b) (k : AbortKept b c) : AbortKept a c where
  session := k.session.trans h.session
  orders := k.orders.trans h.orders
  aborted j := (k.aborted j).trans (h.aborted j)
  entries j slot := by
    have twice (l : List SiteEntry) : (l.map skipAborted).map skipAborted = l.map skipAborted := by
      rw [List.map_map]
      exact List.map_congr_left fun e _ => skipAborted_twice e
    rcases k.entries j slot with second | second <;> rcases h.entries j slot with one | one <;> rw [second, one]
    · exact .inl rfl
    · exact .inr rfl
    · exact .inr rfl
    · exact .inr (twice _)

/-- No entry of a list is PENDING. -/
def Part.NonePending (c : Part) (i : LoadPort) (slot : Nat) : Prop := ∀ e ∈ c.entries i slot, e.state ≠ .pending

theorem AbortKept.nonePending {c d : Part} (h : AbortKept c d) {i : LoadPort} {slot : Nat} (none_pends : c.NonePending i slot) :
    d.NonePending i slot := by
  intro e member
  rcases h.entries i slot with same | skipped
  · exact none_pends e (same ▸ member)
  · rw [skipped] at member
    obtain ⟨x, _, rfl⟩ := List.mem_map.mp member
    exact skipAborted_state x

/-- A site that is not PENDING is read as before. -/
theorem AbortKept.site? {c d : Part} (h : AbortKept c d) {t n slot : Nat} {i : LoadPort} {e : SiteEntry} {w x : Wafer}
    (wafer : c.wafer? t = some w) (wafer' : d.wafer? t = some x) (lot : x.lot = w.lot) (at_slot : x.slot = w.slot)
    (site : c.site? t n = some (i, slot, e)) (resolved : e.state ≠ .pending) : d.site? t n = some (i, slot, e) := by
  have found := site
  rw [site?_entryAt c t n w wafer] at found
  rw [site?_entryAt d t n x wafer', lot, at_slot, ← found]
  refine congrArg (Option.map _) ?_
  obtain ⟨y, entry, shown⟩ := Option.map_eq_some_iff.mp found
  have same : y = e := congrArg (fun z => z.2.2) shown
  subst same
  rw [entry]
  unfold Part.entryAt at entry ⊢
  rcases h.entries w.lot w.slot with kept | skipped
  · rw [kept]
    exact entry
  · have numbers : ((fun x : SiteEntry => x.number == n) ∘ skipAborted) = fun x => x.number == n :=
      funext fun x => congrArg (· == n) (skipAborted_number x)
    rw [skipped, List.find?_map, numbers, entry]
    exact congrArg some (skipAborted_resolved resolved)

theorem skipPending_aborted (i : LoadPort) (slot : Nat) (why : Reason) (c : Part) (j : LoadPort) :
    (skipPending i slot why c).lotAborted j = c.lotAborted j :=
  updateLot_lotAborted i j _ { updateList i slot _ c with stats := _ } fun _ => rfl

theorem skipPending_kept (i : LoadPort) (slot : Nat) (c : Part) :
    AbortKept c (skipPending i slot .aborted c) ∧ (skipPending i slot .aborted c).NonePending i slot := by
  obtain ⟨lists, lots, skipped, entries, only⟩ := skipPending_lists i slot .aborted c
  have here : (skipPending i slot .aborted c).entries i slot = (c.entries i slot).map skipAborted := by
    rw [skipped]
    exact entries
  refine ⟨⟨by rw [skipped], by rw [skipped], skipPending_aborted i slot .aborted c, fun j k => ?_⟩, fun e member => ?_⟩
  · by_cases same : (j, k) = (i, slot)
    · obtain ⟨rfl, rfl⟩ := Prod.mk.inj same
      exact .inr here
    · refine .inl ?_
      rw [entries_eq, entries_eq, (skipPending_onlyList i slot .aborted c).1 j k same]
  · rw [here] at member
    obtain ⟨x, _, rfl⟩ := List.mem_map.mp member
    exact skipAborted_state x

/-! ### One wafer (R65) -/

/-- A wafer before REVIEWING that has no outcome yet. -/
def Wafer.Inbound (w : Wafer) : Prop :=
  w.outcome = none ∧ w.phase ∈ [Phase.outboundFromSlot, .aligning, .waitLock, .pumping, .ready, .toStage]

/-- The wafer's PLACE into a lock is ISSUED. -/
def Part.Placing (c : Part) (t : Nat) : Prop :=
  ∃ o blade k, c.slotOf .ar = .issued o ∧ o.wafer = some t ∧ o.kind = .arPlace blade (.place (LockId.place k))

theorem inbound_iff (w : Wafer) : (w.phase.isInbound = true ∧ w.outcome = none) ↔ w.Inbound := by
  have phases : w.phase.isInbound = true ↔
      w.phase ∈ [Phase.outboundFromSlot, .aligning, .waitLock, .pumping, .ready, .toStage] := by cases w.phase <;> decide
  rw [Wafer.Inbound, phases, and_comm]

theorem lock?_some {p : Place} {k : LockId} (h : p.lock? = some k) : p = LockId.place k := by
  cases p <;> cases k <;> cases h <;> rfl

theorem placing_iff (c : Part) (t : Nat) : c.placingIntoLock t = true ↔ c.Placing t := by
  unfold Part.placingIntoLock Part.Placing
  refine ⟨fun placing => ?_, fun ⟨o, blade, k, slot, tag, kind⟩ => ?_⟩
  · split at placing
    · rename_i o slot
      split at placing
      · rename_i blade p kind
        obtain ⟨tag, lock⟩ := (Bool.and_eq_true _ _).mp placing
        obtain ⟨k, place⟩ := Option.isSome_iff_exists.mp lock
        exact ⟨o, blade, k, slot, beq_iff_eq.mp tag, by rw [kind, lock?_some place]⟩
      · cases placing
    · cases placing
  · simp only [slot, kind, tag, lock?_place, Option.isSome_some, beq_self_eq_true, Bool.and_self]

/-- The part with the wafer's outcome, before its sites are skipped. -/
def Part.outcomeAborted (c : Part) (t : Nat) (w : Wafer) : Part :=
  if w.phase.isInbound = true ∧ w.outcome = none then
    if c.placingIntoLock t = true then c.put t { w with outcome := some .aborted }
    else dropReservations t .inbound (c.put t { w with outcome := some .aborted })
  else c

theorem abortWafer_own {c : Part} {t : Nat} {w : Wafer} {i : LoadPort} (wafer : c.wafer? t = some w) (own : w.lot = i) :
    abortWafer i c t = skipPending w.lot w.slot .aborted (c.outcomeAborted t w) := by
  have marked : updateWafer t (fun w => { w with outcome := some .aborted }) c = c.put t { w with outcome := some .aborted } :=
    updateWafer_some c t w _ wafer
  subst own
  simp only [abortWafer, wafer, if_true, marked]
  rfl

theorem abortWafer_other {c : Part} {t : Nat} {i : LoadPort} (other : ∀ w, c.wafer? t = some w → w.lot ≠ i) :
    abortWafer i c t = c := by
  unfold abortWafer
  split
  · rfl
  · rename_i w wafer
    exact if_neg (other w wafer)

/-- The wafer records and reservations after one wafer's outcome. -/
theorem outcomeAborted_spec {c : Part} {t : Nat} {w : Wafer} (wafer : c.wafer? t = some w) :
    (∃ ws a b, c.outcomeAborted t w = { c with wafers := ws, lockA := a, lockB := b }) ∧
    (w.Inbound → (c.outcomeAborted t w).wafer? t = some { w with outcome := some .aborted }) ∧
    (¬ w.Inbound → (c.outcomeAborted t w).wafer? t = some w) ∧
    (∀ u, u ≠ t → (c.outcomeAborted t w).wafer? u = c.wafer? u) ∧
    ∀ k u, ((c.outcomeAborted t w).lock k).reservation = some ⟨u, .inbound⟩ ↔
      (c.lock k).reservation = some ⟨u, .inbound⟩ ∧ ¬ (u = t ∧ w.Inbound ∧ ¬ c.Placing t) := by
  have others (u : Nat) (other : u ≠ t) : (c.put t { w with outcome := some .aborted }).wafer? u = c.wafer? u := by
    have same := updateWafer_other (c := c) (fun w => { w with outcome := some .aborted }) other
    rwa [updateWafer_some c t w _ wafer] at same
  have here : (c.put t { w with outcome := some .aborted }).wafer? t = some { w with outcome := some .aborted } :=
    wafer?_set c _ t w _ wafer rfl
  have locks (k : LockId) : (c.put t { w with outcome := some .aborted }).lock k = c.lock k := by cases k <;> rfl
  unfold Part.outcomeAborted
  split
  · rename_i inbound
    have inbound := (inbound_iff w).mp inbound
    split
    · rename_i placing
      refine ⟨⟨_, _, _, rfl⟩, fun _ => here, fun h => absurd inbound h, others, fun k u => ?_⟩
      rw [locks]
      exact (and_iff_left fun ⟨_, _, no⟩ => no ((placing_iff c t).mp placing)).symm
    · rename_i not_placing
      have dropped := dropReservations_eq (c.put t { w with outcome := some .aborted }) t .inbound
      dsimp only at dropped
      rw [dropped]
      refine ⟨⟨_, _, _, rfl⟩, fun _ => here, fun h => absurd inbound h, others, fun k u => ?_⟩
      have free : (w.Inbound ∧ ¬ c.Placing t) ↔ True := iff_true_intro ⟨inbound, mt (placing_iff c t).mpr not_placing⟩
      rw [free, and_true]
      have drop (r : Option Reservation) : (if r = some ⟨t, .inbound⟩ then none else r) = some ⟨u, .inbound⟩ ↔
          r = some ⟨u, .inbound⟩ ∧ ¬ u = t := by
        by_cases mine : r = some ⟨t, .inbound⟩
        · subst mine
          simp [eq_comm]
        · rw [if_neg mine]
          exact (and_iff_left_of_imp fun (held : r = _) (same : u = t) => mine (held.trans (by rw [same]))).symm
      cases k with
      | a => exact drop c.lockA.reservation
      | b => exact drop c.lockB.reservation
  · rename_i not_inbound
    have not_inbound := mt (inbound_iff w).mpr not_inbound
    exact ⟨⟨_, _, _, rfl⟩, fun h => absurd h not_inbound, fun _ => wafer, fun _ _ => rfl,
      fun k u => (and_iff_left fun ⟨_, inbound, _⟩ => not_inbound inbound).symm⟩

end Sys2Proof.Machine
end

section
/-! The abort of a lot's wafers, one after another (R65, R89). -/

namespace Sys2Proof.Machine

/-! ### One step -/

theorem outcomeAborted_kept {c : Part} {t : Nat} {w : Wafer} (wafer : c.wafer? t = some w) :
    AbortKept c (c.outcomeAborted t w) := by
  obtain ⟨⟨ws, a, b, rest⟩, _⟩ := outcomeAborted_spec wafer
  rw [rest]
  exact ⟨rfl, rfl, fun _ => rfl, fun _ _ => .inl rfl⟩

theorem skipPending_records (i : LoadPort) (slot : Nat) (why : Reason) (c : Part) :
    (∀ t, (skipPending i slot why c).wafer? t = c.wafer? t) ∧ ∀ k, (skipPending i slot why c).lock k = c.lock k := by
  obtain ⟨lists, lots, skipped, _⟩ := skipPending_lists i slot why c
  rw [skipped]
  exact ⟨fun _ => rfl, fun k => by cases k <;> rfl⟩

theorem abortWafer_kept (i : LoadPort) (c : Part) (t : Nat) : AbortKept c (abortWafer i c t) := by
  by_cases own : ∃ w, c.wafer? t = some w ∧ w.lot = i
  · obtain ⟨w, wafer, lot⟩ := own
    rw [abortWafer_own wafer lot]
    exact (outcomeAborted_kept wafer).trans (skipPending_kept _ _ _).1
  · rw [abortWafer_other fun w wafer lot => own ⟨w, wafer, lot⟩]
    exact .refl c

/-- The records of the other wafers stay. -/
theorem abortWafer_others (i : LoadPort) (c : Part) {t u : Nat} (differ : u ≠ t) :
    (abortWafer i c t).wafer? u = c.wafer? u ∧
    ∀ k, ((abortWafer i c t).lock k).reservation = some ⟨u, .inbound⟩ ↔ (c.lock k).reservation = some ⟨u, .inbound⟩ := by
  by_cases own : ∃ w, c.wafer? t = some w ∧ w.lot = i
  · obtain ⟨w, wafer, lot⟩ := own
    obtain ⟨_, _, _, others, reserved⟩ := outcomeAborted_spec wafer
    obtain ⟨wafers, locks⟩ := skipPending_records w.lot w.slot .aborted (c.outcomeAborted t w)
    rw [abortWafer_own wafer lot]
    refine ⟨(wafers u).trans (others u differ), fun k => ?_⟩
    rw [locks, reserved]
    exact and_iff_left fun ⟨same, _⟩ => differ same
  · rw [abortWafer_other fun w wafer lot => own ⟨w, wafer, lot⟩]
    exact ⟨rfl, fun _ => .rfl⟩

/-- What the abort has made of a wafer of the lot, of its reservation and of its list. -/
structure WaferAborted (i : LoadPort) (t : Nat) (w : Wafer) (c d : Part) : Prop where
  inbound  : w.Inbound → d.wafer? t = some { w with outcome := some .aborted }
  outbound : ¬ w.Inbound → d.wafer? t = some w
  reserved : ∀ k, (d.lock k).reservation = some ⟨t, .inbound⟩ ↔
    (c.lock k).reservation = some ⟨t, .inbound⟩ ∧ ¬ (w.Inbound ∧ ¬ c.Placing t)
  pending  : d.NonePending i w.slot

theorem abortWafer_aborts {i : LoadPort} {c : Part} {t : Nat} {w : Wafer} (wafer : c.wafer? t = some w) (own : w.lot = i) :
    WaferAborted i t w c (abortWafer i c t) := by
  obtain ⟨_, inbound, outbound, _, reserved⟩ := outcomeAborted_spec wafer
  obtain ⟨wafers, locks⟩ := skipPending_records w.lot w.slot .aborted (c.outcomeAborted t w)
  rw [abortWafer_own wafer own]
  refine ⟨fun h => (wafers t).trans (inbound h), fun h => (wafers t).trans (outbound h), fun k => ?_, ?_⟩
  · rw [locks, reserved]
    simp only [true_and]
  · rw [← own]
    exact (skipPending_kept _ _ _).2

theorem placing_congr {c d : Part} (orders : d.orders = c.orders) (t : Nat) : d.Placing t ↔ c.Placing t := by
  unfold Part.Placing Part.slotOf
  rw [orders]

/-! ### All of them -/

/-- The part once every wafer of the lot has been reached. -/
def abortAll (i : LoadPort) (c : Part) : Part := allTags.foldl (abortWafer i) c

theorem abortAll_kept (i : LoadPort) (c : Part) : AbortKept c (abortAll i c) :=
  foldl_inv (abortWafer i) (AbortKept c) (fun d t before => before.trans (abortWafer_kept i d t)) allTags c (.refl c)

theorem abortAll_other {i : LoadPort} {c : Part} {t : Nat} {w : Wafer} (wafer : c.wafer? t = some w) (other : w.lot ≠ i) :
    (abortAll i c).wafer? t = some w := by
  refine foldl_inv (abortWafer i) (fun d => d.wafer? t = some w) (fun d u before => ?_) allTags c wafer
  by_cases same : t = u
  · subst same
    rw [abortWafer_other fun x there => Option.some.inj (before.symm.trans there) ▸ other]
    exact before
  · exact (abortWafer_others i d same).1.trans before

/-- The wafer `w` as the abort finds it in `c`. -/
structure Unreached (t : Nat) (w : Wafer) (c d : Part) : Prop where
  orders   : d.orders = c.orders
  wafer    : d.wafer? t = some w
  reserved : ∀ k, (d.lock k).reservation = some ⟨t, .inbound⟩ ↔ (c.lock k).reservation = some ⟨t, .inbound⟩

theorem abortAll_aborts {i : LoadPort} {c : Part} {t : Nat} {w : Wafer} (tag : t ∈ allTags) (wafer : c.wafer? t = some w)
    (own : w.lot = i) : WaferAborted i t w c (abortAll i c) := by
  refine foldl_at (abortWafer i) t (Unreached t w c) (WaferAborted i t w c) (fun d u other before => ?_) (fun d before => ?_)
    (fun d u other after => ?_) allTags (by decide) tag c ⟨rfl, wafer, fun _ => .rfl⟩
  · obtain ⟨same, reserved⟩ := abortWafer_others i d other.symm
    exact ⟨(abortWafer_kept i d u).orders.trans before.orders, same.trans before.wafer,
      fun k => (reserved k).trans (before.reserved k)⟩
  · have aborts := abortWafer_aborts before.wafer own
    refine ⟨aborts.inbound, aborts.outbound, fun k => ?_, aborts.pending⟩
    rw [aborts.reserved, before.reserved, placing_congr before.orders]
  · obtain ⟨same, reserved⟩ := abortWafer_others i d other.symm
    exact ⟨fun h => same.trans (after.inbound h), fun h => same.trans (after.outbound h),
      fun k => (reserved k).trans (after.reserved k), (abortWafer_kept i d u).nonePending after.pending⟩

/-- The lot and the slot of a wafer record stay. -/
theorem WaferAborted.record {i : LoadPort} {t : Nat} {w : Wafer} {c d : Part} (h : WaferAborted i t w c d) :
    ∃ x, d.wafer? t = some x ∧ x.lot = w.lot ∧ x.slot = w.slot := by
  by_cases inbound : w.Inbound
  · exact ⟨_, h.inbound inbound, rfl, rfl⟩
  · exact ⟨_, h.outbound inbound, rfl, rfl⟩

/-! ### Reservations -/

theorem reservedFor_congr {c d : Part} {t : Nat} {p : Purpose}
    (same : ∀ k, (d.lock k).reservation = some ⟨t, p⟩ ↔ (c.lock k).reservation = some ⟨t, p⟩) :
    d.reservedFor t p = c.reservedFor t p := by
  have tests : (fun k => (d.lock k).reservation == some ⟨t, p⟩) = fun k => (c.lock k).reservation == some ⟨t, p⟩ :=
    funext fun k => by rw [Bool.eq_iff_iff, beq_iff_eq, beq_iff_eq, same]
  exact congrArg (bothLocks.find? ·) tests

theorem WaferAborted.freed {i : LoadPort} {t : Nat} {w : Wafer} {c d : Part} (h : WaferAborted i t w c d)
    (inbound : w.Inbound) (not_placing : ¬ c.Placing t) : d.reservedFor t .inbound = none :=
  (reservedFor_none d t .inbound).mpr fun k held => ((h.reserved k).mp held).2 ⟨inbound, not_placing⟩

theorem WaferAborted.still_reserved {i : LoadPort} {t : Nat} {w : Wafer} {c d : Part} (h : WaferAborted i t w c d)
    (stays : ¬ w.Inbound ∨ c.Placing t) : d.reservedFor t .inbound = c.reservedFor t .inbound :=
  reservedFor_congr fun k => (h.reserved k).trans (and_iff_left fun ⟨inbound, not_placing⟩ =>
    stays.elim (fun no => no inbound) not_placing)

end Sys2Proof.Machine
end

section
/-! The session of an aborted lot's wafer (R87, R88), and O31. -/

namespace Sys2Proof.Machine

/-! ### What the abort of a session leaves alone -/

/-- Besides the session's wafer `t` no wafer record changes, no lock does, and no site becomes PENDING. -/
structure SessionFrame (t : Nat) (c d : Part) : Prop where
  wafers  : ∀ u, u ≠ t → d.wafer? u = c.wafer? u
  locks   : ∀ k, d.lock k = c.lock k
  pending : ∀ i slot, c.NonePending i slot → d.NonePending i slot

theorem SessionFrame.trans {t : Nat} {a b c : Part} (h : SessionFrame t a b) (k : SessionFrame t b c) : SessionFrame t a c where
  wafers u other := (k.wafers u other).trans (h.wafers u other)
  locks j := (k.locks j).trans (h.locks j)
  pending i slot none_pends := k.pending i slot (h.pending i slot none_pends)

theorem SessionFrame.refl (t : Nat) (c : Part) : SessionFrame t c c := ⟨fun _ _ => rfl, fun _ => rfl, fun _ _ => id⟩

theorem nonePending_congr {c d : Part} (lists : d.lists = c.lists) {i : LoadPort} {slot : Nat} (h : c.NonePending i slot) :
    d.NonePending i slot := by
  intro e member
  refine h e ?_
  unfold Part.entries Part.list? at member ⊢
  rwa [lists] at member

/-- A step that changes lists, lots and counts, and turns no entry PENDING. -/
theorem SessionFrame.of_lists {t : Nat} {c d : Part} (wafers : d.wafers = c.wafers) (locks : ∀ k, d.lock k = c.lock k)
    (pending : ∀ i slot, c.NonePending i slot → d.NonePending i slot) : SessionFrame t c d :=
  ⟨fun u _ => by unfold Part.wafer?; rw [wafers], locks, pending⟩

theorem updateEntry_pending (i : LoadPort) (slot n : Nat) {f : SiteEntry → SiteEntry} (c : Part)
    (turned : ∀ e, (f e).state ≠ .pending) (j : LoadPort) (k : Nat) (h : c.NonePending j k) :
    (updateEntry i slot n f c).NonePending j k := by
  intro e member
  have read := updateList_list c i j slot k (fun l => { l with
    entries := l.entries.map (fun e => if e.number == n then f e else e) }) fun _ => ⟨rfl, rfl⟩
  rw [updateEntry, entries_eq, read] at member
  cases list : c.list? j k with
  | none => rw [list] at member; cases member
  | some r =>
    have before : ∀ e ∈ r.entries, e.state ≠ .pending := fun e listed => h e (entries_list list ▸ listed)
    rw [list, Option.map_some, Option.map_some, Option.getD_some] at member
    split at member
    · obtain ⟨x, listed, rfl⟩ := List.mem_map.mp member
      split
      · exact turned x
      · exact before x listed
    · exact before e member

theorem updateSite_frame (t u n : Nat) {f : SiteEntry → SiteEntry} (c : Part) (turned : ∀ e, (f e).state ≠ .pending) :
    SessionFrame t c (updateSite u n f c) := by
  refine .of_lists (by rw [updateSite_rest]) (fun k => by rw [updateSite_rest]; cases k <;> rfl) fun i slot h => ?_
  unfold updateSite
  split
  · exact h
  · exact updateEntry_pending _ _ _ c turned i slot h

theorem skipped_not_classified (why : Reason) : ∀ cls conf, Resolution.skipped why ≠ .classified cls conf :=
  fun _ _ same => Resolution.noConfusion same

theorem skipSite_frame (t u n : Nat) (why : Reason) (c : Part) : SessionFrame t c (resolveSite u n (.skipped why) c) := by
  unfold resolveSite
  split
  · exact .refl t c
  · rename_i i slot e _
    have counted := countResolution_rest i slot (.skipped why) (updateEntry i slot n (resolveEntry (.skipped why)) c)
      (skipped_not_classified why)
    refine .of_lists (by rw [counted]; rfl) (fun k => by rw [counted]; cases k <;> rfl) fun j k h => ?_
    exact nonePending_congr (by rw [counted])
      (updateEntry_pending i slot n c (fun _ pending => SiteState.noConfusion pending) j k h)

theorem sessionEnd_frame {t : Nat} {c : Part} (session : c.session.wafer = some t) : SessionFrame t c (sessionEnd c) := by
  cases wafer : c.wafer? t with
  | none =>
    have ended : sessionEnd c = { raiseEvent .image .session (focusSessionEnd c) with
        session := ⟨.idle, none, none, .forward, none, none⟩ } := by
      simp only [sessionEnd, session, wafer]
    rw [ended]
    exact .of_lists rfl (fun k => by cases k <;> rfl) fun _ _ => nonePending_congr rfl
  | some w =>
    obtain ⟨⟨_, _, _, _, _, wafers⟩, lists⟩ := sessionEnd_ended session wafer
    refine ⟨fun u other => ?_, fun k => ?_, fun _ _ => nonePending_congr lists⟩
    · have same := updateWafer_other (c := c) (fun w => { w with
        phase := .reviewed, outcome := some (c.sessionResult (sessionEnd c) w) }) other
      rw [updateWafer_some c t w _ wafer] at same
      rw [← same, Part.wafer?, wafers]
      rfl
    · rw [sessionEnd_spec c t w session wafer]
      cases k <;> rfl

theorem takeFirst_frame (t : Nat) (bound : Option Nat) (ks : List Candidate) :
    ∀ c, c.session.wafer = some t → SessionFrame t c (takeFirst t bound ks c) := by
  induction ks with
  | nil => exact fun c session => sessionEnd_frame session
  | cons k rest ih =>
    intro c session
    have taken : SessionFrame t c (takeSite t k c) := (updateSite_frame t t k.entry.number c
      fun _ pending => SiteState.noConfusion pending).trans (.of_lists rfl (fun k => by cases k <;> rfl) fun _ _ => nonePending_congr rfl)
    unfold takeFirst
    split
    · exact taken
    · split
      · exact (skipSite_frame t t _ _ c).trans
          (ih _ (by rw [resolveSite_session _ _ _ _ (skipped_not_classified _)]; exact session))
      · exact taken

theorem walk_frame {t : Nat} {c : Part} (session : c.session.wafer = some t) : SessionFrame t c (walk c) := by
  cases wafer : c.wafer? t with
  | none =>
    have stays : walk c = c := by simp only [walk, session, wafer]
    rw [stays]
    exact .refl t c
  | some w =>
    rw [walk_eq session wafer]
    exact takeFirst_frame t _ _ c session

theorem leaveFlight_frame {t : Nat} {c : Part} (session : c.session.wafer = some t) : SessionFrame t c (leaveFlight c) := by
  have landed : SessionFrame t c { c with session := { c.session with inFlight := none } } :=
    .of_lists rfl (fun k => by cases k <;> rfl) fun _ _ => nonePending_congr rfl
  rw [leaveFlight_landed rfl]
  split
  · exact landed.trans (walk_frame session)
  · exact landed.trans (.of_lists rfl (fun k => by cases k <;> rfl) fun _ _ => nonePending_congr rfl)
  · exact landed

/-- A site in flight is skipped and has left flight. -/
theorem skipped_frame {t n : Nat} {c : Part} (session : c.session.wafer = some t) :
    SessionFrame t c (leaveFlight (resolveSite t n (.skipped .aborted) c)) :=
  (skipSite_frame t t n .aborted c).trans
    (leaveFlight_frame (by rw [resolveSite_session _ _ _ _ (skipped_not_classified _)]; exact session))

theorem abortSession_frame {t : Nat} {c : Part} (session : c.session.wafer = some t) :
    SessionFrame t c (abortSession c) := by
  have same {d : Part} (wafers : d.wafers = c.wafers) (locks : ∀ k, d.lock k = c.lock k) (lists : d.lists = c.lists) :
      SessionFrame t c d := .of_lists wafers locks fun _ _ => nonePending_congr lists
  have active : SessionFrame t c (setSessionState .active c) := same rfl (fun k => by cases k <;> rfl) rfl
  unfold abortSession
  dsimp only
  split
  · rename_i u n wafer _
    obtain rfl : t = u := Option.some.inj (session.symm.trans wafer)
    split
    · exact active.trans (skipped_frame session)
    · exact (same rfl (fun k => by cases k <;> rfl) rfl : SessionFrame t c (abandonFocus (setSessionState .active c))).trans
        (skipped_frame session)
    · exact (same rfl (fun k => by cases k <;> rfl) rfl : SessionFrame t c (withdrawWaiting (setSessionState .active c))).trans
        (skipped_frame session)
    · exact active
  · exact active.trans (walk_frame session)

/-! ### How the session ends (R87, R88) -/

/-- The session of wafer `t` has ended with outcome ABORTED. -/
def EndedAborted (t : Nat) (d : Part) : Prop :=
  d.session = ⟨.idle, none, none, .forward, none, none⟩ ∧
    ∃ x, d.wafer? t = some x ∧ x.outcome = some .aborted ∧ x.phase = .reviewed

theorem walk_nothing {c : Part} {t : Nat} {w : Wafer} (session : c.session.wafer = some t) (wafer : c.wafer? t = some w)
    (nothing : c.NonePending w.lot w.slot) : walk c = sessionEnd c := by
  have empty : walkOrder c.session (c.entries w.lot w.slot) = [] := by
    refine List.eq_nil_iff_forall_not_mem.mpr fun k member => ?_
    obtain ⟨pending, _, _, listed, _⟩ := walkOrder_entered member
    exact nothing k.entry (List.mem_of_getElem? listed) pending
  rw [walk_eq session wafer, empty, takeFirst_nil]

theorem sessionEnd_aborted {c : Part} {t : Nat} {w : Wafer} (session : c.session.wafer = some t)
    (wafer : c.wafer? t = some w) (aborted : c.lotAborted w.lot = true) : EndedAborted t (sessionEnd c) := by
  obtain ⟨⟨idle, _, _, _, _, wafers⟩, _⟩ := sessionEnd_ended session wafer
  refine ⟨idle, _, wafer?_set c _ t w _ wafer wafers, ?_, rfl⟩
  exact congrArg some (if_pos aborted)

/-- The part with no site in flight. -/
def Part.landed (c : Part) : Part := { c with session := { c.session with inFlight := none } }

section
variable {c : Part} {t n : Nat} {w : Wafer} {e : SiteEntry} (session : c.session.wafer = some t)
  (wafer : c.wafer? t = some w) (aborted : c.lotAborted w.lot = true) (nothing : c.NonePending w.lot w.slot)
include session wafer aborted nothing

theorem walk_aborted : EndedAborted t (walk c) := by
  rw [walk_nothing session wafer nothing]
  exact sessionEnd_aborted session wafer aborted

/-- The site in flight is skipped and the session ends. -/
theorem skipped_ends (inflight : c.session.inFlight = some n) (active : c.session.state = .active)
    (site : c.site? t n = some (w.lot, w.slot, e)) :
    let d := leaveFlight (resolveSite t n (.skipped .aborted) c)
    EndedAborted t d ∧ d.site? t n = some (w.lot, w.slot, resolveEntry (.skipped .aborted) e) ∧
      d.focusRequest = c.focusRequest ∧ d.converter = c.converter ∧ d.waitingSite = c.waitingSite := by
  obtain ⟨rest, found, _, lots⟩ := resolveSite_skipped c t n w e .aborted wafer site
  have frame := skipSite_frame t t n .aborted c
  have kept := resolveSite_session t n (.skipped .aborted) c (skipped_not_classified _)
  dsimp only
  generalize resolveSite t n (.skipped .aborted) c = y at rest found lots frame kept ⊢
  have wafer' : y.wafer? t = some w := by rw [rest]; exact wafer
  have nothing' := frame.pending w.lot w.slot nothing
  have session' : y.session.wafer = some t := by rw [kept]; exact session
  have inflight' : y.session.inFlight = some n := by rw [kept]; exact inflight
  have active' : y.session.state = .active := by rw [kept]; exact active
  have left : leaveFlight y = sessionEnd y.landed := by
    rw [((leaveFlight_leaves t n y session' inflight').2 session' inflight').1 active']
    exact walk_nothing (c := y.landed) session' wafer' nothing'
  rw [left]
  refine ⟨sessionEnd_aborted (c := y.landed) session' wafer' ((lots w.lot).trans aborted),
    (sessionEnd_site (c := y.landed) session' wafer' n).trans found, ?_⟩
  rw [sessionEnd_spec y.landed t w session' wafer', Part.landed, rest]
  exact ⟨rfl, rfl, rfl⟩

end

end Sys2Proof.Machine
end

section
/-! O31. -/

namespace Sys2Proof.Machine

/-! ### The session after the abort of the wafers -/

theorem abortSession_empty {c : Part} (absent : c.session.inFlight = none) :
    abortSession c = walk (setSessionState .active c) := by
  unfold abortSession
  dsimp only
  split
  · rename_i inflight
    exact absurd (absent.symm.trans inflight) (Option.some_ne_none _).symm
  · rfl

section
variable {c : Part} {t n slot : Nat} {i : LoadPort} {e : SiteEntry} (session : c.session.wafer = some t)
  (inflight : c.session.inFlight = some n) (site : c.site? t n = some (i, slot, e))
include session inflight site

theorem abortSession_flying :
    (e.state = .moving → abortSession c =
      leaveFlight (resolveSite t n (.skipped .aborted) (setSessionState .active c))) ∧
    (e.state = .focusing → abortSession c =
      leaveFlight (resolveSite t n (.skipped .aborted) (abandonFocus (setSessionState .active c)))) ∧
    (e.state = .captureWait → abortSession c =
      leaveFlight (resolveSite t n (.skipped .aborted) (withdrawWaiting (setSessionState .active c)))) ∧
    (e.state = .capturing → abortSession c = setSessionState .active c) := by
  have flying : (setSessionState .active c).inFlightState = some e.state :=
    inFlightState_some (c := setSessionState .active c) session inflight site
  have session' : (setSessionState .active c).session.wafer = some t := session
  have inflight' : (setSessionState .active c).session.inFlight = some n := inflight
  refine ⟨fun state => ?_, fun state => ?_, fun state => ?_, fun state => ?_⟩
  all_goals simp only [abortSession, session', inflight', flying, state]

end

theorem abortWafers_eq (i : LoadPort) (c : Part) : abortWafers i c =
    if (abortAll i c).sessionLot = some i ∧ (abortAll i c).session.state ≠ .idle then abortSession (abortAll i c)
    else abortAll i c := by
  unfold abortWafers abortAll
  generalize allTags.foldl (abortWafer i) c = m
  rfl

theorem sessionLot_some {c : Part} {i : LoadPort} (lot : c.sessionLot = some i) :
    ∃ t w, c.session.wafer = some t ∧ c.wafer? t = some w ∧ w.lot = i := by
  unfold Part.sessionLot at lot
  split at lot
  · cases lot
  · rename_i t session
    obtain ⟨w, wafer, own⟩ := Option.map_eq_some_iff.mp lot
    exact ⟨t, w, session, wafer, own⟩

/-- The abort of the session changes the session's wafer alone. -/
theorem abortWafers_frame (i : LoadPort) (c : Part) : abortWafers i c = abortAll i c ∨
    ∃ t w, (abortAll i c).session.wafer = some t ∧ (abortAll i c).wafer? t = some w ∧ w.lot = i ∧
      (abortAll i c).session.state ≠ .idle ∧ SessionFrame t (abortAll i c) (abortWafers i c) := by
  rw [abortWafers_eq]
  split
  · rename_i reached
    obtain ⟨t, w, session, wafer, own⟩ := sessionLot_some reached.1
    exact .inr ⟨t, w, session, wafer, own, reached.2, abortSession_frame session⟩
  · exact .inl rfl

theorem abortWafers_other {i : LoadPort} {c : Part} {t : Nat} {w : Wafer} (wafer : c.wafer? t = some w) (other : w.lot ≠ i) :
    (abortWafers i c).wafer? t = some w := by
  have kept := abortAll_other wafer other
  rcases abortWafers_frame i c with same | ⟨s, x, _, owned, own, _, frame⟩
  · rw [same]
    exact kept
  · refine (frame.wafers t fun same => ?_).trans kept
    rw [same, owned] at kept
    exact other (Option.some.inj kept ▸ own)

/-- What the abort has made of a wafer of the lot: its sites, its outcome, its reservation. -/
theorem abortWafers_own {i : LoadPort} {c : Part} {t : Nat} {w : Wafer} (tag : t ∈ allTags) (wafer : c.wafer? t = some w)
    (own : w.lot = i) :
    let d := abortWafers i c
    d.NonePending i w.slot ∧
    (c.session.wafer ≠ some t ∨ c.session.state = .idle →
      (w.Inbound → d.wafer? t = some { w with outcome := some .aborted }) ∧ (¬ w.Inbound → d.wafer? t = some w)) ∧
    (w.Inbound → ¬ c.Placing t → d.reservedFor t .inbound = none) ∧
    (¬ w.Inbound ∨ c.Placing t → d.reservedFor t .inbound = c.reservedFor t .inbound) := by
  have aborts := abortAll_aborts tag wafer own
  have session := (abortAll_kept i c).session
  dsimp only
  rcases abortWafers_frame i c with same | ⟨s, x, at_stage, _, _, busy, frame⟩
  · rw [same]
    exact ⟨aborts.pending, fun _ => ⟨aborts.inbound, aborts.outbound⟩, aborts.freed, aborts.still_reserved⟩
  · have reserved : (abortWafers i c).reservedFor t .inbound = (abortAll i c).reservedFor t .inbound :=
      reservedFor_congr fun k => by rw [frame.locks]
    rw [reserved]
    refine ⟨frame.pending i w.slot aborts.pending, fun elsewhere => ?_, aborts.freed, aborts.still_reserved⟩
    have differ : t ≠ s := fun same => by
      rw [session] at at_stage busy
      exact elsewhere.elim (fun other => other (same ▸ at_stage)) busy
    rw [frame.wafers t differ]
    exact ⟨aborts.inbound, aborts.outbound⟩

/-- How the session of the lot's wafer ends, by the state of its site in flight. -/
theorem abortWafers_session {i : LoadPort} {c : Part} {l : Lot} {t : Nat} {w : Wafer} (lot : c.lot? i = some l)
    (aborted : l.aborted = true) (tag : t ∈ allTags) (session : c.session.wafer = some t) (wafer : c.wafer? t = some w)
    (own : w.lot = i) (busy : c.session.state ≠ .idle) :
    let d := abortWafers i c
    (c.session.inFlight = none → EndedAborted t d) ∧
    ∀ n slot e, c.session.inFlight = some n → c.site? t n = some (i, slot, e) →
      let skipped := d.site? t n = some (i, slot, resolveEntry (.skipped .aborted) e)
      (e.state = .moving → EndedAborted t d ∧ skipped) ∧
      (e.state = .focusing → EndedAborted t d ∧ skipped ∧ d.focusRequest = none ∧ d.converter = .idle) ∧
      (e.state = .captureWait → EndedAborted t d ∧ skipped ∧ d.waitingSite = none) ∧
      (e.state = .capturing →
        d.session = { c.session with state := .active } ∧ d.site? t n = some (i, slot, e)) := by
  have kept := abortAll_kept i c
  have aborts := abortAll_aborts tag wafer own
  obtain ⟨x, wafer', lot', slot'⟩ := aborts.record
  have lot_aborted : (abortAll i c).lotAborted x.lot = true := by
    rw [kept.aborted, lot', own, lotAborted_lot lot, aborted]
  have nothing : (abortAll i c).NonePending x.lot x.slot := by
    rw [lot', own, slot']
    exact aborts.pending
  have reached : abortWafers i c = abortSession (abortAll i c) := by
    refine (abortWafers_eq i c).trans (if_pos ⟨?_, kept.session ▸ busy⟩)
    unfold Part.sessionLot
    rw [kept.session, session]
    dsimp only
    rw [wafer', Option.map_some, lot', own]
  have site_kept (n slot : Nat) (e : SiteEntry) (site : c.site? t n = some (i, slot, e)) (resolved : e.state ≠ .pending) :
      (abortAll i c).site? t n = some (i, slot, e) := kept.site? wafer wafer' lot' slot' site resolved
  have session' : (abortAll i c).session.wafer = some t := by rw [kept.session, session]
  dsimp only
  rw [reached]
  rw [← kept.session]
  generalize abortAll i c = m at wafer' lot_aborted nothing site_kept session' ⊢
  subst own
  refine ⟨fun absent => ?_, fun n slot e inflight site => ?_⟩
  · rw [abortSession_empty absent]
    exact walk_aborted (c := setSessionState .active m) session' wafer' lot_aborted nothing
  · obtain ⟨_, there, _, at_slot, _, _⟩ := site?_some c t n w.lot slot e site
    obtain rfl := Option.some.inj (wafer.symm.trans there)
    have mine (resolved : e.state ≠ .pending) : m.site? t n = some (x.lot, x.slot, e) := by
      rw [lot', slot', at_slot]
      exact site_kept n slot e site resolved
    have ends (z : Part) (same : z.session = { m.session with state := .active } ∧ z.wafers = m.wafers ∧ z.lots = m.lots ∧
        z.lists = m.lists) (resolved : e.state ≠ .pending) :
        let d := leaveFlight (resolveSite t n (.skipped .aborted) z)
        EndedAborted t d ∧ d.site? t n = some (w.lot, slot, resolveEntry (.skipped .aborted) e) ∧
          d.focusRequest = z.focusRequest ∧ d.converter = z.converter ∧ d.waitingSite = z.waitingSite := by
      obtain ⟨session, wafers, lots, lists⟩ := same
      have site' : z.site? t n = some (x.lot, x.slot, e) := (site?_congr z m wafers lists t n).trans (mine resolved)
      have ended := skipped_ends (c := z) (by rw [session]; exact session') (by rw [Part.wafer?, wafers]; exact wafer')
        ((lotAborted_congr lots x.lot).trans lot_aborted) (nonePending_congr lists nothing)
        (by rw [session]; exact inflight) (by rw [session]) site'
      rw [← lot', ← at_slot, ← slot']
      exact ended
    refine ⟨fun state => ?_, fun state => ?_, fun state => ?_, fun state => ?_⟩
    all_goals
      have resolved : e.state ≠ .pending := by rw [state]; decide
      obtain ⟨moving, focusing, waiting, capturing⟩ := abortSession_flying session' inflight (mine resolved)
    · rw [moving state]
      obtain ⟨ended, skipped, _⟩ := ends (setSessionState .active m) ⟨rfl, rfl, rfl, rfl⟩ resolved
      exact ⟨ended, skipped⟩
    · rw [focusing state]
      obtain ⟨ended, skipped, request, converter, _⟩ :=
        ends (abandonFocus (setSessionState .active m)) ⟨rfl, rfl, rfl, rfl⟩ resolved
      exact ⟨ended, skipped, request, converter⟩
    · rw [waiting state]
      obtain ⟨ended, skipped, _, _, withdrawn⟩ :=
        ends (withdrawWaiting (setSessionState .active m)) ⟨rfl, rfl, rfl, rfl⟩ resolved
      exact ⟨ended, skipped, withdrawn⟩
    · rw [capturing state]
      exact ⟨rfl, site_kept n slot e site resolved⟩

/-! ### The obligation -/

theorem redirect_spec {c : Part} {t : Nat} {w : Wafer} (wafer : c.wafer? t = some w) :
    let freed (k : Lock) : Lock :=
      { k with reservation := if k.reservation = some ⟨t, .inbound⟩ then none else k.reservation }
    let free := c.lotAborted w.lot = true ∧ ¬ Named c t
    (∀ p, free → TurnsBack c w p → redirect c t = { c with
      wafers := c.wafers.set t (some { w with phase := p }), lockA := freed c.lockA, lockB := freed c.lockB }) ∧
    (¬ (free ∧ ∃ p, TurnsBack c w p) → redirect c t = c) ∧
    (∀ p, t ∈ allTags → free → TurnsBack c w p → p ≠ .home →
      (settleLots c).wafer? t = some { w with phase := p } ∧ (settleLots c).reservedFor t .inbound = none) := by
  obtain ⟨turns, stays⟩ := redirect_eq c t w wafer
  refine ⟨turns, stays, fun p tag free back away => ?_⟩
  obtain ⟨turned, unreserved⟩ := settleLots_turned tag away ⟨wafer, free.1, free.2, back⟩
  exact ⟨turned, (reservedFor_none _ t .inbound).mpr unreserved⟩

/-- Settles O31: the request, the wafers that turn back, then the lot's wafers and its session. -/
theorem lotAborts : Obligations.LotAborts := by
  refine ⟨fun s p tag id now => ?_, fun c t w wafer => redirect_spec wafer, fun c i l lot aborted => ?_⟩
  · intro out answer
    have answers {c : Part} {st : Status} (h : doLotAbort id s.part = ⟨c, st, .empty⟩) :
        out = .next (answered s p 9#8 tag c st .empty) := exec_answers (r := .lotAbort id) now h
    refine ⟨fun missing => answers (doLotAbort_missing missing), fun i l named => ?_⟩
    refine ⟨fun state => answers (doLotAbort_defined named state), fun state => answers (doLotAbort_running named state),
      fun state again => answers (doLotAbort_again named state again),
      fun state live => answers (doLotAbort_draining named state live), fun late => answers (doLotAbort_late named late)⟩
  · refine ⟨fun t w => abortWafers_other, fun t w tag wafer own => abortWafers_own tag wafer own,
      fun t w tag session wafer own busy => abortWafers_session lot aborted tag session wafer own busy⟩

end Sys2Proof.Machine
end
